-- ==== Sys2Proof/Word.lean ====
section
/-! DEFINITION. The words of DRA: 32-bit words, bytes, and the low-level conversions every other file uses
(00_scope.md rule R11: bit 0 is the least significant bit, every value is unsigned). -/

namespace Sys2Proof

/-- A 32-bit word: an address, a descriptor word, a register, a command word (R9 `P_ADDR_W`, R11). -/
abbrev Word := BitVec 32

/-- One byte of memory or of a frame (20_memory.md rule R70). -/
abbrev Byte := BitVec 8

/-- A natural number as a word; every quantity DRA writes into a word is in range (20_memory.md rule R96). -/
abbrev word (n : Nat) : Word := BitVec.ofNat 32 n

/-- One bit as a word, at bit 0. -/
def bitWord (b : Bool) : Word := if b then 1 else 0

end Sys2Proof
end

