-- ==== Sys2Proof/Syntax.lean ====
section
/-! DEFINITION. The commands of DRA: one constructor per row of the opcode table (30_encoding.md rule R112).

An immediate is an unsigned number (R113), so it is a natural number here; `WellFormed` says that it fits its 24 bits.
The operand of format A is the register `A0`, not part of the command word (R111). -/

namespace Sys2Proof

/-- The command set of DRA, version 1 (R112). -/
inductive Instr where
  /-- `BUF_NEW cap` (R151). -/
  | bufNew (cap : Nat)
  /-- `BUF_SETLEN len`, Buffer in `A0` (R154). -/
  | bufSetlen (len : Nat)
  /-- `BUF_INFO`, Buffer in `A0` (R157). -/
  | bufInfo
  /-- `BUF_FREE`, Buffer in `A0` (R160). -/
  | bufFree
  /-- `RX_NEW size` (R171). -/
  | rxNew (size : Nat)
  /-- `RX_START n` (R173). -/
  | rxStart (n : Nat)
  /-- `RX_POLL` (R179). -/
  | rxPoll
  /-- `RX_STATE` (R180). -/
  | rxState
  /-- `RX_RECV` (R182). -/
  | rxRecv
  /-- `TX_NEW` (R201). -/
  | txNew
  /-- `TX_START` (R203). -/
  | txStart
  /-- `TX_SEND`, Buffer in `A0` (R210). -/
  | txSend
  /-- `TX_STATE` (R217). -/
  | txState
  /-- `TX_POLL` (R219). -/
  | txPoll
  /-- `TX_QLEN` (R220). -/
  | txQlen
  /-- `TX_REAP` (R221). -/
  | txReap
  /-- `ETH_NEW n` (R230). -/
  | ethNew (n : Nat)
  /-- `DMA_RESET` (R232). -/
  | dmaReset
  /-- `ETH_INIT` (R234). -/
  | ethInit
  /-- `IRQ_ENABLE` (R237). -/
  | irqEnable
  /-- `IRQ_ACK` (R238). -/
  | irqAck
  /-- `PHY_STATUS` (R240). -/
  | phyStatus
  /-- `ETH_SEND`, Buffer in `A0` (R242). -/
  | ethSend
  deriving DecidableEq, Repr

end Sys2Proof
end

