-- ==== Sys2Proof/WellFormed.lean ====
section
/-! DEFINITION. Which terms of `Instr` are commands: an immediate is an unsigned 24-bit number (30_encoding.md rules
R110, R111 and R113). A value outside a command's own legal range is no matter of well-formedness: the command decodes
and answers `BAD_RANGE` or `BAD_LENGTH` (R113). -/

namespace Sys2Proof

/-- An immediate fits the field `w[23:0]` (R110). -/
def immFits (imm : Nat) : Bool := decide (imm < 2 ^ 24)

/-- A well-formed command: one arm per constructor, so that a new command cannot slip past. -/
def Instr.wf : Instr → Bool
  | .bufNew cap => immFits cap
  | .bufSetlen len => immFits len
  | .bufInfo => true
  | .bufFree => true
  | .rxNew size => immFits size
  | .rxStart n => immFits n
  | .rxPoll => true
  | .rxState => true
  | .rxRecv => true
  | .txNew => true
  | .txStart => true
  | .txSend => true
  | .txState => true
  | .txPoll => true
  | .txQlen => true
  | .txReap => true
  | .ethNew n => immFits n
  | .dmaReset => true
  | .ethInit => true
  | .irqEnable => true
  | .irqAck => true
  | .phyStatus => true
  | .ethSend => true

end Sys2Proof
end

