-- ==== Sys2Proof/Decode.lean ====
section
/-! DEFINITION. Decoding and encoding of the 32-bit command word (30_encoding.md rules R110 to R119 and R133).

A command word does not live in memory: HOST writes it whole to `CMD` (10_state.md rule R22), so the decoder takes a
word, and there is no byte order to settle. Decoding is total; a word that is no command is rejected by name. -/

namespace Sys2Proof

/-- Why a word is illegal (R118). -/
inductive DecodeError where
  /-- `w[31:24]` is none of the 23 `op` values of R112. -/
  | unassignedOp (op : Nat)
  /-- The row's format is N, or A other than `BUF_SETLEN`, and `w[23:0]` is not 0. -/
  | nonzeroImm (op : Nat) (imm : Nat)
  deriving DecidableEq, Repr

/-- The field `op = w[31:24]` (R110). -/
def opField (w : Word) : Nat := w.toNat / 2 ^ 24

/-- The field `imm = w[23:0]`, zero-extended (R110, R113). -/
def immField (w : Word) : Nat := w.toNat % 2 ^ 24

/-- A row whose `w[23:0]` must be 0 (formats N and A without immediate: R111). -/
def fixedRow (op imm : Nat) (i : Instr) : Except DecodeError Instr :=
  if imm = 0 then .ok i else .error (.nonzeroImm op imm)

/-- The rows of R112 by `op`, then the format's check (R133). -/
def decodeFields (op imm : Nat) : Except DecodeError Instr :=
  match op with
  | 0x01 => .ok (.bufNew imm)
  | 0x02 => .ok (.bufSetlen imm)
  | 0x03 => fixedRow op imm .bufInfo
  | 0x04 => fixedRow op imm .bufFree
  | 0x10 => .ok (.rxNew imm)
  | 0x11 => .ok (.rxStart imm)
  | 0x12 => fixedRow op imm .rxPoll
  | 0x13 => fixedRow op imm .rxState
  | 0x14 => fixedRow op imm .rxRecv
  | 0x20 => fixedRow op imm .txNew
  | 0x21 => fixedRow op imm .txStart
  | 0x22 => fixedRow op imm .txSend
  | 0x23 => fixedRow op imm .txState
  | 0x24 => fixedRow op imm .txPoll
  | 0x25 => fixedRow op imm .txQlen
  | 0x26 => fixedRow op imm .txReap
  | 0x30 => .ok (.ethNew imm)
  | 0x31 => fixedRow op imm .dmaReset
  | 0x32 => fixedRow op imm .ethInit
  | 0x33 => fixedRow op imm .irqEnable
  | 0x34 => fixedRow op imm .irqAck
  | 0x35 => fixedRow op imm .phyStatus
  | 0x36 => fixedRow op imm .ethSend
  | op => .error (.unassignedOp op)

/-- The decoding algorithm of R133: total on every 32-bit word. -/
def decode (w : Word) : Except DecodeError Instr := decodeFields (opField w) (immField w)

/-- The decoder's reading of an instruction whose bits are `w`; every row of the table has 32 bits, and a number with
a bit above them is no command word. -/
def decodeTableWord (_nbits w : Nat) : Option Instr :=
  if w < 2 ^ 32 then (decode (word w)).toOption else none

/-- The fields of a command's word: `op` of R112 and `imm` (0 where the format has none). -/
def Instr.fields : Instr → Nat × Nat
  | .bufNew cap => (0x01, cap)
  | .bufSetlen len => (0x02, len)
  | .bufInfo => (0x03, 0)
  | .bufFree => (0x04, 0)
  | .rxNew size => (0x10, size)
  | .rxStart n => (0x11, n)
  | .rxPoll => (0x12, 0)
  | .rxState => (0x13, 0)
  | .rxRecv => (0x14, 0)
  | .txNew => (0x20, 0)
  | .txStart => (0x21, 0)
  | .txSend => (0x22, 0)
  | .txState => (0x23, 0)
  | .txPoll => (0x24, 0)
  | .txQlen => (0x25, 0)
  | .txReap => (0x26, 0)
  | .ethNew n => (0x30, n)
  | .dmaReset => (0x31, 0)
  | .ethInit => (0x32, 0)
  | .irqEnable => (0x33, 0)
  | .irqAck => (0x34, 0)
  | .phyStatus => (0x35, 0)
  | .ethSend => (0x36, 0)

/-- The word of a command: `op` in bits 31:24, `imm` in bits 23:0 (R110, R112). An immediate that is not well-formed
loses its high bits (log entry 17). -/
def encode (i : Instr) : Word := word (i.fields.1 * 2 ^ 24 + i.fields.2 % 2 ^ 24)

end Sys2Proof
end

