-- ==== Sys2Proof/Config.lean ====
section
/-! DEFINITION. The parameters of 00_scope.md rule R9, the constants the spec fixes, and the free values.

The parameters marked OPEN in R9 are arguments of the model. `exec` and `step` have the host's fixed types, so the
arguments stand together in `Params`, a field of the state that no step changes: a statement about every state is a
statement about every parameter value (log entry 3). -/

namespace Sys2Proof.Config

/-- `P_BUF_SIZE_MAX`: the largest programmable buffer size, 2^13 - 1 (R9). -/
def bufSizeMax : Nat := 8191

/-- `P_FRAME_MAX`: the largest frame length the receive status can report, 2^14 - 1 (R9). -/
def frameMax : Nat := 16383

/-- `P_DESC_WORDS` words of 4 bytes: the size of a descriptor in bytes (R9, R74). -/
def descBytes : Nat := 16

/-- The parameters of R9 whose value the spec leaves to the model's user, or keeps as an option. -/
structure Params where
  /-- `P_MTU`: the per-buffer capacity `ETH_NEW` gives to `RX_NEW`, 1..8191. -/
  mtu : Nat
  /-- `P_TX_RING_LEN`: entries of the transmit ring, 1..`P_MAX_RING`. -/
  txRingLen : Nat
  /-- `P_MAX_RING`: largest entry count of either slot table, at least 1. -/
  maxRing : Nat
  /-- `P_RX_ERR_ADVANCE`: whether `RX_RECV` advances the cursor on an error-summary drop. -/
  rxErrAdvance : Bool
  /-- `P_RXW_SPONTANEOUS_REFETCH`: whether a suspended RXW may re-fetch without a poll (R271). -/
  rxwRefetch : Bool
  /-- `P_RESET_BOUND`: bound on the reset wait, in polls; none is the unbounded wait (R233). -/
  resetBound : Option Nat
  /-- `P_HEAP_BASE` and `P_HEAP_SIZE`: the range the allocator serves. -/
  heapBase : Nat
  heapSize : Nat
  /-- `P_ETH_BASE`: base address of the MAC and DMA register blocks. -/
  ethBase : Word
  /-- `P_CMD_BASE`: base address of the command port. R9 gives it no range, and `wf` asks for none, no alignment either
  (DESIGN CHOICE, log entry 21). -/
  cmdBase : Word
  /-- `P_PHY_ADDR`: the PHY's device address, 0..31; no rule uses it (D34). -/
  phyAddr : BitVec 5
  /-- `P_MII_CR`, `P_PBL`, `P_RDP`, `P_PM`, `P_PAUSE`: field values `ETH_INIT` programs (R235), at their field's width. -/
  miiCr : BitVec 3
  pbl : BitVec 6
  rdp : BitVec 6
  pm : BitVec 2
  pause : BitVec 16
  deriving DecidableEq, Repr

/-- The ranges of R9: what a legal set of parameters satisfies. -/
def Params.wf (p : Params) : Bool :=
  decide (1 ≤ p.mtu) && decide (p.mtu ≤ bufSizeMax) &&
  decide (1 ≤ p.txRingLen) && decide (p.txRingLen ≤ p.maxRing) && decide (1 ≤ p.maxRing) &&
  decide (p.resetBound ≠ some 0) &&
  decide (0 < p.heapBase) && decide (p.heapBase % 8 = 0) && decide (p.heapBase + p.heapSize ≤ 2 ^ 32)

/-- The values of R9's column "vectors" (DESIGN CHOICE for the OPEN parameters: log entry 3). -/
def vectors : Params where
  mtu := 0x100
  txRingLen := 4
  maxRing := 8
  rxErrAdvance := true
  rxwRefetch := false
  resetBound := none
  heapBase := 0x20000000
  heapSize := 0x00010000
  ethBase := 0x40028000
  cmdBase := 0x50000000
  phyAddr := 0
  miiCr := 0
  pbl := 0
  rdp := 0
  pm := 0
  pause := 0

/-- The PHY's answer to the `n`-th status query: any 32-bit word, drawn at each command
(43_eth.md rule R240, 93_implementation_defined.md U11). A free value: log entry 11. -/
opaque phyAnswer : Nat → BitVec 32

/-- The unspecified words of a walker's latch outside its span of validity: draw `n`, part `k`
(10_state.md rules R49 and R53, 93_implementation_defined.md U2). A free value: log entry 8. -/
opaque latchWord : Nat → Nat → BitVec 32

end Sys2Proof.Config
end

