-- ==== Sys2Proof/Machine/State.lean ====
section
/-! DEFINITION. The state of DRA as plain data (10_state.md), its reset value (R59), and the two reason types.

Every piece of state 10_state.md and 20_memory.md name is here; INVENTORY.md lists them with their rules. A register
that only shows other state (`CST.BUSY`, `DMASR.RPS`, `DMASR.TPS`) is stored once and computed by its accessor in
Machine/Ops.lean. -/

namespace Sys2Proof.Machine

/-- The stored registers of the command port (10_state.md R21 to R27). `BUSY` is not stored: it is 1 exactly while a
command is running (`State.qm`). -/
structure Port where
  /-- `A0`, the operand register (R24). -/
  a0 : Word
  /-- `R0` (R24). -/
  r0 : Word
  /-- `R1` (R24). -/
  r1 : Word
  /-- `CST[7:0]`, the result code of the last completed command (R25). -/
  code : Byte
  /-- `FAULT[7:0]`, the sticky fatal cause (R27). -/
  fault : Byte
  deriving DecidableEq, Repr

/-- The private state of QM, which exists only while `CST.BUSY = 1` (R23). -/
structure Qm where
  /-- The running command's word. -/
  cmd : Word
  /-- `A0` as sampled when the command started (R22). -/
  arg : Word
  /-- How many atomic accesses of the command have been performed (log entry 10). -/
  pc : Nat
  /-- How many reads of the reset wait have returned `SR` = 1 (43_eth.md R233). -/
  polls : Nat
  /-- The model's own: QM takes no further access, a run without QM's progress (70_reset_and_hazards.md R372 (c), log
  entry 20). -/
  starved : Bool
  deriving DecidableEq, Repr

/-- Who owns a Buffer (R29). -/
inductive Owner where
  | host
  | rxSlot (i : Nat)
  | txSlot (i : Nat)
  deriving DecidableEq, Repr

/-- A record of the Buffer table (R28): capacity, logical length, owner. -/
structure BufRec where
  cap : Nat
  len : Nat
  owner : Owner
  deriving DecidableEq, Repr

/-- A receive slot: the address of its descriptor and the Buffer it references (R31). -/
structure RxSlot where
  desc : Word
  buf : Word
  deriving DecidableEq, Repr

/-- A transmit slot: its descriptor and the Buffer installed and not yet released (R35). -/
structure TxSlot where
  desc : Word
  buf : Option Word
  deriving DecidableEq, Repr

/-- The receive ring (R30 to R33). `rx_len` is the length of `slots`: entries at or beyond it are never read
(93_implementation_defined.md U4, log entry 9). -/
structure RxRing where
  constructed : Bool
  started : Bool
  bufSize : Nat
  slots : List RxSlot
  cur : Nat
  deriving DecidableEq, Repr

/-- The transmit ring (R34 to R37). `tx_len` is the length of `slots`. -/
structure TxRing where
  constructed : Bool
  started : Bool
  slots : List TxSlot
  cur : Nat
  deriving DecidableEq, Repr

/-- The stored registers of the MAC and DMA blocks (R38 to R45). `DMARPDR` and `DMATPDR` store nothing (R40); the
process-state fields of `DMASR` read the walkers' states (R42). -/
structure Regs where
  maccr : Word
  macffr : Word
  macmiiar : Word
  macfcr : Word
  dmabmr : Word
  dmardlar : Word
  dmatdlar : Word
  dmaomr : Word
  dmaier : Word
  /-- `DMASR.TS`, bit 0. -/
  ts : Bool
  /-- `DMASR.RS`, bit 6. -/
  rs : Bool
  /-- `DMASR.NIS`, bit 16. -/
  nis : Bool
  deriving DecidableEq, Repr

/-- `rxw.lat`: the receive walker's copy of the current descriptor, valid from a fetch to the close (R49). -/
structure RxLatch where
  buf : Word
  size : BitVec 13
  eor : Bool
  ch : Bool
  next : Word
  deriving DecidableEq, Repr

/-- `rxw.fr`: the frame in progress (R50). -/
structure Frame where
  bytes : List Byte
  err : Bool
  pos : Nat
  first : Bool
  deriving DecidableEq, Repr

/-- The receive walker RXW (R47 to R50). -/
structure Rxw where
  /-- The receive process state, visible as `DMASR.RPS` (R47). -/
  ps : BitVec 3
  cur : Word
  lat : RxLatch
  fr : Option Frame
  deriving DecidableEq, Repr

/-- `txw.lat`: the transmit walker's copy of the current descriptor (R53). -/
structure TxLatch where
  w0 : Word
  size : BitVec 13
  buf : Word
  next : Word
  deriving DecidableEq, Repr

/-- The transmit walker TXW (R51 to R54). -/
structure Txw where
  /-- The transmit process state, visible as `DMASR.TPS` (R51). -/
  ps : BitVec 3
  cur : Word
  lat : TxLatch
  asm : List Byte
  deriving DecidableEq, Repr

/-- `Mem` (20_memory.md R70): the bytes that differ from their power-on value, by strictly rising address, over the
power-on bytes. `init` is the draw of R59 as one number: byte `a` of it is the power-on byte at address `a`, so that
the numbers cover every power-on content of the memory (log entry 4). -/
structure Memory where
  init : Nat
  cells : List Host.Cell
  deriving DecidableEq, Repr

/-- The allocator oracle (20_memory.md R84, R86): the answers it is still to give (`none` is a failure); when there is
none left, the reference allocator with its pointer `brk` answers (log entry 5). -/
structure Heap where
  brk : Nat
  draws : List (Option Word)
  deriving DecidableEq, Repr

/-- The kinds of diagnostic log (00_scope.md R19). -/
inductive DiagKind where
  | frameError
  | fragment
  deriving DecidableEq, Repr

/-- The events of the observable history (R19). -/
inductive Event where
  | cmd (w a0 : Word)
  | res (code : Byte) (r0 r1 : Word)
  | rxFrame (bytes : List Byte) (err : Bool)
  | txFrame (bytes : List Byte)
  | diag (kind : DiagKind) (slot : Nat)
  | irq (level : Bool)
  | fatal (code : Byte)
  | phyReset
  | phySetAutoneg
  | phyStatus (s : Word)
  deriving DecidableEq, Repr

/-- One step of an agent other than QM, or QM's turn (R17). A sequence of moves is a total order of the agents'
steps (20_memory.md R88). -/
inductive Move where
  /-- QM's next access takes place now. -/
  | qm
  /-- The moves after this one fall after the running command has ended: a HOST that waits for `BUSY` = 0
  (70_reset_and_hazards.md R366) with the other agents idle meanwhile. -/
  | untilIdle
  /-- QM takes no access from here on: the run without QM's progress that 70_reset_and_hazards.md R372 (c) leaves possible
  (log entry 20). While no command runs it is no step. -/
  | starve
  /-- RXW takes its enabled step (start, fetch, transfer, close, or the re-fetch of R271). -/
  | rxw
  /-- MAC-RX offers a frame, and RXW accepts it (R262, R265). -/
  | macRx (bytes : List Byte) (err : Bool)
  /-- TXW takes its enabled step. -/
  | txw
  /-- RST completes a pending DMA reset (R357). -/
  | rst
  /-- HOST writes a 32-bit word at an address of the command port (R21, R22). -/
  | portWrite (addr : Word) (v : Word)
  /-- HOST writes one payload byte (40_buffer.md R162). -/
  | poke (addr : Word) (v : Byte)
  deriving DecidableEq, Repr

/-- The state of DRA (R20). -/
structure State where
  /-- The parameters of R9, which no step changes (log entry 3). -/
  par : Config.Params
  /-- The command port's registers. -/
  port : Port
  /-- QM's private state; present exactly while `CST.BUSY = 1` (R23). -/
  qm : Option Qm
  /-- The Buffer table `BT`, by strictly rising base address (R28). -/
  bt : List (Word × BufRec)
  rx : RxRing
  tx : TxRing
  regs : Regs
  /-- `nvic_eth_unmasked` (R46). -/
  nvic : Bool
  rxw : Rxw
  txw : Txw
  mem : Memory
  heap : Heap
  /-- The model's counter of free values drawn (log entry 8). -/
  draws : Nat
  /-- The observable history, oldest event first (R19). -/
  hist : List Event
  /-- The model's input: the moves still to come, next one first (log entry 2). -/
  moves : List Move
  deriving DecidableEq, Repr

/-- Why the machine stops with a fault. The spec has no fault that stops DRA: a fatal fault is state (`FAULT`, R316),
and the walkers have no fault state (R292). -/
inductive Fault where
  /-- Raised by `step` alone, on a state in which QM makes progress and is busy with a command that never waits. `step`
  runs such a command to its end, so no run reaches that state; it is safe (log entry 13). -/
  | busyNotWaiting
  deriving DecidableEq, Repr

/-- Why an instruction is refused. -/
inductive Refusal where
  /-- Raised by an arm of `exec` whose instruction has no meaning yet; safe. No arm raises it. -/
  | notModelled (mnemonic : String)
  deriving DecidableEq, Repr

/-- DRA right after power-on reset (R59). The values the spec leaves unspecified are the model's: `rxw.lat` and
`txw.lat` (log entry 7), the power-on bytes (log entry 4); the fields that are not the spec's are `par` (log entry 3),
`heap.draws` (log entry 5), `draws` (log entry 8) and `moves` (log entry 2). -/
def State.reset : State where
  par := Config.vectors
  port := { a0 := 0, r0 := 0, r1 := 0, code := 0, fault := 0 }
  qm := none
  bt := []
  rx := { constructed := false, started := false, bufSize := 0, slots := [], cur := 0 }
  tx := { constructed := false, started := false, slots := [], cur := 0 }
  regs := { maccr := 0, macffr := 0, macmiiar := 0, macfcr := 0, dmabmr := 0, dmardlar := 0, dmatdlar := 0,
            dmaomr := 0, dmaier := 0, ts := false, rs := false, nis := false }
  nvic := false
  rxw := { ps := 0, cur := 0, lat := { buf := 0, size := 0, eor := false, ch := false, next := 0 }, fr := none }
  txw := { ps := 0, cur := 0, lat := { w0 := 0, size := 0, buf := 0, next := 0 }, asm := [] }
  mem := { init := 0, cells := [] }
  heap := { brk := Config.vectors.heapBase, draws := [] }
  draws := 0
  hist := []
  moves := []

/-! The named updates of the state: one field each. Their field lemmas are in Laws/State.lean. -/

def State.setPort (s : State) (v : Port) : State := { s with port := v }
def State.setQm (s : State) (v : Option Qm) : State := { s with qm := v }
def State.setBt (s : State) (v : List (Word × BufRec)) : State := { s with bt := v }
def State.setRx (s : State) (v : RxRing) : State := { s with rx := v }
def State.setTx (s : State) (v : TxRing) : State := { s with tx := v }
def State.setRegs (s : State) (v : Regs) : State := { s with regs := v }
def State.setNvic (s : State) (v : Bool) : State := { s with nvic := v }
def State.setRxw (s : State) (v : Rxw) : State := { s with rxw := v }
def State.setTxw (s : State) (v : Txw) : State := { s with txw := v }
def State.setMem (s : State) (v : Memory) : State := { s with mem := v }
def State.setHeap (s : State) (v : Heap) : State := { s with heap := v }
def State.setDraws (s : State) (v : Nat) : State := { s with draws := v }
def State.setHist (s : State) (v : List Event) : State := { s with hist := v }
def State.setMoves (s : State) (v : List Move) : State := { s with moves := v }

end Sys2Proof.Machine
end

