-- ==== Sys2Proof/Machine/Flags.lean ====
section
/-! DEFINITION. The flags of DRA (10_state.md rule R55): the fields of descriptor words (30_encoding.md rules R122 to
R128), of the registers (10_state.md rules R39 to R45), the process-state decode (41_rx_ring.md rule R181), and the
words QM and the walkers write. DRA has no arithmetic condition codes. -/

namespace Sys2Proof.Machine

/-- Bit `i` of a word (00_scope.md R11). -/
def bit (w : Word) (i : Nat) : Bool := w.getLsbD i

/-- The field `w[hi:lo]` as an unsigned number (R11). -/
def field (w : Word) (hi lo : Nat) : Nat := w.toNat / 2 ^ lo % 2 ^ (hi + 1 - lo)

/-- `trunc8(a)`: hardware truncates the low three address bits (R11, 20_memory.md R76). -/
def trunc8 (a : Word) : Word := a &&& 0xFFFFFFF8

/-! ## Receive descriptor (R122, R123) -/

/-- `RX_OWN`, word 0 bit 31. -/
def RX_OWN : Word := 0x80000000
/-- `RX_ES`, word 0 bit 15: error-summary. -/
def RX_ES : Word := 0x00008000
/-- `RX_FS`, word 0 bit 9: first-segment. -/
def RX_FS : Word := 0x00000200
/-- `RX_LS`, word 0 bit 8: last-segment. -/
def RX_LS : Word := 0x00000100
/-- `RX_RER`, word 1 bit 15: end-of-ring. -/
def RX_RER : Word := 0x00008000
/-- `RX_RCH`, word 1 bit 14: second address chained. -/
def RX_RCH : Word := 0x00004000

/-- Word 0: hardware-owned. -/
def rxOwn (w0 : Word) : Bool := bit w0 31
/-- Word 0: error-summary. -/
def rxEs (w0 : Word) : Bool := bit w0 15
/-- Word 0: first-segment. -/
def rxFs (w0 : Word) : Bool := bit w0 9
/-- Word 0: last-segment. -/
def rxLs (w0 : Word) : Bool := bit w0 8
/-- Word 0: frame length, bits 29:16. -/
def rxFl (w0 : Word) : Nat := field w0 29 16
/-- Word 1: end-of-ring flag. -/
def rxRer (w1 : Word) : Bool := bit w1 15
/-- Word 1: chained flag. -/
def rxRch (w1 : Word) : Bool := bit w1 14
/-- Word 1 of either descriptor: the buffer size, bits 12:0 (`RBS1`, `TBS1`). -/
def bufSize1 (w1 : Word) : BitVec 13 := w1.setWidth 13

/-- Word 1 of a receive descriptor as `RX_START` links it (R128, R176). -/
def rxCtrl (last : Bool) (size : Nat) : Word := RX_RCH ||| (if last then RX_RER else 0) ||| word size

/-- The word RXW writes at close (44_walker.md R267). -/
def rxCloseWord (fr : Frame) : Word :=
  let last := decide (fr.pos = fr.bytes.length)
  (if last then word fr.pos <<< 16 else 0) ||| (if last && fr.err then RX_ES else 0) |||
    (if fr.first then RX_FS else 0) ||| (if last then RX_LS else 0)

/-! ## Transmit descriptor (R125, R126) -/

/-- `TX_OWN`, word 0 bit 31. -/
def TX_OWN : Word := 0x80000000
/-- `TX_LS`, word 0 bit 29: last-segment. -/
def TX_LS : Word := 0x20000000
/-- `TX_FS`, word 0 bit 28: first-segment. -/
def TX_FS : Word := 0x10000000
/-- `TX_TER`, word 0 bit 21: end-of-ring. -/
def TX_TER : Word := 0x00200000
/-- `TX_TCH`, word 0 bit 20: second address chained. -/
def TX_TCH : Word := 0x00100000

/-- Word 0: hardware-owned. -/
def txOwn (w0 : Word) : Bool := bit w0 31
/-- Word 0: last-segment. -/
def txLs (w0 : Word) : Bool := bit w0 29
/-- Word 0: first-segment. -/
def txFs (w0 : Word) : Bool := bit w0 28
/-- Word 0: end-of-ring flag. -/
def txTer (w0 : Word) : Bool := bit w0 21
/-- Word 0: chained flag. -/
def txTch (w0 : Word) : Bool := bit w0 20

/-- Word 0 of a transmit descriptor as `TX_START` writes it (R128, 42_tx_ring.md R204). -/
def txIdleWord (last : Bool) : Word := TX_TCH ||| (if last then TX_TER else 0)

/-- Word 0 of a transmit descriptor as `TX_SEND` hands it off (R128, 42_tx_ring.md R214). -/
def txSendWord (last : Bool) : Word := TX_OWN ||| TX_LS ||| TX_FS ||| TX_TCH ||| (if last then TX_TER else 0)

/-- The word TXW writes at close: the fetched word with OWN cleared (44_walker.md R287). -/
def txCloseWord (w0 : Word) : Word := w0 &&& 0x7FFFFFFF

/-! ## Register fields (10_state.md R39 to R45) -/

/-- `DMABMR.SR`, bit 0. -/
def BMR_SR : Word := 0x00000001
/-- `DMAOMR.SR`, bit 1: start receive. -/
def OMR_SR : Word := 0x00000002
/-- `DMAOMR.ST`, bit 13: start transmit. -/
def OMR_ST : Word := 0x00002000
/-- `NISE | RIE | TIE` of `DMAIER`, and `NIS | RS | TS` of `DMASR` (30_encoding.md R132). -/
def IRQ_BITS : Word := 0x00010041

/-- `DMABMR.SR` as a flag. -/
def Regs.resetPending (r : Regs) : Bool := bit r.dmabmr 0
/-- `DMAOMR.SR` as a flag. -/
def Regs.startRx (r : Regs) : Bool := bit r.dmaomr 1
/-- `DMAOMR.ST` as a flag. -/
def Regs.startTx (r : Regs) : Bool := bit r.dmaomr 13
/-- `DMAIER.TIE`. -/
def Regs.tie (r : Regs) : Bool := bit r.dmaier 0
/-- `DMAIER.RIE`. -/
def Regs.rie (r : Regs) : Bool := bit r.dmaier 6
/-- `DMAIER.NISE`. -/
def Regs.nise (r : Regs) : Bool := bit r.dmaier 16

/-! ## Process states (30_encoding.md R117, R130, R131) -/

/-- The decoded process state. -/
inductive RunState where
  | stopped
  | running
  | unknown
  deriving DecidableEq, Repr

/-- The code of a decoded state in `R0` (R117). -/
def RunState.code : RunState → Word
  | .stopped => 0
  | .running => 1
  | .unknown => 2

/-- `decode_rx`: the receive table (41_rx_ring.md R181, 30_encoding.md R130). -/
def decodeRx (c : BitVec 3) : RunState :=
  if c = 0 ∨ c = 4 then .stopped
  else if c = 1 ∨ c = 3 ∨ c = 5 ∨ c = 7 then .running
  else .unknown

/-- `decode_tx`: the transmit table (41_rx_ring.md R181, 30_encoding.md R131). -/
def decodeTx (c : BitVec 3) : RunState :=
  if c = 0 ∨ c = 6 then .stopped
  else if c = 1 ∨ c = 2 ∨ c = 3 ∨ c = 7 then .running
  else .unknown

/-- `DMASR[19:17]`, the field `RPS` (10_state.md R42). -/
def rpsField (v : Word) : BitVec 3 := (v >>> 17).setWidth 3
/-- `DMASR[22:20]`, the field `TPS` (R42). -/
def tpsField (v : Word) : BitVec 3 := (v >>> 20).setWidth 3

end Sys2Proof.Machine
end

