-- ==== Sys2Proof/Machine/Ops.lean ====
section
/-! DEFINITION. The named operations of DRA: memory (20_memory.md), registers (10_state.md section 6), the command port
(10_state.md section 2), the interrupt request (60_exceptions.md R321), the Buffer table, the allocator
(20_memory.md section 7), and the two ways a command ends: `result` (R26) and `raise` (60_exceptions.md R316). -/

namespace Sys2Proof.Machine

/-! ## Memory -/

/-- What a byte that no agent has written reads as: byte `a` of the draw made at power-on (10_state.md R59, log entry
4). This is the one definition of an unlisted address. -/
def Memory.unwritten (m : Memory) (a : Nat) : Byte := BitVec.ofNat 8 (m.init >>> (8 * a))

/-- The listed byte at an address. -/
def lookupCell : List Host.Cell → Nat → Option Byte
  | [], _ => none
  | (k, v) :: cs, a => if k = a then some v else lookupCell cs a

/-- Lists a byte, keeping the addresses rising. -/
def insertCell : List Host.Cell → Nat → Byte → List Host.Cell
  | [], a, v => [(a, v)]
  | (k, w) :: cs, a, v =>
    if a < k then (a, v) :: (k, w) :: cs else if a = k then (a, v) :: cs else (k, w) :: insertCell cs a v

/-- Unlists an address. -/
def eraseCell : List Host.Cell → Nat → List Host.Cell
  | [], _ => []
  | (k, w) :: cs, a => if k = a then eraseCell cs a else (k, w) :: eraseCell cs a

/-- The addresses of a list of cells rise strictly and lie above `lo`. -/
def risingFrom : Nat → List Host.Cell → Bool
  | _, [] => true
  | lo, (k, _) :: cs => decide (lo ≤ k) && risingFrom (k + 1) cs

/-- The canonical form of the memory: addresses strictly rising, inside the 32-bit space, and no byte listed that an
unlisted address reads as, so that equal memories are equal data. -/
def Memory.wf (m : Memory) : Bool :=
  risingFrom 0 m.cells && m.cells.all (fun c => decide (c.1 < 2 ^ 32) && decide (c.2 ≠ m.unwritten c.1))

/-- One byte of `Mem` (R70). -/
def Memory.read (m : Memory) (a : Word) : Byte :=
  match lookupCell m.cells a.toNat with
  | some v => v
  | none => m.unwritten a.toNat

/-- Writes one byte of `Mem`, keeping the canonical form. -/
def Memory.write (m : Memory) (a : Word) (v : Byte) : Memory :=
  if v = m.unwritten a.toNat then { m with cells := eraseCell m.cells a.toNat }
  else { m with cells := insertCell m.cells a.toNat v }

/-- `MemRead32(a)`: little-endian (R72). -/
def Memory.read32 (m : Memory) (a : Word) : Word :=
  m.read (a + 3) ++ m.read (a + 2) ++ m.read (a + 1) ++ m.read a

/-- `MemWrite32(a, v)`: little-endian, one atomic action (R75). -/
def Memory.write32 (m : Memory) (a v : Word) : Memory :=
  (((m.write a (v.setWidth 8)).write (a + 1) ((v >>> 8).setWidth 8)).write (a + 2) ((v >>> 16).setWidth 8)).write
    (a + 3) ((v >>> 24).setWidth 8)

/-- `MemRead(a, n)` in ascending address order (00_scope.md R12, R78). -/
def Memory.readBytes (m : Memory) (a : Word) : Nat → List Byte
  | 0 => []
  | n + 1 => m.read a :: m.readBytes (a + 1) n

/-- `MemWrite(a, n, bytes)` in ascending address order (R12, R78). -/
def Memory.writeBytes (m : Memory) (a : Word) : List Byte → Memory
  | [] => m
  | b :: bs => (m.write a b).writeBytes (a + 1) bs

/-- Word `k` of the descriptor at `d` is at `d + 4k` (R74, R97); a sum past the top of the space wraps (log entry 12). -/
def descWord (d : Word) (k : Nat) : Word := d + word (4 * k)

/-! ## Events and the interrupt request -/

/-- `emit`: appends an event to the observable history and changes no other state (00_scope.md R12, R19). -/
def emit (e : Event) (s : State) : State := s.setHist (s.hist ++ [e])

/-- `irq_eth = DMASR.NIS and DMAIER.NISE` (60_exceptions.md R321). -/
def irqEth (s : State) : Bool := s.regs.nis && s.regs.nise

/-- `irq_cpu = irq_eth and nvic_eth_unmasked` (R321). -/
def irqCpu (s : State) : Bool := irqEth s && s.nvic

/-- An atomic action that may move the interrupt level: `Irq(level)` is emitted when `irq_cpu` changes (R321). -/
def withIrq (f : State → State) (s : State) : State :=
  if irqCpu (f s) = irqCpu s then f s else emit (.irq (irqCpu (f s))) (f s)

/-! ## Registers -/

/-- The twelve registers of 10_state.md R38. -/
inductive Reg where
  | maccr | macffr | macmiiar | macfcr
  | dmabmr | dmatpdr | dmarpdr | dmardlar | dmatdlar | dmasr | dmaomr | dmaier
  deriving DecidableEq, Repr

/-- Byte offset of a register from `P_ETH_BASE` (R38). -/
def Reg.offset : Reg → Word
  | .maccr => 0x0000
  | .macffr => 0x0004
  | .macmiiar => 0x0010
  | .macfcr => 0x0018
  | .dmabmr => 0x1000
  | .dmatpdr => 0x1004
  | .dmarpdr => 0x1008
  | .dmardlar => 0x100C
  | .dmatdlar => 0x1010
  | .dmasr => 0x1014
  | .dmaomr => 0x1018
  | .dmaier => 0x101C

/-- The address of a register in the register space (20_memory.md R97). -/
def Reg.addr (p : Config.Params) (r : Reg) : Word := p.ethBase + r.offset

/-- The fields of a register that exist and store what is written; a field not listed in R39 to R45 reads 0 and
ignores writes (R38). -/
def Reg.fields : Reg → Word
  | .maccr => 0x02004A8C
  | .macffr => 0x80000001
  | .macmiiar => 0x0000001C
  | .macfcr => 0xFFFF0000
  | .dmabmr => 0x02FFFF01
  | .dmatpdr => 0
  | .dmarpdr => 0
  | .dmardlar => 0xFFFFFFFF
  | .dmatdlar => 0xFFFFFFFF
  | .dmasr => 0x00010041
  | .dmaomr => 0x06202086
  | .dmaier => 0x00010041

/-- `DMASR` as read: the pending bits and the two process states (R42). -/
def dmasr (s : State) : Word :=
  bitWord s.regs.ts ||| (bitWord s.regs.rs <<< 6) ||| (bitWord s.regs.nis <<< 16) |||
    (s.rxw.ps.setWidth 32 <<< 17) ||| (s.txw.ps.setWidth 32 <<< 20)

/-- `RegRead(REG)` (R12); the poll-demand registers read 0 (R40). No read has a side effect (20_memory.md R79). -/
def regRead (r : Reg) (s : State) : Word :=
  match r with
  | .maccr => s.regs.maccr
  | .macffr => s.regs.macffr
  | .macmiiar => s.regs.macmiiar
  | .macfcr => s.regs.macfcr
  | .dmabmr => s.regs.dmabmr
  | .dmatpdr => 0
  | .dmarpdr => 0
  | .dmardlar => s.regs.dmardlar
  | .dmatdlar => s.regs.dmatdlar
  | .dmasr => dmasr s
  | .dmaomr => s.regs.dmaomr
  | .dmaier => s.regs.dmaier

/-- The receive demand poll: a suspended RXW goes back to fetching; in every other state, and while a DMA reset is
pending, nothing happens (44_walker.md R270, 70_reset_and_hazards.md R356). -/
def rxDemandPoll (s : State) : State :=
  if ¬ s.regs.resetPending ∧ s.rxw.ps = 4 then s.setRxw { s.rxw with ps := 1 } else s

/-- The transmit demand poll (44_walker.md R290, R356). -/
def txDemandPoll (s : State) : State :=
  if ¬ s.regs.resetPending ∧ s.txw.ps = 6 then s.setTxw { s.txw with ps := 1 } else s

/-- `RegWrite(REG, v)` with its side effects: write-one-to-clear on `DMASR` (R42), the demand polls (R40), and `SR` of
`DMABMR`, which a write of 0 leaves as it is (70_reset_and_hazards.md R355). -/
def regWrite (r : Reg) (v : Word) (s : State) : State :=
  let v' := v &&& r.fields
  match r with
  | .maccr => s.setRegs { s.regs with maccr := v' }
  | .macffr => s.setRegs { s.regs with macffr := v' }
  | .macmiiar => s.setRegs { s.regs with macmiiar := v' }
  | .macfcr => s.setRegs { s.regs with macfcr := v' }
  | .dmabmr => s.setRegs { s.regs with dmabmr := v' ||| (s.regs.dmabmr &&& BMR_SR) }
  | .dmatpdr => txDemandPoll s
  | .dmarpdr => rxDemandPoll s
  | .dmardlar => s.setRegs { s.regs with dmardlar := v' }
  | .dmatdlar => s.setRegs { s.regs with dmatdlar := v' }
  | .dmasr =>
    withIrq (fun t => t.setRegs { t.regs with ts := t.regs.ts && !bit v 0, rs := t.regs.rs && !bit v 6,
                                              nis := t.regs.nis && !bit v 16 }) s
  | .dmaomr => s.setRegs { s.regs with dmaomr := v' }
  | .dmaier => withIrq (fun t => t.setRegs { t.regs with dmaier := v' }) s

/-- `RegField(REG.F) <- v`: an atomic read-modify-write of the fields in `mask`, other fields unchanged (R12). -/
def regField (r : Reg) (mask v : Word) (s : State) : State :=
  regWrite r ((regRead r s &&& ~~~mask) ||| (v &&& mask)) s

/-! ## Command port -/

/-- `CST`: the code of the last completed command and `BUSY`, which is 1 exactly while a command runs (R23, R25). -/
def State.cst (s : State) : Word := (bitWord s.qm.isSome <<< 31) ||| s.port.code.setWidth 32

/-- The registers of the command port (R21). -/
inductive PortReg where
  | cmd | a0 | r0 | r1 | cst | fault
  deriving DecidableEq, Repr

/-- The port register at an address, if there is one (R21: byte offsets from `P_CMD_BASE`). DESIGN CHOICE: only the
offset from the base decides, whatever the base is; the spec leaves open what an aligned port access is where
`P_CMD_BASE` is no multiple of 4 (R21, 20_memory.md R77, log entry 21). -/
def portReg (p : Config.Params) (addr : Word) : Option PortReg :=
  let off := addr - p.cmdBase
  if off = 0x00 then some .cmd
  else if off = 0x04 then some .a0
  else if off = 0x08 then some .r0
  else if off = 0x0C then some .r1
  else if off = 0x10 then some .cst
  else if off = 0x14 then some .fault
  else none

/-- A HOST read of the command port; there is no such move at any other address (R21). A read changes no state, so it
is a function and no move (log entry 16). -/
def portRead (addr : Word) (s : State) : Option Word :=
  (portReg s.par addr).map fun
    | .cmd => 0
    | .a0 => s.port.a0
    | .r0 => s.port.r0
    | .r1 => s.port.r1
    | .cst => s.cst
    | .fault => s.port.fault.setWidth 32

/-- The result codes of 30_encoding.md R116. -/
inductive Code where
  | ok | nothingReady | dropFrameError | dropFragment | ringFull | allocFailure | initHang
  | badBuffer | badLength | badState | badRange | illegal | faulted
  deriving DecidableEq, Repr

/-- `CST.code` of a result code (R116). -/
def Code.byte : Code → Byte
  | .ok => 0x00
  | .nothingReady => 0x01
  | .dropFrameError => 0x02
  | .dropFragment => 0x03
  | .ringFull => 0x04
  | .allocFailure => 0x05
  | .initHang => 0x06
  | .badBuffer => 0x10
  | .badLength => 0x11
  | .badState => 0x12
  | .badRange => 0x13
  | .illegal => 0x1E
  | .faulted => 0x1F

/-- `result(code, r0, r1)`, one atomic action: the results, `BUSY <- 0` with QM's private state, and the event
(10_state.md R26). -/
def result (c : Code) (r0 r1 : Word) (s : State) : State :=
  emit (.res c.byte r0 r1) ((s.setPort { s.port with code := c.byte, r0 := r0, r1 := r1 }).setQm none)

/-- The fatal faults (60_exceptions.md R316). -/
inductive FatalKind where
  | allocationFailure
  | hardwareInitHang
  deriving DecidableEq, Repr

/-- The cause code of a fatal fault, equal to the result code (60_exceptions.md R310). -/
def FatalKind.code : FatalKind → Code
  | .allocationFailure => .allocFailure
  | .hardwareInitHang => .initHang

/-- TAKING AN EXCEPTION: `raise K` sets the sticky `FAULT`, emits `Fatal`, and completes the command with the cause
code; nothing is saved, no mode changes, and nothing returns from it but power-on reset (R316, R325, R326). -/
def raise (k : FatalKind) (s : State) : State :=
  result k.code 0 0 (emit (.fatal k.code.byte) (s.setPort { s.port with fault := k.code.byte }))

/-- A `CMD` write that is taken: `BUSY <- 1`, the word and the operand are sampled, `Cmd` is emitted (R22). -/
def startCommand (w : Word) (s : State) : State :=
  emit (.cmd w s.port.a0) (s.setQm (some { cmd := w, arg := s.port.a0, pc := 0, polls := 0, starved := false }))

/-! ## Buffer table -/

/-- The record of `BT` at a base address (10_state.md R28). -/
def btFind : List (Word × BufRec) → Word → Option BufRec
  | [], _ => none
  | (k, r) :: t, a => if k = a then some r else btFind t a

/-- `BT[a] <- r`, keeping the keys rising. -/
def btInsert : List (Word × BufRec) → Word → BufRec → List (Word × BufRec)
  | [], a, r => [(a, r)]
  | (k, q) :: t, a, r =>
    if a < k then (a, r) :: (k, q) :: t else if a = k then (a, r) :: t else (k, q) :: btInsert t a r

/-- Removes `BT[a]`. -/
def btErase : List (Word × BufRec) → Word → List (Word × BufRec)
  | [], _ => []
  | (k, q) :: t, a => if k = a then btErase t a else (k, q) :: btErase t a

/-- HOST may touch the payload byte at `a` exactly when it lies within the capacity of a Buffer HOST owns
(40_buffer.md R162). -/
def hostMay (s : State) (a : Word) : Bool :=
  s.bt.any fun e =>
    decide (e.2.owner = .host) && decide (e.1.toNat ≤ a.toNat) && decide (a.toNat < e.1.toNat + e.2.cap)

/-- A HOST read of one payload byte; there is no such move where HOST has no right (R162). It changes no state (log
entry 16). -/
def hostPeek (a : Word) (s : State) : Option Byte := if hostMay s a then some (s.mem.read a) else none

/-! ## Allocator -/

/-- A region of memory: first address and size in bytes. -/
abbrev Region := Nat × Nat

/-- Two regions share no byte. -/
def Region.disjoint (x y : Region) : Bool := decide (x.1 + x.2 ≤ y.1) || decide (y.1 + y.2 ≤ x.1)

/-- The live regions: the descriptors of both rings and every Buffer (20_memory.md R83). -/
def liveRegions (s : State) : List Region :=
  s.rx.slots.map (fun e => (e.desc.toNat, Config.descBytes)) ++
    s.tx.slots.map (fun e => (e.desc.toNat, Config.descBytes)) ++
    s.bt.map (fun e => (e.1.toNat, e.2.cap))

/-- The laws of `Alloc(size)` on the address it returns (R84): 8-aligned, not 0, inside the heap range, disjoint from
every live region and from the regions in `held`, which the running command has allocated and not yet entered in a
table (log entry 6). -/
def admissible (s : State) (held : List Region) (size : Nat) (a : Word) : Bool :=
  decide (a.toNat % 8 = 0) && decide (a.toNat ≠ 0) && decide (s.par.heapBase ≤ a.toNat) &&
    decide (a.toNat + size ≤ s.par.heapBase + s.par.heapSize) &&
    (held ++ liveRegions s).all (fun r => Region.disjoint (a.toNat, size) r)

/-- The reference allocator (R86): its answer and its next `brk`. -/
def referenceAlloc (p : Config.Params) (brk size : Nat) : Option Word × Nat :=
  if p.heapBase + p.heapSize < brk + size then (none, brk) else (some (word brk), brk + 8 * ((size + 7) / 8))

/-- The oracle's next answer and the oracle after it: a drawn answer if there is one, else the reference allocator's
(log entry 5). -/
def proposal (size : Nat) (s : State) : Option Word × Heap :=
  match s.heap.draws with
  | d :: ds => (d, { s.heap with draws := ds })
  | [] => ((referenceAlloc s.par s.heap.brk size).1, { s.heap with brk := (referenceAlloc s.par s.heap.brk size).2 })

/-- `Alloc(size)` (R84): fails, or returns an address that obeys the laws; it does not change `Mem`. -/
def alloc (held : List Region) (size : Nat) (s : State) : Option Word × State :=
  match proposal size s with
  | (some a, h) => if admissible s held size a then (some a, s.setHeap h) else (none, s.setHeap h)
  | (none, h) => (none, s.setHeap h)

/-- `Free(a)` (R85): the region is no longer live, because the caller has removed it from `BT`; the oracle may return
it again, and the reference allocator does nothing (R86). -/
def free (_a : Word) (s : State) : State := s

end Sys2Proof.Machine
end

