-- ==== Sys2Proof/Machine/Walker.lean ====
section
/-! DEFINITION. The chain walkers RXW and TXW with MAC-RX and MAC-TX (44_walker.md), and RST (70_reset_and_hazards.md
R357). A walker step is one atomic action (R260). Each step function answers the state unchanged where no step of that
agent is enabled, which is the spec's "no step occurs otherwise". -/

namespace Sys2Proof.Machine

/-- The next-descriptor function (R261): end-of-ring before the pointer, the walker's own place with neither flag. It
never adds to an address. -/
def nextDesc (eor ch : Bool) (nxt base cur : Word) : Word :=
  if eor then trunc8 base else if ch then trunc8 nxt else cur

/-- An unspecified receive latch: free values (10_state.md R49, log entry 8). -/
def freeRxLatch (n : Nat) : RxLatch where
  buf := Config.latchWord n 0
  size := (Config.latchWord n 1).setWidth 13
  eor := bit (Config.latchWord n 2) 0
  ch := bit (Config.latchWord n 2) 1
  next := Config.latchWord n 3

/-- An unspecified transmit latch: free values (10_state.md R53, log entry 8). -/
def freeTxLatch (n : Nat) : TxLatch where
  w0 := Config.latchWord n 4
  size := (Config.latchWord n 5).setWidth 13
  buf := Config.latchWord n 6
  next := Config.latchWord n 7

/-! ## RXW -/

/-- RXW start (R263). -/
def rxwStart (s : State) : State :=
  s.setRxw { s.rxw with cur := trunc8 s.regs.dmardlar, ps := 1 }

/-- RXW fetch (R264): OWN first; words 1 to 3 only of a hardware-owned descriptor. -/
def rxwFetch (s : State) : State :=
  let w0 := s.mem.read32 (descWord s.rxw.cur 0)
  if rxOwn w0 then
    let w1 := s.mem.read32 (descWord s.rxw.cur 1)
    let lat : RxLatch :=
      { buf := s.mem.read32 (descWord s.rxw.cur 2), size := bufSize1 w1, eor := rxRer w1, ch := rxRch w1,
        next := s.mem.read32 (descWord s.rxw.cur 3) }
    s.setRxw { s.rxw with lat := lat, ps := if s.rxw.fr.isNone then 3 else 7 }
  else s.setRxw { s.rxw with ps := 4 }

/-- RXW accept of the frame MAC-RX offers (R265). -/
def rxwAccept (bytes : List Byte) (err : Bool) (s : State) : State :=
  emit (.rxFrame bytes err)
    (s.setRxw { s.rxw with fr := some { bytes := bytes, err := err, pos := 0, first := true }, ps := 7 })

/-- How many bytes RXW stores into the current Buffer (R266). -/
def rxwChunk (fr : Frame) (lat : RxLatch) : Nat := min (fr.bytes.length - fr.pos) lat.size.toNat

/-- RXW transfer (R266). -/
def rxwTransfer (fr : Frame) (s : State) : State :=
  let k := rxwChunk fr s.rxw.lat
  (s.setMem (s.mem.writeBytes (trunc8 s.rxw.lat.buf) ((fr.bytes.drop fr.pos).take k))).setRxw
    { s.rxw with fr := some { fr with pos := fr.pos + k }, ps := 5 }

/-- The flags a completed frame leaves in `DMASR` (R269, 60_exceptions.md R320). -/
def rxCompletion (s : State) : State :=
  withIrq (fun t => t.setRegs { t.regs with rs := true, nis := t.regs.nis || t.regs.rie }) s

/-- RXW close (R269): the close word is the OWN flip, then the pending bits, then the step to the next descriptor. The
latch is unspecified from here on (93_implementation_defined.md U2). -/
def rxwClose (fr : Frame) (s : State) : State :=
  let last := decide (fr.pos = fr.bytes.length)
  let s1 := s.setMem (s.mem.write32 (descWord s.rxw.cur 0) (rxCloseWord fr))
  let s2 := if last then rxCompletion s1 else s1
  (s2.setRxw
    { cur := nextDesc s.rxw.lat.eor s.rxw.lat.ch s.rxw.lat.next s.regs.dmardlar s.rxw.cur
      ps := 1
      fr := if last then none else some { fr with first := false }
      lat := freeRxLatch s.draws }).setDraws (s.draws + 1)

/-- RXW's enabled step, if there is one (R293; every row needs `DMABMR.SR` = 0). Waiting (3) has only the accept step,
which MAC-RX makes; suspended (4) has only the re-fetch of R271. -/
def rxwStep (s : State) : State :=
  if s.regs.resetPending then s
  else if s.rxw.ps = 0 then if s.regs.startRx then rxwStart s else s
  else if s.rxw.ps = 1 then rxwFetch s
  else if s.rxw.ps = 4 then if s.par.rxwRefetch then s.setRxw { s.rxw with ps := 1 } else s
  else if s.rxw.ps = 5 then
    match s.rxw.fr with
    | some fr => rxwClose fr s
    | none => s
  else if s.rxw.ps = 7 then
    match s.rxw.fr with
    | some fr => rxwTransfer fr s
    | none => s
  else s

/-- MAC-RX's one move (R262): a frame of 1..`P_FRAME_MAX` bytes, taken only while RXW waits for a packet (R265, R272). -/
def macRxOffer (bytes : List Byte) (err : Bool) (s : State) : State :=
  if ¬ s.regs.resetPending ∧ s.rxw.ps = 3 ∧ 1 ≤ bytes.length ∧ bytes.length ≤ Config.frameMax then
    rxwAccept bytes err s
  else s

/-! ## TXW -/

/-- TXW start (R283). -/
def txwStart (s : State) : State :=
  s.setTxw { s.txw with cur := trunc8 s.regs.dmatdlar, ps := 1 }

/-- TXW fetch (R284). -/
def txwFetch (s : State) : State :=
  let w0 := s.mem.read32 (descWord s.txw.cur 0)
  if txOwn w0 then
    let lat : TxLatch :=
      { w0 := w0, size := bufSize1 (s.mem.read32 (descWord s.txw.cur 1)), buf := s.mem.read32 (descWord s.txw.cur 2),
        next := s.mem.read32 (descWord s.txw.cur 3) }
    s.setTxw { s.txw with lat := lat, ps := 3 }
  else s.setTxw { s.txw with ps := 6 }

/-- TXW read (R285): a first segment starts the frame afresh; exactly `size` bytes in ascending order. -/
def txwRead (s : State) : State :=
  let kept := if txFs s.txw.lat.w0 then [] else s.txw.asm
  s.setTxw { s.txw with
    asm := kept ++ s.mem.readBytes (trunc8 s.txw.lat.buf) s.txw.lat.size.toNat
    ps := if txLs s.txw.lat.w0 then 2 else 7 }

/-- TXW emit: MAC-TX takes the frame at once and without failure (R286, R282). -/
def txwEmit (s : State) : State := emit (.txFrame s.txw.asm) (s.setTxw { s.txw with asm := [], ps := 7 })

/-- The flags a transmitted frame leaves in `DMASR` (R289, 60_exceptions.md R320). -/
def txCompletion (s : State) : State :=
  withIrq (fun t => t.setRegs { t.regs with ts := true, nis := t.regs.nis || t.regs.tie }) s

/-- TXW close (R289): the fetched word with OWN cleared, then the pending bits, then the step to the next descriptor.
The latch is unspecified from here on (U2). -/
def txwClose (s : State) : State :=
  let lat := s.txw.lat
  let s1 := s.setMem (s.mem.write32 (descWord s.txw.cur 0) (txCloseWord lat.w0))
  let s2 := if txLs lat.w0 then txCompletion s1 else s1
  (s2.setTxw
    { cur := nextDesc (txTer lat.w0) (txTch lat.w0) lat.next s.regs.dmatdlar s.txw.cur
      ps := 1
      asm := s.txw.asm
      lat := freeTxLatch s.draws }).setDraws (s.draws + 1)

/-- TXW's enabled step, if there is one (R293). A suspended TXW (6) has none (R290). -/
def txwStep (s : State) : State :=
  if s.regs.resetPending then s
  else if s.txw.ps = 0 then if s.regs.startTx then txwStart s else s
  else if s.txw.ps = 1 then txwFetch s
  else if s.txw.ps = 2 then txwEmit s
  else if s.txw.ps = 3 then txwRead s
  else if s.txw.ps = 7 then txwClose s
  else s

/-! ## RST -/

/-- The registers after a DMA reset (R357). -/
def zeroRegs : Regs :=
  { maccr := 0, macffr := 0, macmiiar := 0, macfcr := 0, dmabmr := 0, dmardlar := 0, dmatdlar := 0, dmaomr := 0,
    dmaier := 0, ts := false, rs := false, nis := false }

/-- RST's one step (R357): enabled while `DMABMR.SR` = 1; registers and walkers are cleared atomically, and `irq_cpu`
falls with them. The latches are unspecified (free values). -/
def rstStep (s : State) : State :=
  if s.regs.resetPending then
    withIrq (fun t =>
      (((t.setRegs zeroRegs).setRxw { ps := 0, cur := 0, lat := freeRxLatch t.draws, fr := none }).setTxw
        { ps := 0, cur := 0, lat := freeTxLatch t.draws, asm := [] }).setDraws (t.draws + 1)) s
  else s

end Sys2Proof.Machine
end

