-- ==== Sys2Proof/Machine/Agents.lean ====
section
/-! DEFINITION. How the agents interleave (00_scope.md R17, 20_memory.md R88 and R90), the accesses of QM, the reset
wait (43_eth.md R232, R233), and the frame every command runs in (10_state.md R22, R26; 30_encoding.md R119).

The other agents' steps are the model's input, `State.moves`. Before each of its atomic accesses QM lets them take
their steps up to its own turn (`Move.qm`); when no move is left QM goes on alone. Every interleaving of a command's
accesses with the other agents' atomic steps is the run of some list of moves (log entries 1 and 2). `Move.untilIdle`
saves counting QM's turns: what stands after it falls after the running command. QM's progress is not imposed: at
`Move.starve` QM stops for good in the middle of its command (70_reset_and_hazards.md R372 (c), log entry 20). -/

namespace Sys2Proof.Machine

/-! ## The agents' moves -/

/-- HOST writes the command port while QM is busy, or a register other than `CMD`: `A0` stores the value; a `CMD` write
is dropped; a read-only register and an address that is no port register ignore it (R21, R22). -/
def portWriteBusy (addr v : Word) (s : State) : State :=
  match portReg s.par addr with
  | some .a0 => s.setPort { s.port with a0 := v }
  | _ => s

/-- HOST writes one payload byte of a Buffer it owns; it has no such move elsewhere (40_buffer.md R162). -/
def hostPoke (addr : Word) (v : Byte) (s : State) : State :=
  if hostMay s addr then s.setMem (s.mem.write addr v) else s

/-- One move of an agent other than QM; a move that is not enabled changes nothing (log entry 15). A `CMD` write in this
place is one that finds `BUSY` = 1 and is dropped. -/
def applyMove (m : Move) (s : State) : State :=
  match m with
  | .qm => s
  | .untilIdle => s
  | .starve => s
  | .rxw => rxwStep s
  | .macRx bytes err => macRxOffer bytes err s
  | .txw => txwStep s
  | .rst => rstStep s
  | .portWrite addr v => portWriteBusy addr v s
  | .poke addr v => hostPoke addr v s

/-- QM takes no further access: the running command never ends (70_reset_and_hazards.md R372 (c)). -/
def starve (s : State) : State := s.setQm (s.qm.map fun q => { q with starved := true })

/-- Whether QM is in a command that it never goes on with. -/
def State.starved (s : State) : Bool :=
  match s.qm with
  | some q => q.starved
  | none => false

/-- What the other agents' moves lead up to: QM's turn, or the end of QM's progress. -/
inductive Turn where
  | due (s : State)
  | starved (s : State)

/-- Runs the moves up to QM's next turn, and keeps the rest. -/
def runMoves : List Move → State → Turn
  | [], s => .due (s.setMoves [])
  | .qm :: ms, s => .due (s.setMoves ms)
  | .untilIdle :: ms, s => .due (s.setMoves (.untilIdle :: ms))
  | .starve :: ms, s => .starved (starve (s.setMoves ms))
  | m :: ms, s => runMoves ms (applyMove m s)

/-- The other agents move until it is QM's turn (R90). -/
def yield (s : State) : Turn := runMoves s.moves s

/-! ## QM's accesses -/

/-- Counts an access in `qm.pc` (R23). -/
def countAccess (s : State) : State := s.setQm (s.qm.map fun q => { q with pc := q.pc + 1 })

/-- QM's next atomic action is due: the others have moved, and the access is counted; `act` says what it does and what
follows. Where QM makes no progress, `stuck` says what is left. -/
def atTurn {α : Type} (s : State) (stuck : State → α) (act : State → α) : α :=
  match yield s with
  | .due t => act (countAccess t)
  | .starved t => stuck t

/-! ## How the body of a command ends -/

/-- The point a command's body has reached just before its `result` (43_eth.md, "the body of command X"). -/
inductive Flow where
  /-- The body is done and would answer `OK` with these results. -/
  | ok (r0 r1 : Word) (s : State)
  /-- The body ends with another code. -/
  | stop (c : Code) (s : State)
  /-- The body raises a fatal fault. -/
  | fatal (k : FatalKind) (s : State)
  /-- The body has not ended: it is in the reset wait, or QM makes no progress. -/
  | wait (s : State)

/-- What comes after a body inside an enclosing command: it goes on only after `OK`; otherwise the enclosing command
ends there, and what was done stays done (43_eth.md, R230). -/
def Flow.andThen (f : Flow) (g : Word → Word → State → Flow) : Flow :=
  match f with
  | .ok r0 r1 s => g r0 r1 s
  | .stop c s => .stop c s
  | .fatal k s => .fatal k s
  | .wait s => .wait s

/-- One atomic access of QM in a command's body, and what follows it. Which actions of QM count as accesses is log entry
18. -/
def access (s : State) (act : State → Flow) : Flow := atTurn s .wait act

/-- One `MemWrite32` of QM. -/
def qmWrite (a v : Word) (s : State) (next : State → Flow) : Flow :=
  access s fun s => next (s.setMem (s.mem.write32 a v))

/-- One `RegWrite` of QM. -/
def qmRegWrite (r : Reg) (v : Word) (s : State) (next : State → Flow) : Flow :=
  access s fun s => next (regWrite r v s)

/-- One `RegField` of QM. -/
def qmRegField (r : Reg) (mask v : Word) (s : State) (next : State → Flow) : Flow :=
  access s fun s => next (regField r mask v s)

/-- One call of QM on an external agent, or one diagnostic log, visible only as an event. -/
def qmEmit (e : Event) (s : State) (next : State → Flow) : Flow := access s fun s => next (emit e s)

/-- The operand of a format A command: `A0` as sampled when the command started (R111, R114). -/
def operandA (s : State) : Word :=
  match s.qm with
  | some q => q.arg
  | none => s.port.a0

/-! ## The frame of a command -/

/-- The last atomic action of a command; none where QM makes no progress. -/
def finish (act : State → State) (s : State) : State := atTurn s id act

/-- The end of a command: its one `result` or `raise`, an atomic action of its own (R26, R316); or none while the reset
wait goes on. Results are 0 on every code but `OK` (30_encoding.md R115). -/
def Flow.conclude : Flow → State
  | .ok r0 r1 s => finish (result .ok r0 r1) s
  | .stop c s => finish (result c 0 0) s
  | .fatal k s => finish (raise k) s
  | .wait s => s

/-- The run of a command word that is taken: `FAULTED` before anything else while `FAULT` is non-zero (R119, R316). -/
def runCommand (w : Word) (body : State → Flow) (s : State) : State :=
  let s := startCommand w s
  if s.port.fault = 0 then (body s).conclude else (Flow.stop .faulted s).conclude

/-- HOST writes the word of command `i` to `CMD`. While `BUSY` = 1 the write is ignored (R22). -/
def command (i : Instr) (body : State → Flow) (s : State) : Host.Outcome State Fault Refusal :=
  if s.qm.isSome then .next s else .next (runCommand (encode i) body s)

/-- HOST writes an illegal word to `CMD`: it is accepted as a command that does nothing but complete with `ILLEGAL`
(30_encoding.md R118). -/
def illegalCommand (w : Word) (s : State) : State := runCommand w (fun t => .stop .illegal t) s

/-! ## The reset wait -/

/-- What the reset wait has come to when its moves are spent. -/
inductive WaitEnd where
  /-- A read saw `SR` = 0. -/
  | done (s : State)
  /-- `P_RESET_BOUND` reads have seen `SR` = 1 (43_eth.md R233). -/
  | hang (s : State)
  /-- QM is still in the loop (70_reset_and_hazards.md R358), or makes no progress (R372 (c)). -/
  | pending (s : State)

/-- Counts a read of the loop that returned `SR` = 1 (R233). -/
def countPoll (s : State) : State := s.setQm (s.qm.map fun q => { q with polls := q.polls + 1 })

/-- The number of such reads so far. -/
def pollCount (s : State) : Nat :=
  match s.qm with
  | some q => q.polls
  | none => 0

/-- One read of `DMABMR` in the loop (R232 step 2). -/
def poll (s : State) : WaitEnd :=
  let s := countAccess s
  if bit (regRead .dmabmr s) 0 then
    let s := countPoll s
    match s.par.resetBound with
    | some k => if k ≤ pollCount s then .hang s else .pending s
    | none => .pending s
  else .done s

/-- The reset wait over a list of moves: QM reads `DMABMR` at each of its turns, the others step between the reads
(R232). Where the moves end, or are held back until QM is idle, QM reads once more; if `SR` is still 1 the wait goes on
in the next step. -/
def resetWait : List Move → State → WaitEnd
  | [], s => poll (s.setMoves [])
  | .qm :: ms, s =>
    match poll (s.setMoves ms) with
    | .pending s' => resetWait ms s'
    | e => e
  | .untilIdle :: ms, s => poll (s.setMoves (.untilIdle :: ms))
  | .starve :: ms, s => .pending (starve (s.setMoves ms))
  | m :: ms, s => resetWait ms (applyMove m s)

/-- The reset wait from the current state, then the rest of the command (R232, R233). -/
def waitThen (rest : State → Flow) (s : State) : Flow :=
  match resetWait s.moves s with
  | .done t => rest t
  | .hang t => .fatal .hardwareInitHang t
  | .pending t => .wait t

end Sys2Proof.Machine
end

