-- ==== Sys2Proof/Machine/Operands.lean ====
section
/-! DEFINITION. The operand forms of the commands (30_encoding.md rules R111, R113, R114) and the three forms of memory
address (20_memory.md R97). An immediate is the command's own natural number; format A names a Buffer by `A0`. -/

namespace Sys2Proof.Machine

/-- The record of the Buffer a format A command names, if HOST owns it: a key of `BT` with owner `Host`; anything else
answers `BAD_BUFFER` (R114, 40_buffer.md R154). No truncation is applied to the operand. -/
def hostBuffer (a : Word) (s : State) : Option BufRec :=
  match btFind s.bt a with
  | some r => if r.owner = .host then some r else none
  | none => none

/-- The body of a command on a Buffer HOST owns: `BAD_BUFFER` otherwise (R114). -/
def withHostBuffer (s : State) (k : BufRec → State → Flow) : Flow :=
  match hostBuffer (operandA s) s with
  | some r => k r s
  | none => .stop .badBuffer s

/-- The results of a process-state query: the decoded state in `R0`, the raw code in `R1` (30_encoding.md R117). -/
def stateAnswer (d : RunState) (c : BitVec 3) (s : State) : Flow := .ok d.code (c.setWidth 32) s

end Sys2Proof.Machine
end

