-- ==== Sys2Proof/Machine/Buffer.lean ====
section
/-! DEFINITION. The Buffer commands (40_buffer.md). They touch only QM's own tables and the allocator. -/

namespace Sys2Proof.Machine

/-- `BUF_NEW cap` (R151): a failed allocation is an ordinary refusal here, not a fatal fault. -/
def bufNewBody (cap : Nat) (s : State) : Flow :=
  if cap = 0 then .stop .badRange s
  else
    match alloc [] cap s with
    | (none, s) => .stop .allocFailure s
    | (some a, s) => .ok a (word cap) (s.setBt (btInsert s.bt a { cap := cap, len := 0, owner := .host }))

/-- `BUF_SETLEN len` on the Buffer in `A0` (R154). -/
def bufSetlenBody (len : Nat) (s : State) : Flow :=
  withHostBuffer s fun r s =>
    if r.cap < len then .stop .badLength s
    else .ok 0 0 (s.setBt (btInsert s.bt (operandA s) { r with len := len }))

/-- `BUF_INFO` on the Buffer in `A0` (R157). -/
def bufInfoBody (s : State) : Flow := withHostBuffer s fun r s => .ok (word r.cap) (word r.len) s

/-- `BUF_FREE` on the Buffer in `A0` (R160). -/
def bufFreeBody (s : State) : Flow :=
  withHostBuffer s fun _ s => .ok 0 0 (free (operandA s) (s.setBt (btErase s.bt (operandA s))))

/-- The meaning of `BUF_NEW cap`. -/
def execBufNew (cap : Nat) (s : State) : Host.Outcome State Fault Refusal :=
  command (.bufNew cap) (bufNewBody cap) s

/-- The meaning of `BUF_SETLEN len`. -/
def execBufSetlen (len : Nat) (s : State) : Host.Outcome State Fault Refusal :=
  command (.bufSetlen len) (bufSetlenBody len) s

/-- The meaning of `BUF_INFO`. -/
def execBufInfo (s : State) : Host.Outcome State Fault Refusal := command .bufInfo bufInfoBody s

/-- The meaning of `BUF_FREE`. -/
def execBufFree (s : State) : Host.Outcome State Fault Refusal := command .bufFree bufFreeBody s

end Sys2Proof.Machine
end

