-- ==== Sys2Proof/Machine/RxRing.lean ====
section
/-! DEFINITION. The receive ring commands (41_rx_ring.md). -/

namespace Sys2Proof.Machine

/-! ## RX_NEW -/

/-- `RX_NEW size` (R171). -/
def rxNewBody (size : Nat) (s : State) : Flow :=
  if s.rx.constructed then .stop .badState s
  else if size = 0 ∨ Config.bufSizeMax < size then .stop .badRange s
  else .ok 0 0 (s.setRx { constructed := true, started := false, bufSize := size, slots := [], cur := 0 })

/-! ## RX_START -/

/-- Phase 1 of `RX_START` for one new entry (R174), its eleven accesses in order. -/
def rxGrowOne (s : State) : Flow :=
  let i := s.rx.slots.length
  match alloc [] Config.descBytes s with
  | (none, s) => .fatal .allocationFailure s
  | (some d, s) =>
    qmWrite (descWord d 0) 0 s fun s =>
    qmWrite (descWord d 1) RX_RCH s fun s =>
    qmWrite (descWord d 2) 0 s fun s =>
    qmWrite (descWord d 3) 0 s fun s =>
    match alloc [(d.toNat, Config.descBytes)] s.rx.bufSize s with
    | (none, s) => .fatal .allocationFailure s
    | (some b, s) =>
      let s := s.setBt (btInsert s.bt b { cap := s.rx.bufSize, len := 0, owner := .rxSlot i })
      qmWrite (descWord d 2) b s fun s =>
      qmWrite (descWord d 1) (rxCtrl false s.rx.bufSize) s fun s =>
      qmWrite (descWord d 0) RX_OWN s fun s =>
      .ok 0 0 (s.setRx { s.rx with slots := s.rx.slots ++ [{ desc := d, buf := b }] })

/-- Phase 1 of `RX_START`: so many new entries, in ascending order (R174). -/
def rxGrow : Nat → State → Flow
  | 0, s => .ok 0 0 s
  | k + 1, s => (rxGrowOne s).andThen fun _ _ s => rxGrow k s

/-- Phase 2 of `RX_START` (R176): each entry's link, word 3 before word 1, whatever its OWN bit is. -/
def rxRelink : List RxSlot → State → Flow
  | [], s => .ok 0 0 s
  | e :: es, s =>
    qmWrite (descWord e.desc 3) (match es with | [] => 0 | f :: _ => f.desc) s fun s =>
    qmWrite (descWord e.desc 1) (rxCtrl es.isEmpty s.rx.bufSize) s fun s =>
    rxRelink es s

/-- The address of entry 0's descriptor: the head pointer (R177). -/
def rxHead (s : State) : Word :=
  match s.rx.slots with
  | [] => 0
  | e :: _ => e.desc

/-- Phases 2 to 4 of `RX_START` and its bookkeeping (R176, R177, R173). -/
def rxRegister (s : State) : Flow :=
  (rxRelink s.rx.slots s).andThen fun _ _ s =>
  qmRegWrite .dmardlar (rxHead s) s fun s =>
  qmRegField .dmaomr OMR_SR OMR_SR s fun s =>
  qmRegWrite .dmarpdr 1 s fun s =>
  .ok (word s.rx.slots.length) 0 (s.setRx { s.rx with started := true })

/-- `RX_START n` (R173). -/
def rxStartBody (n : Nat) (s : State) : Flow :=
  if ¬ s.rx.constructed then .stop .badState s
  else if s.par.maxRing < n then .stop .badRange s
  else if max n s.rx.slots.length = 0 then .stop .badRange s
  else (rxGrow (n - s.rx.slots.length) s).andThen fun _ _ s => rxRegister s

/-! ## RX_POLL and RX_STATE -/

/-- `RX_POLL` (R179). -/
def rxPollBody (s : State) : Flow := qmRegWrite .dmarpdr 1 s fun s => .ok 0 0 s

/-- `RX_STATE` (R180). -/
def rxStateBody (s : State) : Flow :=
  access s fun s =>
  let c := rpsField (regRead .dmasr s)
  stateAnswer (decodeRx c) c s

/-! ## RX_RECV -/

/-- Cursor advance (R190). -/
def rxAdvance (s : State) : State := s.setRx { s.rx with cur := (s.rx.cur + 1) % s.rx.slots.length }

/-- The post-consume step (R191), and what follows it: a demand poll if the engine is observed Stopped. -/
def rxPostConsume (s : State) (next : State → Flow) : Flow :=
  access s fun s =>
  if decodeRx (rpsField (regRead .dmasr s)) = .stopped then qmRegWrite .dmarpdr 1 s next else next s

/-- Case 2 of `RX_RECV`, a frame in error (R186). -/
def rxRecvError (i : Nat) (e : RxSlot) (w0 : Word) (s : State) : Flow :=
  qmEmit (.diag .frameError i) s fun s =>
  qmWrite (descWord e.desc 0) (w0 ||| RX_OWN) s fun s =>
  rxPostConsume (if s.par.rxErrAdvance then rxAdvance s else s) fun s => .stop .dropFrameError s

/-- Case 4 of `RX_RECV`, a multi-descriptor fragment (R189). -/
def rxRecvFragment (i : Nat) (e : RxSlot) (w0 : Word) (s : State) : Flow :=
  qmEmit (.diag .fragment i) s fun s =>
  qmWrite (descWord e.desc 0) (w0 ||| RX_OWN) s fun s =>
  rxPostConsume (rxAdvance s) fun s => .stop .dropFragment s

/-- The Buffer a received frame is handed to HOST in: length clamped to the capacity, owner `Host` (R187 step 7). -/
def rxHandOut (ob : Word) (len : Nat) (s : State) : State :=
  match btFind s.bt ob with
  | some r => s.setBt (btInsert s.bt ob { r with len := min len r.cap, owner := .host })
  | none => s

/-- The length a received frame is reported with (R187 step 10). -/
def rxReported (ob : Word) (len : Nat) (s : State) : Nat :=
  match btFind s.bt ob with
  | some r => min len r.cap
  | none => 0

/-- Case 3 of `RX_RECV`, a complete frame (R187, R188): the Buffer is swapped for a fresh one, word 2 before the OWN
write, and handed out. -/
def rxRecvFrame (i : Nat) (e : RxSlot) (w0 : Word) (s : State) : Flow :=
  match alloc [] s.rx.bufSize s with
  | (none, s) => .fatal .allocationFailure s
  | (some nb, s) =>
    let s := s.setBt (btInsert s.bt nb { cap := s.rx.bufSize, len := 0, owner := .rxSlot i })
    qmWrite (descWord e.desc 2) nb s fun s =>
    let s := s.setRx { s.rx with slots := s.rx.slots.set i { e with buf := nb } }
    qmWrite (descWord e.desc 0) (w0 ||| RX_OWN) s fun s =>
    let len := rxReported e.buf (rxFl w0) s
    rxPostConsume (rxAdvance (rxHandOut e.buf (rxFl w0) s)) fun s => .ok e.buf (word len) s

/-- `RX_RECV` (R182, R183): word 0 of the entry at the cursor is read once, first, and decides the case in the order of
R185. A cursor at or beyond `rx_len`, which no run reaches, is answered like an empty ring (log entry 14). -/
def rxRecvBody (s : State) : Flow :=
  match s.rx.slots[s.rx.cur]? with
  | none => .stop .badState s
  | some e =>
    let i := s.rx.cur
    access s fun s =>
    let w0 := s.mem.read32 (descWord e.desc 0)
    if rxOwn w0 then .stop .nothingReady s
    else if rxEs w0 then rxRecvError i e w0 s
    else if rxFs w0 && rxLs w0 then rxRecvFrame i e w0 s
    else rxRecvFragment i e w0 s

/-! ## The meanings -/

/-- The meaning of `RX_NEW size`. -/
def execRxNew (size : Nat) (s : State) : Host.Outcome State Fault Refusal := command (.rxNew size) (rxNewBody size) s

/-- The meaning of `RX_START n`. -/
def execRxStart (n : Nat) (s : State) : Host.Outcome State Fault Refusal := command (.rxStart n) (rxStartBody n) s

/-- The meaning of `RX_POLL`. -/
def execRxPoll (s : State) : Host.Outcome State Fault Refusal := command .rxPoll rxPollBody s

/-- The meaning of `RX_STATE`. -/
def execRxState (s : State) : Host.Outcome State Fault Refusal := command .rxState rxStateBody s

/-- The meaning of `RX_RECV`. -/
def execRxRecv (s : State) : Host.Outcome State Fault Refusal := command .rxRecv rxRecvBody s

end Sys2Proof.Machine
end

