-- ==== Sys2Proof/Machine/TxRing.lean ====
section
/-! DEFINITION. The transmit ring commands (42_tx_ring.md). -/

namespace Sys2Proof.Machine

/-! ## TX_NEW -/

/-- One descriptor of `TX_NEW`: allocated, its four words zeroed, entered in the table (R201). -/
def txNewOne (s : State) : Flow :=
  match alloc [] Config.descBytes s with
  | (none, s) => .fatal .allocationFailure s
  | (some d, s) =>
    qmWrite (descWord d 0) 0 s fun s =>
    qmWrite (descWord d 1) 0 s fun s =>
    qmWrite (descWord d 2) 0 s fun s =>
    qmWrite (descWord d 3) 0 s fun s =>
    .ok 0 0 (s.setTx { s.tx with slots := s.tx.slots ++ [{ desc := d, buf := none }] })

/-- So many descriptors, in ascending order (R201). -/
def txNewSlots : Nat → State → Flow
  | 0, s => .ok 0 0 s
  | k + 1, s => (txNewOne s).andThen fun _ _ s => txNewSlots k s

/-- `TX_NEW` (R201). -/
def txNewBody (s : State) : Flow :=
  if s.tx.constructed then .stop .badState s
  else
    (txNewSlots s.par.txRingLen (s.setTx { s.tx with slots := [] })).andThen fun _ _ s =>
      .ok 0 0 (s.setTx { s.tx with constructed := true, started := false, cur := 0 })

/-! ## Release and TX_START -/

/-- The release of transmit slot `i`, whose Buffer is `b` (R206): the Buffer ceases to exist; `Mem` is not touched. -/
def txRelease (i : Nat) (e : TxSlot) (b : Word) (s : State) : State :=
  (free b (s.setBt (btErase s.bt b))).setTx { s.tx with slots := s.tx.slots.set i { e with buf := none } }

/-- The release of a slot if a Buffer is installed (R204 step 1, R212). -/
def txReleaseIf (i : Nat) (e : TxSlot) (s : State) : State :=
  match e.buf with
  | some b => txRelease i e b s
  | none => s

/-- The descriptors of `TX_START` from slot `i` on (R204): software-owned, chained, empty. -/
def txInit : Nat → List TxSlot → State → Flow
  | _, [], s => .ok 0 0 s
  | i, e :: es, s =>
    qmWrite (descWord e.desc 0) (txIdleWord es.isEmpty) (txReleaseIf i e s) fun s =>
    qmWrite (descWord e.desc 1) 0 s fun s =>
    qmWrite (descWord e.desc 2) 0 s fun s =>
    qmWrite (descWord e.desc 3) (match es with | [] => 0 | f :: _ => f.desc) s fun s =>
    txInit (i + 1) es s

/-- The address of entry 0's descriptor (R205). -/
def txHead (s : State) : Word :=
  match s.tx.slots with
  | [] => 0
  | e :: _ => e.desc

/-- `TX_START` (R203 to R205). -/
def txStartBody (s : State) : Flow :=
  if ¬ s.tx.constructed then .stop .badState s
  else if s.tx.started then .stop .badState s
  else
    (txInit 0 s.tx.slots s).andThen fun _ _ s =>
    qmRegWrite .dmatdlar (txHead s) s fun s =>
    qmRegField .dmaomr OMR_ST OMR_ST s fun s =>
    .ok 0 0 (s.setTx { s.tx with cur := 0, started := true })

/-! ## TX_SEND -/

/-- `TX_SEND` from the free descriptor on (R212 to R215): lazy reclaim, pointer and length, the hand-off word last, the
bookkeeping. -/
def txInstall (i : Nat) (e : TxSlot) (a : Word) (r : BufRec) (s : State) : Flow :=
  qmWrite (descWord e.desc 2) a (txReleaseIf i e s) fun s =>
  qmWrite (descWord e.desc 1) (word r.len) s fun s =>
  qmWrite (descWord e.desc 0) (txSendWord (decide (i + 1 = s.tx.slots.length))) s fun s =>
  let s := s.setTx { s.tx with slots := s.tx.slots.set i { e with buf := some a }
                               cur := (s.tx.cur + 1) % s.tx.slots.length }
  .ok (word i) 0 (s.setBt (btInsert s.bt a { r with owner := .txSlot i }))

/-- `TX_SEND` on the Buffer in `A0` (R210, R211). A cursor at or beyond `tx_len`, which no run reaches, is answered
`BAD_STATE` (log entry 14). -/
def txSendBody (s : State) : Flow :=
  if ¬ s.tx.started then .stop .badState s
  else
    withHostBuffer s fun r s =>
      if r.len = 0 ∨ Config.bufSizeMax < r.len then .stop .badLength s
      else
        match s.tx.slots[s.tx.cur]? with
        | none => .stop .badState s
        | some e =>
          let i := s.tx.cur
          let a := operandA s
          access s fun s =>
          if txOwn (s.mem.read32 (descWord e.desc 0)) then .stop .ringFull s else txInstall i e a r s

/-! ## TX_STATE, TX_POLL, TX_QLEN, TX_REAP -/

/-- `TX_STATE` (R217). -/
def txStateBody (s : State) : Flow :=
  access s fun s =>
  let c := tpsField (regRead .dmasr s)
  stateAnswer (decodeTx c) c s

/-- `TX_POLL` (R219). -/
def txPollBody (s : State) : Flow := qmRegWrite .dmatpdr 1 s fun s => .ok 0 0 s

/-- The scan of `TX_QLEN` (R220): word 0 of each entry, read in ascending order; the others may move between. -/
def txQlenScan : List TxSlot → Nat → State → Flow
  | [], n, s => .ok (word n) 0 s
  | e :: es, n, s =>
    access s fun s =>
    txQlenScan es (if txOwn (s.mem.read32 (descWord e.desc 0)) then n + 1 else n) s

/-- `TX_QLEN` (R220). -/
def txQlenBody (s : State) : Flow := txQlenScan s.tx.slots 0 s

/-- The scan of `TX_REAP` from slot `i` on (R221). -/
def txReapScan : Nat → List TxSlot → Nat → State → Flow
  | _, [], n, s => .ok (word n) 0 s
  | i, e :: es, n, s =>
    match e.buf with
    | none => txReapScan (i + 1) es n s
    | some b =>
      access s fun s =>
      if txOwn (s.mem.read32 (descWord e.desc 0)) then txReapScan (i + 1) es n s
      else txReapScan (i + 1) es (n + 1) (txRelease i e b s)

/-- `TX_REAP` (R221). -/
def txReapBody (s : State) : Flow := txReapScan 0 s.tx.slots 0 s

/-! ## The meanings -/

/-- The meaning of `TX_NEW`. -/
def execTxNew (s : State) : Host.Outcome State Fault Refusal := command .txNew txNewBody s

/-- The meaning of `TX_START`. -/
def execTxStart (s : State) : Host.Outcome State Fault Refusal := command .txStart txStartBody s

/-- The meaning of `TX_SEND`. -/
def execTxSend (s : State) : Host.Outcome State Fault Refusal := command .txSend txSendBody s

/-- The meaning of `TX_STATE`. -/
def execTxState (s : State) : Host.Outcome State Fault Refusal := command .txState txStateBody s

/-- The meaning of `TX_POLL`. -/
def execTxPoll (s : State) : Host.Outcome State Fault Refusal := command .txPoll txPollBody s

/-- The meaning of `TX_QLEN`. -/
def execTxQlen (s : State) : Host.Outcome State Fault Refusal := command .txQlen txQlenBody s

/-- The meaning of `TX_REAP`. -/
def execTxReap (s : State) : Host.Outcome State Fault Refusal := command .txReap txReapBody s

end Sys2Proof.Machine
end

