-- ==== Sys2Proof/Machine/Eth.lean ====
section
/-! DEFINITION. The orchestrator commands (43_eth.md). -/

namespace Sys2Proof.Machine

/-! ## DMA_RESET, ETH_INIT, ETH_NEW

The three commands that hold the reset wait. Each is the write of `DMABMR.SR`, the wait, and what follows it; `step`
takes up the wait again where a command is still in it. -/

/-- What follows the reset wait in `DMA_RESET` (R232 steps 3 and 4). -/
def afterReset (s : State) : Flow :=
  .ok 0 0 ((s.setRx { s.rx with started := false }).setTx { s.tx with started := false })

/-- `DMA_RESET`, with what the enclosing command does after its body (R232): set `SR`, wait, go on. -/
def resetBody (rest : State → Flow) (s : State) : Flow :=
  qmRegField .dmabmr BMR_SR BMR_SR s fun s => waitThen (fun t => (afterReset t).andThen fun _ _ u => rest u) s

/-- The fields of `MACCR` that `ETH_INIT` sets: `CSTF`, `FES`, `DM`, `RD`, `APCS`, `TE`, `RE` (R235). -/
def INIT_MACCR : Word := 0x02004A8C
/-- `MACFFR`: `RA` and `PM` (R235). -/
def INIT_MACFFR : Word := 0x80000001
/-- `DMAOMR`: `DTCEFD`, `RSF`, `TSF`, `FEF`, `OSF` (R235). -/
def INIT_DMAOMR : Word := 0x06200084
/-- `DMABMR`: the mask of `AAB`, `USP`, `RDP`, `FB`, `PM`, `PBL` (R235, 10_state.md R39). -/
def INIT_DMABMR_MASK : Word := 0x02FFFF00
/-- `DMABMR`: the value of those fields (R235). -/
def initDmabmr (p : Config.Params) : Word :=
  0x02810000 ||| (p.rdp.setWidth 32 <<< 17) ||| (p.pm.setWidth 32 <<< 14) ||| (p.pbl.setWidth 32 <<< 8)

/-- What `ETH_INIT` does after the body of `DMA_RESET` (R234 steps 2 to 9, R235). -/
def afterResetInit (s : State) : Flow :=
  qmRegField .macmiiar 0x0000001C (s.par.miiCr.setWidth 32 <<< 2) s fun s =>
  qmEmit .phyReset s fun s =>
  qmEmit .phySetAutoneg s fun s =>
  qmRegField .maccr INIT_MACCR INIT_MACCR s fun s =>
  qmRegField .macffr INIT_MACFFR INIT_MACFFR s fun s =>
  qmRegField .macfcr 0xFFFF0000 (s.par.pause.setWidth 32 <<< 16) s fun s =>
  qmRegField .dmaomr INIT_DMAOMR INIT_DMAOMR s fun s =>
  qmRegField .dmabmr INIT_DMABMR_MASK (initDmabmr s.par) s fun s =>
  .ok 0 0 s

/-- What `ETH_NEW n` does after the body of `DMA_RESET` inside its `ETH_INIT` (R230 steps 3 to 5). -/
def afterResetNew (n : Nat) (s : State) : Flow :=
  (afterResetInit s).andThen fun _ _ s =>
    (txStartBody s).andThen fun _ _ s =>
      (if 0 < n then rxStartBody n s else .ok 0 0 s).andThen fun _ _ s => .ok (word s.rx.slots.length) 0 s

/-- `DMA_RESET` (R232, R233). -/
def dmaResetBody (s : State) : Flow := resetBody (fun t => .ok 0 0 t) s

/-- `ETH_INIT` (R234). -/
def ethInitBody (s : State) : Flow := resetBody afterResetInit s

/-- `ETH_NEW n` (R230). -/
def ethNewBody (n : Nat) (s : State) : Flow :=
  if s.par.maxRing < n then .stop .badRange s
  else
    (rxNewBody s.par.mtu s).andThen fun _ _ s =>
      (txNewBody s).andThen fun _ _ s => resetBody (afterResetNew n) s

/-- The rest of a command that is in the reset wait, from its next read on; none for a command that never waits. -/
def resumeBody (i : Instr) : Option (State → Flow) :=
  match i with
  | .dmaReset => some (waitThen fun t => afterReset t)
  | .ethInit => some (waitThen fun t => (afterReset t).andThen fun _ _ u => afterResetInit u)
  | .ethNew n => some (waitThen fun t => (afterReset t).andThen fun _ _ u => afterResetNew n u)
  | .bufNew _ | .bufSetlen _ | .bufInfo | .bufFree | .rxNew _ | .rxStart _ | .rxPoll | .rxState | .rxRecv | .txNew
  | .txStart | .txSend | .txState | .txPoll | .txQlen | .txReap | .irqEnable | .irqAck | .phyStatus | .ethSend => none

/-! ## IRQ_ENABLE, IRQ_ACK, PHY_STATUS -/

/-- `IRQ_ENABLE` (R237): the enables, then the unmask at the interrupt controller (60_exceptions.md R322). -/
def irqEnableBody (s : State) : Flow :=
  qmRegField .dmaier IRQ_BITS IRQ_BITS s fun s =>
  access s fun s =>
  .ok 0 0 (withIrq (fun t => t.setNvic true) s)

/-- `IRQ_ACK` (R238). -/
def irqAckBody (s : State) : Flow := qmRegWrite .dmasr IRQ_BITS s fun s => .ok 0 0 s

/-- `PHY_STATUS` (R240): the PHY's answer is a free value (log entry 11). -/
def phyStatusBody (s : State) : Flow :=
  let v := Config.phyAnswer s.draws
  qmEmit (.phyStatus v) (s.setDraws (s.draws + 1)) fun s => .ok v 0 s

/-! ## ETH_SEND -/

/-- `ETH_SEND` on the Buffer in `A0` (R242): the body of `TX_SEND`, then a demand poll if the engine is observed not
running (`decode_tx` other than Running, 42_tx_ring.md R218). -/
def ethSendBody (s : State) : Flow :=
  (txSendBody s).andThen fun i _ s =>
    access s fun s =>
    if decodeTx (tpsField (regRead .dmasr s)) = .running then .ok i 0 s
    else qmRegWrite .dmatpdr 1 s fun s => .ok i 1 s

/-! ## The meanings -/

/-- The meaning of `ETH_NEW n`. -/
def execEthNew (n : Nat) (s : State) : Host.Outcome State Fault Refusal := command (.ethNew n) (ethNewBody n) s

/-- The meaning of `DMA_RESET`. -/
def execDmaReset (s : State) : Host.Outcome State Fault Refusal := command .dmaReset dmaResetBody s

/-- The meaning of `ETH_INIT`. -/
def execEthInit (s : State) : Host.Outcome State Fault Refusal := command .ethInit ethInitBody s

/-- The meaning of `IRQ_ENABLE`. -/
def execIrqEnable (s : State) : Host.Outcome State Fault Refusal := command .irqEnable irqEnableBody s

/-- The meaning of `IRQ_ACK`. -/
def execIrqAck (s : State) : Host.Outcome State Fault Refusal := command .irqAck irqAckBody s

/-- The meaning of `PHY_STATUS`. -/
def execPhyStatus (s : State) : Host.Outcome State Fault Refusal := command .phyStatus phyStatusBody s

/-- The meaning of `ETH_SEND`. -/
def execEthSend (s : State) : Host.Outcome State Fault Refusal := command .ethSend ethSendBody s

end Sys2Proof.Machine
end

