-- ==== Sys2Proof/Machine/Fetch.lean ====
section
/-! DEFINITION. What the next step is about (10_state.md rules R22, R23 and R57). DRA fetches no instructions from
memory: commands arrive on the command port, as HOST's writes to `CMD`, which are moves of the input. -/

namespace Sys2Proof.Machine

/-- The word a move writes to `CMD`, if it is such a write (R21, R22). -/
def cmdWord (p : Config.Params) (m : Move) : Option Word :=
  match m with
  | .portWrite addr v => if portReg p addr = some .cmd then some v else none
  | .qm | .untilIdle | .starve | .rxw | .macRx _ _ | .txw | .rst | .poke _ _ => none

/-- What is due while no command is running: nothing, a step of another agent, a command word, or an illegal word; with
the state whose input has moved on. -/
inductive Due where
  | nothing
  | move (m : Move) (s : State)
  | issue (i : Instr) (s : State)
  | illegal (w : Word) (s : State)

/-- Takes the next move off the input and decodes a command word (30_encoding.md R133). -/
def fetch (s : State) : Due :=
  match s.moves with
  | [] => .nothing
  | m :: ms =>
    match cmdWord s.par m with
    | none => .move m (s.setMoves ms)
    | some w =>
      match decode w with
      | .ok i => .issue i (s.setMoves ms)
      | .error _ => .illegal w (s.setMoves ms)

/-- One move of the other agents while QM makes no progress (70_reset_and_hazards.md R372 (c)). -/
def moveOn (s : State) : State :=
  match s.moves with
  | [] => s
  | m :: ms => applyMove m (s.setMoves ms)

/-- A step while a command is running: QM goes on with it, which can only be in the reset wait (R23,
70_reset_and_hazards.md R358); or QM makes no progress and another agent moves. -/
def resume (q : Qm) (s : State) : Host.Outcome State Fault Refusal :=
  if q.starved then .next (moveOn s)
  else
    match decode q.cmd with
    | .ok i =>
      match resumeBody i with
      | some body => .next (body s).conclude
      | none => .fault .busyNotWaiting
    | .error _ => .fault .busyNotWaiting

/-- The state with a command word as HOST's next write to `CMD`, and QM idle so that the write is taken (log entry 2). -/
def placeCommand (w : Word) (s : State) : State :=
  (s.setQm none).setMoves (.portWrite s.par.cmdBase w :: s.moves)

end Sys2Proof.Machine
end

