-- ==== Sys2Proof/Machine/Dispatch.lean ====
section
/-! DEFINITION. One arm per command: HOST writes the command's word to `CMD` in the given state, and the command runs
(30_encoding.md rule R112). -/

namespace Sys2Proof.Machine

def exec (i : Instr) (s : State) : Host.Outcome State Fault Refusal :=
  match i with
  | .bufNew cap => Sys2Proof.Machine.execBufNew cap s
  | .bufSetlen len => Sys2Proof.Machine.execBufSetlen len s
  | .bufInfo => Sys2Proof.Machine.execBufInfo s
  | .bufFree => Sys2Proof.Machine.execBufFree s
  | .rxNew size => Sys2Proof.Machine.execRxNew size s
  | .rxStart n => Sys2Proof.Machine.execRxStart n s
  | .rxPoll => Sys2Proof.Machine.execRxPoll s
  | .rxState => Sys2Proof.Machine.execRxState s
  | .rxRecv => Sys2Proof.Machine.execRxRecv s
  | .txNew => Sys2Proof.Machine.execTxNew s
  | .txStart => Sys2Proof.Machine.execTxStart s
  | .txSend => Sys2Proof.Machine.execTxSend s
  | .txState => Sys2Proof.Machine.execTxState s
  | .txPoll => Sys2Proof.Machine.execTxPoll s
  | .txQlen => Sys2Proof.Machine.execTxQlen s
  | .txReap => Sys2Proof.Machine.execTxReap s
  | .ethNew n => Sys2Proof.Machine.execEthNew n s
  | .dmaReset => Sys2Proof.Machine.execDmaReset s
  | .ethInit => Sys2Proof.Machine.execEthInit s
  | .irqEnable => Sys2Proof.Machine.execIrqEnable s
  | .irqAck => Sys2Proof.Machine.execIrqAck s
  | .phyStatus => Sys2Proof.Machine.execPhyStatus s
  | .ethSend => Sys2Proof.Machine.execEthSend s

end Sys2Proof.Machine
end

