-- ==== Sys2Proof/Machine/Step.lean ====
section
/-! DEFINITION. One step of DRA: one move of the input while no command is running, a whole command where that move is
HOST's write to `CMD`, or the next round of a reset wait (00_scope.md rule R17, log entries 1 and 2). -/

namespace Sys2Proof.Machine

/-- One step. With nothing due and no command running DRA is idle and stays as it is (70_reset_and_hazards.md R352). -/
def step (s : State) : Host.Outcome State Fault Refusal :=
  match s.qm with
  | some q => resume q s
  | none =>
    match fetch s with
    | .nothing => .next s
    | .move m t => .next (applyMove m t)
    | .issue i t => exec i t
    | .illegal w t => .next (illegalCommand w t)

/-- `s` with the command whose bits are `w` as HOST's next write to `CMD`: the very next step runs it (log entry 2). -/
def State.withFetchWord (s : State) (_nbits w : Nat) : State := placeCommand (word w) s

end Sys2Proof.Machine
end

