-- ==== Sys2Proof/Safety.lean ====
section
/-! DEFINITION. The terms in which claims about DRA speak: what a command leaves when the other agents hold still, what
belongs to QM alone, the invariants of 10_state.md section 13, and how a run ends well (70_reset_and_hazards.md R375). -/

namespace Sys2Proof.Machine

/-! ## A command that runs undisturbed -/

/-- The other agents hold still while the next command runs: no move is left, or HOST waits for its end. -/
def State.quiet (s : State) : Bool :=
  match s.moves with
  | [] => true
  | .untilIdle :: _ => true
  | _ => false

/-- DRA takes a command and is not in the fatal state (10_state.md R22, R27). -/
def State.ready (s : State) : Prop := s.qm = none ∧ s.port.fault = 0

/-- The state after a command word `w`, issued in `s`, has ended with this code and these results: the events are its
`Cmd`, the events `mid` of its accesses, and its `Res`; nothing else differs from `s` (10_state.md R22, R26). -/
def State.answered (s : State) (w : Word) (c : Code) (r0 r1 : Word) (mid : List Event) : State :=
  { s with
    port := { s.port with code := c.byte, r0 := r0, r1 := r1 }
    qm := none
    hist := s.hist ++ [.cmd w s.port.a0] ++ mid ++ [.res c.byte r0 r1] }

/-- The refusals and results that leave everything but `CST`, `R0`, `R1` as it was (60_exceptions.md R317). -/
def State.refused (s : State) (i : Instr) (c : Code) : State := s.answered (encode i) c 0 0 []

/-- A word that is no command (30_encoding.md R118): an unassigned `op`, or a format without immediate and a non-zero
`w[23:0]`. -/
def illegalWord (w : Word) : Prop :=
  opField w ∉ [0x01, 0x02, 0x03, 0x04, 0x10, 0x11, 0x12, 0x13, 0x14, 0x20, 0x21, 0x22, 0x23, 0x24, 0x25, 0x26, 0x30,
      0x31, 0x32, 0x33, 0x34, 0x35, 0x36] ∨
    (opField w ∈ [0x03, 0x04, 0x12, 0x13, 0x14, 0x20, 0x21, 0x22, 0x23, 0x24, 0x25, 0x26, 0x31, 0x32, 0x33, 0x34, 0x35,
      0x36] ∧ immField w ≠ 0)

/-- A command has ended with this code and these results (10_state.md R26). -/
def State.ended (t : State) (c : Code) (r0 r1 : Word) : Prop :=
  t.qm = none ∧ t.port.code = c.byte ∧ t.port.r0 = r0 ∧ t.port.r1 = r1

/-- RXW after a demand poll: a suspended walker goes back to fetching (44_walker.md R270). -/
def polledRx (s : State) : Rxw :=
  if s.regs.resetPending = false ∧ s.rxw.ps = 4 then { s.rxw with ps := 1 } else s.rxw

/-- TXW after a demand poll (44_walker.md R290). -/
def polledTx (s : State) : Txw :=
  if s.regs.resetPending = false ∧ s.txw.ps = 6 then { s.txw with ps := 1 } else s.txw

/-- The event of a fall of the interrupt request to 0, if it was 1 (60_exceptions.md R321). -/
def irqFalls (s : State) : List Event := if irqCpu s then [.irq false] else []

/-! ## What is QM's alone -/

/-- The state no agent but QM writes: the tables, the cursors, the results, the fatal cause, the controller's bit, the
allocator (10_state.md R21, R23, R31, R35, R46). -/
structure QmView where
  par : Config.Params
  r0 : Word
  r1 : Word
  code : Byte
  fault : Byte
  qm : Option Qm
  bt : List (Word × BufRec)
  rx : RxRing
  tx : TxRing
  nvic : Bool
  heap : Heap
  deriving DecidableEq, Repr

/-- What is QM's alone in a state. -/
def qmView (s : State) : QmView where
  par := s.par
  r0 := s.port.r0
  r1 := s.port.r1
  code := s.port.code
  fault := s.port.fault
  qm := s.qm
  bt := s.bt
  rx := s.rx
  tx := s.tx
  nvic := s.nvic
  heap := s.heap

/-! ## Invariants -/

/-- The last level an `Irq` event of a history reports; the line is low at power-on (R321, R352). -/
def lastIrq (h : List Event) : Bool := h.foldl (fun b e => match e with | .irq l => l | _ => b) false

/-- The history reports every change of `irq_cpu` (60_exceptions.md R321). -/
def State.irqReported (s : State) : Prop := lastIrq s.hist = irqCpu s

/-- The low three bits of an address are zero. -/
def aligned8 (a : Word) : Prop := a.toNat % 8 = 0

/-- A register holds only fields that exist (10_state.md R38). -/
def onlyFields (r : Reg) (v : Word) : Prop := v &&& r.fields = v

/-- The ranges of the state: 10_state.md R30 to R37 (a transmit ring that is built has its fixed length, R34), R38, R47,
R48, R50 to R52, R64 and R27. -/
structure State.InRange (s : State) : Prop where
  par : s.par.wf = true
  fault : s.port.fault = 0 ∨ s.port.fault = Code.allocFailure.byte ∨ s.port.fault = Code.initHang.byte
  faultIdle : s.port.fault ≠ 0 → s.qm = none ∨ s.starved = true
  rxLen : s.rx.slots.length ≤ s.par.maxRing
  rxCur : s.rx.cur < max s.rx.slots.length 1
  rxSize : s.rx.bufSize ≤ Config.bufSizeMax
  rxMade : s.rx.constructed = true → 1 ≤ s.rx.bufSize
  rxUnmade : s.rx.constructed = false → s.rx.slots = []
  txLen : s.tx.slots.length ≤ s.par.maxRing
  txCur : s.tx.cur < max s.tx.slots.length 1
  txStarted : s.tx.started = true → s.tx.constructed = true
  txMade : s.tx.constructed = true → s.tx.slots.length = s.par.txRingLen
  txUnmade : s.tx.constructed = false → s.tx.cur = 0 ∧ (s.tx.slots = [] ∨ s.port.fault ≠ 0 ∨ s.starved = true)
  rxwPs : s.rxw.ps ≠ 2 ∧ s.rxw.ps ≠ 6
  txwPs : s.txw.ps ≠ 4 ∧ s.txw.ps ≠ 5
  rxwCur : aligned8 s.rxw.cur
  txwCur : aligned8 s.txw.cur
  frame : ∀ fr, s.rxw.fr = some fr → 1 ≤ fr.bytes.length ∧ fr.bytes.length ≤ Config.frameMax ∧ fr.pos ≤ fr.bytes.length
  framed : s.rxw.ps = 5 ∨ s.rxw.ps = 7 → s.rxw.fr ≠ none
  maccr : onlyFields .maccr s.regs.maccr
  macffr : onlyFields .macffr s.regs.macffr
  macmiiar : onlyFields .macmiiar s.regs.macmiiar
  macfcr : onlyFields .macfcr s.regs.macfcr
  dmabmr : onlyFields .dmabmr s.regs.dmabmr
  dmaomr : onlyFields .dmaomr s.regs.dmaomr
  dmaier : onlyFields .dmaier s.regs.dmaier

/-- The keys of the Buffer table rise strictly: it is a finite map (10_state.md R28). -/
def btRising (bt : List (Word × BufRec)) : Prop := bt.Pairwise fun x y => x.1 < y.1

/-- Ownership, alignment and allocation: 10_state.md R28, R29, R63 and R66 (its claims about the tables), 20_memory.md
R83, 40_buffer.md R164. In the middle of `RX_START` and `RX_RECV`, where a starved QM stops, a record names a slot the
table does not yet or no longer show it in; everything else holds there too. -/
structure State.Owned (s : State) : Prop where
  rising : btRising s.bt
  record : ∀ a r, btFind s.bt a = some r → aligned8 a ∧ a ≠ 0 ∧ 1 ≤ r.cap ∧ r.len ≤ r.cap
  rxDesc : ∀ e ∈ s.rx.slots, aligned8 e.desc
  txDesc : ∀ e ∈ s.tx.slots, aligned8 e.desc
  rxBuf : ∀ i e, s.rx.slots[i]? = some e →
    ∃ r, btFind s.bt e.buf = some r ∧ r.owner = .rxSlot i ∧ r.cap = s.rx.bufSize
  txBuf : ∀ i e b, s.tx.slots[i]? = some e → e.buf = some b → ∃ r, btFind s.bt b = some r ∧ r.owner = .txSlot i
  rxOwner : s.starved = false → ∀ a r i, btFind s.bt a = some r → r.owner = .rxSlot i → ∃ e, s.rx.slots[i]? = some e ∧ e.buf = a
  txOwner : ∀ a r i, btFind s.bt a = some r → r.owner = .txSlot i → ∃ e, s.tx.slots[i]? = some e ∧ e.buf = some a
  rxUnmade : s.rx.constructed = false → s.rx.slots = []
  rxMade : s.rx.constructed = true → 1 ≤ s.rx.bufSize
  txUnmade : s.tx.constructed = false → ∀ e ∈ s.tx.slots, e.buf = none
  txStarted : s.tx.started = true → s.tx.constructed = true
  apart : (liveRegions s).Pairwise fun x y => Region.disjoint x y = true
  inHeap : ∀ r ∈ liveRegions s, s.par.heapBase ≤ r.1 ∧ r.1 + r.2 ≤ s.par.heapBase + s.par.heapSize

/-- QM is busy between two steps only inside a reset wait, or where it makes no progress (log entries 19 and 20). -/
def State.busyWaits (s : State) : Prop :=
  ∀ q, s.qm = some q → q.starved = true ∨ ∃ i, decode q.cmd = .ok i ∧ (resumeBody i).isSome = true

/-! ## The reference allocator with room -/

/-- The bytes of heap an allocation of `size` takes from the reference allocator (20_memory.md R86). -/
def heapStep (size : Nat) : Nat := 8 * ((size + 7) / 8)

/-- The reference allocator answers next, everything live lies below `brk`, and `bytes` more fit (R83, R86). -/
structure State.HasRoom (s : State) (bytes : Nat) : Prop where
  reference : s.heap.draws = []
  base : s.par.heapBase ≤ s.heap.brk
  aligned : s.heap.brk % 8 = 0
  positive : 0 < s.heap.brk
  fits : s.heap.brk + bytes ≤ s.par.heapBase + s.par.heapSize
  wide : s.par.heapBase + s.par.heapSize ≤ 2 ^ 32
  below : ∀ r ∈ liveRegions s, r.1 + r.2 ≤ s.heap.brk

/-! ## Rings in memory -/

/-- The address lies in the descriptor at `d` (20_memory.md R74). -/
def inDesc (d : Word) (a : Word) : Prop := ∃ k : Nat, k < Config.descBytes ∧ a = d + word k

/-- The address lies in word `k` of the descriptor at `d`. -/
def inDescWord (d : Word) (k : Nat) (a : Word) : Prop := ∃ j : Nat, j < 4 ∧ a = descWord d k + word j

/-- One hop of a receive chain in memory: the next-descriptor function on words 1 and 3 of the descriptor (44_walker.md
R261). -/
def rxHop (m : Memory) (base d : Word) : Word :=
  let w1 := m.read32 (descWord d 1)
  nextDesc (rxRer w1) (rxRch w1) (m.read32 (descWord d 3)) base d

/-- One hop of a transmit chain in memory (R261, R289). -/
def txHop (m : Memory) (base d : Word) : Word :=
  let w0 := m.read32 (descWord d 0)
  nextDesc (txTer w0) (txTch w0) (m.read32 (descWord d 3)) base d

/-- The link of receive entry `i`: the next entry's descriptor, or 0 after the last (10_state.md R62). -/
def rxNext (s : State) (i : Nat) : Word := (s.rx.slots[i + 1]?.map (·.desc)).getD 0

/-- The link of transmit entry `i` (R62). -/
def txNext (s : State) (i : Nat) : Word := (s.tx.slots[i + 1]?.map (·.desc)).getD 0

/-- The descriptor of receive entry `e` is hardware-owned. -/
def RxSlot.owned (m : Memory) (e : RxSlot) : Prop := rxOwn (m.read32 (descWord e.desc 0)) = true

/-- The descriptor of transmit entry `e` is hardware-owned. -/
def TxSlot.owned (m : Memory) (e : TxSlot) : Prop := txOwn (m.read32 (descWord e.desc 0)) = true

/-- The tables, the descriptors in memory, the base registers and the walkers agree: 10_state.md R62 (chain shape), R66
(word 2), R61 with 44_walker.md R274 and R291 (a walker holds only hardware-owned descriptors of its ring), and what
keeps them (a walker of a ring that is not started is stopped; a reset is pending exactly in the reset wait). -/
structure State.RingLinks (s : State) : Prop where
  reset : s.regs.resetPending = s.qm.isSome
  rxStarted : s.rx.started = true → s.rx.slots ≠ [] ∧ s.regs.dmardlar = rxHead s
  txStarted : s.tx.started = true → s.tx.slots ≠ [] ∧ s.regs.dmatdlar = txHead s
  rxStopped : s.rx.started = false → s.rxw.ps = 0 ∧ s.regs.startRx = false
  txStopped : s.tx.started = false → s.txw.ps = 0 ∧ s.regs.startTx = false
  rxChain : s.rx.started = true → ∀ i e, s.rx.slots[i]? = some e →
    s.mem.read32 (descWord e.desc 3) = rxNext s i ∧
    s.mem.read32 (descWord e.desc 1) = rxCtrl (decide (i + 1 = s.rx.slots.length)) s.rx.bufSize
  txChain : s.tx.started = true → ∀ i e, s.tx.slots[i]? = some e →
    s.mem.read32 (descWord e.desc 3) = txNext s i ∧
    txTer (s.mem.read32 (descWord e.desc 0)) = decide (i + 1 = s.tx.slots.length) ∧
    txTch (s.mem.read32 (descWord e.desc 0)) = true
  rxWord2 : ∀ e ∈ s.rx.slots, s.mem.read32 (descWord e.desc 2) = e.buf
  txWord2 : ∀ e ∈ s.tx.slots, ∀ b, e.buf = some b → s.mem.read32 (descWord e.desc 2) = b
  txQueued : ∀ e ∈ s.tx.slots, e.owned s.mem → e.buf ≠ none
  rxAt : s.rxw.ps ≠ 0 → ∃ e ∈ s.rx.slots, e.desc = s.rxw.cur
  txAt : s.txw.ps ≠ 0 → ∃ e ∈ s.tx.slots, e.desc = s.txw.cur
  rxHolds : s.rxw.ps = 3 ∨ s.rxw.ps = 5 ∨ s.rxw.ps = 7 → ∃ e ∈ s.rx.slots, e.desc = s.rxw.cur ∧ e.owned s.mem ∧
    s.rxw.lat.buf = e.buf ∧ s.rxw.lat.size.toNat = s.rx.bufSize ∧
    (s.rxw.lat.eor = true ∨ (s.rxw.lat.ch = true ∧ ∃ f ∈ s.rx.slots, f.desc = s.rxw.lat.next))
  txHolds : s.txw.ps = 2 ∨ s.txw.ps = 3 ∨ s.txw.ps = 7 → ∃ e ∈ s.tx.slots, e.desc = s.txw.cur ∧ e.owned s.mem ∧
    e.buf = some s.txw.lat.buf ∧ s.txw.lat.w0 = s.mem.read32 (descWord e.desc 0) ∧
    s.txw.lat.next = s.mem.read32 (descWord e.desc 3)

/-- The rings are linked wherever 10_state.md section 13 says so: no fatal fault, and QM not stopped in the middle of a
command. -/
def State.Linked (s : State) : Prop := s.port.fault = 0 → s.starved = false → s.RingLinks

/-- No other agent moves while `RX_START` makes a started ring longer. A receive walker that runs through the ring while
it is being linked anew can come to a new entry that is not linked yet (70_reset_and_hazards.md R368, 90_conflicts.md
C3). -/
def State.regrowsAlone (s : State) : Prop :=
  ∀ n t, s.qm = none → fetch s = .issue (.rxStart n) t → t.rx.started = true → n ≤ t.rx.slots.length ∨ t.quiet = true

/-! ## Ends of a run -/

/-- HOST has no more commands to issue: no `CMD` write is left in the input (70_reset_and_hazards.md R375). -/
def State.hostDone (s : State) : Prop := ∀ m ∈ s.moves, cmdWord s.par m = none

/-- A run has ended well: HOST has no more commands to issue, no command is running, DRA is not in the fatal state, and
each walker is stopped, suspended or waiting for a packet (R375). -/
def State.endedWell (s : State) : Prop :=
  s.hostDone ∧ s.ready ∧ (s.rxw.ps = 0 ∨ s.rxw.ps = 3 ∨ s.rxw.ps = 4) ∧ (s.txw.ps = 0 ∨ s.txw.ps = 6)

end Sys2Proof.Machine
end

