-- ==== Sys2Proof/Certificates/Slice0/Obligations.lean ====
section
/-! DEFINITION. The statements about DRA for the provers: one `def Obligations.<Name> : Prop` each, listed in
OBLIGATIONS.json. A statement about an undisturbed command supposes that the other agents hold still meanwhile
(`State.quiet`; that a command is one step and the others' steps are an input is the model's choice, log entries 1 and
2) and gives the whole next state: `State.answered` changes the port, the history and nothing else. -/

open Sys2Proof Sys2Proof.Machine

/-! ## Encoding and the frame of a step -/

/-- Decoding the word of a well-formed command gives the command back (30_encoding.md R110 to R113). -/
def Obligations.DecodeInvertsEncode : Prop :=
  ∀ i : Instr, i.wf = true → decode (encode i) = .ok i

/-- Every 32-bit word is either exactly one command or illegal, and is illegal exactly when R118 says so (R133). -/
def Obligations.EveryWordIsOneCommandOrIllegal : Prop :=
  ∀ w : Word,
    (¬ illegalWord w → ∃ i, decode w = .ok i ∧ i.wf = true ∧ encode i = w ∧ ∀ j : Instr, j.wf = true → encode j = w → j = i) ∧
    (illegalWord w → (∃ e, decode w = .error e) ∧ ∀ j : Instr, j.wf = true → encode j ≠ w)

/-- Words written out from the opcode table of R112 decode to their commands, and some illegal words are refused. -/
def Obligations.SpecWordsDecode : Prop :=
  decode 0x0100003C = .ok (.bufNew 60) ∧ decode 0x0200003C = .ok (.bufSetlen 60) ∧ decode 0x11000002 = .ok (.rxStart 2) ∧
  decode 0x14000000 = .ok .rxRecv ∧ decode 0x22000000 = .ok .txSend ∧ decode 0x30000004 = .ok (.ethNew 4) ∧
  decode 0x36000000 = .ok .ethSend ∧ decode 0x12000001 = .error (.nonzeroImm 0x12 1) ∧
  decode 0x27000000 = .error (.unassignedOp 0x27)

/-- Where HOST's next move is a write of a command's word to `CMD` and no command runs, the step is that command; and
the host's placement of a word makes the very next step run it (10_state.md R22, log entry 2). -/
def Obligations.StepRunsDecodedCommand : Prop :=
  (∀ (s : State) (addr w : Word) (ms : List Move) (i : Instr), s.qm = none → s.moves = .portWrite addr w :: ms →
    portReg s.par addr = some .cmd → decode w = .ok i → step s = exec i (s.setMoves ms)) ∧
  (∀ (s : State) (w : Word) (i : Instr), decode w = .ok i →
    step (s.withFetchWord 32 w.toNat) = exec i (s.setQm none))

/-- While no command runs, a step is one move of one agent, and with no move due DRA stays as it is (00_scope.md R17,
70_reset_and_hazards.md R352). -/
def Obligations.IdleStepIsOneMove : Prop :=
  (∀ (s : State) (m : Move) (ms : List Move), s.qm = none → s.moves = m :: ms → cmdWord s.par m = none →
    step s = .next (applyMove m (s.setMoves ms))) ∧
  (∀ s : State, s.qm = none → s.moves = [] → step s = .next s)

/-- An illegal word is a command that does nothing but complete with `ILLEGAL` (30_encoding.md R118). -/
def Obligations.IllegalWordAnswersIllegal : Prop :=
  ∀ (s : State) (addr w : Word) (ms : List Move), s.ready → s.moves = .portWrite addr w :: ms →
    portReg s.par addr = some .cmd → (s.setMoves ms).quiet = true → illegalWord w →
    step s = .next ((s.setMoves ms).answered w .illegal 0 0 [])

/-- In the fatal state every command, and every illegal word, answers `FAULTED` under every schedule on which QM makes
progress (70_reset_and_hazards.md R372 (c)), and QM's own state does not change; undisturbed, nothing else changes
either (60_exceptions.md R316, 30_encoding.md R119). -/
def Obligations.FatalStateAnswersFaulted : Prop :=
  (∀ (i : Instr) (s : State), s.qm = none → s.port.fault ≠ 0 → .starve ∉ s.moves →
    ∃ t, exec i s = .next t ∧
      qmView t = { qmView s with r0 := 0, r1 := 0, code := Code.faulted.byte } ∧
      (s.quiet = true → t = s.answered (encode i) .faulted 0 0 [])) ∧
  (∀ (s : State) (addr w : Word) (ms : List Move), s.qm = none → s.port.fault ≠ 0 → .starve ∉ ms →
    s.moves = .portWrite addr w :: ms → portReg s.par addr = some .cmd → illegalWord w →
    ∃ t, step s = .next t ∧
      qmView t = { qmView s with r0 := 0, r1 := 0, code := Code.faulted.byte } ∧
      ((s.setMoves ms).quiet = true → t = (s.setMoves ms).answered w .faulted 0 0 []))

/-- A `CMD` write while a command runs changes nothing (10_state.md R22). -/
def Obligations.CmdWriteWhileBusyIsIgnored : Prop :=
  (∀ (i : Instr) (s : State), s.qm.isSome = true → exec i s = .next s) ∧
  (∀ (addr w : Word) (s : State), portReg s.par addr = some .cmd → applyMove (.portWrite addr w) s = s)

/-- The port as HOST reads and writes it: `CMD` reads 0, the other five registers read what they hold, `CST` holds the
code in its low byte, `BUSY` in bit 31 and 0 between; a write to `A0` stores the value and changes nothing else, a
write to `R0`, `R1`, `CST` or `FAULT`, or to an address that is no port register, changes nothing (10_state.md R21,
R24, R25, R27). That it holds where `P_CMD_BASE` is no multiple of 4 too is the model's choice (log entry 21). -/
def Obligations.PortReadsAndWrites : Prop :=
  ∀ s : State,
    (portRead s.par.cmdBase s = some 0 ∧ portRead (s.par.cmdBase + 0x04) s = some s.port.a0 ∧
      portRead (s.par.cmdBase + 0x08) s = some s.port.r0 ∧ portRead (s.par.cmdBase + 0x0C) s = some s.port.r1 ∧
      portRead (s.par.cmdBase + 0x10) s = some s.cst ∧
      portRead (s.par.cmdBase + 0x14) s = some (s.port.fault.setWidth 32) ∧
      s.cst.setWidth 8 = s.port.code ∧ s.cst.getLsbD 31 = s.qm.isSome ∧
      (∀ k : Nat, 8 ≤ k → k ≤ 30 → s.cst.getLsbD k = false)) ∧
    (∀ v : Word,
      applyMove (.portWrite (s.par.cmdBase + 0x04) v) s = s.setPort { s.port with a0 := v } ∧
      (∀ off : Word, off = 0x08 ∨ off = 0x0C ∨ off = 0x10 ∨ off = 0x14 →
        applyMove (.portWrite (s.par.cmdBase + off) v) s = s) ∧
      (∀ addr : Word, (∀ k : Nat, k < 6 → addr ≠ s.par.cmdBase + word (4 * k)) →
        portRead addr s = none ∧ applyMove (.portWrite addr v) s = s))

/-- Memory words are little-endian, a word written reads back, and no other byte changes. The rules speak of addresses
that are multiples of 4; that the same holds at every other address, sums past the top wrapping, is the model's choice
(20_memory.md R72, R75, log entry 12). -/
def Obligations.WordsAreLittleEndian : Prop :=
  ∀ (m : Memory) (a v : Word),
    (m.read32 a).toNat = (m.read a).toNat + 2 ^ 8 * (m.read (a + 1)).toNat + 2 ^ 16 * (m.read (a + 2)).toNat +
      2 ^ 24 * (m.read (a + 3)).toNat ∧
    (m.write32 a v).read32 a = v ∧ (m.write32 a v).read a = v.extractLsb' 0 8 ∧
    (m.write32 a v).read (a + 1) = v.extractLsb' 8 8 ∧ (m.write32 a v).read (a + 2) = v.extractLsb' 16 8 ∧
    (m.write32 a v).read (a + 3) = v.extractLsb' 24 8 ∧
    (∀ b : Word, (∀ j : Nat, j < 4 → b ≠ a + word j) → (m.write32 a v).read b = m.read b)

/-! ## Invariants of every step -/

/-- Every step keeps the memory in its canonical form. The form is the model's own (log entry 4). -/
def Obligations.StepKeepsMemoryCanonical : Prop :=
  ∀ s t : State, s.mem.wf = true → step s = .next t → t.mem.wf = true

/-- The state after reset meets every invariant stated here (10_state.md R59; the values the model chose are log
entries 3 to 5, 7 and 8). -/
def Obligations.ResetMeetsInvariants : Prop :=
  State.reset.mem.wf = true ∧ State.reset.InRange ∧ State.reset.Owned ∧ State.reset.Linked ∧
    State.reset.irqReported ∧ State.reset.busyWaits

/-- Every step keeps every counter, cursor, fatal cause, register and walker field in its range (10_state.md R30 to
R38, R47, R48, R50 to R52, R64). -/
def Obligations.StepKeepsRanges : Prop :=
  ∀ s t : State, s.InRange → step s = .next t → t.InRange

/-- Every step keeps ownership, alignment and the disjointness of live regions (10_state.md R28, R29, R63, R66;
20_memory.md R83). -/
def Obligations.StepKeepsOwnership : Prop :=
  ∀ s t : State, s.Owned → step s = .next t → t.Owned

/-- Every step keeps the rings linked: the chains in memory, the base registers, word 2 and the walkers' places agree
with the tables, and a walker holds only hardware-owned descriptors (10_state.md R61, R62, R66; 44_walker.md R274,
R291). The one hazard that breaks it, RXW running through a started ring while `RX_START` makes it longer, is left out
as 10_state.md section 13 leaves it out (70_reset_and_hazards.md R368). -/
def Obligations.StepKeepsRingLinks : Prop :=
  ∀ s t : State, s.InRange → s.Owned → s.Linked → s.regrowsAlone → step s = .next t → t.Linked

/-- Every change of `irq_cpu` is reported by an `Irq` event, in every step (60_exceptions.md R321). -/
def Obligations.StepReportsInterruptLevel : Prop :=
  ∀ s t : State, s.irqReported → step s = .next t → t.irqReported

/-- No step faults or refuses, and QM is busy between steps only inside a reset wait or where it makes no progress.
That a command without a wait is otherwise one step is the model's choice (log entries 1, 13, 19, 20). -/
def Obligations.StepAlwaysAnswers : Prop :=
  ∀ s : State, s.busyWaits → ∃ t, step s = .next t ∧ t.busyWaits

/-- No step changes a parameter or the power-on contents of memory. That both stand in the state is the model's choice
(log entries 3 and 4). -/
def Obligations.ParametersNeverChange : Prop :=
  ∀ s t : State, step s = .next t → t.par = s.par ∧ t.mem.init = s.mem.init

/-- Neither ring's length ever decreases (10_state.md R65). -/
def Obligations.RingsNeverShrink : Prop :=
  ∀ s t : State, s.InRange → step s = .next t →
    s.rx.slots.length ≤ t.rx.slots.length ∧ s.tx.slots.length ≤ t.tx.slots.length

/-- A fatal cause stays: no step changes `FAULT` once it is non-zero (10_state.md R27). -/
def Obligations.FatalCauseIsSticky : Prop :=
  ∀ s t : State, s.InRange → s.port.fault ≠ 0 → step s = .next t → t.port.fault = s.port.fault

/-- QM's progress is an assumption, no law: where it makes none, a command of any kind is left busy in the middle, and
from then on the other agents move and QM does not; nothing of QM's own changes any more (70_reset_and_hazards.md R372
(c)). How a run without QM's progress is given, as a move of the input, is the model's choice (log entry 20). -/
def Obligations.QmMayMakeNoProgress : Prop :=
  (∀ (i : Instr) (s : State) (ms rest : List Move), s.qm = none → s.moves = ms ++ .starve :: rest →
    .qm ∉ ms → .untilIdle ∉ ms → .starve ∉ ms →
    ∃ t, exec i s = .next t ∧ t.starved = true ∧ t.cst.getLsbD 31 = true ∧ t.moves = rest) ∧
  (∀ s : State, s.starved = true →
    ∃ t, step s = .next t ∧ qmView t = qmView s ∧ t.moves = s.moves.tail ∧
      (∀ m ms, s.moves = m :: ms → t = applyMove m (s.setMoves ms)))

/-- Whatever the other agents do meanwhile, HOST's writes to the port among it, a Buffer command answers for the
operand sampled at its start, and changes QM's tables exactly as its rule says, if QM makes progress (10_state.md R22,
R31, R35; 20_memory.md R90; 70_reset_and_hazards.md R372 (c)). -/
def Obligations.BufferCommandsUnderAnySchedule : Prop :=
  ∀ s : State, s.ready → .starve ∉ s.moves →
    (∀ (cap : Nat) (a : Word) (h : Heap), 0 < cap → proposal cap s = (some a, h) → admissible s [] cap a = true →
      ∃ t, exec (.bufNew cap) s = .next t ∧
        qmView t = { qmView s with r0 := a, r1 := word cap, code := Code.ok.byte, heap := h
                                   bt := btInsert s.bt a { cap := cap, len := 0, owner := .host } }) ∧
    (∀ (r : BufRec), btFind s.bt s.port.a0 = some r → r.owner = .host →
      (∀ len : Nat, len ≤ r.cap →
        ∃ t, exec (.bufSetlen len) s = .next t ∧
          qmView t = { qmView s with r0 := 0, r1 := 0, code := Code.ok.byte
                                     bt := btInsert s.bt s.port.a0 { r with len := len } }) ∧
      (∃ t, exec .bufInfo s = .next t ∧
        qmView t = { qmView s with r0 := word r.cap, r1 := word r.len, code := Code.ok.byte }) ∧
      (∃ t, exec .bufFree s = .next t ∧
        qmView t = { qmView s with r0 := 0, r1 := 0, code := Code.ok.byte, bt := btErase s.bt s.port.a0 }))

/-! ## Walkers -/

/-- The next-descriptor function: end-of-ring before the pointer, the walker's own place with neither flag; it never
leaves the 8-byte grid (44_walker.md R261). -/
def Obligations.NextDescriptorFunction : Prop :=
  ∀ (eor ch : Bool) (nxt base cur : Word),
    (eor = true → nextDesc eor ch nxt base cur = base &&& 0xFFFFFFF8) ∧
    (eor = false → ch = true → nextDesc eor ch nxt base cur = nxt &&& 0xFFFFFFF8) ∧
    (eor = false → ch = false → nextDesc eor ch nxt base cur = cur) ∧
    (aligned8 cur → aligned8 (nextDesc eor ch nxt base cur))

/-- RXW's fetch: a software-owned descriptor suspends it, with nothing else read or changed; a hardware-owned one is
latched field by field, and RXW waits, or goes on with the frame in progress (44_walker.md R264). -/
def Obligations.RxwFetchesDescriptor : Prop :=
  ∀ s : State, s.regs.resetPending = false → s.rxw.ps = 1 →
    let w (k : Nat) : Word := s.mem.read32 (s.rxw.cur + word (4 * k))
    ((w 0).getLsbD 31 = false → rxwStep s = s.setRxw { s.rxw with ps := 4 }) ∧
    ((w 0).getLsbD 31 = true →
      rxwStep s = s.setRxw
        { s.rxw with
          lat := { buf := w 2, size := (w 1).extractLsb' 0 13, eor := (w 1).getLsbD 15, ch := (w 1).getLsbD 14,
                   next := w 3 }
          ps := if s.rxw.fr = none then 3 else 7 })

/-- RXW's transfer: at most `size` bytes of the frame, in arrival order from the truncated buffer pointer up, and no
other byte of memory (44_walker.md R266). -/
def Obligations.RxwTransfersFrameBytes : Prop :=
  ∀ (s : State) (fr : Frame), s.regs.resetPending = false → s.rxw.ps = 7 → s.rxw.fr = some fr →
    fr.pos ≤ fr.bytes.length →
    let b := s.rxw.lat.buf &&& 0xFFFFFFF8
    let k := min (fr.bytes.length - fr.pos) s.rxw.lat.size.toNat
    let t := rxwStep s
    (∀ j : Nat, j < k → some (t.mem.read (b + word j)) = fr.bytes[fr.pos + j]?) ∧
    (∀ x : Word, (∀ j : Nat, j < k → x ≠ b + word j) → t.mem.read x = s.mem.read x) ∧
    t = (s.setMem t.mem).setRxw { s.rxw with fr := some { fr with pos := fr.pos + k }, ps := 5 }

/-- The close word: OWN 0; frame length, last-segment and a frame error on the frame's last descriptor only;
first-segment on its first; every other bit 0 (44_walker.md R267). -/
def Obligations.RxwCloseWordFields : Prop :=
  ∀ fr : Frame, fr.bytes.length ≤ Config.frameMax → fr.pos ≤ fr.bytes.length →
    let cw := rxCloseWord fr
    let last := decide (fr.pos = fr.bytes.length)
    (cw.extractLsb' 16 14).toNat = (if last then fr.pos else 0) ∧ cw.getLsbD 15 = (last && fr.err) ∧
    cw.getLsbD 9 = fr.first ∧ cw.getLsbD 8 = last ∧
    (∀ k : Nat, k ≤ 7 ∨ (10 ≤ k ∧ k ≤ 14) ∨ 30 ≤ k → cw.getLsbD k = false)

/-- RXW's close: word 0 of its descriptor becomes the close word and no other byte changes; on the frame's last
descriptor `RS` is set, and `NIS` with it if `RIE` is 1; the walker goes to the next descriptor and fetches
(44_walker.md R269). -/
def Obligations.RxwClosesDescriptor : Prop :=
  ∀ (s : State) (fr : Frame), s.regs.resetPending = false → s.rxw.ps = 5 → s.rxw.fr = some fr →
    let t := rxwStep s
    let last := decide (fr.pos = fr.bytes.length)
    t.mem.read32 s.rxw.cur = rxCloseWord fr ∧
    (∀ x : Word, ¬ inDescWord s.rxw.cur 0 x → t.mem.read x = s.mem.read x) ∧
    t.regs = { s.regs with rs := s.regs.rs || last, nis := s.regs.nis || (last && s.regs.dmaier.getLsbD 6) } ∧
    t.rxw.ps = 1 ∧ t.rxw.fr = (if last then none else some { fr with first := false }) ∧
    t.rxw.cur = nextDesc s.rxw.lat.eor s.rxw.lat.ch s.rxw.lat.next s.regs.dmardlar s.rxw.cur ∧
    qmView t = qmView s ∧ t.txw = s.txw ∧ t.port = s.port ∧
    t.hist = s.hist ++ (if irqCpu t = irqCpu s then [] else [.irq (irqCpu t)])

/-- TXW's fetch and read: a software-owned descriptor suspends it; a hardware-owned one is latched, and exactly `size`
bytes are appended in ascending order, to a fresh frame on a first segment (44_walker.md R284, R285). -/
def Obligations.TxwFetchesAndReads : Prop :=
  (∀ s : State, s.regs.resetPending = false → s.txw.ps = 1 →
    let w (k : Nat) : Word := s.mem.read32 (s.txw.cur + word (4 * k))
    ((w 0).getLsbD 31 = false → txwStep s = s.setTxw { s.txw with ps := 6 }) ∧
    ((w 0).getLsbD 31 = true →
      txwStep s = s.setTxw
        { s.txw with lat := { w0 := w 0, size := (w 1).extractLsb' 0 13, buf := w 2, next := w 3 }, ps := 3 })) ∧
  (∀ s : State, s.regs.resetPending = false → s.txw.ps = 3 →
    let b := s.txw.lat.buf &&& 0xFFFFFFF8
    let bytes := (List.range s.txw.lat.size.toNat).map fun j => s.mem.read (b + word j)
    txwStep s = s.setTxw
      { s.txw with asm := (if s.txw.lat.w0.getLsbD 28 then [] else s.txw.asm) ++ bytes
                   ps := if s.txw.lat.w0.getLsbD 29 then 2 else 7 })

/-- TXW's emit and close: the assembled frame leaves as one event; the close writes the fetched word with OWN cleared
and no other byte; a last segment sets `TS`, and `NIS` with it if `TIE` is 1 (44_walker.md R286, R287, R289). -/
def Obligations.TxwEmitsAndCloses : Prop :=
  (∀ s : State, s.regs.resetPending = false → s.txw.ps = 2 →
    txwStep s = emit (.txFrame s.txw.asm) (s.setTxw { s.txw with asm := [], ps := 7 })) ∧
  (∀ s : State, s.regs.resetPending = false → s.txw.ps = 7 →
    let t := txwStep s
    let w0 := s.txw.lat.w0
    t.mem.read32 s.txw.cur = w0 &&& 0x7FFFFFFF ∧
    (∀ x : Word, ¬ inDescWord s.txw.cur 0 x → t.mem.read x = s.mem.read x) ∧
    t.regs = { s.regs with ts := s.regs.ts || w0.getLsbD 29
                           nis := s.regs.nis || (w0.getLsbD 29 && s.regs.dmaier.getLsbD 0) } ∧
    t.txw.ps = 1 ∧ t.txw.asm = s.txw.asm ∧
    t.txw.cur = nextDesc (w0.getLsbD 21) (w0.getLsbD 20) s.txw.lat.next s.regs.dmatdlar s.txw.cur ∧
    qmView t = qmView s ∧ t.rxw = s.rxw ∧ t.port = s.port ∧
    t.hist = s.hist ++ (if irqCpu t = irqCpu s then [] else [.irq (irqCpu t)]))

/-- What the walkers may write: RXW the Buffer bytes of its latched descriptor while transferring and word 0 of its
descriptor while closing; TXW word 0 of its descriptor while closing; nothing else, whatever their state. While the
rings are linked, the descriptor is one of the ring's, its OWN bit is 1, and the Buffer is the one it references
(44_walker.md R274, R291; 10_state.md R61). -/
def Obligations.WalkersWriteOnlyWhatTheyOwn : Prop :=
  ∀ (s : State) (x : Word),
    ((rxwStep s).mem.read x ≠ s.mem.read x →
      (s.rxw.ps = 7 ∧ ∃ j : Nat, j < s.rxw.lat.size.toNat ∧ x = trunc8 s.rxw.lat.buf + word j) ∨
      (s.rxw.ps = 5 ∧ inDescWord s.rxw.cur 0 x)) ∧
    ((txwStep s).mem.read x ≠ s.mem.read x → s.txw.ps = 7 ∧ inDescWord s.txw.cur 0 x) ∧
    (s.Owned → s.RingLinks →
      ((rxwStep s).mem.read x ≠ s.mem.read x →
        ∃ e ∈ s.rx.slots, e.desc = s.rxw.cur ∧ (s.mem.read32 e.desc).getLsbD 31 = true ∧
          (inDescWord e.desc 0 x ∨ ∃ j : Nat, j < s.rx.bufSize ∧ x = e.buf + word j)) ∧
      ((txwStep s).mem.read x ≠ s.mem.read x →
        ∃ e ∈ s.tx.slots, e.desc = s.txw.cur ∧ (s.mem.read32 e.desc).getLsbD 31 = true ∧ inDescWord e.desc 0 x))

/-- While a DMA reset is pending neither walker steps, MAC-RX cannot deliver, and a demand poll has no effect
(70_reset_and_hazards.md R356). -/
def Obligations.WalkersFreezeDuringReset : Prop :=
  ∀ s : State, s.regs.resetPending = true →
    rxwStep s = s ∧ txwStep s = s ∧ (∀ bytes err, macRxOffer bytes err s = s) ∧
    (∀ v, regWrite .dmarpdr v s = s) ∧ (∀ v, regWrite .dmatpdr v s = s)

/-- Starting, waiting and suspension: a stopped walker starts at its base register exactly when its start bit is set;
a waiting RXW has no step of its own; a suspended RXW re-fetches only under the parameter, a suspended TXW never
(44_walker.md R263, R271, R283, R290, R293). -/
def Obligations.WalkersStartAndSuspend : Prop :=
  ∀ s : State, s.regs.resetPending = false →
    (s.rxw.ps = 0 → s.regs.dmaomr.getLsbD 1 = true →
      rxwStep s = s.setRxw { s.rxw with cur := s.regs.dmardlar &&& 0xFFFFFFF8, ps := 1 }) ∧
    (s.rxw.ps = 0 → s.regs.dmaomr.getLsbD 1 = false → rxwStep s = s) ∧
    (s.rxw.ps = 3 → rxwStep s = s) ∧
    (s.rxw.ps = 4 → s.par.rxwRefetch = false → rxwStep s = s) ∧
    (s.rxw.ps = 4 → s.par.rxwRefetch = true → rxwStep s = s.setRxw { s.rxw with ps := 1 }) ∧
    (s.txw.ps = 0 → s.regs.dmaomr.getLsbD 13 = true →
      txwStep s = s.setTxw { s.txw with cur := s.regs.dmatdlar &&& 0xFFFFFFF8, ps := 1 }) ∧
    (s.txw.ps = 0 → s.regs.dmaomr.getLsbD 13 = false → txwStep s = s) ∧
    (s.txw.ps = 6 → txwStep s = s)

/-- RST's step: registers and walkers are cleared; memory, tables, cursors, the unmask bit and the command port are
not; the request line falls with an event (70_reset_and_hazards.md R357). Without a pending reset RST has no step. -/
def Obligations.ResetCompletionClearsHardware : Prop :=
  ∀ s : State,
    (s.regs.resetPending = false → rstStep s = s) ∧
    (s.regs.resetPending = true →
      let t := rstStep s
      t.regs = { maccr := 0, macffr := 0, macmiiar := 0, macfcr := 0, dmabmr := 0, dmardlar := 0, dmatdlar := 0,
                 dmaomr := 0, dmaier := 0, ts := false, rs := false, nis := false } ∧
      t.rxw = { ps := 0, cur := 0, lat := t.rxw.lat, fr := none } ∧
      t.txw = { ps := 0, cur := 0, lat := t.txw.lat, asm := [] } ∧
      dmasr t = 0 ∧ t.mem = s.mem ∧ qmView t = qmView s ∧ t.port = s.port ∧ t.hist = s.hist ++ irqFalls s)

/-- MAC-RX's move: a frame of 1 to `P_FRAME_MAX` bytes is accepted by a waiting RXW with an event; at any other time
nothing happens (44_walker.md R262, R265, R272). -/
def Obligations.FramesAreAcceptedOnlyWhileWaiting : Prop :=
  ∀ (s : State) (bytes : List Byte) (err : Bool),
    (s.regs.resetPending = false → s.rxw.ps = 3 → 1 ≤ bytes.length → bytes.length ≤ 16383 →
      macRxOffer bytes err s = emit (.rxFrame bytes err)
        (s.setRxw { s.rxw with fr := some { bytes := bytes, err := err, pos := 0, first := true }, ps := 7 })) ∧
    (s.rxw.ps ≠ 3 → macRxOffer bytes err s = s)

/-- HOST's access to payload bytes: exactly the bytes of Buffers it owns; any other access is no move (40_buffer.md
R162). -/
def Obligations.HostTouchesOnlyItsBuffers : Prop :=
  ∀ (s : State) (a : Word) (v : Byte),
    let may := ∃ k r, (k, r) ∈ s.bt ∧ r.owner = .host ∧ k.toNat ≤ a.toNat ∧ a.toNat < k.toNat + r.cap
    (may → applyMove (.poke a v) s = s.setMem (s.mem.write a v) ∧ hostPeek a s = some (s.mem.read a)) ∧
    (¬ may → applyMove (.poke a v) s = s ∧ hostPeek a s = none)

/-! ## Buffer commands -/

/-- `BUF_NEW` (40_buffer.md R151). A drawn address that breaks the laws of 20_memory.md R84 counts as a failed
allocation and its draw is spent: that is the model's choice (log entry 5). -/
def Obligations.BufNewCreatesBuffer : Prop :=
  ∀ (cap : Nat) (s : State), s.ready → s.quiet = true →
    (cap = 0 → exec (.bufNew cap) s = .next (s.refused (.bufNew cap) .badRange)) ∧
    (0 < cap → ∀ (a : Word) (h : Heap), proposal cap s = (some a, h) → admissible s [] cap a = true →
      exec (.bufNew cap) s =
        .next (((s.setBt (btInsert s.bt a { cap := cap, len := 0, owner := .host })).setHeap h).answered
          (encode (.bufNew cap)) .ok a (word cap) [])) ∧
    (0 < cap → ∀ (o : Option Word) (h : Heap), proposal cap s = (o, h) →
      (∀ a, o = some a → admissible s [] cap a = false) →
      exec (.bufNew cap) s = .next ((s.setHeap h).refused (.bufNew cap) .allocFailure))

/-- `BUF_SETLEN` (40_buffer.md R154). -/
def Obligations.BufSetlenSetsLength : Prop :=
  ∀ (len : Nat) (s : State), s.ready → s.quiet = true →
    (∀ r, btFind s.bt s.port.a0 = some r → r.owner = .host → len ≤ r.cap →
      exec (.bufSetlen len) s =
        .next ((s.setBt (btInsert s.bt s.port.a0 { r with len := len })).answered (encode (.bufSetlen len)) .ok 0 0 [])) ∧
    (∀ r, btFind s.bt s.port.a0 = some r → r.owner = .host → r.cap < len →
      exec (.bufSetlen len) s = .next (s.refused (.bufSetlen len) .badLength)) ∧
    ((∀ r, btFind s.bt s.port.a0 = some r → r.owner ≠ .host) →
      exec (.bufSetlen len) s = .next (s.refused (.bufSetlen len) .badBuffer))

/-- `BUF_INFO` (40_buffer.md R157). -/
def Obligations.BufInfoAnswersCapacityAndLength : Prop :=
  ∀ s : State, s.ready → s.quiet = true →
    (∀ r, btFind s.bt s.port.a0 = some r → r.owner = .host →
      exec .bufInfo s = .next (s.answered (encode .bufInfo) .ok (word r.cap) (word r.len) [])) ∧
    ((∀ r, btFind s.bt s.port.a0 = some r → r.owner ≠ .host) →
      exec .bufInfo s = .next (s.refused .bufInfo .badBuffer))

/-- `BUF_FREE` (40_buffer.md R160). -/
def Obligations.BufFreeEndsBuffer : Prop :=
  ∀ s : State, s.ready → s.quiet = true →
    (∀ r, btFind s.bt s.port.a0 = some r → r.owner = .host →
      exec .bufFree s = .next ((s.setBt (btErase s.bt s.port.a0)).answered (encode .bufFree) .ok 0 0 [])) ∧
    ((∀ r, btFind s.bt s.port.a0 = some r → r.owner ≠ .host) →
      exec .bufFree s = .next (s.refused .bufFree .badBuffer))

/-! ## Receive ring commands -/

/-- `RX_NEW` (41_rx_ring.md R171). -/
def Obligations.RxNewCreatesEmptyRing : Prop :=
  ∀ (size : Nat) (s : State), s.ready → s.quiet = true →
    (s.rx.constructed = false → 1 ≤ size → size ≤ 8191 →
      exec (.rxNew size) s =
        .next ((s.setRx { constructed := true, started := false, bufSize := size, slots := [], cur := 0 }).answered
          (encode (.rxNew size)) .ok 0 0 [])) ∧
    (s.rx.constructed = true → exec (.rxNew size) s = .next (s.refused (.rxNew size) .badState)) ∧
    (s.rx.constructed = false → size = 0 ∨ 8191 < size →
      exec (.rxNew size) s = .next (s.refused (.rxNew size) .badRange))

/-- `RX_START n` with the reference allocator and room (20_memory.md R86, log entry 5): the new entries and their
Buffers, word by word; the chain of 10_state.md R62 with its one end-of-ring flag, on which the next-descriptor
function goes round; the registers and the poll; old entries keep words 0 and 2; no byte outside the descriptors
changes (41_rx_ring.md R173 to R177). -/
def Obligations.RxStartBuildsCircularChain : Prop :=
  ∀ (n : Nat) (s : State), s.ready → s.quiet = true → s.InRange → s.Owned → s.rx.constructed = true →
    n ≤ s.par.maxRing → 0 < max n s.rx.slots.length →
    let size := s.rx.bufSize
    let old := s.rx.slots
    let k := n - old.length
    let stride := 16 + heapStep size
    (0 < k → s.HasRoom (k * stride)) →
    let fresh := (List.range k).map fun j =>
      ({ desc := word (s.heap.brk + j * stride), buf := word (s.heap.brk + j * stride + 16) } : RxSlot)
    let slots := old ++ fresh
    ∃ t, exec (.rxStart n) s = .next t ∧
      t = ((((((s.setRx { s.rx with started := true, slots := slots }).setRegs
        { s.regs with dmardlar := ((slots.head?.map (·.desc)).getD 0), dmaomr := s.regs.dmaomr ||| 0x00000002 }).setRxw
        (polledRx s)).setBt t.bt).setHeap { s.heap with brk := s.heap.brk + k * stride }).setMem t.mem).answered
        (encode (.rxStart n)) .ok (word slots.length) 0 [] ∧
      (∀ j e, fresh[j]? = some e →
        btFind t.bt e.buf = some { cap := size, len := 0, owner := .rxSlot (old.length + j) }) ∧
      (∀ a, (∀ e ∈ fresh, e.buf ≠ a) → btFind t.bt a = btFind s.bt a) ∧
      (∀ i e, slots[i]? = some e →
        t.mem.read32 (descWord e.desc 3) = ((slots[i + 1]?.map (·.desc)).getD 0) ∧
        t.mem.read32 (descWord e.desc 1) =
          (if i + 1 = slots.length then 0x0000C000 ||| word size else 0x00004000 ||| word size) ∧
        (i < old.length → t.mem.read32 (descWord e.desc 0) = s.mem.read32 (descWord e.desc 0) ∧
          t.mem.read32 (descWord e.desc 2) = s.mem.read32 (descWord e.desc 2)) ∧
        (old.length ≤ i → t.mem.read32 (descWord e.desc 0) = 0x80000000 ∧
          t.mem.read32 (descWord e.desc 2) = e.buf) ∧
        some (rxHop t.mem t.regs.dmardlar e.desc) = (slots[(i + 1) % slots.length]?.map (·.desc))) ∧
      (∀ x : Word, (∀ e ∈ slots, ¬ inDesc e.desc x) → t.mem.read x = s.mem.read x)

/-- `RX_POLL` and `TX_POLL`: a suspended walker goes back to fetching; nothing else changes. `RX_STATE` and
`TX_STATE`: the decoded process state in `R0` by the fixed mapping, the raw code in `R1`; nothing else changes
(41_rx_ring.md R179 to R181; 42_tx_ring.md R217, R219). -/
def Obligations.PollsAndStateQueries : Prop :=
  ∀ s : State, s.ready → s.quiet = true →
    exec .rxPoll s = .next ((s.setRxw (polledRx s)).answered (encode .rxPoll) .ok 0 0 []) ∧
    exec .txPoll s = .next ((s.setTxw (polledTx s)).answered (encode .txPoll) .ok 0 0 []) ∧
    exec .rxState s = .next (s.answered (encode .rxState) .ok
      (if s.rxw.ps = 0 ∨ s.rxw.ps = 4 then 0 else if s.rxw.ps = 2 ∨ s.rxw.ps = 6 then 2 else 1)
      (s.rxw.ps.setWidth 32) []) ∧
    exec .txState s = .next (s.answered (encode .txState) .ok
      (if s.txw.ps = 0 ∨ s.txw.ps = 6 then 0 else if s.txw.ps = 4 ∨ s.txw.ps = 5 then 2 else 1)
      (s.txw.ps.setWidth 32) [])

/-- `RX_RECV` on a complete frame: the slot's Buffer is handed to HOST with the clamped length and replaced by a fresh
one at another address; word 2, then word 0 with OWN set; the cursor advances, a suspended engine is polled; no other
byte of memory changes (41_rx_ring.md R187, R188, R190, R191). -/
def Obligations.RxRecvSwapsBuffer : Prop :=
  ∀ (s : State) (e : RxSlot) (r : BufRec) (nb : Word) (h : Heap), s.ready → s.quiet = true → s.Owned →
    s.rx.slots[s.rx.cur]? = some e → btFind s.bt e.buf = some r →
    let d := e.desc
    let w0 := s.mem.read32 d
    let size := s.rx.bufSize
    w0.getLsbD 31 = false → w0.getLsbD 15 = false → w0.getLsbD 9 = true → w0.getLsbD 8 = true →
    proposal size s = (some nb, h) → admissible s [] size nb = true →
    let len := min (w0.extractLsb' 16 14).toNat r.cap
    ∃ t, exec .rxRecv s = .next t ∧ nb ≠ e.buf ∧
      t = ((((((s.setRx { s.rx with slots := s.rx.slots.set s.rx.cur { e with buf := nb }
                                    cur := (s.rx.cur + 1) % s.rx.slots.length }).setBt
        (btInsert (btInsert s.bt nb { cap := size, len := 0, owner := .rxSlot s.rx.cur }) e.buf
          { r with len := len, owner := .host })).setHeap h).setRxw (polledRx s)).setMem t.mem)).answered
        (encode .rxRecv) .ok e.buf (word len) [] ∧
      t.mem.read32 d = w0 ||| 0x80000000 ∧ t.mem.read32 (d + 8) = nb ∧
      (∀ x : Word, ¬ inDescWord d 0 x → ¬ inDescWord d 2 x → t.mem.read x = s.mem.read x)

/-- `RX_RECV` otherwise: nothing on an empty ring or a hardware-owned entry; a frame in error and a fragment are
dropped with a diagnostic, word 0 gets OWN back and nothing else of memory changes, the cursor advances (in the error
case as the parameter says), a suspended engine is polled (41_rx_ring.md R182, R184 to R186, R189 to R191). -/
def Obligations.RxRecvDropsAndRefuses : Prop :=
  ∀ s : State, s.ready → s.quiet = true →
    (s.rx.slots = [] → exec .rxRecv s = .next (s.refused .rxRecv .badState)) ∧
    (∀ e : RxSlot, s.rx.slots[s.rx.cur]? = some e →
      let w0 := s.mem.read32 e.desc
      let next := { s.rx with cur := (s.rx.cur + 1) % s.rx.slots.length }
      (w0.getLsbD 31 = true → exec .rxRecv s = .next (s.refused .rxRecv .nothingReady)) ∧
      (w0.getLsbD 31 = false → w0.getLsbD 15 = true →
        ∃ t, exec .rxRecv s = .next t ∧
          t = (((s.setRx (if s.par.rxErrAdvance then next else s.rx)).setRxw (polledRx s)).setMem t.mem).answered
            (encode .rxRecv) .dropFrameError 0 0 [.diag .frameError s.rx.cur] ∧
          t.mem.read32 e.desc = w0 ||| 0x80000000 ∧
          (∀ x : Word, ¬ inDescWord e.desc 0 x → t.mem.read x = s.mem.read x)) ∧
      (w0.getLsbD 31 = false → w0.getLsbD 15 = false → w0.getLsbD 9 = false ∨ w0.getLsbD 8 = false →
        ∃ t, exec .rxRecv s = .next t ∧
          t = (((s.setRx next).setRxw (polledRx s)).setMem t.mem).answered
            (encode .rxRecv) .dropFragment 0 0 [.diag .fragment s.rx.cur] ∧
          t.mem.read32 e.desc = w0 ||| 0x80000000 ∧
          (∀ x : Word, ¬ inDescWord e.desc 0 x → t.mem.read x = s.mem.read x)))

/-! ## Transmit ring commands -/

/-- `TX_NEW` with the reference allocator and room (20_memory.md R86, log entry 5): `P_TX_RING_LEN` zeroed
descriptors, no Buffers, no register touched; no byte outside the descriptors changes (42_tx_ring.md R201). -/
def Obligations.TxNewZeroesDescriptors : Prop :=
  ∀ s : State, s.ready → s.quiet = true → s.tx.constructed = false → s.tx.slots = [] →
    s.HasRoom (16 * s.par.txRingLen) →
    let slots := (List.range s.par.txRingLen).map fun i => ({ desc := word (s.heap.brk + 16 * i), buf := none } : TxSlot)
    ∃ t, exec .txNew s = .next t ∧
      t = (((s.setTx { constructed := true, started := false, slots := slots, cur := 0 }).setHeap
        { s.heap with brk := s.heap.brk + 16 * s.par.txRingLen }).setMem t.mem).answered (encode .txNew) .ok 0 0 [] ∧
      (∀ e ∈ slots, ∀ x : Word, inDesc e.desc x → t.mem.read x = 0) ∧
      (∀ x : Word, (∀ e ∈ slots, ¬ inDesc e.desc x) → t.mem.read x = s.mem.read x)

/-- `TX_START`: every descriptor becomes software-owned, chained and empty in one circular chain with one end-of-ring
flag; every installed Buffer is released; head pointer, start bit, cursor; no byte outside the descriptors changes
(42_tx_ring.md R203 to R206). -/
def Obligations.TxStartBuildsCircularChain : Prop :=
  ∀ s : State, s.ready → s.quiet = true → s.InRange → s.Owned → s.tx.constructed = true → s.tx.started = false →
    let slots := s.tx.slots
    ∃ t, exec .txStart s = .next t ∧
      t = ((((s.setTx { s.tx with started := true, cur := 0, slots := slots.map fun e => { e with buf := none } }).setRegs
        { s.regs with dmatdlar := ((slots.head?.map (·.desc)).getD 0), dmaomr := s.regs.dmaomr ||| 0x00002000 }).setBt
        t.bt).setMem t.mem).answered (encode .txStart) .ok 0 0 [] ∧
      (∀ e ∈ slots, ∀ b, e.buf = some b → btFind t.bt b = none) ∧
      (∀ a, (∀ e ∈ slots, e.buf ≠ some a) → btFind t.bt a = btFind s.bt a) ∧
      (∀ i e, slots[i]? = some e →
        t.mem.read32 (descWord e.desc 0) = (if i + 1 = slots.length then 0x00300000 else 0x00100000) ∧
        t.mem.read32 (descWord e.desc 1) = 0 ∧ t.mem.read32 (descWord e.desc 2) = 0 ∧
        t.mem.read32 (descWord e.desc 3) = ((slots[i + 1]?.map (·.desc)).getD 0) ∧
        some (txHop t.mem t.regs.dmatdlar e.desc) = (slots[(i + 1) % slots.length]?.map (·.desc))) ∧
      (∀ x : Word, (∀ e ∈ slots, ¬ inDesc e.desc x) → t.mem.read x = s.mem.read x)

/-- `TX_SEND` into a free descriptor: the slot's old Buffer is released first; words 2, 1 and 0 are written, word 3
and every other byte kept; the Buffer now belongs to the slot and the cursor advances (42_tx_ring.md R210 to R215). -/
def Obligations.TxSendHandsBufferOver : Prop :=
  ∀ (s : State) (r : BufRec) (e : TxSlot), s.ready → s.quiet = true → s.Owned → s.tx.started = true →
    btFind s.bt s.port.a0 = some r → r.owner = .host → 1 ≤ r.len → r.len ≤ 8191 →
    s.tx.slots[s.tx.cur]? = some e → (s.mem.read32 e.desc).getLsbD 31 = false →
    let a := s.port.a0
    let i := s.tx.cur
    let freed := match e.buf with | some b => btErase s.bt b | none => s.bt
    ∃ t, exec .txSend s = .next t ∧
      t = (((s.setTx { s.tx with slots := s.tx.slots.set i { e with buf := some a }
                                 cur := (i + 1) % s.tx.slots.length }).setBt
        (btInsert freed a { r with owner := .txSlot i })).setMem t.mem).answered (encode .txSend) .ok (word i) 0 [] ∧
      t.mem.read32 (descWord e.desc 0) = (if i + 1 = s.tx.slots.length then 0xB0300000 else 0xB0100000) ∧
      t.mem.read32 (descWord e.desc 1) = word r.len ∧ t.mem.read32 (descWord e.desc 2) = a ∧
      (∀ x : Word, ¬ inDescWord e.desc 0 x → ¬ inDescWord e.desc 1 x → ¬ inDescWord e.desc 2 x →
        t.mem.read x = s.mem.read x)

/-- `TX_QLEN`: the count of hardware-owned entries; nothing else changes (42_tx_ring.md R220). -/
def Obligations.TxQlenCountsHardwareOwned : Prop :=
  ∀ s : State, s.ready → s.quiet = true →
    exec .txQlen s = .next (s.answered (encode .txQlen) .ok
      (word (s.tx.slots.countP fun e => (s.mem.read32 e.desc).getLsbD 31)) 0 [])

/-- `TX_REAP`: every installed Buffer whose descriptor is software-owned is released, the others are left alone; the
count is the answer; memory does not change (42_tx_ring.md R206, R221). -/
def Obligations.TxReapReleasesFinished : Prop :=
  ∀ s : State, s.ready → s.quiet = true → s.Owned →
    let done (e : TxSlot) : Bool := e.buf.isSome && !(s.mem.read32 e.desc).getLsbD 31
    ∃ t, exec .txReap s = .next t ∧
      t = ((s.setTx { s.tx with slots := s.tx.slots.map fun e => if done e then { e with buf := none } else e }).setBt
        t.bt).answered (encode .txReap) .ok (word (s.tx.slots.countP done)) 0 [] ∧
      (∀ e ∈ s.tx.slots, done e = true → ∀ b, e.buf = some b → btFind t.bt b = none) ∧
      (∀ a, (∀ e ∈ s.tx.slots, done e = true → e.buf ≠ some a) → btFind t.bt a = btFind s.bt a)

/-! ## Refusals and the fatal fault -/

/-- The refusals of the ring commands, in the order of their checks: nothing but `CST`, `R0`, `R1` changes; except
that `ETH_NEW` on a DRA whose transmit ring alone is built keeps the effect of its `RX_NEW` before `TX_NEW` refuses
(41_rx_ring.md R173; 42_tx_ring.md R201, R203, R210, R211; 43_eth.md R230; 60_exceptions.md R317). -/
def Obligations.RingCommandRefusals : Prop :=
  ∀ s : State, s.ready → s.quiet = true →
    (∀ n, s.rx.constructed = false → exec (.rxStart n) s = .next (s.refused (.rxStart n) .badState)) ∧
    (∀ n, s.rx.constructed = true → s.par.maxRing < n → exec (.rxStart n) s = .next (s.refused (.rxStart n) .badRange)) ∧
    (s.rx.constructed = true → s.rx.slots = [] → exec (.rxStart 0) s = .next (s.refused (.rxStart 0) .badRange)) ∧
    (s.tx.constructed = true → exec .txNew s = .next (s.refused .txNew .badState)) ∧
    (s.tx.constructed = false ∨ s.tx.started = true → exec .txStart s = .next (s.refused .txStart .badState)) ∧
    (∀ n, s.par.maxRing < n → exec (.ethNew n) s = .next (s.refused (.ethNew n) .badRange)) ∧
    (∀ n, n ≤ s.par.maxRing → s.rx.constructed = true →
      exec (.ethNew n) s = .next (s.refused (.ethNew n) .badState)) ∧
    (∀ n, n ≤ s.par.maxRing → s.rx.constructed = false → s.tx.constructed = true → 1 ≤ s.par.mtu → s.par.mtu ≤ 8191 →
      exec (.ethNew n) s =
        .next ((s.setRx { constructed := true, started := false, bufSize := s.par.mtu, slots := [], cur := 0 }).refused
          (.ethNew n) .badState)) ∧
    (∀ i : Instr, i = .txSend ∨ i = .ethSend →
      (s.tx.started = false → exec i s = .next (s.refused i .badState)) ∧
      (s.tx.started = true → (∀ r, btFind s.bt s.port.a0 = some r → r.owner ≠ .host) →
        exec i s = .next (s.refused i .badBuffer)) ∧
      (∀ r, s.tx.started = true → btFind s.bt s.port.a0 = some r → r.owner = .host →
        (r.len = 0 ∨ 8191 < r.len → exec i s = .next (s.refused i .badLength)) ∧
        (∀ e, 1 ≤ r.len → r.len ≤ 8191 → s.tx.slots[s.tx.cur]? = some e →
          (s.mem.read32 e.desc).getLsbD 31 = true → exec i s = .next (s.refused i .ringFull))))

/-- A failed allocation inside `RX_RECV`, `TX_NEW` or `RX_START` is fatal: `FAULT` is 5, the events are `Fatal` and
`Res`, and what was built before it stays (60_exceptions.md R315, R316; 41_rx_ring.md R174, R178, R187; 42_tx_ring.md
R201). A first allocation fails as the oracle says; a later one is that of the reference allocator with room for the
allocations before it (20_memory.md R86, log entry 5): `m` descriptors of `TX_NEW`; `m` whole entries of `RX_START`,
and then its next descriptor, or that descriptor's Buffer, which leaves the descriptor without an entry. -/
def Obligations.AllocationFailureIsFatal : Prop :=
  ∀ (s : State) (h : Heap) (m : Nat), s.ready → s.quiet = true →
    let dead (i : Instr) (t : State) : State :=
      (t.setPort { s.port with fault := 5 }).answered (encode i) .allocFailure 0 0 [.fatal 5]
    let limit := s.par.heapBase + s.par.heapSize
    (∀ e, s.rx.slots[s.rx.cur]? = some e → (s.mem.read32 e.desc).getLsbD 31 = false →
      (s.mem.read32 e.desc).getLsbD 15 = false → (s.mem.read32 e.desc).getLsbD 9 = true →
      (s.mem.read32 e.desc).getLsbD 8 = true → proposal s.rx.bufSize s = (none, h) →
      exec .rxRecv s = .next (dead .rxRecv (s.setHeap h))) ∧
    (s.tx.constructed = false → s.tx.slots = [] → 0 < s.par.txRingLen → proposal 16 s = (none, h) →
      exec .txNew s = .next (dead .txNew (s.setHeap h))) ∧
    (∀ n, s.rx.constructed = true → s.rx.slots.length < n → n ≤ s.par.maxRing → proposal 16 s = (none, h) →
      exec (.rxStart n) s = .next (dead (.rxStart n) (s.setHeap h))) ∧
    (s.tx.constructed = false → s.tx.slots = [] → m < s.par.txRingLen → s.HasRoom (16 * m) →
      limit < s.heap.brk + 16 * m + 16 →
      let built := (List.range m).map fun i => ({ desc := word (s.heap.brk + 16 * i), buf := none } : TxSlot)
      ∃ t, exec .txNew s = .next t ∧
        t = dead .txNew (((s.setTx { s.tx with slots := built }).setHeap
          { s.heap with brk := s.heap.brk + 16 * m }).setMem t.mem) ∧
        (∀ e ∈ built, ∀ x : Word, inDesc e.desc x → t.mem.read x = 0) ∧
        (∀ x : Word, (∀ e ∈ built, ¬ inDesc e.desc x) → t.mem.read x = s.mem.read x)) ∧
    (∀ n, s.InRange → s.Owned → s.rx.constructed = true → s.rx.slots.length + m < n → n ≤ s.par.maxRing →
      let size := s.rx.bufSize
      let stride := 16 + heapStep size
      let fresh := (List.range m).map fun j =>
        ({ desc := word (s.heap.brk + j * stride), buf := word (s.heap.brk + j * stride + 16) } : RxSlot)
      let orphan := word (s.heap.brk + m * stride)
      let built (t : State) (taken : Nat) : Prop :=
        t = dead (.rxStart n) ((((s.setRx { s.rx with slots := s.rx.slots ++ fresh }).setBt t.bt).setHeap
          { s.heap with brk := s.heap.brk + taken }).setMem t.mem) ∧
        (∀ j e, fresh[j]? = some e →
          btFind t.bt e.buf = some { cap := size, len := 0, owner := .rxSlot (s.rx.slots.length + j) } ∧
          t.mem.read32 (descWord e.desc 0) = 0x80000000 ∧ t.mem.read32 (descWord e.desc 1) = 0x00004000 ||| word size ∧
          t.mem.read32 (descWord e.desc 2) = e.buf ∧ t.mem.read32 (descWord e.desc 3) = 0) ∧
        (∀ a, (∀ e ∈ fresh, e.buf ≠ a) → btFind t.bt a = btFind s.bt a)
      (s.HasRoom (m * stride) → limit < s.heap.brk + m * stride + 16 →
        ∃ t, exec (.rxStart n) s = .next t ∧ built t (m * stride) ∧
          (∀ x : Word, (∀ e ∈ fresh, ¬ inDesc e.desc x) → t.mem.read x = s.mem.read x)) ∧
      (s.HasRoom (m * stride + 16) → limit < s.heap.brk + m * stride + 16 + size →
        ∃ t, exec (.rxStart n) s = .next t ∧ built t (m * stride + 16) ∧
          t.mem.read32 (descWord orphan 0) = 0 ∧ t.mem.read32 (descWord orphan 1) = 0x00004000 ∧
          t.mem.read32 (descWord orphan 2) = 0 ∧ t.mem.read32 (descWord orphan 3) = 0 ∧
          (∀ x : Word, (∀ e ∈ fresh, ¬ inDesc e.desc x) → ¬ inDesc orphan x → t.mem.read x = s.mem.read x)))

/-! ## Orchestrator commands -/

/-- `ETH_SEND`: the body of `TX_SEND`, then a demand poll exactly when TXW is seen not running, reported in `R1`
(43_eth.md R242). -/
def Obligations.EthSendPollsIdleEngine : Prop :=
  ∀ (s : State) (r : BufRec) (e : TxSlot), s.ready → s.quiet = true → s.Owned → s.tx.started = true →
    btFind s.bt s.port.a0 = some r → r.owner = .host → 1 ≤ r.len → r.len ≤ 8191 →
    s.tx.slots[s.tx.cur]? = some e → (s.mem.read32 e.desc).getLsbD 31 = false →
    let a := s.port.a0
    let i := s.tx.cur
    let freed := match e.buf with | some b => btErase s.bt b | none => s.bt
    let running := s.txw.ps = 1 ∨ s.txw.ps = 2 ∨ s.txw.ps = 3 ∨ s.txw.ps = 7
    ∃ t, exec .ethSend s = .next t ∧
      t = ((((s.setTx { s.tx with slots := s.tx.slots.set i { e with buf := some a }
                                  cur := (i + 1) % s.tx.slots.length }).setBt
        (btInsert freed a { r with owner := .txSlot i })).setTxw (polledTx s)).setMem t.mem).answered
        (encode .ethSend) .ok (word i) t.port.r1 [] ∧
      (running → t.port.r1 = 0) ∧ (¬ running → t.port.r1 = 1) ∧
      t.mem.read32 (descWord e.desc 0) = (if i + 1 = s.tx.slots.length then 0xB0300000 else 0xB0100000) ∧
      t.mem.read32 (descWord e.desc 1) = word r.len ∧ t.mem.read32 (descWord e.desc 2) = a ∧
      (∀ x : Word, ¬ inDescWord e.desc 0 x → ¬ inDescWord e.desc 1 x → ¬ inDescWord e.desc 2 x →
        t.mem.read x = s.mem.read x)

/-- `DMA_RESET` when RST steps before QM's first read: registers and walkers are cleared, the started flags with them;
memory and the tables are kept (43_eth.md R232, 70_reset_and_hazards.md R357). -/
def Obligations.DmaResetCompletes : Prop :=
  ∀ (s : State) (ms : List Move), s.ready → s.moves = .qm :: .rst :: ms → (s.setMoves ms).quiet = true →
    ∃ t, exec .dmaReset s = .next t ∧
      t = (((((((s.setMoves ms).setRegs zeroRegs).setRxw { ps := 0, cur := 0, lat := t.rxw.lat, fr := none }).setTxw
        { ps := 0, cur := 0, lat := t.txw.lat, asm := [] }).setDraws t.draws).setRx { s.rx with started := false }).setTx
        { s.tx with started := false }).answered (encode .dmaReset) .ok 0 0 (irqFalls s)

/-- With no bound, `DMA_RESET` ends with `OK` under every schedule in which RST steps at some time after the write of
`SR` and QM makes progress, however many reads of QM and steps of the others fall between (43_eth.md R232,
70_reset_and_hazards.md R358, R372). -/
def Obligations.DmaResetEndsWhenRstSteps : Prop :=
  ∀ (s : State) (before between after : List Move), s.ready → s.par.resetBound = none →
    s.moves = before ++ .qm :: (between ++ .rst :: after) →
    .qm ∉ before → .untilIdle ∉ before → .untilIdle ∉ between → .starve ∉ s.moves →
    ∃ t, exec .dmaReset s = .next t ∧
      qmView t = { qmView s with r0 := 0, r1 := 0, code := Code.ok.byte
                                 rx := { s.rx with started := false }, tx := { s.tx with started := false } } ∧
      t.regs = zeroRegs ∧ t.rxw.ps = 0 ∧ t.txw.ps = 0

/-- The reset wait that does not end though QM makes progress: with no bound and no step of RST, `DMA_RESET` leaves
DRA busy with `SR` = 1, and every further step does so again (`HardwareInitHang` as a run); with a bound the read that
reaches it is fatal with cause 6 and leaves `SR` = 1 (43_eth.md R232, R233; 60_exceptions.md R311). -/
def Obligations.ResetWaitHangs : Prop :=
  let stuck (t : State) : Prop :=
    (∃ q, t.qm = some q ∧ q.starved = false ∧ decode q.cmd = .ok .dmaReset) ∧ t.regs.resetPending = true ∧
      .rst ∉ t.moves ∧ .starve ∉ t.moves
  (∀ s : State, s.ready → s.par.resetBound = none → .rst ∉ s.moves → .starve ∉ s.moves → ∃ t, exec .dmaReset s = .next t ∧ stuck t) ∧
  (∀ s : State, s.par.resetBound = none → stuck s → ∃ t, step s = .next t ∧ stuck t) ∧
  (∀ (s : State) (q : Qm) (k : Nat), s.par.resetBound = some k → stuck s → s.quiet = true → s.qm = some q →
    k ≤ q.polls + 1 →
    ∃ t, step s = .next t ∧ t.port.fault = 6 ∧ t.ended .initHang 0 0 ∧ t.regs.resetPending = true)

/-- `ETH_INIT` when RST steps before QM's first read: the reset, then the registers of R235 with the parameters'
fields, the two PHY calls, and nothing more: neither walker is started and `DMAIER` stays 0 (43_eth.md R234 to R236).
-/
def Obligations.EthInitProgramsRegisters : Prop :=
  ∀ (s : State) (ms : List Move), s.ready → s.moves = .qm :: .rst :: ms → (s.setMoves ms).quiet = true →
    let p := s.par
    ∃ t, exec .ethInit s = .next t ∧
      t = (((((((s.setMoves ms).setRegs
        { zeroRegs with
          maccr := 0x02004A8C, macffr := 0x80000001, macmiiar := p.miiCr.setWidth 32 <<< 2
          macfcr := p.pause.setWidth 32 <<< 16, dmaomr := 0x06200084
          dmabmr := 0x02810000 ||| (p.rdp.setWidth 32 <<< 17) ||| (p.pm.setWidth 32 <<< 14) |||
            (p.pbl.setWidth 32 <<< 8) }).setRxw { ps := 0, cur := 0, lat := t.rxw.lat, fr := none }).setTxw
        { ps := 0, cur := 0, lat := t.txw.lat, asm := [] }).setDraws t.draws).setRx { s.rx with started := false }).setTx
        { s.tx with started := false }).answered (encode .ethInit) .ok 0 0 (irqFalls s ++ [.phyReset, .phySetAutoneg])

/-- `ETH_NEW n` on an unbuilt DRA with the reference allocator and room (20_memory.md R86, log entry 5), RST stepping
before QM's first read of the wait: both rings built, their descriptors word by word and their Buffers, each chain
going round under the next-descriptor function; the transmit ring started, the receive ring started exactly when `n >
0`, the registers of `ETH_INIT` with the start bits and base registers, both walkers stopped until they step; no byte
outside the descriptors changes (43_eth.md R230). -/
def Obligations.EthNewBringsUp : Prop :=
  ∀ (n : Nat) (s : State) (ms : List Move), s.ready → s.InRange → s.Owned → s.rx.constructed = false →
    s.tx.constructed = false → n ≤ s.par.maxRing →
    let p := s.par
    let len := p.txRingLen
    let stride := 16 + heapStep p.mtu
    s.HasRoom (16 * len + n * stride) →
    s.moves = List.replicate (4 * len + 1) .qm ++ .rst :: ms → (s.setMoves ms).quiet = true →
    let txSlots := (List.range len).map fun i => ({ desc := word (s.heap.brk + 16 * i), buf := none } : TxSlot)
    let rxSlots := (List.range n).map fun j =>
      ({ desc := word (s.heap.brk + 16 * len + j * stride), buf := word (s.heap.brk + 16 * len + j * stride + 16) } : RxSlot)
    ∃ t, exec (.ethNew n) s = .next t ∧ t.ended .ok (word n) 0 ∧
      t.tx = { constructed := true, started := true, slots := txSlots, cur := 0 } ∧
      t.rx = { constructed := true, started := decide (0 < n), bufSize := p.mtu, slots := rxSlots, cur := 0 } ∧
      t.regs = { zeroRegs with
        maccr := 0x02004A8C, macffr := 0x80000001, macmiiar := p.miiCr.setWidth 32 <<< 2
        macfcr := p.pause.setWidth 32 <<< 16
        dmaomr := if 0 < n then 0x06202086 else 0x06202084
        dmabmr := 0x02810000 ||| (p.rdp.setWidth 32 <<< 17) ||| (p.pm.setWidth 32 <<< 14) ||| (p.pbl.setWidth 32 <<< 8)
        dmatdlar := word s.heap.brk
        dmardlar := if 0 < n then word (s.heap.brk + 16 * len) else 0 } ∧
      t.rxw.ps = 0 ∧ t.txw.ps = 0 ∧ t.port.fault = 0 ∧ t.port.a0 = s.port.a0 ∧ t.nvic = s.nvic ∧ t.par = s.par ∧
      t.moves = ms ∧
      t.hist = s.hist ++ [.cmd (encode (.ethNew n)) s.port.a0] ++ irqFalls s ++ [.phyReset, .phySetAutoneg] ++
        [.res Code.ok.byte (word n) 0] ∧
      t.heap = { s.heap with brk := s.heap.brk + 16 * len + n * stride } ∧
      (∀ j e, rxSlots[j]? = some e → btFind t.bt e.buf = some { cap := p.mtu, len := 0, owner := .rxSlot j }) ∧
      (∀ a, (∀ e ∈ rxSlots, e.buf ≠ a) → btFind t.bt a = btFind s.bt a) ∧
      (∀ i e, txSlots[i]? = some e →
        t.mem.read32 (descWord e.desc 0) = (if i + 1 = len then 0x00300000 else 0x00100000) ∧
        t.mem.read32 (descWord e.desc 1) = 0 ∧ t.mem.read32 (descWord e.desc 2) = 0 ∧
        t.mem.read32 (descWord e.desc 3) = ((txSlots[i + 1]?.map (·.desc)).getD 0) ∧
        some (txHop t.mem t.regs.dmatdlar e.desc) = (txSlots[(i + 1) % len]?.map (·.desc))) ∧
      (∀ j e, rxSlots[j]? = some e →
        t.mem.read32 (descWord e.desc 0) = 0x80000000 ∧
        t.mem.read32 (descWord e.desc 1) =
          (if j + 1 = n then 0x0000C000 ||| word p.mtu else 0x00004000 ||| word p.mtu) ∧
        t.mem.read32 (descWord e.desc 2) = e.buf ∧
        t.mem.read32 (descWord e.desc 3) = ((rxSlots[j + 1]?.map (·.desc)).getD 0) ∧
        some (rxHop t.mem t.regs.dmardlar e.desc) = (rxSlots[(j + 1) % n]?.map (·.desc))) ∧
      (∀ x : Word, (∀ e ∈ txSlots, ¬ inDesc e.desc x) → (∀ e ∈ rxSlots, ¬ inDesc e.desc x) →
        t.mem.read x = s.mem.read x)

/-- `IRQ_ENABLE`: the three enables and the unmask; pending bits are not touched; if `NIS` is pending the request
rises at once. `IRQ_ACK`: the three pending bits are cleared and nothing else; the request falls (43_eth.md R237,
R238). -/
def Obligations.InterruptCommandsWriteTheirBits : Prop :=
  ∀ s : State, s.ready → s.quiet = true →
    exec .irqEnable s = .next (((s.setRegs { s.regs with dmaier := 0x00010041 }).setNvic true).answered
      (encode .irqEnable) .ok 0 0 (if s.regs.nis = irqCpu s then [] else [.irq true])) ∧
    exec .irqAck s = .next ((s.setRegs { s.regs with ts := false, rs := false, nis := false }).answered
      (encode .irqAck) .ok 0 0 (irqFalls s))

/-- `PHY_STATUS`: some 32-bit word, reported as an event and in `R0`; no other state of the spec changes (43_eth.md
R240). -/
def Obligations.PhyStatusAnswersSomeWord : Prop :=
  ∀ s : State, s.ready → s.quiet = true →
    ∃ v : Word, exec .phyStatus s =
      .next ((s.setDraws (s.draws + 1)).answered (encode .phyStatus) .ok v 0 [.phyStatus v])

/-- The request persists: while `irq_cpu` is 1 and no reset is pending, no command but `IRQ_ACK` and those that reset
the DMA block lowers it, under any schedule (43_eth.md R239, 60_exceptions.md R323). -/
def Obligations.InterruptPersistsUntilAcknowledged : Prop :=
  ∀ (i : Instr) (s t : State), irqCpu s = true → s.regs.resetPending = false → i ≠ .irqAck → i ≠ .dmaReset →
    i ≠ .ethInit → (∀ n, i ≠ .ethNew n) → exec i s = .next t → irqCpu t = true
end

