-- ==== Sys2Proof/Laws/Memory.lean ====
section
/-! SUPPORT. The laws of memory (20_memory.md R70, R72, R75): a read after a write to the same place gives the value
written, a write leaves every other place alone, the power-on draw never changes, and every operation keeps the
canonical form. -/

namespace Sys2Proof.Machine

/-! ## Cells -/

theorem lookup_insert_same (cs : List Host.Cell) (a : Nat) (v : Byte) : lookupCell (insertCell cs a v) a = some v := by
  induction cs with
  | nil => simp [insertCell, lookupCell]
  | cons c cs ih =>
    obtain ⟨k, w⟩ := c
    unfold insertCell
    split
    · simp [lookupCell]
    · split
      · simp [lookupCell]
      · rename_i h; simp [lookupCell, Ne.symm h, ih]

theorem lookup_insert_other (cs : List Host.Cell) (a b : Nat) (v : Byte) (h : b ≠ a) :
    lookupCell (insertCell cs a v) b = lookupCell cs b := by
  induction cs with
  | nil => simp [insertCell, lookupCell, Ne.symm h]
  | cons c cs ih =>
    obtain ⟨k, w⟩ := c
    unfold insertCell
    split
    · simp [lookupCell, Ne.symm h]
    · split
      · rename_i h2; simp [lookupCell, ← h2, Ne.symm h]
      · simp [lookupCell, ih]

theorem lookup_erase_same (cs : List Host.Cell) (a : Nat) : lookupCell (eraseCell cs a) a = none := by
  induction cs with
  | nil => rfl
  | cons c cs ih =>
    obtain ⟨k, w⟩ := c
    unfold eraseCell
    split
    · exact ih
    · rename_i h; simp [lookupCell, h, ih]

theorem lookup_erase_other (cs : List Host.Cell) (a b : Nat) (h : b ≠ a) :
    lookupCell (eraseCell cs a) b = lookupCell cs b := by
  induction cs with
  | nil => rfl
  | cons c cs ih =>
    obtain ⟨k, w⟩ := c
    unfold eraseCell
    split
    · rename_i h2; simp [lookupCell, h2, Ne.symm h, ih]
    · simp [lookupCell, ih]

/-! ## One byte -/

@[simp] theorem write_init (m : Memory) (a : Word) (v : Byte) : (m.write a v).init = m.init := by
  unfold Memory.write; split <;> rfl

@[simp] theorem write_unwritten (m : Memory) (a : Word) (v : Byte) (x : Nat) :
    (m.write a v).unwritten x = m.unwritten x := by simp [Memory.unwritten]

@[simp] theorem read_write_same (m : Memory) (a : Word) (v : Byte) : (m.write a v).read a = v := by
  unfold Memory.write
  split
  · rename_i h; simp [Memory.read, lookup_erase_same, h, Memory.unwritten]
  · simp [Memory.read, lookup_insert_same]

theorem read_write_other (m : Memory) (a b : Word) (v : Byte) (h : b ≠ a) : (m.write a v).read b = m.read b := by
  have hn : b.toNat ≠ a.toNat := fun hh => h (BitVec.eq_of_toNat_eq hh)
  unfold Memory.write
  split <;> simp [Memory.read, lookup_erase_other _ _ _ hn, lookup_insert_other _ _ _ _ hn, Memory.unwritten]

theorem read_write (m : Memory) (a b : Word) (v : Byte) :
    (m.write a v).read b = if b = a then v else m.read b := by
  split
  · rename_i h; rw [h, read_write_same]
  · rename_i h; exact read_write_other m a b v h

/-! ## Canonical form -/

theorem rising_weaken {cs : List Host.Cell} {lo lo' : Nat} (h : risingFrom lo cs = true) (hl : lo' ≤ lo) :
    risingFrom lo' cs = true := by
  cases cs with
  | nil => rfl
  | cons c cs => obtain ⟨k, w⟩ := c; simp_all [risingFrom]; omega

theorem rising_insert {cs : List Host.Cell} {lo : Nat} (a : Nat) (v : Byte) (h : risingFrom lo cs = true)
    (hl : lo ≤ a) : risingFrom lo (insertCell cs a v) = true := by
  induction cs generalizing lo with
  | nil => simp [insertCell, risingFrom, hl]
  | cons c cs ih =>
    obtain ⟨k, w⟩ := c
    simp only [risingFrom, Bool.and_eq_true, decide_eq_true_eq] at h
    unfold insertCell
    split
    · simp [risingFrom, hl, h.2]; omega
    · split
      · rename_i h2; subst h2; simp [risingFrom, hl, h.2]
      · simp only [risingFrom, Bool.and_eq_true, decide_eq_true_eq]
        exact ⟨h.1, ih h.2 (by omega)⟩

theorem rising_erase {cs : List Host.Cell} {lo : Nat} (a : Nat) (h : risingFrom lo cs = true) :
    risingFrom lo (eraseCell cs a) = true := by
  induction cs generalizing lo with
  | nil => rfl
  | cons c cs ih =>
    obtain ⟨k, w⟩ := c
    simp only [risingFrom, Bool.and_eq_true, decide_eq_true_eq] at h
    unfold eraseCell
    split
    · exact rising_weaken (ih h.2) (by omega)
    · simp only [risingFrom, Bool.and_eq_true, decide_eq_true_eq]; exact ⟨h.1, ih h.2⟩

theorem mem_insert {cs : List Host.Cell} {a : Nat} {v : Byte} {c : Host.Cell} (h : c ∈ insertCell cs a v) :
    c = (a, v) ∨ c ∈ cs := by
  induction cs with
  | nil => simpa [insertCell] using h
  | cons d cs ih =>
    obtain ⟨k, w⟩ := d
    unfold insertCell at h
    split at h
    · simpa using h
    · split at h
      · simp at h; tauto
      · simp at h ⊢; tauto

theorem mem_erase {cs : List Host.Cell} {a : Nat} {c : Host.Cell} (h : c ∈ eraseCell cs a) : c ∈ cs := by
  induction cs with
  | nil => exact h
  | cons d cs ih =>
    obtain ⟨k, w⟩ := d
    unfold eraseCell at h
    split at h
    · exact List.mem_cons_of_mem _ (ih h)
    · simp at h ⊢; tauto

/-- A write keeps the canonical form of the memory. -/
theorem write_wf {m : Memory} (a : Word) (v : Byte) (h : m.wf = true) : (m.write a v).wf = true := by
  simp only [Memory.wf, Bool.and_eq_true, List.all_eq_true, decide_eq_true_eq] at h ⊢
  simp only [write_unwritten]
  obtain ⟨hr, hc⟩ := h
  unfold Memory.write
  split
  · exact ⟨rising_erase _ hr, fun c hm => hc c (mem_erase hm)⟩
  · rename_i hv
    refine ⟨rising_insert _ _ hr (Nat.zero_le _), fun c hm => ?_⟩
    rcases mem_insert hm with rfl | hm
    · exact ⟨a.isLt, hv⟩
    · exact hc c hm

/-! ## Words -/

@[simp] theorem write32_init (m : Memory) (a v : Word) : (m.write32 a v).init = m.init := by simp [Memory.write32]

theorem write32_wf {m : Memory} (a v : Word) (h : m.wf = true) : (m.write32 a v).wf = true :=
  write_wf _ _ (write_wf _ _ (write_wf _ _ (write_wf _ _ h)))

theorem word_of_bytes (v : Word) :
    ((v >>> 24).setWidth 8 : Byte) ++ ((v >>> 16).setWidth 8 : Byte) ++ ((v >>> 8).setWidth 8 : Byte) ++
      (v.setWidth 8 : Byte) = v := by
  ext i hi
  simp only [BitVec.getElem_append, BitVec.getElem_setWidth, BitVec.getLsbD_ushiftRight]
  split
  · simp [BitVec.getElem_eq_testBit_toNat, BitVec.getLsbD]
  · split
    · rw [BitVec.getLsbD_eq_getElem (by omega)]; congr 1; omega
    · split
      · rw [BitVec.getLsbD_eq_getElem (by omega)]; congr 1; omega
      · rw [BitVec.getLsbD_eq_getElem (by omega)]; congr 1; omega

/-- A word read after it was written reads back (R72, R75). -/
@[simp] theorem read32_write32_same (m : Memory) (a v : Word) : (m.write32 a v).read32 a = v := by
  simp [Memory.read32, Memory.write32, read_write, word_of_bytes]

/-- A byte outside the four bytes written keeps its value. -/
theorem read_write32_other (m : Memory) (a v b : Word) (h : b ≠ a ∧ b ≠ a + 1 ∧ b ≠ a + 2 ∧ b ≠ a + 3) :
    (m.write32 a v).read b = m.read b := by
  unfold Memory.write32
  rw [read_write_other _ _ _ _ h.2.2.2, read_write_other _ _ _ _ h.2.2.1, read_write_other _ _ _ _ h.2.1,
    read_write_other _ _ _ _ h.1]

/-- A word whose four bytes lie outside the four bytes written keeps its value. -/
theorem read32_write32_other (m : Memory) (a v b : Word)
    (h : ∀ i j : Nat, i < 4 → j < 4 → b + word i ≠ a + word j) : (m.write32 a v).read32 b = m.read32 b := by
  have key : ∀ i : Nat, i < 4 → (m.write32 a v).read (b + word i) = m.read (b + word i) := fun i hi =>
    read_write32_other m a v _ ⟨by simpa [word] using h i 0 hi (by omega), h i 1 hi (by omega), h i 2 hi (by omega),
      h i 3 hi (by omega)⟩
  have k0 := key 0 (by omega)
  have k1 := key 1 (by omega)
  have k2 := key 2 (by omega)
  have k3 := key 3 (by omega)
  simp [word] at k0 k1 k2 k3
  simp [Memory.read32, k0, k1, k2, k3]

/-- Two different word-aligned addresses share no byte (R77). -/
theorem words_apart {a b : Word} (ha : a.toNat % 4 = 0) (hb : b.toNat % 4 = 0) (h : b ≠ a) (i j : Nat) (hi : i < 4)
    (hj : j < 4) : b + word i ≠ a + word j := by
  intro he
  apply h
  apply BitVec.eq_of_toNat_eq
  have := congrArg BitVec.toNat he
  simp [word, BitVec.toNat_add, BitVec.toNat_ofNat] at this
  have := a.isLt
  have := b.isLt
  omega

/-! ## Byte sequences -/

@[simp] theorem writeBytes_init (m : Memory) (a : Word) (bs : List Byte) : (m.writeBytes a bs).init = m.init := by
  induction bs generalizing m a with
  | nil => rfl
  | cons b bs ih => simp [Memory.writeBytes, ih]

theorem writeBytes_wf {m : Memory} (a : Word) (bs : List Byte) (h : m.wf = true) : (m.writeBytes a bs).wf = true := by
  induction bs generalizing m a with
  | nil => exact h
  | cons b bs ih => exact ih _ (write_wf _ _ h)

/-- A byte outside the bytes written keeps its value. -/
theorem read_writeBytes_other (m : Memory) (a : Word) (bs : List Byte) (x : Word)
    (h : ∀ j : Nat, j < bs.length → x ≠ a + word j) : (m.writeBytes a bs).read x = m.read x := by
  induction bs generalizing m a with
  | nil => rfl
  | cons b bs ih =>
    have h0 : x ≠ a := by simpa [word] using h 0 (by simp)
    have hs : ∀ j : Nat, j < bs.length → x ≠ (a + 1) + word j := by
      intro j hj
      have := h (j + 1) (by simp; omega)
      have e : a + word (j + 1) = (a + 1) + word j := by
        apply BitVec.eq_of_toNat_eq; simp [word, BitVec.toNat_add, BitVec.toNat_ofNat]; omega
      rwa [e] at this
    simp only [Memory.writeBytes]
    rw [ih _ _ hs, read_write_other _ _ _ _ h0]

/-- Byte `j` of a sequence is at `a + j` (20_memory.md R73). -/
theorem read_writeBytes (m : Memory) (a : Word) (bs : List Byte) (hl : bs.length ≤ 2 ^ 32) (j : Nat)
    (hj : j < bs.length) : (m.writeBytes a bs).read (a + word j) = bs[j] := by
  induction bs generalizing m a j with
  | nil => simp at hj
  | cons b bs ih =>
    simp only [Memory.writeBytes]
    cases j with
    | zero =>
      have e : a + word 0 = a := by simp [word]
      rw [e, read_writeBytes_other, read_write_same]
      · rfl
      · intro j hj' he
        have := congrArg BitVec.toNat he
        simp [word, BitVec.toNat_add, BitVec.toNat_ofNat] at this
        simp at hl
        have := a.isLt
        omega
    | succ j =>
      have e : a + word (j + 1) = (a + 1) + word j := by
        apply BitVec.eq_of_toNat_eq; simp [word, BitVec.toNat_add, BitVec.toNat_ofNat]; omega
      rw [e, ih _ _ (by simp at hl; omega) j (by simpa using hj)]
      rfl

@[simp] theorem readBytes_length (m : Memory) (a : Word) (n : Nat) : (m.readBytes a n).length = n := by
  induction n generalizing a with
  | zero => rfl
  | succ n ih => simp [Memory.readBytes, ih]

end Sys2Proof.Machine
end

