-- ==== Sys2Proof/Laws/State.lean ====
section
/-! SUPPORT. The field lemmas of the named state updates: one per field per update, true by `rfl`, so that no later
proof unfolds a record update. -/

namespace Sys2Proof.Machine

section
variable (s : State) (v : Port)
@[simp] theorem State.setPort_par : (s.setPort v).par = s.par := rfl
@[simp] theorem State.setPort_port : (s.setPort v).port = v := rfl
@[simp] theorem State.setPort_qm : (s.setPort v).qm = s.qm := rfl
@[simp] theorem State.setPort_bt : (s.setPort v).bt = s.bt := rfl
@[simp] theorem State.setPort_rx : (s.setPort v).rx = s.rx := rfl
@[simp] theorem State.setPort_tx : (s.setPort v).tx = s.tx := rfl
@[simp] theorem State.setPort_regs : (s.setPort v).regs = s.regs := rfl
@[simp] theorem State.setPort_nvic : (s.setPort v).nvic = s.nvic := rfl
@[simp] theorem State.setPort_rxw : (s.setPort v).rxw = s.rxw := rfl
@[simp] theorem State.setPort_txw : (s.setPort v).txw = s.txw := rfl
@[simp] theorem State.setPort_mem : (s.setPort v).mem = s.mem := rfl
@[simp] theorem State.setPort_heap : (s.setPort v).heap = s.heap := rfl
@[simp] theorem State.setPort_draws : (s.setPort v).draws = s.draws := rfl
@[simp] theorem State.setPort_hist : (s.setPort v).hist = s.hist := rfl
@[simp] theorem State.setPort_moves : (s.setPort v).moves = s.moves := rfl
@[simp] theorem State.setPort_self : s.setPort s.port = s := rfl
@[simp] theorem State.setPort_setPort (w : Port) : (s.setPort w).setPort v = s.setPort v := rfl
end

section
variable (s : State) (v : Option Qm)
@[simp] theorem State.setQm_par : (s.setQm v).par = s.par := rfl
@[simp] theorem State.setQm_port : (s.setQm v).port = s.port := rfl
@[simp] theorem State.setQm_qm : (s.setQm v).qm = v := rfl
@[simp] theorem State.setQm_bt : (s.setQm v).bt = s.bt := rfl
@[simp] theorem State.setQm_rx : (s.setQm v).rx = s.rx := rfl
@[simp] theorem State.setQm_tx : (s.setQm v).tx = s.tx := rfl
@[simp] theorem State.setQm_regs : (s.setQm v).regs = s.regs := rfl
@[simp] theorem State.setQm_nvic : (s.setQm v).nvic = s.nvic := rfl
@[simp] theorem State.setQm_rxw : (s.setQm v).rxw = s.rxw := rfl
@[simp] theorem State.setQm_txw : (s.setQm v).txw = s.txw := rfl
@[simp] theorem State.setQm_mem : (s.setQm v).mem = s.mem := rfl
@[simp] theorem State.setQm_heap : (s.setQm v).heap = s.heap := rfl
@[simp] theorem State.setQm_draws : (s.setQm v).draws = s.draws := rfl
@[simp] theorem State.setQm_hist : (s.setQm v).hist = s.hist := rfl
@[simp] theorem State.setQm_moves : (s.setQm v).moves = s.moves := rfl
@[simp] theorem State.setQm_self : s.setQm s.qm = s := rfl
@[simp] theorem State.setQm_setQm (w : Option Qm) : (s.setQm w).setQm v = s.setQm v := rfl
end

section
variable (s : State) (v : List (Word × BufRec))
@[simp] theorem State.setBt_par : (s.setBt v).par = s.par := rfl
@[simp] theorem State.setBt_port : (s.setBt v).port = s.port := rfl
@[simp] theorem State.setBt_qm : (s.setBt v).qm = s.qm := rfl
@[simp] theorem State.setBt_bt : (s.setBt v).bt = v := rfl
@[simp] theorem State.setBt_rx : (s.setBt v).rx = s.rx := rfl
@[simp] theorem State.setBt_tx : (s.setBt v).tx = s.tx := rfl
@[simp] theorem State.setBt_regs : (s.setBt v).regs = s.regs := rfl
@[simp] theorem State.setBt_nvic : (s.setBt v).nvic = s.nvic := rfl
@[simp] theorem State.setBt_rxw : (s.setBt v).rxw = s.rxw := rfl
@[simp] theorem State.setBt_txw : (s.setBt v).txw = s.txw := rfl
@[simp] theorem State.setBt_mem : (s.setBt v).mem = s.mem := rfl
@[simp] theorem State.setBt_heap : (s.setBt v).heap = s.heap := rfl
@[simp] theorem State.setBt_draws : (s.setBt v).draws = s.draws := rfl
@[simp] theorem State.setBt_hist : (s.setBt v).hist = s.hist := rfl
@[simp] theorem State.setBt_moves : (s.setBt v).moves = s.moves := rfl
@[simp] theorem State.setBt_self : s.setBt s.bt = s := rfl
@[simp] theorem State.setBt_setBt (w : List (Word × BufRec)) : (s.setBt w).setBt v = s.setBt v := rfl
end

section
variable (s : State) (v : RxRing)
@[simp] theorem State.setRx_par : (s.setRx v).par = s.par := rfl
@[simp] theorem State.setRx_port : (s.setRx v).port = s.port := rfl
@[simp] theorem State.setRx_qm : (s.setRx v).qm = s.qm := rfl
@[simp] theorem State.setRx_bt : (s.setRx v).bt = s.bt := rfl
@[simp] theorem State.setRx_rx : (s.setRx v).rx = v := rfl
@[simp] theorem State.setRx_tx : (s.setRx v).tx = s.tx := rfl
@[simp] theorem State.setRx_regs : (s.setRx v).regs = s.regs := rfl
@[simp] theorem State.setRx_nvic : (s.setRx v).nvic = s.nvic := rfl
@[simp] theorem State.setRx_rxw : (s.setRx v).rxw = s.rxw := rfl
@[simp] theorem State.setRx_txw : (s.setRx v).txw = s.txw := rfl
@[simp] theorem State.setRx_mem : (s.setRx v).mem = s.mem := rfl
@[simp] theorem State.setRx_heap : (s.setRx v).heap = s.heap := rfl
@[simp] theorem State.setRx_draws : (s.setRx v).draws = s.draws := rfl
@[simp] theorem State.setRx_hist : (s.setRx v).hist = s.hist := rfl
@[simp] theorem State.setRx_moves : (s.setRx v).moves = s.moves := rfl
@[simp] theorem State.setRx_self : s.setRx s.rx = s := rfl
@[simp] theorem State.setRx_setRx (w : RxRing) : (s.setRx w).setRx v = s.setRx v := rfl
end

section
variable (s : State) (v : TxRing)
@[simp] theorem State.setTx_par : (s.setTx v).par = s.par := rfl
@[simp] theorem State.setTx_port : (s.setTx v).port = s.port := rfl
@[simp] theorem State.setTx_qm : (s.setTx v).qm = s.qm := rfl
@[simp] theorem State.setTx_bt : (s.setTx v).bt = s.bt := rfl
@[simp] theorem State.setTx_rx : (s.setTx v).rx = s.rx := rfl
@[simp] theorem State.setTx_tx : (s.setTx v).tx = v := rfl
@[simp] theorem State.setTx_regs : (s.setTx v).regs = s.regs := rfl
@[simp] theorem State.setTx_nvic : (s.setTx v).nvic = s.nvic := rfl
@[simp] theorem State.setTx_rxw : (s.setTx v).rxw = s.rxw := rfl
@[simp] theorem State.setTx_txw : (s.setTx v).txw = s.txw := rfl
@[simp] theorem State.setTx_mem : (s.setTx v).mem = s.mem := rfl
@[simp] theorem State.setTx_heap : (s.setTx v).heap = s.heap := rfl
@[simp] theorem State.setTx_draws : (s.setTx v).draws = s.draws := rfl
@[simp] theorem State.setTx_hist : (s.setTx v).hist = s.hist := rfl
@[simp] theorem State.setTx_moves : (s.setTx v).moves = s.moves := rfl
@[simp] theorem State.setTx_self : s.setTx s.tx = s := rfl
@[simp] theorem State.setTx_setTx (w : TxRing) : (s.setTx w).setTx v = s.setTx v := rfl
end

section
variable (s : State) (v : Regs)
@[simp] theorem State.setRegs_par : (s.setRegs v).par = s.par := rfl
@[simp] theorem State.setRegs_port : (s.setRegs v).port = s.port := rfl
@[simp] theorem State.setRegs_qm : (s.setRegs v).qm = s.qm := rfl
@[simp] theorem State.setRegs_bt : (s.setRegs v).bt = s.bt := rfl
@[simp] theorem State.setRegs_rx : (s.setRegs v).rx = s.rx := rfl
@[simp] theorem State.setRegs_tx : (s.setRegs v).tx = s.tx := rfl
@[simp] theorem State.setRegs_regs : (s.setRegs v).regs = v := rfl
@[simp] theorem State.setRegs_nvic : (s.setRegs v).nvic = s.nvic := rfl
@[simp] theorem State.setRegs_rxw : (s.setRegs v).rxw = s.rxw := rfl
@[simp] theorem State.setRegs_txw : (s.setRegs v).txw = s.txw := rfl
@[simp] theorem State.setRegs_mem : (s.setRegs v).mem = s.mem := rfl
@[simp] theorem State.setRegs_heap : (s.setRegs v).heap = s.heap := rfl
@[simp] theorem State.setRegs_draws : (s.setRegs v).draws = s.draws := rfl
@[simp] theorem State.setRegs_hist : (s.setRegs v).hist = s.hist := rfl
@[simp] theorem State.setRegs_moves : (s.setRegs v).moves = s.moves := rfl
@[simp] theorem State.setRegs_self : s.setRegs s.regs = s := rfl
@[simp] theorem State.setRegs_setRegs (w : Regs) : (s.setRegs w).setRegs v = s.setRegs v := rfl
end

section
variable (s : State) (v : Bool)
@[simp] theorem State.setNvic_par : (s.setNvic v).par = s.par := rfl
@[simp] theorem State.setNvic_port : (s.setNvic v).port = s.port := rfl
@[simp] theorem State.setNvic_qm : (s.setNvic v).qm = s.qm := rfl
@[simp] theorem State.setNvic_bt : (s.setNvic v).bt = s.bt := rfl
@[simp] theorem State.setNvic_rx : (s.setNvic v).rx = s.rx := rfl
@[simp] theorem State.setNvic_tx : (s.setNvic v).tx = s.tx := rfl
@[simp] theorem State.setNvic_regs : (s.setNvic v).regs = s.regs := rfl
@[simp] theorem State.setNvic_nvic : (s.setNvic v).nvic = v := rfl
@[simp] theorem State.setNvic_rxw : (s.setNvic v).rxw = s.rxw := rfl
@[simp] theorem State.setNvic_txw : (s.setNvic v).txw = s.txw := rfl
@[simp] theorem State.setNvic_mem : (s.setNvic v).mem = s.mem := rfl
@[simp] theorem State.setNvic_heap : (s.setNvic v).heap = s.heap := rfl
@[simp] theorem State.setNvic_draws : (s.setNvic v).draws = s.draws := rfl
@[simp] theorem State.setNvic_hist : (s.setNvic v).hist = s.hist := rfl
@[simp] theorem State.setNvic_moves : (s.setNvic v).moves = s.moves := rfl
@[simp] theorem State.setNvic_self : s.setNvic s.nvic = s := rfl
@[simp] theorem State.setNvic_setNvic (w : Bool) : (s.setNvic w).setNvic v = s.setNvic v := rfl
end

section
variable (s : State) (v : Rxw)
@[simp] theorem State.setRxw_par : (s.setRxw v).par = s.par := rfl
@[simp] theorem State.setRxw_port : (s.setRxw v).port = s.port := rfl
@[simp] theorem State.setRxw_qm : (s.setRxw v).qm = s.qm := rfl
@[simp] theorem State.setRxw_bt : (s.setRxw v).bt = s.bt := rfl
@[simp] theorem State.setRxw_rx : (s.setRxw v).rx = s.rx := rfl
@[simp] theorem State.setRxw_tx : (s.setRxw v).tx = s.tx := rfl
@[simp] theorem State.setRxw_regs : (s.setRxw v).regs = s.regs := rfl
@[simp] theorem State.setRxw_nvic : (s.setRxw v).nvic = s.nvic := rfl
@[simp] theorem State.setRxw_rxw : (s.setRxw v).rxw = v := rfl
@[simp] theorem State.setRxw_txw : (s.setRxw v).txw = s.txw := rfl
@[simp] theorem State.setRxw_mem : (s.setRxw v).mem = s.mem := rfl
@[simp] theorem State.setRxw_heap : (s.setRxw v).heap = s.heap := rfl
@[simp] theorem State.setRxw_draws : (s.setRxw v).draws = s.draws := rfl
@[simp] theorem State.setRxw_hist : (s.setRxw v).hist = s.hist := rfl
@[simp] theorem State.setRxw_moves : (s.setRxw v).moves = s.moves := rfl
@[simp] theorem State.setRxw_self : s.setRxw s.rxw = s := rfl
@[simp] theorem State.setRxw_setRxw (w : Rxw) : (s.setRxw w).setRxw v = s.setRxw v := rfl
end

section
variable (s : State) (v : Txw)
@[simp] theorem State.setTxw_par : (s.setTxw v).par = s.par := rfl
@[simp] theorem State.setTxw_port : (s.setTxw v).port = s.port := rfl
@[simp] theorem State.setTxw_qm : (s.setTxw v).qm = s.qm := rfl
@[simp] theorem State.setTxw_bt : (s.setTxw v).bt = s.bt := rfl
@[simp] theorem State.setTxw_rx : (s.setTxw v).rx = s.rx := rfl
@[simp] theorem State.setTxw_tx : (s.setTxw v).tx = s.tx := rfl
@[simp] theorem State.setTxw_regs : (s.setTxw v).regs = s.regs := rfl
@[simp] theorem State.setTxw_nvic : (s.setTxw v).nvic = s.nvic := rfl
@[simp] theorem State.setTxw_rxw : (s.setTxw v).rxw = s.rxw := rfl
@[simp] theorem State.setTxw_txw : (s.setTxw v).txw = v := rfl
@[simp] theorem State.setTxw_mem : (s.setTxw v).mem = s.mem := rfl
@[simp] theorem State.setTxw_heap : (s.setTxw v).heap = s.heap := rfl
@[simp] theorem State.setTxw_draws : (s.setTxw v).draws = s.draws := rfl
@[simp] theorem State.setTxw_hist : (s.setTxw v).hist = s.hist := rfl
@[simp] theorem State.setTxw_moves : (s.setTxw v).moves = s.moves := rfl
@[simp] theorem State.setTxw_self : s.setTxw s.txw = s := rfl
@[simp] theorem State.setTxw_setTxw (w : Txw) : (s.setTxw w).setTxw v = s.setTxw v := rfl
end

section
variable (s : State) (v : Memory)
@[simp] theorem State.setMem_par : (s.setMem v).par = s.par := rfl
@[simp] theorem State.setMem_port : (s.setMem v).port = s.port := rfl
@[simp] theorem State.setMem_qm : (s.setMem v).qm = s.qm := rfl
@[simp] theorem State.setMem_bt : (s.setMem v).bt = s.bt := rfl
@[simp] theorem State.setMem_rx : (s.setMem v).rx = s.rx := rfl
@[simp] theorem State.setMem_tx : (s.setMem v).tx = s.tx := rfl
@[simp] theorem State.setMem_regs : (s.setMem v).regs = s.regs := rfl
@[simp] theorem State.setMem_nvic : (s.setMem v).nvic = s.nvic := rfl
@[simp] theorem State.setMem_rxw : (s.setMem v).rxw = s.rxw := rfl
@[simp] theorem State.setMem_txw : (s.setMem v).txw = s.txw := rfl
@[simp] theorem State.setMem_mem : (s.setMem v).mem = v := rfl
@[simp] theorem State.setMem_heap : (s.setMem v).heap = s.heap := rfl
@[simp] theorem State.setMem_draws : (s.setMem v).draws = s.draws := rfl
@[simp] theorem State.setMem_hist : (s.setMem v).hist = s.hist := rfl
@[simp] theorem State.setMem_moves : (s.setMem v).moves = s.moves := rfl
@[simp] theorem State.setMem_self : s.setMem s.mem = s := rfl
@[simp] theorem State.setMem_setMem (w : Memory) : (s.setMem w).setMem v = s.setMem v := rfl
end

section
variable (s : State) (v : Heap)
@[simp] theorem State.setHeap_par : (s.setHeap v).par = s.par := rfl
@[simp] theorem State.setHeap_port : (s.setHeap v).port = s.port := rfl
@[simp] theorem State.setHeap_qm : (s.setHeap v).qm = s.qm := rfl
@[simp] theorem State.setHeap_bt : (s.setHeap v).bt = s.bt := rfl
@[simp] theorem State.setHeap_rx : (s.setHeap v).rx = s.rx := rfl
@[simp] theorem State.setHeap_tx : (s.setHeap v).tx = s.tx := rfl
@[simp] theorem State.setHeap_regs : (s.setHeap v).regs = s.regs := rfl
@[simp] theorem State.setHeap_nvic : (s.setHeap v).nvic = s.nvic := rfl
@[simp] theorem State.setHeap_rxw : (s.setHeap v).rxw = s.rxw := rfl
@[simp] theorem State.setHeap_txw : (s.setHeap v).txw = s.txw := rfl
@[simp] theorem State.setHeap_mem : (s.setHeap v).mem = s.mem := rfl
@[simp] theorem State.setHeap_heap : (s.setHeap v).heap = v := rfl
@[simp] theorem State.setHeap_draws : (s.setHeap v).draws = s.draws := rfl
@[simp] theorem State.setHeap_hist : (s.setHeap v).hist = s.hist := rfl
@[simp] theorem State.setHeap_moves : (s.setHeap v).moves = s.moves := rfl
@[simp] theorem State.setHeap_self : s.setHeap s.heap = s := rfl
@[simp] theorem State.setHeap_setHeap (w : Heap) : (s.setHeap w).setHeap v = s.setHeap v := rfl
end

section
variable (s : State) (v : Nat)
@[simp] theorem State.setDraws_par : (s.setDraws v).par = s.par := rfl
@[simp] theorem State.setDraws_port : (s.setDraws v).port = s.port := rfl
@[simp] theorem State.setDraws_qm : (s.setDraws v).qm = s.qm := rfl
@[simp] theorem State.setDraws_bt : (s.setDraws v).bt = s.bt := rfl
@[simp] theorem State.setDraws_rx : (s.setDraws v).rx = s.rx := rfl
@[simp] theorem State.setDraws_tx : (s.setDraws v).tx = s.tx := rfl
@[simp] theorem State.setDraws_regs : (s.setDraws v).regs = s.regs := rfl
@[simp] theorem State.setDraws_nvic : (s.setDraws v).nvic = s.nvic := rfl
@[simp] theorem State.setDraws_rxw : (s.setDraws v).rxw = s.rxw := rfl
@[simp] theorem State.setDraws_txw : (s.setDraws v).txw = s.txw := rfl
@[simp] theorem State.setDraws_mem : (s.setDraws v).mem = s.mem := rfl
@[simp] theorem State.setDraws_heap : (s.setDraws v).heap = s.heap := rfl
@[simp] theorem State.setDraws_draws : (s.setDraws v).draws = v := rfl
@[simp] theorem State.setDraws_hist : (s.setDraws v).hist = s.hist := rfl
@[simp] theorem State.setDraws_moves : (s.setDraws v).moves = s.moves := rfl
@[simp] theorem State.setDraws_self : s.setDraws s.draws = s := rfl
@[simp] theorem State.setDraws_setDraws (w : Nat) : (s.setDraws w).setDraws v = s.setDraws v := rfl
end

section
variable (s : State) (v : List Event)
@[simp] theorem State.setHist_par : (s.setHist v).par = s.par := rfl
@[simp] theorem State.setHist_port : (s.setHist v).port = s.port := rfl
@[simp] theorem State.setHist_qm : (s.setHist v).qm = s.qm := rfl
@[simp] theorem State.setHist_bt : (s.setHist v).bt = s.bt := rfl
@[simp] theorem State.setHist_rx : (s.setHist v).rx = s.rx := rfl
@[simp] theorem State.setHist_tx : (s.setHist v).tx = s.tx := rfl
@[simp] theorem State.setHist_regs : (s.setHist v).regs = s.regs := rfl
@[simp] theorem State.setHist_nvic : (s.setHist v).nvic = s.nvic := rfl
@[simp] theorem State.setHist_rxw : (s.setHist v).rxw = s.rxw := rfl
@[simp] theorem State.setHist_txw : (s.setHist v).txw = s.txw := rfl
@[simp] theorem State.setHist_mem : (s.setHist v).mem = s.mem := rfl
@[simp] theorem State.setHist_heap : (s.setHist v).heap = s.heap := rfl
@[simp] theorem State.setHist_draws : (s.setHist v).draws = s.draws := rfl
@[simp] theorem State.setHist_hist : (s.setHist v).hist = v := rfl
@[simp] theorem State.setHist_moves : (s.setHist v).moves = s.moves := rfl
@[simp] theorem State.setHist_self : s.setHist s.hist = s := rfl
@[simp] theorem State.setHist_setHist (w : List Event) : (s.setHist w).setHist v = s.setHist v := rfl
end

section
variable (s : State) (v : List Move)
@[simp] theorem State.setMoves_par : (s.setMoves v).par = s.par := rfl
@[simp] theorem State.setMoves_port : (s.setMoves v).port = s.port := rfl
@[simp] theorem State.setMoves_qm : (s.setMoves v).qm = s.qm := rfl
@[simp] theorem State.setMoves_bt : (s.setMoves v).bt = s.bt := rfl
@[simp] theorem State.setMoves_rx : (s.setMoves v).rx = s.rx := rfl
@[simp] theorem State.setMoves_tx : (s.setMoves v).tx = s.tx := rfl
@[simp] theorem State.setMoves_regs : (s.setMoves v).regs = s.regs := rfl
@[simp] theorem State.setMoves_nvic : (s.setMoves v).nvic = s.nvic := rfl
@[simp] theorem State.setMoves_rxw : (s.setMoves v).rxw = s.rxw := rfl
@[simp] theorem State.setMoves_txw : (s.setMoves v).txw = s.txw := rfl
@[simp] theorem State.setMoves_mem : (s.setMoves v).mem = s.mem := rfl
@[simp] theorem State.setMoves_heap : (s.setMoves v).heap = s.heap := rfl
@[simp] theorem State.setMoves_draws : (s.setMoves v).draws = s.draws := rfl
@[simp] theorem State.setMoves_hist : (s.setMoves v).hist = s.hist := rfl
@[simp] theorem State.setMoves_moves : (s.setMoves v).moves = v := rfl
@[simp] theorem State.setMoves_self : s.setMoves s.moves = s := rfl
@[simp] theorem State.setMoves_setMoves (w : List Move) : (s.setMoves w).setMoves v = s.setMoves v := rfl
end

end Sys2Proof.Machine
end

