-- ==== Sys2Proof/Laws/Agents.lean ====
section
/-! SUPPORT. What the moves of the other agents can do: nothing to QM's own state (10_state.md R31, R35), and to memory
only what keeps its canonical form. What one of QM's turns can come to: said once, under any schedule, under one on which QM
makes progress (70_reset_and_hazards.md R372 (c)), and when the others hold still. -/

namespace Sys2Proof.Machine

/-! ## What is QM's alone -/

section
variable (s : State)
@[simp] theorem qmView_setRegs (v) : qmView (s.setRegs v) = qmView s := rfl
@[simp] theorem qmView_setRxw (v) : qmView (s.setRxw v) = qmView s := rfl
@[simp] theorem qmView_setTxw (v) : qmView (s.setTxw v) = qmView s := rfl
@[simp] theorem qmView_setMem (v) : qmView (s.setMem v) = qmView s := rfl
@[simp] theorem qmView_setDraws (v) : qmView (s.setDraws v) = qmView s := rfl
@[simp] theorem qmView_setHist (v) : qmView (s.setHist v) = qmView s := rfl
@[simp] theorem qmView_setMoves (v) : qmView (s.setMoves v) = qmView s := rfl
@[simp] theorem qmView_emit (e) : qmView (emit e s) = qmView s := rfl
end

theorem qmView_withIrq (f : State → State) (s : State) : qmView (withIrq f s) = qmView (f s) := by
  unfold withIrq; split <;> simp

@[simp] theorem emit_mem (e : Event) (s : State) : (emit e s).mem = s.mem := rfl
@[simp] theorem emit_regs (e : Event) (s : State) : (emit e s).regs = s.regs := rfl
@[simp] theorem emit_moves (e : Event) (s : State) : (emit e s).moves = s.moves := rfl
@[simp] theorem emit_rxw (e : Event) (s : State) : (emit e s).rxw = s.rxw := rfl
@[simp] theorem emit_txw (e : Event) (s : State) : (emit e s).txw = s.txw := rfl
@[simp] theorem emit_qm (e : Event) (s : State) : (emit e s).qm = s.qm := rfl
@[simp] theorem emit_par (e : Event) (s : State) : (emit e s).par = s.par := rfl

theorem withIrq_mem (f : State → State) (s : State) : (withIrq f s).mem = (f s).mem := by
  unfold withIrq; split <;> simp

theorem withIrq_moves (f : State → State) (s : State) : (withIrq f s).moves = (f s).moves := by
  unfold withIrq; split <;> simp

@[simp] theorem rxCompletion_mem (s : State) : (rxCompletion s).mem = s.mem := by
  unfold rxCompletion; rw [withIrq_mem]; rfl

@[simp] theorem txCompletion_mem (s : State) : (txCompletion s).mem = s.mem := by
  unfold txCompletion; rw [withIrq_mem]; rfl

@[simp] theorem qmView_rxCompletion (s : State) : qmView (rxCompletion s) = qmView s := by
  unfold rxCompletion; rw [qmView_withIrq]; rfl

@[simp] theorem qmView_txCompletion (s : State) : qmView (txCompletion s) = qmView s := by
  unfold txCompletion; rw [qmView_withIrq]; rfl

theorem qmView_rxwStep (s : State) : qmView (rxwStep s) = qmView s := by
  unfold rxwStep
  repeat' split
  all_goals first
    | rfl
    | (unfold rxwFetch; dsimp only; split <;> rfl)
    | (unfold rxwClose; dsimp only; split <;> simp)

theorem qmView_txwStep (s : State) : qmView (txwStep s) = qmView s := by
  unfold txwStep
  repeat' split
  all_goals first
    | rfl
    | (unfold txwFetch; dsimp only; split <;> rfl)
    | (unfold txwClose; dsimp only; split <;> simp)

theorem qmView_rstStep (s : State) : qmView (rstStep s) = qmView s := by
  unfold rstStep
  split
  · rw [qmView_withIrq]; rfl
  · rfl

theorem qmView_macRxOffer (bytes : List Byte) (err : Bool) (s : State) :
    qmView (macRxOffer bytes err s) = qmView s := by
  unfold macRxOffer; split
  · simp [rxwAccept]
  · rfl

theorem qmView_portWriteBusy (addr v : Word) (s : State) : qmView (portWriteBusy addr v s) = qmView s := by
  unfold portWriteBusy; split <;> rfl

theorem qmView_hostPoke (addr : Word) (v : Byte) (s : State) : qmView (hostPoke addr v s) = qmView s := by
  unfold hostPoke; split <;> rfl

/-- No move of another agent changes anything of QM's own. -/
theorem qmView_applyMove (m : Move) (s : State) : qmView (applyMove m s) = qmView s := by
  cases m with
  | qm => rfl
  | untilIdle => rfl
  | starve => rfl
  | rxw => exact qmView_rxwStep s
  | macRx bytes err => exact qmView_macRxOffer bytes err s
  | txw => exact qmView_txwStep s
  | rst => exact qmView_rstStep s
  | portWrite addr v => exact qmView_portWriteBusy addr v s
  | poke addr v => exact qmView_hostPoke addr v s

/-! ## A starved QM -/

@[simp] theorem starve_mem (s : State) : (starve s).mem = s.mem := rfl
@[simp] theorem starve_moves (s : State) : (starve s).moves = s.moves := rfl
@[simp] theorem starve_par (s : State) : (starve s).par = s.par := rfl

/-- To starve QM changes nothing of its own but the mark that says so. -/
theorem qmView_starve (s : State) :
    qmView (starve s) = { qmView s with qm := s.qm.map fun q => { q with starved := true } } := rfl

theorem starve_starved {s : State} (h : s.qm.isSome = true) : (starve s).starved = true := by
  cases hq : s.qm with
  | none => rw [hq] at h; cases h
  | some q => simp [starve, State.starved, hq]

/-! ## Accesses when the others hold still -/

theorem quiet_of_moves {s t : State} (h : s.quiet = true) (hm : t.moves = s.moves) : t.quiet = true := by
  unfold State.quiet at *; rw [hm]; exact h

section
variable (s : State)
@[simp] theorem countAccess_par : (countAccess s).par = s.par := rfl
@[simp] theorem countAccess_port : (countAccess s).port = s.port := rfl
@[simp] theorem countAccess_bt : (countAccess s).bt = s.bt := rfl
@[simp] theorem countAccess_rx : (countAccess s).rx = s.rx := rfl
@[simp] theorem countAccess_tx : (countAccess s).tx = s.tx := rfl
@[simp] theorem countAccess_regs : (countAccess s).regs = s.regs := rfl
@[simp] theorem countAccess_nvic : (countAccess s).nvic = s.nvic := rfl
@[simp] theorem countAccess_rxw : (countAccess s).rxw = s.rxw := rfl
@[simp] theorem countAccess_txw : (countAccess s).txw = s.txw := rfl
@[simp] theorem countAccess_mem : (countAccess s).mem = s.mem := rfl
@[simp] theorem countAccess_heap : (countAccess s).heap = s.heap := rfl
@[simp] theorem countAccess_draws : (countAccess s).draws = s.draws := rfl
@[simp] theorem countAccess_hist : (countAccess s).hist = s.hist := rfl
@[simp] theorem countAccess_moves : (countAccess s).moves = s.moves := rfl
end

/-! ## Memory under the agents -/

theorem rxwStep_wf {s : State} (h : s.mem.wf = true) : (rxwStep s).mem.wf = true := by
  unfold rxwStep
  repeat' split
  all_goals first
    | exact h
    | (unfold rxwFetch; dsimp only; split <;> exact h)
    | (unfold rxwClose; dsimp only; split <;> simp [write32_wf, h])
    | (unfold rxwTransfer; simp [writeBytes_wf, h])

theorem txwStep_wf {s : State} (h : s.mem.wf = true) : (txwStep s).mem.wf = true := by
  unfold txwStep
  repeat' split
  all_goals first
    | exact h
    | (unfold txwFetch; dsimp only; split <;> exact h)
    | (unfold txwClose; dsimp only; split <;> simp [write32_wf, h])

theorem applyMove_wf {s : State} (m : Move) (h : s.mem.wf = true) : (applyMove m s).mem.wf = true := by
  cases m with
  | qm => exact h
  | untilIdle => exact h
  | starve => exact h
  | rxw => exact rxwStep_wf h
  | macRx bytes err =>
    simp only [applyMove, macRxOffer]; split
    · exact h
    · exact h
  | txw => exact txwStep_wf h
  | rst =>
    simp only [applyMove, rstStep]; split
    · rw [withIrq_mem]; exact h
    · exact h
  | portWrite addr v => simp only [applyMove, portWriteBusy]; split <;> exact h
  | poke addr v =>
    simp only [applyMove, hostPoke]; split
    · exact write_wf _ _ h
    · exact h

/-! ## QM's turns -/

/-- What the moves of the others leave as it was: QM's own state, and the canonical form of memory. -/
def MovedTo (s t : State) : Prop := qmView t = qmView s ∧ (s.mem.wf = true → t.mem.wf = true)

theorem movedTo_trans {s t u : State} (h : MovedTo s t) (g : MovedTo t u) : MovedTo s u :=
  ⟨g.1.trans h.1, fun w => g.2 (h.2 w)⟩

theorem movedTo_applyMove (m : Move) (s : State) : MovedTo s (applyMove m s) :=
  ⟨qmView_applyMove m s, applyMove_wf m⟩

/-- All that the moves up to QM's next turn can come to. -/
theorem runMoves_cases (ms : List Move) (s : State) :
    (∃ t, runMoves ms s = .due t ∧ MovedTo s t ∧ ∀ m ∈ t.moves, m ∈ ms) ∨
      (∃ t, runMoves ms s = .starved (starve t) ∧ MovedTo s t ∧ .starve ∈ ms) := by
  induction ms generalizing s with
  | nil => exact .inl ⟨_, rfl, ⟨rfl, id⟩, by simp⟩
  | cons m ms ih =>
    cases m with
    | qm => exact .inl ⟨_, rfl, ⟨rfl, id⟩, fun _ h => List.mem_cons_of_mem _ h⟩
    | untilIdle => exact .inl ⟨_, rfl, ⟨rfl, id⟩, fun _ h => h⟩
    | starve => exact .inr ⟨_, rfl, ⟨rfl, id⟩, List.mem_cons_self⟩
    | _ =>
      simp only [runMoves]
      rcases ih (applyMove _ s) with ⟨t, ht, hm, hs⟩ | ⟨t, ht, hm, hs⟩
      · exact .inl ⟨t, ht, movedTo_trans (movedTo_applyMove _ s) hm, fun m h => List.mem_cons_of_mem _ (hs m h)⟩
      · exact .inr ⟨t, ht, movedTo_trans (movedTo_applyMove _ s) hm, List.mem_cons_of_mem _ hs⟩

/-- All that one of QM's turns can come to: the others move, and then the action takes place or QM is starved. -/
theorem atTurn_cases {α : Type} (s : State) (stuck act : State → α) :
    (∃ t, atTurn s stuck act = act (countAccess t) ∧ MovedTo s t ∧ ∀ m ∈ t.moves, m ∈ s.moves) ∨
      (∃ t, atTurn s stuck act = stuck (starve t) ∧ MovedTo s t ∧ .starve ∈ s.moves) := by
  rcases runMoves_cases s.moves s with ⟨t, ht, hm, hs⟩ | ⟨t, ht, hm, hs⟩
  · exact .inl ⟨t, by simp [atTurn, yield, ht], hm, hs⟩
  · exact .inr ⟨t, by simp [atTurn, yield, ht], hm, hs⟩

/-- Where QM makes progress, its turn comes. -/
theorem atTurn_fair {α : Type} {s : State} (stuck act : State → α) (h : .starve ∉ s.moves) :
    ∃ t, atTurn s stuck act = act (countAccess t) ∧ MovedTo s t ∧ .starve ∉ t.moves := by
  rcases atTurn_cases s stuck act with ⟨t, ht, hm, hs⟩ | ⟨_, _, _, hs⟩
  · exact ⟨t, ht, hm, fun hc => h (hs _ hc)⟩
  · exact absurd hs h

theorem yield_quiet {s : State} (h : s.quiet = true) : yield s = .due s := by
  unfold yield
  unfold State.quiet at h
  cases hm : s.moves with
  | nil => simp [runMoves, ← hm]
  | cons m ms =>
    rw [hm] at h
    cases m <;> simp at h
    simp [runMoves, ← hm]

/-- When the others hold still, QM's action takes place in the state as it is. -/
theorem atTurn_quiet {α : Type} {s : State} (stuck act : State → α) (h : s.quiet = true) :
    atTurn s stuck act = act (countAccess s) := by
  simp [atTurn, yield_quiet h]

theorem access_quiet {s : State} (act : State → Flow) (h : s.quiet = true) : access s act = act (countAccess s) :=
  atTurn_quiet _ _ h

theorem finish_quiet {s : State} (act : State → State) (h : s.quiet = true) : finish act s = act (countAccess s) :=
  atTurn_quiet _ _ h

/-- All that an access can come to. -/
theorem access_cases (s : State) (act : State → Flow) :
    (∃ t, access s act = act (countAccess t) ∧ MovedTo s t) ∨
      (∃ t, access s act = .wait (starve t) ∧ MovedTo s t) := by
  rcases atTurn_cases s .wait act with ⟨t, ht, hm, _⟩ | ⟨t, ht, hm, _⟩
  · exact .inl ⟨t, ht, hm⟩
  · exact .inr ⟨t, ht, hm⟩

/-- All that the last action of a command can come to. -/
theorem finish_cases (act : State → State) (s : State) :
    (∃ t, finish act s = act (countAccess t) ∧ MovedTo s t) ∨ (∃ t, finish act s = starve t ∧ MovedTo s t) := by
  rcases atTurn_cases s id act with ⟨t, ht, hm, _⟩ | ⟨t, ht, hm, _⟩
  · exact .inl ⟨t, ht, hm⟩
  · exact .inr ⟨t, ht, hm⟩

/-- To count an access changes nothing of QM's own but the count. -/
theorem qmView_countAccess (s : State) :
    qmView (countAccess s) = { qmView s with qm := s.qm.map fun q => { q with pc := q.pc + 1 } } := rfl

end Sys2Proof.Machine
end

