-- ==== Sys2Proof/Laws/Ops.lean ====
section
/-! SUPPORT. What each shared operation can do, said once: the allocator (20_memory.md R84), the Buffer table, the
registers, the way a command begins and ends. -/

namespace Sys2Proof.Machine

/-! ## Allocator -/

/-- An allocation that succeeds answers an address that obeys the laws, and changes only the oracle. -/
theorem alloc_some {held : List Region} {size : Nat} {s t : State} {a : Word} (h : alloc held size s = (some a, t)) :
    admissible s held size a = true ∧ t = s.setHeap (proposal size s).2 := by
  unfold alloc at h
  split at h
  · rename_i a' hp heq
    split at h
    · rename_i hadm
      simp only [Prod.mk.injEq, Option.some.injEq] at h
      obtain ⟨rfl, rfl⟩ := h
      exact ⟨hadm, by rw [heq]⟩
    · simp at h
  · simp at h

/-- An allocation that fails changes only the oracle. -/
theorem alloc_none {held : List Region} {size : Nat} {s t : State} (h : alloc held size s = (none, t)) :
    t = s.setHeap (proposal size s).2 := by
  unfold alloc at h
  split at h
  · rename_i a' hp heq
    split at h
    · simp at h
    · simp only [Prod.mk.injEq, true_and] at h
      rw [← h, heq]
  · rename_i hp heq
    simp only [Prod.mk.injEq, true_and] at h
    rw [← h, heq]

/-- What the laws of an address say (R84). -/
theorem admissible_spec {s : State} {held : List Region} {size : Nat} {a : Word}
    (h : admissible s held size a = true) :
    a.toNat % 8 = 0 ∧ a.toNat ≠ 0 ∧ s.par.heapBase ≤ a.toNat ∧ a.toNat + size ≤ s.par.heapBase + s.par.heapSize ∧
      ∀ r ∈ held ++ liveRegions s, Region.disjoint (a.toNat, size) r = true := by
  simp only [admissible, Bool.and_eq_true, decide_eq_true_eq, List.all_eq_true] at h
  exact ⟨h.1.1.1.1, h.1.1.1.2, h.1.1.2, h.1.2, h.2⟩

/-! ## Buffer table -/

theorem btFind_insert_same (bt : List (Word × BufRec)) (a : Word) (r : BufRec) :
    btFind (btInsert bt a r) a = some r := by
  induction bt with
  | nil => simp [btInsert, btFind]
  | cons e bt ih =>
    obtain ⟨k, q⟩ := e
    unfold btInsert
    split
    · simp [btFind]
    · split
      · simp [btFind]
      · rename_i h; simp [btFind, Ne.symm h, ih]

theorem btFind_insert_other (bt : List (Word × BufRec)) (a b : Word) (r : BufRec) (h : b ≠ a) :
    btFind (btInsert bt a r) b = btFind bt b := by
  induction bt with
  | nil => simp [btInsert, btFind, Ne.symm h]
  | cons e bt ih =>
    obtain ⟨k, q⟩ := e
    unfold btInsert
    split
    · simp [btFind, Ne.symm h]
    · split
      · rename_i h2; simp [btFind, ← h2, Ne.symm h]
      · simp [btFind, ih]

theorem btFind_erase_same (bt : List (Word × BufRec)) (a : Word) : btFind (btErase bt a) a = none := by
  induction bt with
  | nil => rfl
  | cons e bt ih =>
    obtain ⟨k, q⟩ := e
    unfold btErase
    split
    · exact ih
    · rename_i h; simp [btFind, h, ih]

theorem btFind_erase_other (bt : List (Word × BufRec)) (a b : Word) (h : b ≠ a) :
    btFind (btErase bt a) b = btFind bt b := by
  induction bt with
  | nil => rfl
  | cons e bt ih =>
    obtain ⟨k, q⟩ := e
    unfold btErase
    split
    · rename_i h2; simp [btFind, h2, Ne.symm h, ih]
    · simp [btFind, ih]

/-- What `BT` holds at every address after an insertion. -/
theorem btFind_insert (bt : List (Word × BufRec)) (a b : Word) (r : BufRec) :
    btFind (btInsert bt a r) b = if b = a then some r else btFind bt b := by
  split
  · rename_i h; rw [h, btFind_insert_same]
  · rename_i h; exact btFind_insert_other bt a b r h

/-- What `BT` holds at every address after a removal. -/
theorem btFind_erase (bt : List (Word × BufRec)) (a b : Word) :
    btFind (btErase bt a) b = if b = a then none else btFind bt b := by
  split
  · rename_i h; rw [h, btFind_erase_same]
  · rename_i h; exact btFind_erase_other bt a b h

/-! ## Registers -/

@[simp] theorem rxDemandPoll_mem (s : State) : (rxDemandPoll s).mem = s.mem := by unfold rxDemandPoll; split <;> rfl
@[simp] theorem txDemandPoll_mem (s : State) : (txDemandPoll s).mem = s.mem := by unfold txDemandPoll; split <;> rfl
@[simp] theorem rxDemandPoll_moves (s : State) : (rxDemandPoll s).moves = s.moves := by
  unfold rxDemandPoll; split <;> rfl
@[simp] theorem txDemandPoll_moves (s : State) : (txDemandPoll s).moves = s.moves := by
  unfold txDemandPoll; split <;> rfl
@[simp] theorem qmView_rxDemandPoll (s : State) : qmView (rxDemandPoll s) = qmView s := by
  unfold rxDemandPoll; split <;> rfl
@[simp] theorem qmView_txDemandPoll (s : State) : qmView (txDemandPoll s) = qmView s := by
  unfold txDemandPoll; split <;> rfl

/-- A register write does not touch memory: the register space is no part of `Mem` (20_memory.md R71). -/
@[simp] theorem regWrite_mem (r : Reg) (v : Word) (s : State) : (regWrite r v s).mem = s.mem := by
  cases r <;> simp [regWrite, withIrq_mem]

@[simp] theorem regWrite_moves (r : Reg) (v : Word) (s : State) : (regWrite r v s).moves = s.moves := by
  cases r <;> simp [regWrite, withIrq_moves]

/-- A register write does not touch QM's own state. -/
@[simp] theorem qmView_regWrite (r : Reg) (v : Word) (s : State) : qmView (regWrite r v s) = qmView s := by
  cases r <;> simp [regWrite, qmView_withIrq]

@[simp] theorem regField_mem (r : Reg) (m v : Word) (s : State) : (regField r m v s).mem = s.mem := by
  simp [regField]

@[simp] theorem regField_moves (r : Reg) (m v : Word) (s : State) : (regField r m v s).moves = s.moves := by
  simp [regField]

@[simp] theorem qmView_regField (r : Reg) (m v : Word) (s : State) : qmView (regField r m v s) = qmView s := by
  simp [regField]

/-! ## The beginning and the end of a command -/

theorem command_busy {i : Instr} {body : State → Flow} {s : State} (h : s.qm.isSome = true) :
    command i body s = .next s := by simp [command, h]

theorem command_idle {i : Instr} {body : State → Flow} {s : State} (h : s.qm = none) :
    command i body s = .next (runCommand (encode i) body s) := by simp [command, h]

/-- Every command answers a next state. -/
theorem command_next (i : Instr) (body : State → Flow) (s : State) : ∃ t, command i body s = .next t := by
  unfold command; split <;> exact ⟨_, rfl⟩

/-- What `result` leaves (10_state.md R26). -/
theorem result_spec (c : Code) (r0 r1 : Word) (s : State) :
    (result c r0 r1 s).port.code = c.byte ∧ (result c r0 r1 s).port.r0 = r0 ∧ (result c r0 r1 s).port.r1 = r1 ∧
      (result c r0 r1 s).qm = none ∧ (result c r0 r1 s).port.fault = s.port.fault ∧
      (result c r0 r1 s).port.a0 = s.port.a0 ∧ (result c r0 r1 s).hist = s.hist ++ [.res c.byte r0 r1] :=
  ⟨rfl, rfl, rfl, rfl, rfl, rfl, rfl⟩

/-- What `raise` leaves (60_exceptions.md R316). -/
theorem raise_spec (k : FatalKind) (s : State) :
    (raise k s).port.fault = k.code.byte ∧ (raise k s).port.code = k.code.byte ∧ (raise k s).port.r0 = 0 ∧
      (raise k s).port.r1 = 0 ∧ (raise k s).qm = none ∧ (raise k s).mem = s.mem ∧ (raise k s).rx = s.rx ∧
      (raise k s).tx = s.tx ∧ (raise k s).bt = s.bt ∧
      (raise k s).hist = s.hist ++ [.fatal k.code.byte] ++ [.res k.code.byte 0 0] :=
  ⟨rfl, rfl, rfl, rfl, rfl, rfl, rfl, rfl, rfl, rfl⟩

/-- The end of a command that answers, when the others hold still. -/
theorem conclude_ok_quiet {r0 r1 : Word} {s : State} (h : s.quiet = true) :
    (Flow.ok r0 r1 s).conclude = result .ok r0 r1 s := by
  rw [Flow.conclude, finish_quiet _ h]
  rfl

theorem conclude_stop_quiet {c : Code} {s : State} (h : s.quiet = true) :
    (Flow.stop c s).conclude = result c 0 0 s := by
  rw [Flow.conclude, finish_quiet _ h]
  rfl

/-- A command whose body refuses at once, when the others hold still: nothing but `CST`, `R0`, `R1` and the history
changes (60_exceptions.md R317). -/
theorem runCommand_stop {w : Word} {body : State → Flow} {c : Code} {s : State} (hq : s.quiet = true)
    (hf : s.port.fault = 0) (hb : body (startCommand w s) = .stop c (startCommand w s)) :
    runCommand w body s = s.answered w c 0 0 [] := by
  have hq' : (startCommand w s).quiet = true := quiet_of_moves hq rfl
  have hf' : (startCommand w s).port.fault = 0 := hf
  simp only [runCommand, if_pos hf', hb, conclude_stop_quiet hq']
  simp [result, startCommand, emit, State.answered, State.setHist, State.setPort, State.setQm]

/-- The fatal state: a command answers `FAULTED`, whatever its word (R316). -/
theorem runCommand_faulted {w : Word} {body : State → Flow} {s : State} (hq : s.quiet = true)
    (hf : s.port.fault ≠ 0) : runCommand w body s = s.answered w .faulted 0 0 [] := by
  have hq' : (startCommand w s).quiet = true := quiet_of_moves hq rfl
  have hf' : ¬ (startCommand w s).port.fault = 0 := hf
  simp only [runCommand, if_neg hf', conclude_stop_quiet hq']
  simp [result, startCommand, emit, State.answered, State.setHist, State.setPort, State.setQm]

end Sys2Proof.Machine
end

