-- ==== Sys2Proof/Laws/PerInstr.lean ====
section
/-! SUPPORT. One lemma per command of the family `TableMatch`: the word of a well-formed command agrees with its row of
the opcode table, `w & mask = match` (30_encoding.md R112). -/

namespace Sys2Proof.Laws.TableMatch

/-- The columns `match` and `mask` of the opcode table (30_encoding.md R112). -/
def row : Instr → Word × Word
  | .bufNew _ => (0x01000000, 0xFF000000)
  | .bufSetlen _ => (0x02000000, 0xFF000000)
  | .bufInfo => (0x03000000, 0xFFFFFFFF)
  | .bufFree => (0x04000000, 0xFFFFFFFF)
  | .rxNew _ => (0x10000000, 0xFF000000)
  | .rxStart _ => (0x11000000, 0xFF000000)
  | .rxPoll => (0x12000000, 0xFFFFFFFF)
  | .rxState => (0x13000000, 0xFFFFFFFF)
  | .rxRecv => (0x14000000, 0xFFFFFFFF)
  | .txNew => (0x20000000, 0xFFFFFFFF)
  | .txStart => (0x21000000, 0xFFFFFFFF)
  | .txSend => (0x22000000, 0xFFFFFFFF)
  | .txState => (0x23000000, 0xFFFFFFFF)
  | .txPoll => (0x24000000, 0xFFFFFFFF)
  | .txQlen => (0x25000000, 0xFFFFFFFF)
  | .txReap => (0x26000000, 0xFFFFFFFF)
  | .ethNew _ => (0x30000000, 0xFF000000)
  | .dmaReset => (0x31000000, 0xFFFFFFFF)
  | .ethInit => (0x32000000, 0xFFFFFFFF)
  | .irqEnable => (0x33000000, 0xFFFFFFFF)
  | .irqAck => (0x34000000, 0xFFFFFFFF)
  | .phyStatus => (0x35000000, 0xFFFFFFFF)
  | .ethSend => (0x36000000, 0xFFFFFFFF)

/-- The word of `i` lies in `i`'s row. -/
def Statement (i : Instr) : Prop := i.wf = true → encode i &&& (row i).2 = (row i).1

/-- A word of a row with an immediate: the high byte is `op`. -/
theorem high_byte (op imm : Nat) (hop : op < 256) :
    word (op * 2 ^ 24 + imm % 2 ^ 24) &&& 0xFF000000 = word (op * 2 ^ 24) := by
  have h : (word (op * 2 ^ 24 + imm % 2 ^ 24) : Word) = (BitVec.ofNat 8 op) ++ (BitVec.ofNat 24 imm) := by
    apply BitVec.eq_of_toNat_eq
    have hlt : imm % 2 ^ 24 < 2 ^ 24 := Nat.mod_lt _ (by norm_num)
    simp only [word, BitVec.toNat_append, BitVec.toNat_ofNat, Nat.shiftLeft_eq]
    have hor := Nat.shiftLeft_add_eq_or_of_lt hlt op
    rw [Nat.shiftLeft_eq] at hor
    rw [Nat.mod_eq_of_lt (by omega : op < 2 ^ 8), ← hor]
    omega
  have h0 : (word (op * 2 ^ 24) : Word) = (BitVec.ofNat 8 op) ++ (0 : BitVec 24) := by
    apply BitVec.eq_of_toNat_eq
    simp only [word, BitVec.toNat_append, BitVec.toNat_ofNat, Nat.shiftLeft_eq]
    rw [Nat.mod_eq_of_lt (by omega : op < 2 ^ 8)]
    simp
    omega
  have hm : (0xFF000000 : Word) = (BitVec.allOnes 8) ++ (0 : BitVec 24) := by decide
  rw [h, h0, hm, BitVec.and_append, BitVec.and_allOnes]
  simp

theorem bufNew (cap : Nat) : Statement (.bufNew cap) := fun _ => high_byte 0x01 cap (by decide)
theorem bufSetlen (len : Nat) : Statement (.bufSetlen len) := fun _ => high_byte 0x02 len (by decide)
theorem bufInfo : Statement .bufInfo := fun _ => by decide
theorem bufFree : Statement .bufFree := fun _ => by decide
theorem rxNew (size : Nat) : Statement (.rxNew size) := fun _ => high_byte 0x10 size (by decide)
theorem rxStart (n : Nat) : Statement (.rxStart n) := fun _ => high_byte 0x11 n (by decide)
theorem rxPoll : Statement .rxPoll := fun _ => by decide
theorem rxState : Statement .rxState := fun _ => by decide
theorem rxRecv : Statement .rxRecv := fun _ => by decide
theorem txNew : Statement .txNew := fun _ => by decide
theorem txStart : Statement .txStart := fun _ => by decide
theorem txSend : Statement .txSend := fun _ => by decide
theorem txState : Statement .txState := fun _ => by decide
theorem txPoll : Statement .txPoll := fun _ => by decide
theorem txQlen : Statement .txQlen := fun _ => by decide
theorem txReap : Statement .txReap := fun _ => by decide
theorem ethNew (n : Nat) : Statement (.ethNew n) := fun _ => high_byte 0x30 n (by decide)
theorem dmaReset : Statement .dmaReset := fun _ => by decide
theorem ethInit : Statement .ethInit := fun _ => by decide
theorem irqEnable : Statement .irqEnable := fun _ => by decide
theorem irqAck : Statement .irqAck := fun _ => by decide
theorem phyStatus : Statement .phyStatus := fun _ => by decide
theorem ethSend : Statement .ethSend := fun _ => by decide

end Sys2Proof.Laws.TableMatch
end

