-- ==== Sys2Proof/Tests/Slice0.lean ====
section
/-! SUPPORT. The model's own tests: which terms are commands, the decoding of the words of 95_test_vectors.md T1, one
step on small states with results from the same file, and for each statement with hypotheses a state that meets them. -/

namespace Sys2Proof.Tests

open Sys2Proof Sys2Proof.Machine

/-! ## WellFormed -/

theorem test_bufNew_imm_too_wide : (Instr.bufNew (2 ^ 24)).wf = false := by decide
theorem test_bufSetlen_imm_too_wide : (Instr.bufSetlen (2 ^ 24)).wf = false := by decide
theorem test_rxNew_imm_too_wide : (Instr.rxNew (2 ^ 24)).wf = false := by decide
theorem test_rxStart_imm_too_wide : (Instr.rxStart (2 ^ 24)).wf = false := by decide
theorem test_ethNew_imm_too_wide : (Instr.ethNew (2 ^ 24)).wf = false := by decide

/-! ## Decode: the words of T1 -/

/-- The word decodes to the command, and the command's word is that word. -/
def reads (w : Word) (i : Instr) : Bool := decide ((decode w).toOption = some i) && decide (encode i = w)

/-- The word is refused. -/
def illegal (w : Word) : Bool := decide ((decode w).toOption = none)

theorem test_decode_bufNew : reads 0x0100003C (.bufNew 60) = true := by decide
theorem test_decode_bufNew_widest : reads 0x01FFFFFF (.bufNew 16777215) = true := by decide
theorem test_decode_bufSetlen : reads 0x0200003C (.bufSetlen 60) = true := by decide
theorem test_decode_bufInfo : reads 0x03000000 .bufInfo = true := by decide
theorem test_decode_bufFree : reads 0x04000000 .bufFree = true := by decide
theorem test_decode_rxNew : reads 0x10000100 (.rxNew 256) = true := by decide
theorem test_decode_rxStart : reads 0x11000002 (.rxStart 2) = true := by decide
theorem test_decode_rxPoll : reads 0x12000000 .rxPoll = true := by decide
theorem test_decode_rxState : reads 0x13000000 .rxState = true := by decide
theorem test_decode_rxRecv : reads 0x14000000 .rxRecv = true := by decide
theorem test_decode_txNew : reads 0x20000000 .txNew = true := by decide
theorem test_decode_txStart : reads 0x21000000 .txStart = true := by decide
theorem test_decode_txSend : reads 0x22000000 .txSend = true := by decide
theorem test_decode_txState : reads 0x23000000 .txState = true := by decide
theorem test_decode_txPoll : reads 0x24000000 .txPoll = true := by decide
theorem test_decode_txQlen : reads 0x25000000 .txQlen = true := by decide
theorem test_decode_txReap : reads 0x26000000 .txReap = true := by decide
theorem test_decode_ethNew : reads 0x30000004 (.ethNew 4) = true := by decide
theorem test_decode_dmaReset : reads 0x31000000 .dmaReset = true := by decide
theorem test_decode_ethInit : reads 0x32000000 .ethInit = true := by decide
theorem test_decode_irqEnable : reads 0x33000000 .irqEnable = true := by decide
theorem test_decode_irqAck : reads 0x34000000 .irqAck = true := by decide
theorem test_decode_phyStatus : reads 0x35000000 .phyStatus = true := by decide
theorem test_decode_ethSend : reads 0x36000000 .ethSend = true := by decide

/-- The unassigned `op` values T1 lists. -/
theorem test_decode_unassigned :
    [0x00000000, 0xFF000000, 0x05000000, 0x0F000001, 0x15000000, 0x27000000, 0x37000000].all illegal = true := by decide

/-- The non-zero immediates T1 lists for formats without one. -/
theorem test_decode_nonzero_imm :
    [0x12000001, 0x14FFFFFF, 0x03000001, 0x22000001, 0x36000010, 0x20000004].all illegal = true := by decide

/-! ## Small states -/

/-- The next state, if there is one. -/
def after (o : Host.Outcome State Fault Refusal) : Option State :=
  match o with
  | .next t => some t
  | .fault _ => none
  | .refused _ => none

/-- What a command answers: code, `R0`, `R1`. -/
def answer (i : Instr) (s : State) : Option (Byte × Word × Word) :=
  (after (exec i s)).map fun t => (t.port.code, t.port.r0, t.port.r1)

/-- A part of the state a command leaves. -/
def leaves {α : Type} (i : Instr) (s : State) (f : State → α) : Option α := (after (exec i s)).map f

/-- The four words of a descriptor. -/
def descOf (d : Word) (s : State) : List Word := [0, 1, 2, 3].map fun k => s.mem.read32 (descWord d k)

/-- HOST owns one Buffer of 60 bytes and names it in `A0` (T2 row 8). -/
def oneBuffer (len : Nat) : State :=
  { State.reset with
    bt := [(0x20000000, { cap := 60, len := len, owner := .host })]
    port := { State.reset.port with a0 := 0x20000000 }
    heap := { brk := 0x20000040, draws := [] } }

/-- After `RX_NEW size`. -/
def emptyRing (size : Nat) : State :=
  { State.reset with rx := { constructed := true, started := false, bufSize := size, slots := [], cur := 0 } }

/-- A receive ring of one with a Buffer of 16 bytes, its word 0 as given. -/
def rxRing (w0 : Word) : State :=
  { State.reset with
    rx := { constructed := true, started := true, bufSize := 16
            slots := [{ desc := 0x20000000, buf := 0x20000010 }], cur := 0 }
    bt := [(0x20000010, { cap := 16, len := 0, owner := .rxSlot 0 })]
    mem := Memory.write32 State.reset.mem 0x20000000 w0
    heap := { brk := 0x20000020, draws := [] } }

/-- A transmit ring of one, its word 0 and its installed Buffer as given, and a Buffer of 8 bytes HOST names in `A0`. -/
def txRing (w0 : Word) (installed : Bool) (len : Nat) : State :=
  { State.reset with
    tx := { constructed := true, started := true
            slots := [{ desc := 0x20000000, buf := if installed then some 0x20000010 else none }], cur := 0 }
    bt := (if installed then [(0x20000010, { cap := 8, len := 8, owner := .txSlot 0 })] else []) ++
      [(0x20000018, { cap := 9000, len := len, owner := .host })]
    port := { State.reset.port with a0 := 0x20000018 }
    mem := Memory.write32 State.reset.mem 0x20000000 w0
    heap := { brk := 0x20002340, draws := [] } }

/-- A receive ring of one and a transmit ring of one, linked in memory and both started, RXW and TXW at their entries in
these process states with their latches filled; word 0 of the entries as given. -/
def linkedRings (rxW0 txW0 : Word) (rps tps : BitVec 3) (fr : Option Frame) : State :=
  let m := [((0x20000000 : Word), rxW0), (0x20000004, 0xC010), (0x20000008, 0x20000010), (0x20000020, txW0),
    (0x20000024, 8), (0x20000028, 0x20000030)].foldl (fun m e => Memory.write32 m e.1 e.2) State.reset.mem
  { State.reset with
    par := { Config.vectors with txRingLen := 1 }
    rx := { constructed := true, started := true, bufSize := 16
            slots := [{ desc := 0x20000000, buf := 0x20000010 }], cur := 0 }
    tx := { constructed := true, started := true, slots := [{ desc := 0x20000020, buf := some 0x20000030 }], cur := 0 }
    bt := [(0x20000010, { cap := 16, len := 0, owner := .rxSlot 0 }), (0x20000030, { cap := 8, len := 8, owner := .txSlot 0 })]
    regs := { State.reset.regs with dmardlar := 0x20000000, dmatdlar := 0x20000020, dmaomr := 0x2002 }
    rxw := { ps := rps, cur := 0x20000000, fr := fr
             lat := { buf := 0x20000010, size := 16, eor := true, ch := true, next := 0 } }
    txw := { ps := tps, cur := 0x20000020, lat := { w0 := txW0, size := 8, buf := 0x20000030, next := 0 }, asm := [1] }
    mem := m
    heap := { brk := 0x20000038, draws := [] } }

/-- A short transmit ring, so that the tests that build one stay small. -/
def shortTx (s : State) : State := { s with par := { s.par with txRingLen := 1 } }

/-- The state with a fatal cause. -/
def dead (s : State) : State := s.setPort { s.port with fault := 5 }

/-- The state inside the reset wait of `DMA_RESET`, with these moves. -/
def waiting (ms : List Move) : State :=
  { State.reset with
    qm := some { cmd := 0x31000000, arg := 0, pc := 2, polls := 1, starved := false }
    regs := { State.reset.regs with dmabmr := 1 }
    moves := ms }

/-- RXW in a process state, with its latch and a frame of four bytes. -/
def rxWalk (ps : BitVec 3) (fr : Option Frame) (s : State) : State :=
  s.setRxw { ps := ps, cur := 0x20000000, fr := fr
             lat := { buf := 0x20000013, size := 16, eor := true, ch := true, next := 0 } }

/-- TXW in a process state, with its latch. -/
def txWalk (ps : BitVec 3) (w0 : Word) (s : State) : State :=
  s.setTxw { ps := ps, cur := 0x20000000, lat := { w0 := w0, size := 8, buf := 0x20000018, next := 0 }, asm := [1] }

/-- A frame of four bytes of which `pos` are stored. -/
def frame4 (pos : Nat) : Frame := { bytes := [0xAA, 0xBB, 0xCC, 0xDD], err := false, pos := pos, first := true }

/-! ## Commands: expected results from T2 to T6, V1, V2 and V3 -/

/-- T2 row 1. -/
theorem test_bufNew : answer (.bufNew 60) State.reset = some (0x00, 0x20000000, 60) := by decide +kernel
/-- T2 row 4: not fatal. -/
theorem test_bufNew_fails :
    leaves (.bufNew 0xFFFFFF) State.reset (fun t => (t.port.code, t.port.fault)) = some (0x05, 0) := by decide +kernel
/-- T2 row 8. -/
theorem test_bufSetlen : leaves (.bufSetlen 60) (oneBuffer 0) (·.bt) = some (oneBuffer 60).bt := by decide +kernel
/-- T2 row 9. -/
theorem test_bufSetlen_too_long : answer (.bufSetlen 61) (oneBuffer 60) = some (0x11, 0, 0) := by decide +kernel
/-- T2 row 13. -/
theorem test_bufInfo : answer .bufInfo (oneBuffer 60) = some (0x00, 60, 60) := by decide +kernel
/-- T2 row 11: an address inside a Buffer is no Buffer. -/
theorem test_bufInfo_inside :
    answer .bufInfo ((oneBuffer 60).setPort { (oneBuffer 60).port with a0 := 0x20000004 }) = some (0x10, 0, 0) := by
  decide +kernel
/-- T2 row 14. -/
theorem test_bufFree : leaves .bufFree (oneBuffer 60) (fun t => (t.port.code, t.bt)) = some (0x00, []) := by
  decide +kernel
/-- T2 row 15. -/
theorem test_bufFree_twice : answer .bufFree ((oneBuffer 60).setBt []) = some (0x10, 0, 0) := by decide +kernel
/-- T3 row 5. -/
theorem test_rxNew : leaves (.rxNew 0x1FFF) State.reset (·.rx) = some (emptyRing 8191).rx := by decide +kernel
/-- T3 row 4. -/
theorem test_rxNew_too_large : answer (.rxNew 0x2000) State.reset = some (0x13, 0, 0) := by decide +kernel
/-- V1, N = 1. -/
theorem test_rxStart :
    leaves (.rxStart 1) (emptyRing 0x100) (fun t => (descOf 0x20000000 t, t.regs.dmardlar, t.heap.brk)) =
      some ([0x80000000, 0x0000C100, 0x20000010, 0], 0x20000000, 0x20000110) := by decide +kernel
/-- T3 row 7. -/
theorem test_rxStart_nothing : answer (.rxStart 0) (emptyRing 0x100) = some (0x13, 0, 0) := by decide +kernel
/-- T7, ring of one: a poll wakes a suspended walker. -/
theorem test_rxPoll : leaves .rxPoll (rxWalk 4 none (rxRing 0)) (·.rxw.ps) = some 1 := by decide +kernel
/-- V5, code 3. -/
theorem test_rxState : answer .rxState (rxWalk 3 none State.reset) = some (0x00, 1, 3) := by decide +kernel
/-- V5, a code without a name. -/
theorem test_rxState_unknown : answer .rxState (rxWalk 2 none State.reset) = some (0x00, 2, 2) := by decide +kernel
/-- T3: a frame longer than the capacity is clamped (the row of L > cap, with a capacity of 16). -/
theorem test_rxRecv :
    leaves .rxRecv (rxRing 0x00110300) (fun t => (t.port.r0, t.port.r1, t.mem.read32 0x20000000)) =
      some (0x20000010, 16, 0x80110300) := by decide +kernel
/-- T3: error-summary has priority over the segment flags. -/
theorem test_rxRecv_error :
    leaves .rxRecv (rxRing 0x02588100) (fun t => (t.port.code, t.mem.read32 0x20000000)) = some (0x02, 0x82588100) := by
  decide +kernel
/-- P3 row 1, with a ring of one. -/
theorem test_txNew :
    leaves .txNew (shortTx State.reset) (fun t => (t.port.code, t.tx.slots.map (·.desc), t.tx.started)) =
      some (0x00, [0x20000000], false) := by decide +kernel
/-- T4 row 11. -/
theorem test_txStart_twice : answer .txStart (txRing 0 false 8) = some (0x12, 0, 0) := by decide +kernel
/-- V1, the last entry of the transmit ring. -/
theorem test_txStart :
    leaves .txStart ((txRing 0 false 8).setTx { (txRing 0 false 8).tx with started := false })
      (fun t => (descOf 0x20000000 t, t.regs.dmatdlar, t.regs.dmaomr)) =
      some ([0x00300000, 0, 0, 0], 0x20000000, 0x00002000) := by decide +kernel
/-- T4, lengths: 8191 is the longest; entry 0 is also the last of a ring of one, so `TER` is set. -/
theorem test_txSend :
    leaves .txSend (txRing 0x00300000 true 8191) (fun t => (descOf 0x20000000 t, t.bt.map (·.1))) =
      some ([0xB0300000, 0x00001FFF, 0x20000018, 0], [0x20000018]) := by decide +kernel
/-- T4 row 2. -/
theorem test_txSend_full : answer .txSend (txRing 0xB0300000 true 8) = some (0x04, 0, 0) := by decide +kernel
/-- T4 row 4. -/
theorem test_txState : answer .txState (txWalk 6 0 State.reset) = some (0x00, 0, 6) := by decide +kernel
/-- T8: poll. -/
theorem test_txPoll : leaves .txPoll (txWalk 6 0 (txRing 0 false 8)) (·.txw.ps) = some 1 := by decide +kernel
/-- P3 row 8. -/
theorem test_txQlen : answer .txQlen (txRing 0xB0300000 true 8) = some (0x00, 1, 0) := by decide +kernel
/-- P3 row 12. -/
theorem test_txReap :
    leaves .txReap (txRing 0x30300000 true 8) (fun t => (t.port.r0, t.bt.map (·.1))) = some (1, [0x20000018]) := by
  decide +kernel
/-- P3 row 8: a queued Buffer is not reaped. -/
theorem test_txReap_queued : answer .txReap (txRing 0xB0300000 true 8) = some (0x00, 0, 0) := by decide +kernel
/-- T5 row 3, with a transmit ring of one: RST steps before the first read of the wait. -/
theorem test_ethNew :
    leaves (.ethNew 0) ((shortTx State.reset).setMoves (List.replicate 5 .qm ++ [.rst]))
      (fun t => (t.port.code, t.port.r0, t.regs.dmaomr)) = some (0x00, 0, 0x06202084) := by decide +kernel
/-- T5 row 2. -/
theorem test_ethNew_too_many : answer (.ethNew 9) State.reset = some (0x13, 0, 0) := by decide +kernel
/-- T5 row 8. -/
theorem test_dmaReset : answer .dmaReset (State.reset.setMoves [.qm, .rst]) = some (0x00, 0, 0) := by decide +kernel
/-- T5 row 9: a bound of 3 and RST never stepping. -/
theorem test_dmaReset_bound :
    leaves .dmaReset (State.setMoves { State.reset with par := { Config.vectors with resetBound := some 3 } }
      [.qm, .qm, .qm, .qm]) (fun t => (t.port.code, t.port.fault, t.regs.dmabmr)) = some (0x06, 0x06, 1) := by
  decide +kernel
/-- T5: the registers after `ETH_INIT` alone. -/
theorem test_ethInit :
    leaves .ethInit (State.reset.setMoves [.qm, .rst])
      (fun t => (t.regs.maccr, t.regs.macffr, t.regs.dmabmr, t.regs.dmaomr)) =
      some (0x02004A8C, 0x80000001, 0x02810000, 0x06200084) := by decide +kernel
/-- T6 row 1. -/
theorem test_irqEnable : leaves .irqEnable State.reset (fun t => (t.regs.dmaier, t.nvic, irqCpu t)) =
    some (0x00010041, true, false) := by decide +kernel
/-- T6 (d). -/
theorem test_irqAck :
    leaves .irqAck (State.setRxw (State.setTxw (State.setRegs State.reset
      { State.reset.regs with ts := true, rs := true, nis := true }) { State.reset.txw with ps := 6 })
      { State.reset.rxw with ps := 3 }) dmasr = some 0x00660000 := by decide +kernel
/-- T5 row 7: the answer is any word, so only the code is tested. -/
theorem test_phyStatus : leaves .phyStatus State.reset (·.port.code) = some 0x00 := by decide +kernel
/-- T4 row 7. -/
theorem test_ethSend :
    leaves .ethSend (txWalk 6 0 (txRing 0x30300000 true 8)) (fun t => (t.port.r0, t.port.r1, t.txw.ps)) =
      some (0, 1, 1) := by decide +kernel
/-- T5: TXW seen running, no poll. -/
theorem test_ethSend_running : answer .ethSend (txWalk 1 0 (txRing 0 false 8)) = some (0x00, 0, 0) := by decide +kernel

/-! ## Steps, walkers and ends -/

/-- T1: an illegal word from reset. -/
theorem test_illegal_word :
    (after (step (State.reset.setMoves [.portWrite 0x50000000 0x12000001]))).map (·.port.code) = some 0x1E := by
  decide +kernel
/-- T10: in the fatal state an illegal word answers `FAULTED` too. -/
theorem test_faulted :
    (after (step ((dead State.reset).setMoves [.portWrite 0x50000000 0]))).map (·.port.code) = some 0x1F := by
  decide +kernel
/-- The host's placement runs the command (T2 row 3). -/
theorem test_withFetchWord :
    (after (step (State.reset.withFetchWord 32 0x01000001))).map (fun t => (t.port.r0, t.heap.brk)) =
      some (0x20000000, 0x20000008) := by decide +kernel
/-- T7: the close word, and the end-of-ring base. -/
theorem test_rxw_close :
    (fun t => (t.mem.read32 0x20000000, t.rxw.ps)) (rxwStep (rxWalk 5 (some (frame4 4)) (rxRing 0x80000000))) =
      (0x00040300, 1) := by decide +kernel
/-- T9: RXW stores at `trunc8(lat.buf)`. -/
theorem test_rxw_transfer :
    (rxwStep (rxWalk 7 (some (frame4 0)) (rxRing 0x80000000))).mem.readBytes 0x20000010 4 =
      [0xAA, 0xBB, 0xCC, 0xDD] := by decide +kernel
/-- T8: the close word of the last entry. -/
theorem test_txw_close : (txwStep (txWalk 7 0xB0300000 State.reset)).mem.read32 0x20000000 = 0x30300000 := by
  decide +kernel
/-- R375: DRA is at rest after reset, and no longer once a command is due. -/
theorem test_reset_endedWell :
    State.reset.endedWell ∧ ¬ (State.reset.setMoves [.portWrite 0x50000000 0x14000000]).endedWell := by
  unfold State.endedWell State.hostDone State.ready; decide +kernel
/-- R372 (c): a run without QM's progress is left busy, and the others go on. -/
theorem test_starved :
    (after (step (State.reset.setMoves [.portWrite 0x50000000 0x12000000, .starve, .rxw]))).map
      (fun t => (t.cst, t.starved, t.moves, (after (step t)).map (·.cst))) =
        some (0x80000000, true, [.rxw], some 0x80000000) := by decide +kernel

/-! ## Deciding the invariants on a concrete state -/

/-- A Bool that implies `State.InRange`. -/
def inRangeB (s : State) : Bool :=
  s.par.wf && decide (s.port.fault = 0 ∨ s.port.fault = 5 ∧ s.qm = none) && decide (s.rx.slots.length ≤ s.par.maxRing) &&
  decide (s.rx.cur < max s.rx.slots.length 1) && decide (s.rx.bufSize ≤ Config.bufSizeMax) &&
  (decide (s.rx.constructed = false ∧ s.rx.slots = []) || decide (s.rx.constructed = true ∧ 1 ≤ s.rx.bufSize)) &&
  decide (s.tx.slots.length ≤ s.par.maxRing) && decide (s.tx.cur < max s.tx.slots.length 1) &&
  (decide (s.tx.constructed = true ∧ s.tx.slots.length = s.par.txRingLen) ||
    decide (s.tx.constructed = false ∧ s.tx.started = false ∧ s.tx.cur = 0 ∧ s.tx.slots = [])) &&
  decide (s.rxw.ps ≠ 2 ∧ s.rxw.ps ≠ 6) && decide (s.txw.ps ≠ 4 ∧ s.txw.ps ≠ 5) &&
  decide (s.rxw.cur.toNat % 8 = 0) && decide (s.txw.cur.toNat % 8 = 0) &&
  (match s.rxw.fr with
    | none => decide (¬ (s.rxw.ps = 5 ∨ s.rxw.ps = 7))
    | some fr => decide (1 ≤ fr.bytes.length ∧ fr.bytes.length ≤ Config.frameMax ∧ fr.pos ≤ fr.bytes.length)) &&
  decide (s.regs.maccr &&& Reg.fields .maccr = s.regs.maccr) && decide (s.regs.macffr &&& Reg.fields .macffr = s.regs.macffr) &&
  decide (s.regs.macmiiar &&& Reg.fields .macmiiar = s.regs.macmiiar) &&
  decide (s.regs.macfcr &&& Reg.fields .macfcr = s.regs.macfcr) &&
  decide (s.regs.dmabmr &&& Reg.fields .dmabmr = s.regs.dmabmr) &&
  decide (s.regs.dmaomr &&& Reg.fields .dmaomr = s.regs.dmaomr) &&
  decide (s.regs.dmaier &&& Reg.fields .dmaier = s.regs.dmaier)

theorem inRange_of (s : State) (h : inRangeB s = true) : s.InRange := by
  simp only [inRangeB, Bool.and_eq_true, Bool.or_eq_true, decide_eq_true_eq] at h
  obtain ⟨⟨⟨⟨⟨⟨⟨⟨⟨⟨⟨⟨⟨⟨⟨⟨⟨⟨⟨⟨h1, h2⟩, h3⟩, h4⟩, h5⟩, h6⟩, h7⟩, h8⟩, h9⟩, h10⟩, h11⟩, h12⟩, h13⟩, h14⟩, r1⟩, r2⟩, r3⟩, r4⟩,
    r5⟩, r6⟩, r7⟩ := h
  constructor
  case frame => intro fr hf; simpa [hf] using h14
  case framed => intro hp hf; simp [hf] at h14; exact hp.elim h14.1 h14.2
  all_goals first
    | assumption
    | exact h2.elim Or.inl fun hf => Or.inr (Or.inl hf.1)
    | (intro hf; exact Or.inl (h2.resolve_left hf).2)
    | (intro hc; simp_all)

theorem btFind_mem {bt : List (Word × BufRec)} {a : Word} {r : BufRec} (h : btFind bt a = some r) : (a, r) ∈ bt := by
  induction bt with
  | nil => simp [btFind] at h
  | cons e bt ih =>
    obtain ⟨k, q⟩ := e
    unfold btFind at h
    split at h
    · rename_i hk; simp_all
    · exact List.mem_cons_of_mem _ (ih h)

/-- A Bool that implies `State.Owned`, for rings of at most one entry. -/
def ownedB (s : State) : Bool :=
  decide (s.bt.Pairwise fun x y => x.1 < y.1) &&
  s.bt.all (fun e => decide (e.1.toNat % 8 = 0 ∧ e.1 ≠ 0 ∧ 1 ≤ e.2.cap ∧ e.2.len ≤ e.2.cap) &&
    match e.2.owner with
    | .host => true
    | .rxSlot i => decide ((s.rx.slots[i]?).map (·.buf) = some e.1)
    | .txSlot i => decide ((s.tx.slots[i]?).map (·.buf) = some (some e.1))) &&
  decide (s.rx.slots.length ≤ 1) && decide (s.tx.slots.length ≤ 1) &&
  s.rx.slots.all (fun e => decide (e.desc.toNat % 8 = 0) &&
    decide ((btFind s.bt e.buf).map (fun r => (r.owner, r.cap)) = some (.rxSlot 0, s.rx.bufSize))) &&
  s.tx.slots.all (fun e => decide (e.desc.toNat % 8 = 0) &&
    match e.buf with
    | some b => s.tx.constructed && decide ((btFind s.bt b).map (·.owner) = some (.txSlot 0))
    | none => true) &&
  (decide (s.rx.constructed = false ∧ s.rx.slots = []) || decide (s.rx.constructed = true ∧ 1 ≤ s.rx.bufSize)) &&
  (s.tx.constructed || decide (s.tx.started = false)) &&
  decide ((liveRegions s).Pairwise fun x y => Region.disjoint x y = true) &&
  (liveRegions s).all (fun r => decide (s.par.heapBase ≤ r.1 ∧ r.1 + r.2 ≤ s.par.heapBase + s.par.heapSize))

theorem owned_of (s : State) (h : ownedB s = true) : s.Owned := by
  simp only [ownedB, Bool.and_eq_true, Bool.or_eq_true, decide_eq_true_eq, List.all_eq_true] at h
  obtain ⟨⟨⟨⟨⟨⟨⟨⟨⟨h1, h2⟩, h3⟩, h4⟩, h5⟩, h6⟩, h7⟩, h8⟩, h9⟩, h10⟩ := h
  have small {α : Type} {l : List α} {i : Nat} {e : α} (hl : l.length ≤ 1) (he : l[i]? = some e) : i = 0 ∧ e ∈ l := by
    obtain ⟨hi, rfl⟩ := List.getElem?_eq_some_iff.mp he
    exact ⟨by omega, List.getElem_mem hi⟩
  constructor
  case rising => exact h1
  case record => intro a r hr; exact (h2 _ (btFind_mem hr)).1
  case rxDesc => intro e he; exact (h5 e he).1
  case txDesc => intro e he; exact (h6 e he).1
  case rxBuf =>
    intro i e he
    obtain ⟨rfl, hm⟩ := small h3 he
    have := (h5 e hm).2
    cases hf : btFind s.bt e.buf with
    | none => rw [hf] at this; cases this
    | some r => rw [hf] at this; simp at this; exact ⟨r, rfl, this⟩
  case txBuf =>
    intro i e b he hb
    obtain ⟨rfl, hm⟩ := small h4 he
    have := (h6 e hm).2
    simp only [hb, Bool.and_eq_true, decide_eq_true_eq] at this
    cases hf : btFind s.bt b with
    | none => rw [hf] at this; simp at this
    | some r => rw [hf] at this; simp at this; exact ⟨r, rfl, this.2⟩
  case rxOwner =>
    intro _ a r i hr ho
    have := (h2 _ (btFind_mem hr)).2
    simp only [ho, decide_eq_true_eq, Option.map_eq_some_iff] at this
    exact this
  case txOwner =>
    intro a r i hr ho
    have := (h2 _ (btFind_mem hr)).2
    simp only [ho, decide_eq_true_eq, Option.map_eq_some_iff] at this
    exact this
  case rxUnmade => intro hc; simp_all
  case rxMade => intro hc; simp_all
  case txUnmade =>
    intro hc e he
    have := (h6 e he).2
    cases hb : e.buf with
    | none => rfl
    | some b => simp [hb, hc] at this
  case txStarted => intro hc; simp_all
  case apart => exact h9
  case inHeap => exact h10

/-- A Bool that implies `State.HasRoom`. -/
def hasRoomB (s : State) (n : Nat) : Bool :=
  decide (s.heap.draws = []) && decide (s.par.heapBase ≤ s.heap.brk) && decide (s.heap.brk % 8 = 0) &&
  decide (0 < s.heap.brk) && decide (s.heap.brk + n ≤ s.par.heapBase + s.par.heapSize) &&
  decide (s.par.heapBase + s.par.heapSize ≤ 2 ^ 32) && (liveRegions s).all fun r => decide (r.1 + r.2 ≤ s.heap.brk)

theorem hasRoom_of (s : State) (n : Nat) (h : hasRoomB s n = true) : s.HasRoom n := by
  simp only [hasRoomB, Bool.and_eq_true, decide_eq_true_eq, List.all_eq_true] at h
  exact ⟨h.1.1.1.1.1.1, h.1.1.1.1.1.2, h.1.1.1.1.2, h.1.1.1.2, h.1.1.2, h.1.2, h.2⟩

/-- A Bool that implies `State.RingLinks`. -/
def linksB (s : State) : Bool :=
  decide (s.regs.resetPending = s.qm.isSome) &&
  decide (s.rx.started = true → s.rx.slots ≠ [] ∧ s.regs.dmardlar = rxHead s) &&
  decide (s.tx.started = true → s.tx.slots ≠ [] ∧ s.regs.dmatdlar = txHead s) &&
  decide (s.rx.started = false → s.rxw.ps = 0 ∧ s.regs.startRx = false) &&
  decide (s.tx.started = false → s.txw.ps = 0 ∧ s.regs.startTx = false) &&
  decide (s.rx.started = true → ∀ x ∈ s.rx.slots.zipIdx,
    s.mem.read32 (descWord x.1.desc 3) = rxNext s x.2 ∧
    s.mem.read32 (descWord x.1.desc 1) = rxCtrl (decide (x.2 + 1 = s.rx.slots.length)) s.rx.bufSize) &&
  decide (s.tx.started = true → ∀ x ∈ s.tx.slots.zipIdx,
    s.mem.read32 (descWord x.1.desc 3) = txNext s x.2 ∧
    txTer (s.mem.read32 (descWord x.1.desc 0)) = decide (x.2 + 1 = s.tx.slots.length) ∧
    txTch (s.mem.read32 (descWord x.1.desc 0)) = true) &&
  decide (∀ e ∈ s.rx.slots, s.mem.read32 (descWord e.desc 2) = e.buf) &&
  decide (∀ e ∈ s.tx.slots, e.buf = none ∨ e.buf = some (s.mem.read32 (descWord e.desc 2))) &&
  decide (∀ e ∈ s.tx.slots, txOwn (s.mem.read32 (descWord e.desc 0)) = true → e.buf ≠ none) &&
  decide (s.rxw.ps ≠ 0 → ∃ e ∈ s.rx.slots, e.desc = s.rxw.cur) &&
  decide (s.txw.ps ≠ 0 → ∃ e ∈ s.tx.slots, e.desc = s.txw.cur) &&
  decide (s.rxw.ps = 3 ∨ s.rxw.ps = 5 ∨ s.rxw.ps = 7 → ∃ e ∈ s.rx.slots, e.desc = s.rxw.cur ∧
    rxOwn (s.mem.read32 (descWord e.desc 0)) = true ∧ s.rxw.lat.buf = e.buf ∧ s.rxw.lat.size.toNat = s.rx.bufSize ∧
    (s.rxw.lat.eor = true ∨ (s.rxw.lat.ch = true ∧ ∃ f ∈ s.rx.slots, f.desc = s.rxw.lat.next))) &&
  decide (s.txw.ps = 2 ∨ s.txw.ps = 3 ∨ s.txw.ps = 7 → ∃ e ∈ s.tx.slots, e.desc = s.txw.cur ∧
    txOwn (s.mem.read32 (descWord e.desc 0)) = true ∧ e.buf = some s.txw.lat.buf ∧
    s.txw.lat.w0 = s.mem.read32 (descWord e.desc 0) ∧ s.txw.lat.next = s.mem.read32 (descWord e.desc 3))

theorem links_of (s : State) (h : linksB s = true) : s.RingLinks := by
  simp only [linksB, Bool.and_eq_true, decide_eq_true_eq] at h
  obtain ⟨⟨⟨⟨⟨⟨⟨⟨⟨⟨⟨⟨⟨h1, h2⟩, h3⟩, h4⟩, h5⟩, h6⟩, h7⟩, h8⟩, h9⟩, h10⟩, h11⟩, h12⟩, h13⟩, h14⟩ := h
  refine ⟨h1, h2, h3, h4, h5, fun hs i e he => h6 hs (e, i) (List.mk_mem_zipIdx_iff_getElem?.mpr he),
    fun hs i e he => h7 hs (e, i) (List.mk_mem_zipIdx_iff_getElem?.mpr he), h8, ?_, h10, h11, h12, h13, h14⟩
  intro e he b hb
  rcases h9 e he with h | h
  · rw [hb] at h; cases h
  · exact (Option.some.inj (h.symm.trans hb))

/-- A step answers a next state. -/
theorem answers_of (s : State) (h : (after (step s)).isSome = true) : ∃ t, step s = .next t := by
  cases hs : step s with
  | next t => exact ⟨t, rfl⟩
  | fault r => rw [hs] at h; cases h
  | refused r => rw [hs] at h; cases h

/-! ## Witnesses: states and operands that meet the hypotheses of the statements of the same name

`cmd w` is HOST's write of `w` to `CMD`. -/

/-- HOST's write to `CMD`. -/
def cmd (w : Word) : Move := .portWrite 0x50000000 w

/-- HOST waits for the end of the command it issues next. -/
def still (s : State) : State := s.setMoves [.untilIdle, .rxw]

/-- Encoding. -/
theorem witness_DecodeInvertsEncode : (Instr.bufNew (2 ^ 24 - 1)).wf = true ∧ Instr.ethSend.wf = true := by decide
theorem witness_EveryWordIsOneCommandOrIllegal :
    ¬ illegalWord 0x01FFFFFF ∧ illegalWord 0x12000001 ∧ illegalWord 0x27000000 := by unfold illegalWord; decide
theorem witness_StepRunsDecodedCommand :
    let s := State.reset.setMoves [cmd 0x14000000]
    s.qm = none ∧ s.moves = .portWrite 0x50000000 0x14000000 :: [] ∧ portReg s.par 0x50000000 = some .cmd ∧
      (decode 0x14000000).toOption = some .rxRecv := by decide +kernel
theorem witness_IdleStepIsOneMove :
    (State.reset.setMoves [.rxw]).moves = .rxw :: [] ∧ cmdWord State.reset.par .rxw = none ∧
      cmdWord State.reset.par (.portWrite 0x50000004 1) = none ∧ State.reset.qm = none ∧ State.reset.moves = [] := by
  decide +kernel
theorem witness_IllegalWordAnswersIllegal :
    let s := State.reset.setMoves [cmd 0x12000001]
    s.ready ∧ s.moves = .portWrite 0x50000000 0x12000001 :: [] ∧ portReg s.par 0x50000000 = some .cmd ∧
      (s.setMoves []).quiet = true ∧ illegalWord 0x12000001 :=
  ⟨⟨rfl, rfl⟩, rfl, by decide +kernel, rfl, by unfold illegalWord; decide⟩
theorem witness_FatalStateAnswersFaulted :
    let s := (dead State.reset).setMoves [cmd 0x12000001, .rxw, .qm]
    let q := (dead State.reset).setMoves [cmd 0x12000001, .untilIdle]
    s.qm = none ∧ s.port.fault ≠ 0 ∧ Move.starve ∉ s.moves ∧ (dead State.reset).quiet = true ∧
      s.moves = .portWrite 0x50000000 0x12000001 :: [.rxw, .qm] ∧ portReg s.par 0x50000000 = some .cmd ∧
      q.moves = .portWrite 0x50000000 0x12000001 :: [.untilIdle] ∧ (q.setMoves [.untilIdle]).quiet = true ∧
      illegalWord 0x12000001 :=
  ⟨rfl, by decide, by decide, rfl, rfl, by decide +kernel, rfl, rfl, by unfold illegalWord; decide⟩
theorem witness_CmdWriteWhileBusyIsIgnored :
    (waiting []).qm.isSome = true ∧ portReg (waiting []).par 0x50000000 = some .cmd := by decide +kernel

/-- Invariants: `RX_RECV` of a complete frame is due, so that the step does something. -/
def recvDue : State := (rxRing 0x00040300).setMoves [cmd 0x14000000, .rxw]

theorem witness_StepKeepsMemoryCanonical : recvDue.mem.wf = true ∧ ∃ t, step recvDue = .next t :=
  ⟨by decide +kernel, answers_of _ (by decide +kernel)⟩
theorem witness_StepKeepsRanges : recvDue.InRange ∧ ∃ t, step recvDue = .next t :=
  ⟨inRange_of _ (by decide +kernel), answers_of _ (by decide +kernel)⟩
theorem witness_StepKeepsOwnership : recvDue.Owned ∧ ∃ t, step recvDue = .next t :=
  ⟨owned_of _ (by decide +kernel), answers_of _ (by decide +kernel)⟩
theorem witness_StepKeepsRingLinks :
    let s := (linkedRings 0x80000000 0xB0300000 7 7 (some (frame4 0))).setMoves [cmd 0x14000000, .rxw]
    let u := (linkedRings 0x80000000 0xB0300000 4 6 none).setMoves [cmd 0x11000002]
    (s.InRange ∧ s.Linked ∧ s.RingLinks ∧ s.Owned ∧ s.regrowsAlone ∧ ∃ t, step s = .next t) ∧
      (u.RingLinks ∧ u.InRange ∧ u.Owned ∧ u.regrowsAlone ∧ ∃ t, step u = .next t) := by
  have hl : ((linkedRings 0x80000000 0xB0300000 7 7 (some (frame4 0))).setMoves [cmd 0x14000000, .rxw]).RingLinks :=
    links_of _ (by decide +kernel)
  refine ⟨⟨inRange_of _ (by decide +kernel), fun _ _ => hl, hl, owned_of _ (by decide +kernel), ?_, answers_of _ (by decide +kernel)⟩,
    links_of _ (by decide +kernel), inRange_of _ (by decide +kernel), owned_of _ (by decide +kernel), ?_,
    answers_of _ (by decide +kernel)⟩
  · intro n t _ hf; cases (show Due.issue .rxRecv _ = Due.issue (.rxStart n) t from hf)
  · intro n t _ hf; cases (show Due.issue (.rxStart 2) _ = Due.issue (.rxStart n) t from hf); exact fun _ => .inr rfl
theorem witness_StepReportsInterruptLevel :
    let s := State.reset.setMoves [cmd 0x33000000]
    s.irqReported ∧ ∃ t, step s = .next t := ⟨rfl, answers_of _ (by decide +kernel)⟩
theorem witness_StepAlwaysAnswers : (waiting []).busyWaits := by
  intro q hq
  cases hq
  exact .inr ⟨.dmaReset, rfl, rfl⟩
theorem witness_QmMayMakeNoProgress :
    let s := State.reset.setMoves [.rxw, .starve, .txw]
    s.qm = none ∧ s.moves = [.rxw] ++ .starve :: [.txw] ∧ Move.qm ∉ [Move.rxw] ∧ Move.untilIdle ∉ [Move.rxw] ∧
      Move.starve ∉ [Move.rxw] ∧ (starve (waiting [.txw])).starved = true ∧
      (starve (waiting [.txw])).moves = .txw :: [] ∧ (starve (waiting [])).starved = true :=
  ⟨rfl, rfl, by decide, by decide, by decide, rfl, rfl, rfl⟩
theorem witness_ParametersNeverChange : ∃ t, step recvDue = .next t := answers_of _ (by decide +kernel)
theorem witness_RingsNeverShrink : recvDue.InRange ∧ ∃ t, step recvDue = .next t := witness_StepKeepsRanges
theorem witness_FatalCauseIsSticky :
    let s := (dead State.reset).setMoves [cmd 0x14000000]
    s.InRange ∧ s.port.fault ≠ 0 ∧ ∃ t, step s = .next t :=
  ⟨inRange_of _ (by decide +kernel), by decide, answers_of _ (by decide +kernel)⟩
theorem witness_BufferCommandsUnderAnySchedule :
    let s := (oneBuffer 4).setMoves [.portWrite 0x50000004 7, .qm, .rxw]
    s.ready ∧ Move.starve ∉ s.moves ∧ proposal 1 s = (some 0x20000040, { brk := 0x20000048, draws := [] }) ∧
      admissible s [] 1 0x20000040 = true ∧
      btFind s.bt s.port.a0 = some { cap := 60, len := 4, owner := .host } ∧ 60 ≤ 60 :=
  ⟨⟨rfl, rfl⟩, by decide, by decide +kernel, by decide +kernel, by decide +kernel, by decide⟩

/-- Walkers. -/
theorem witness_NextDescriptorFunction : aligned8 0x20000110 ∧ aligned8 0xFFFFFFF8 := by unfold aligned8; decide
theorem witness_RxwFetchesDescriptor :
    let s (w0 : Word) (fr : Option Frame) := rxWalk 1 fr (rxRing w0)
    (∀ w0 fr, (s w0 fr).regs.resetPending = false ∧ (s w0 fr).rxw.ps = 1) ∧
      ((s 0 none).mem.read32 0x20000000).getLsbD 31 = false ∧
      ((s 0x80000000 none).mem.read32 0x20000000).getLsbD 31 = true ∧
      ((s 0x80000000 (some (frame4 0))).mem.read32 0x20000000).getLsbD 31 = true :=
  ⟨fun _ _ => ⟨by show State.reset.regs.resetPending = false; decide, rfl⟩, by decide +kernel, by decide +kernel,
    by decide +kernel⟩
theorem witness_RxwTransfersFrameBytes :
    let s := rxWalk 7 (some (frame4 4)) (rxRing 0x80000000)
    s.regs.resetPending = false ∧ s.rxw.ps = 7 ∧ s.rxw.fr = some (frame4 4) ∧
      (frame4 4).pos ≤ (frame4 4).bytes.length := by decide
theorem witness_RxwCloseWordFields :
    (frame4 4).bytes.length ≤ Config.frameMax ∧ (frame4 4).pos ≤ (frame4 4).bytes.length ∧
      (frame4 3).pos ≤ (frame4 3).bytes.length := by decide
theorem witness_RxwClosesDescriptor :
    let s := rxWalk 5 (some (frame4 4)) (rxRing 0x80000000)
    s.regs.resetPending = false ∧ s.rxw.ps = 5 ∧ s.rxw.fr = some (frame4 4) := by decide
theorem witness_TxwFetchesAndReads :
    (∀ w0, (txWalk 1 0 (txRing w0 true 8)).regs.resetPending = false ∧ (txWalk 1 0 (txRing w0 true 8)).txw.ps = 1) ∧
      ((txWalk 1 0 (txRing 0 true 8)).mem.read32 0x20000000).getLsbD 31 = false ∧
      ((txWalk 1 0 (txRing 0xB0300000 true 8)).mem.read32 0x20000000).getLsbD 31 = true ∧
      (txWalk 3 0 State.reset).regs.resetPending = false ∧ (txWalk 3 0 State.reset).txw.ps = 3 :=
  ⟨fun _ => ⟨by show State.reset.regs.resetPending = false; decide, rfl⟩, by decide +kernel, by decide +kernel, by decide,
    rfl⟩
theorem witness_TxwEmitsAndCloses :
    (txWalk 2 0 State.reset).regs.resetPending = false ∧ (txWalk 2 0 State.reset).txw.ps = 2 ∧
      (txWalk 7 0xB0300000 State.reset).regs.resetPending = false ∧ (txWalk 7 0xB0300000 State.reset).txw.ps = 7 := by
  decide
theorem witness_WalkersWriteOnlyWhatTheyOwn :
    let s := rxWalk 7 (some (frame4 0)) (rxRing 0x80000000)
    let t := rxWalk 5 (some (frame4 4)) (rxRing 0x80000000)
    let u := txWalk 7 0xB0300000 State.reset
    (rxwStep s).mem.read 0x20000010 ≠ s.mem.read 0x20000010 ∧
      (rxwStep t).mem.read 0x20000003 ≠ t.mem.read 0x20000003 ∧
      (txwStep u).mem.read 0x20000003 ≠ u.mem.read 0x20000003 := by decide +kernel
/-- The last clause of the same statement: linked rings whose walkers write, each in the two states that write. -/
theorem witness_WalkersWriteOnlyWhatTheyOwn_linked :
    let s := linkedRings 0x80000000 0xB0300000 7 7 (some (frame4 0))
    let t := linkedRings 0x80000000 0xB0300000 5 7 (some (frame4 4))
    s.Owned ∧ s.RingLinks ∧ t.Owned ∧ t.RingLinks ∧ (rxwStep s).mem.read 0x20000010 ≠ s.mem.read 0x20000010 ∧
      (rxwStep t).mem.read 0x20000003 ≠ t.mem.read 0x20000003 ∧
      (txwStep t).mem.read 0x20000023 ≠ t.mem.read 0x20000023 :=
  ⟨owned_of _ (by decide +kernel), links_of _ (by decide +kernel), owned_of _ (by decide +kernel),
    links_of _ (by decide +kernel), by decide +kernel, by decide +kernel, by decide +kernel⟩
theorem witness_WalkersFreezeDuringReset : (waiting []).regs.resetPending = true := by decide
theorem witness_WalkersStartAndSuspend :
    let on := State.reset.setRegs { State.reset.regs with dmaomr := 0x2002 }
    let re := rxWalk 4 none { State.reset with par := { Config.vectors with rxwRefetch := true } }
    on.regs.resetPending = false ∧ on.rxw.ps = 0 ∧ on.regs.dmaomr.getLsbD 1 = true ∧ on.txw.ps = 0 ∧
      on.regs.dmaomr.getLsbD 13 = true ∧ State.reset.regs.dmaomr.getLsbD 1 = false ∧
      State.reset.regs.dmaomr.getLsbD 13 = false ∧ (rxWalk 3 none State.reset).rxw.ps = 3 ∧
      (rxWalk 4 none State.reset).rxw.ps = 4 ∧ State.reset.par.rxwRefetch = false ∧
      re.rxw.ps = 4 ∧ re.par.rxwRefetch = true ∧ (txWalk 6 0 State.reset).txw.ps = 6 := by decide
theorem witness_ResetCompletionClearsHardware :
    State.reset.regs.resetPending = false ∧ (waiting []).regs.resetPending = true := by decide
theorem witness_FramesAreAcceptedOnlyWhileWaiting :
    let s := rxWalk 3 none State.reset
    s.regs.resetPending = false ∧ s.rxw.ps = 3 ∧ 1 ≤ [(0 : Byte)].length ∧
      1 ≤ (List.replicate 16383 (0 : Byte)).length ∧ (List.replicate 16383 (0 : Byte)).length ≤ 16383 ∧
      State.reset.rxw.ps ≠ 3 := by
  rw [List.length_replicate]; decide
theorem witness_HostTouchesOnlyItsBuffers :
    hostMay (oneBuffer 4) 0x20000000 = true ∧ hostMay (oneBuffer 4) 0x2000003B = true ∧
      hostMay (oneBuffer 4) 0x2000003C = false ∧ hostMay (rxRing 0) 0x20000010 = false := by decide +kernel

/-- Buffer commands. -/
theorem witness_BufNewCreatesBuffer :
    State.reset.ready ∧ State.reset.quiet = true ∧
      proposal 65536 State.reset = (some 0x20000000, { brk := 0x20010000, draws := [] }) ∧
      admissible State.reset [] 65536 0x20000000 = true ∧
      proposal 65537 State.reset = (none, { brk := 0x20000000, draws := [] }) :=
  ⟨⟨rfl, rfl⟩, rfl, by decide +kernel, by decide +kernel, by decide +kernel⟩
theorem witness_BufSetlenSetsLength :
    (still (oneBuffer 4)).ready ∧ (still (oneBuffer 4)).quiet = true ∧
      btFind (oneBuffer 4).bt (oneBuffer 4).port.a0 = some { cap := 60, len := 4, owner := .host } ∧ 60 ≤ 60 ∧ 60 < 61 ∧
      btFind State.reset.bt State.reset.port.a0 = none :=
  ⟨⟨rfl, rfl⟩, rfl, by decide +kernel, by decide, by decide, rfl⟩
theorem witness_BufInfoAnswersCapacityAndLength :
    (oneBuffer 4).ready ∧ (oneBuffer 4).quiet = true ∧
      btFind (oneBuffer 4).bt (oneBuffer 4).port.a0 = some { cap := 60, len := 4, owner := .host } ∧
      btFind State.reset.bt State.reset.port.a0 = none := ⟨⟨rfl, rfl⟩, rfl, by decide +kernel, rfl⟩
theorem witness_BufFreeEndsBuffer :
    (oneBuffer 4).ready ∧ (oneBuffer 4).quiet = true ∧
      btFind (oneBuffer 4).bt (oneBuffer 4).port.a0 = some { cap := 60, len := 4, owner := .host } ∧
      (btFind (rxRing 0).bt 0x20000010).map (·.owner) = some (.rxSlot 0) :=
  ⟨⟨rfl, rfl⟩, rfl, by decide +kernel, by decide +kernel⟩

/-- Receive ring commands. -/
theorem witness_RxNewCreatesEmptyRing :
    State.reset.ready ∧ State.reset.quiet = true ∧ State.reset.rx.constructed = false ∧
      (emptyRing 8191).ready ∧ (emptyRing 8191).quiet = true ∧ (emptyRing 8191).rx.constructed = true ∧
      1 ≤ 8191 ∧ 8191 < 8192 := ⟨⟨rfl, rfl⟩, rfl, rfl, ⟨rfl, rfl⟩, rfl, rfl, by decide, by decide⟩
theorem witness_RxStartBuildsCircularChain :
    let s := still (rxRing 0x00040300)
    s.ready ∧ s.quiet = true ∧ s.InRange ∧ s.Owned ∧ s.rx.constructed = true ∧
      8 ≤ s.par.maxRing ∧ 0 < max 8 s.rx.slots.length ∧ s.HasRoom (7 * (16 + heapStep 16)) ∧
      0 < max 0 s.rx.slots.length ∧ 0 - s.rx.slots.length = 0 :=
  ⟨⟨rfl, rfl⟩, rfl, inRange_of _ (by decide +kernel), owned_of _ (by decide +kernel), rfl, by decide, by decide,
    hasRoom_of _ _ (by decide +kernel), by decide, rfl⟩
theorem witness_PollsAndStateQueries :
    (rxWalk 4 none (txWalk 6 0 State.reset)).ready ∧ (rxWalk 4 none (txWalk 6 0 State.reset)).quiet = true ∧
      (rxWalk 6 none (txWalk 5 0 State.reset)).ready ∧ (rxWalk 6 none (txWalk 5 0 State.reset)).quiet = true :=
  ⟨⟨rfl, rfl⟩, rfl, ⟨rfl, rfl⟩, rfl⟩
theorem witness_RxRecvSwapsBuffer :
    let s := rxRing 0x00110300
    s.ready ∧ s.quiet = true ∧ s.Owned ∧ s.rx.slots[s.rx.cur]? = some { desc := 0x20000000, buf := 0x20000010 } ∧
      btFind s.bt 0x20000010 = some { cap := 16, len := 0, owner := .rxSlot 0 } ∧
      s.mem.read32 0x20000000 = 0x00110300 ∧ proposal 16 s = (some 0x20000020, { brk := 0x20000030, draws := [] }) ∧
      admissible s [] 16 0x20000020 = true :=
  ⟨⟨rfl, rfl⟩, rfl, owned_of _ (by decide +kernel), rfl, by decide +kernel, by decide +kernel, by decide +kernel,
    by decide +kernel⟩
theorem witness_RxRecvDropsAndRefuses :
    (∀ w0, (rxRing w0).ready ∧ (rxRing w0).quiet = true ∧
      (rxRing w0).rx.slots[(rxRing w0).rx.cur]? = some { desc := 0x20000000, buf := 0x20000010 }) ∧
      (rxRing 0x803C0300).mem.read32 0x20000000 = 0x803C0300 ∧ (rxRing 0x003C8300).mem.read32 0x20000000 = 0x003C8300 ∧
      (rxRing 0x00000200).mem.read32 0x20000000 = 0x00000200 ∧ (rxRing 0x012C0100).mem.read32 0x20000000 = 0x012C0100 ∧
      (emptyRing 16).ready ∧ (emptyRing 16).quiet = true ∧ (emptyRing 16).rx.slots = [] :=
  ⟨fun _ => ⟨⟨rfl, rfl⟩, rfl, rfl⟩, by decide +kernel, by decide +kernel, by decide +kernel, by decide +kernel,
    ⟨rfl, rfl⟩, rfl, rfl⟩

/-- Transmit ring commands. -/
theorem witness_TxNewZeroesDescriptors :
    State.reset.ready ∧ State.reset.quiet = true ∧ State.reset.tx.constructed = false ∧ State.reset.tx.slots = [] ∧
      State.reset.HasRoom (16 * State.reset.par.txRingLen) :=
  ⟨⟨rfl, rfl⟩, rfl, rfl, rfl, hasRoom_of _ _ (by decide +kernel)⟩
theorem witness_TxStartBuildsCircularChain :
    let s := shortTx ((txRing 0x30300000 true 8).setTx { (txRing 0x30300000 true 8).tx with started := false })
    s.ready ∧ s.quiet = true ∧ s.InRange ∧ s.Owned ∧ s.tx.constructed = true ∧ s.tx.started = false :=
  ⟨⟨rfl, rfl⟩, rfl, inRange_of _ (by decide +kernel), owned_of _ (by decide +kernel), rfl, rfl⟩
theorem witness_TxSendHandsBufferOver :
    let s (len : Nat) := txRing 0x30300000 true len
    (∀ len, (s len).ready ∧ (s len).quiet = true ∧ (s len).tx.started = true ∧
      (s len).tx.slots[(s len).tx.cur]? = some { desc := 0x20000000, buf := some 0x20000010 } ∧
      btFind (s len).bt (s len).port.a0 = some { cap := 9000, len := len, owner := .host }) ∧
      (s 1).Owned ∧ (s 8191).Owned ∧ ((s 1).mem.read32 0x20000000).getLsbD 31 = false :=
  ⟨fun _ => ⟨⟨rfl, rfl⟩, rfl, rfl, rfl, rfl⟩, owned_of _ (by decide +kernel), owned_of _ (by decide +kernel),
    by decide +kernel⟩
theorem witness_TxQlenCountsHardwareOwned : (txRing 0xB0300000 true 8).ready ∧ (txRing 0xB0300000 true 8).quiet = true :=
  ⟨⟨rfl, rfl⟩, rfl⟩
theorem witness_TxReapReleasesFinished :
    (txRing 0x30300000 true 8).ready ∧ (txRing 0x30300000 true 8).quiet = true ∧ (txRing 0x30300000 true 8).Owned :=
  ⟨⟨rfl, rfl⟩, rfl, owned_of _ (by decide +kernel)⟩

/-- Refusals and the fatal fault. -/
theorem witness_RingCommandRefusals :
    (∀ w0 len, (txRing w0 true len).ready ∧ (txRing w0 true len).quiet = true ∧
      (txRing w0 true len).tx.started = true ∧ (txRing w0 true len).tx.constructed = true ∧
      btFind (txRing w0 true len).bt (txRing w0 true len).port.a0 = some { cap := 9000, len := len, owner := .host }) ∧
      ((txRing 0xB0300000 true 8191).mem.read32 0x20000000).getLsbD 31 = true ∧
      (btFind (txRing 0 true 8).bt 0x20000010).map (·.owner) = some (.txSlot 0) ∧
      State.reset.ready ∧ State.reset.quiet = true ∧ State.reset.rx.constructed = false ∧
      State.reset.tx.started = false ∧ State.reset.par.maxRing < 9 ∧
      (emptyRing 16).ready ∧ (emptyRing 16).quiet = true ∧ (emptyRing 16).rx.constructed = true ∧
      (emptyRing 16).rx.slots = [] ∧ 8 ≤ (emptyRing 16).par.maxRing ∧
      (∀ w0 len, (txRing w0 true len).rx.constructed = false) ∧ 8 ≤ (txRing 0 true 8).par.maxRing ∧
      1 ≤ (txRing 0 true 8).par.mtu ∧ (txRing 0 true 8).par.mtu ≤ 8191 :=
  ⟨fun _ _ => ⟨⟨rfl, rfl⟩, rfl, rfl, rfl, rfl⟩, by decide +kernel, by decide +kernel, ⟨rfl, rfl⟩, rfl, rfl, rfl,
    by decide, ⟨rfl, rfl⟩, rfl, rfl, rfl, by decide, fun _ _ => rfl, by decide, by decide, by decide⟩

/-- The heap is full. -/
def full (s : State) : State := { s with heap := { brk := 0x20010000, draws := [] } }

theorem witness_AllocationFailureIsFatal :
    (full (rxRing 0x00040300)).ready ∧ (full (rxRing 0x00040300)).quiet = true ∧
      (full (rxRing 0x00040300)).mem.read32 0x20000000 = 0x00040300 ∧
      proposal 16 (full (rxRing 0x00040300)) = (none, { brk := 0x20010000, draws := [] }) ∧
      (full (rxRing 0x00040300)).rx.slots.length < 2 ∧
      (full State.reset).ready ∧ (full State.reset).quiet = true ∧ (full State.reset).tx.slots = [] ∧
      proposal 16 (full State.reset) = (none, { brk := 0x20010000, draws := [] }) :=
  ⟨⟨rfl, rfl⟩, rfl, by decide +kernel, by decide +kernel, by decide, ⟨rfl, rfl⟩, rfl, rfl, by decide +kernel⟩

/-- The later clauses of the same statement: room for two of four descriptors; for one entry of 16 bytes, with nothing
left, and with the next descriptor only. -/
theorem witness_AllocationFailureIsFatal_later :
    let short (s : State) (n : Nat) : State := { s with par := { s.par with heapSize := s.heap.brk + n - 0x20000000 } }
    let a := short State.reset 32
    let b := short (emptyRing 16) 32
    let c := short (emptyRing 16) 48
    a.ready ∧ a.quiet = true ∧ a.tx.constructed = false ∧ a.tx.slots = [] ∧ 2 < a.par.txRingLen ∧ a.HasRoom (16 * 2) ∧
      a.par.heapBase + a.par.heapSize < a.heap.brk + 16 * 2 + 16 ∧
      b.ready ∧ b.quiet = true ∧ b.InRange ∧ b.Owned ∧ b.rx.constructed = true ∧ b.rx.slots.length + 1 < 8 ∧
      8 ≤ b.par.maxRing ∧ b.HasRoom (1 * (16 + heapStep 16)) ∧
      b.par.heapBase + b.par.heapSize < b.heap.brk + 1 * (16 + heapStep 16) + 16 ∧
      c.ready ∧ c.quiet = true ∧ c.InRange ∧ c.Owned ∧ c.HasRoom (1 * (16 + heapStep 16) + 16) ∧
      c.par.heapBase + c.par.heapSize < c.heap.brk + 1 * (16 + heapStep 16) + 16 + 16 :=
  ⟨⟨rfl, rfl⟩, rfl, rfl, rfl, by decide, hasRoom_of _ _ (by decide +kernel), by decide +kernel,
    ⟨rfl, rfl⟩, rfl, inRange_of _ (by decide +kernel), owned_of _ (by decide +kernel), rfl, by decide, by decide,
    hasRoom_of _ _ (by decide +kernel), by decide +kernel,
    ⟨rfl, rfl⟩, rfl, inRange_of _ (by decide +kernel), owned_of _ (by decide +kernel),
    hasRoom_of _ _ (by decide +kernel), by decide +kernel⟩

/-- Orchestrator commands. -/
theorem witness_EthSendPollsIdleEngine :
    let s (ps : BitVec 3) (len : Nat) := txWalk ps 0 (txRing 0x30300000 true len)
    (∀ ps len, (s ps len).ready ∧ (s ps len).quiet = true ∧ (s ps len).tx.started = true ∧
      (s ps len).tx.slots[(s ps len).tx.cur]? = some { desc := 0x20000000, buf := some 0x20000010 } ∧
      btFind (s ps len).bt (s ps len).port.a0 = some { cap := 9000, len := len, owner := .host } ∧
      (s ps len).txw.ps = ps) ∧
      (s 6 1).Owned ∧ (s 7 8191).Owned ∧ ((s 6 1).mem.read32 0x20000000).getLsbD 31 = false :=
  ⟨fun _ _ => ⟨⟨rfl, rfl⟩, rfl, rfl, rfl, rfl, rfl⟩, owned_of _ (by decide +kernel), owned_of _ (by decide +kernel),
    by decide +kernel⟩
theorem witness_DmaResetCompletes :
    let s := (rxRing 0).setMoves [.qm, .rst, .untilIdle, .rxw]
    s.ready ∧ s.moves = .qm :: .rst :: [.untilIdle, .rxw] ∧ (s.setMoves [.untilIdle, .rxw]).quiet = true :=
  ⟨⟨rfl, rfl⟩, rfl, rfl⟩
/-- The schedule of the witness that follows. -/
def lateReset : List Move := [Move.rxw, Move.qm, Move.qm, Move.qm, Move.txw, Move.rst, Move.rxw]

theorem witness_DmaResetEndsWhenRstSteps :
    (State.reset.setMoves lateReset).ready ∧ (State.reset.setMoves lateReset).par.resetBound = none ∧
      lateReset = [Move.rxw] ++ Move.qm :: ([Move.qm, Move.qm, Move.txw] ++ Move.rst :: [Move.rxw]) ∧
      Move.qm ∉ [Move.rxw] ∧ Move.untilIdle ∉ [Move.rxw] ∧ Move.untilIdle ∉ [Move.qm, Move.qm, Move.txw] ∧
      Move.starve ∉ (State.reset.setMoves lateReset).moves :=
  ⟨⟨rfl, rfl⟩, rfl, rfl, by decide, by decide, by decide, by decide⟩
theorem witness_ResetWaitHangs :
    let s := State.reset.setMoves [.qm, .rxw, .qm]
    let t := waiting [.rxw]
    let u : State := { waiting [] with par := { Config.vectors with resetBound := some 2 } }
    s.ready ∧ s.par.resetBound = none ∧ .rst ∉ s.moves ∧ .starve ∉ s.moves ∧
      t.par.resetBound = none ∧ t.qm.isSome = true ∧ t.starved = false ∧ (decode 0x31000000).toOption = some .dmaReset ∧
      t.regs.resetPending = true ∧ .rst ∉ t.moves ∧ .starve ∉ t.moves ∧
      u.par.resetBound = some 2 ∧ u.starved = false ∧ u.regs.resetPending = true ∧ .rst ∉ u.moves ∧ .starve ∉ u.moves ∧
      u.quiet = true ∧ 2 ≤ 1 + 1 :=
  ⟨⟨rfl, rfl⟩, by decide +kernel⟩
theorem witness_EthInitProgramsRegisters :
    let s := State.reset.setMoves [.qm, .rst]
    s.ready ∧ s.moves = .qm :: .rst :: [] ∧ (s.setMoves []).quiet = true := ⟨⟨rfl, rfl⟩, rfl, rfl⟩
theorem witness_EthNewBringsUp :
    let s := State.reset.setMoves (List.replicate 17 .qm ++ .rst :: [])
    s.ready ∧ s.InRange ∧ s.Owned ∧ s.rx.constructed = false ∧ s.tx.constructed = false ∧ 8 ≤ s.par.maxRing ∧
      s.HasRoom (16 * s.par.txRingLen + 8 * (16 + heapStep s.par.mtu)) ∧
      s.moves = List.replicate (4 * s.par.txRingLen + 1) .qm ++ .rst :: [] ∧ (s.setMoves []).quiet = true :=
  ⟨⟨rfl, rfl⟩, inRange_of _ (by decide +kernel), owned_of _ (by decide +kernel), rfl, rfl, by decide,
    hasRoom_of _ _ (by decide +kernel), rfl, rfl⟩
theorem witness_InterruptCommandsWriteTheirBits :
    State.reset.ready ∧ State.reset.quiet = true ∧ (still State.reset).ready ∧ (still State.reset).quiet = true :=
  ⟨⟨rfl, rfl⟩, rfl, ⟨rfl, rfl⟩, rfl⟩
theorem witness_PhyStatusAnswersSomeWord : State.reset.ready ∧ State.reset.quiet = true := ⟨⟨rfl, rfl⟩, rfl⟩
theorem witness_InterruptPersistsUntilAcknowledged :
    let s := (State.reset.setRegs { State.reset.regs with nis := true, dmaier := 0x00010041 }).setNvic true
    irqCpu s = true ∧ s.regs.resetPending = false ∧ (after (exec .rxPoll s)).isSome = true := by decide +kernel

end Sys2Proof.Tests
end

section
/-! PROOFS. What one step of DRA can be, said once: the body of each command, the six kinds of step, and the rules by
which a property of states passes through QM's accesses, the reset wait and the end of a command. -/

namespace Sys2Proof.Machine

/-! ## The body of a command -/

/-- What a command does between its start and its one `result` or `raise` (10_state.md R22, R26). -/
def commandBody : Instr → State → Flow
  | .bufNew cap => bufNewBody cap
  | .bufSetlen len => bufSetlenBody len
  | .bufInfo => bufInfoBody
  | .bufFree => bufFreeBody
  | .rxNew size => rxNewBody size
  | .rxStart n => rxStartBody n
  | .rxPoll => rxPollBody
  | .rxState => rxStateBody
  | .rxRecv => rxRecvBody
  | .txNew => txNewBody
  | .txStart => txStartBody
  | .txSend => txSendBody
  | .txState => txStateBody
  | .txPoll => txPollBody
  | .txQlen => txQlenBody
  | .txReap => txReapBody
  | .ethNew n => ethNewBody n
  | .dmaReset => dmaResetBody
  | .ethInit => ethInitBody
  | .irqEnable => irqEnableBody
  | .irqAck => irqAckBody
  | .phyStatus => phyStatusBody
  | .ethSend => ethSendBody

/-- Every arm of `exec` is the one frame of a command around the command's own body. -/
theorem exec_eq_command (i : Instr) (s : State) : exec i s = command i (commandBody i) s := by
  cases i <;> rfl

theorem exec_idle {i : Instr} {s : State} (hq : s.qm = none) :
    exec i s = .next (runCommand (encode i) (commandBody i) s) := by
  rw [exec_eq_command, command_idle hq]

/-! ## A step by what is due -/

theorem step_busy {s : State} {q : Qm} (hq : s.qm = some q) : step s = resume q s := by
  simp only [step, hq]

theorem step_idle {s : State} (hq : s.qm = none) (hm : s.moves = []) : step s = .next s := by
  simp only [step, fetch, hq, hm]

section
variable {s : State} {m : Move} {ms : List Move} {w : Word} {i : Instr} {e : DecodeError}

theorem step_move (hq : s.qm = none) (hm : s.moves = m :: ms) (hc : cmdWord s.par m = none) :
    step s = .next (applyMove m (s.setMoves ms)) := by
  simp only [step, fetch, hq, hm, hc]

theorem step_issue (hq : s.qm = none) (hm : s.moves = m :: ms) (hc : cmdWord s.par m = some w)
    (hd : decode w = .ok i) : step s = exec i (s.setMoves ms) := by
  simp only [step, fetch, hq, hm, hc, hd]

theorem step_illegal (hq : s.qm = none) (hm : s.moves = m :: ms) (hc : cmdWord s.par m = some w)
    (hd : decode w = .error e) : step s = .next (illegalCommand w (s.setMoves ms)) := by
  simp only [step, fetch, hq, hm, hc, hd]
end

/-! ## The six kinds of step -/

/-- A step from `s` to `t`, by its kind (00_scope.md R17, 10_state.md R22 and R23, 70_reset_and_hazards.md R352, R358
and R372 (c)). -/
inductive StepTo (s : State) : State → Prop where
  /-- No command runs and no move is due. -/
  | idle (hq : s.qm = none) (hm : s.moves = []) : StepTo s s
  /-- No command runs, and another agent moves. -/
  | move {m : Move} {ms : List Move} (hq : s.qm = none) (hm : s.moves = m :: ms) (hc : cmdWord s.par m = none) :
      StepTo s (applyMove m (s.setMoves ms))
  /-- HOST's write of a command is taken. -/
  | issue {m : Move} {ms : List Move} {w : Word} {i : Instr} (hq : s.qm = none) (hm : s.moves = m :: ms)
      (hc : cmdWord s.par m = some w) (hd : decode w = .ok i) :
      StepTo s (runCommand (encode i) (commandBody i) (s.setMoves ms))
  /-- HOST's write of an illegal word is taken. -/
  | illegal {m : Move} {ms : List Move} {w : Word} {e : DecodeError} (hq : s.qm = none) (hm : s.moves = m :: ms)
      (hc : cmdWord s.par m = some w) (hd : decode w = .error e) : StepTo s (illegalCommand w (s.setMoves ms))
  /-- QM makes no progress, and another agent moves. -/
  | starved {q : Qm} (hq : s.qm = some q) (hs : q.starved = true) : StepTo s (moveOn s)
  /-- QM goes on with its reset wait. -/
  | resumed {q : Qm} {i : Instr} {rest : State → Flow} (hq : s.qm = some q) (hs : q.starved = false)
      (hd : decode q.cmd = .ok i) (hr : resumeBody i = some rest) : StepTo s (rest s).conclude

theorem stepTo_of_resume {s t : State} {q : Qm} (hq : s.qm = some q) (h : resume q s = .next t) : StepTo s t := by
  unfold resume at h
  split at h
  · next hs => cases h; exact .starved hq hs
  · next hs =>
    split at h
    · next i hd =>
      split at h
      · next rest hr => cases h; exact .resumed hq (Bool.eq_false_iff.mpr hs) hd hr
      · cases h
    · cases h

theorem stepTo_of_step_idle {s t : State} (hq : s.qm = none) (h : step s = .next t) : StepTo s t := by
  cases hm : s.moves with
  | nil =>
    rw [step_idle hq hm] at h
    cases h
    exact .idle hq hm
  | cons m ms =>
    cases hc : cmdWord s.par m with
    | none =>
      rw [step_move hq hm hc] at h
      cases h
      exact .move hq hm hc
    | some w =>
      cases hd : decode w with
      | ok i =>
        rw [step_issue hq hm hc hd, exec_idle (s := s.setMoves ms) hq] at h
        cases h
        exact .issue hq hm hc hd
      | error e =>
        rw [step_illegal hq hm hc hd] at h
        cases h
        exact .illegal hq hm hc hd

/-- The six kinds are all the steps there are, and each of them is a step. -/
theorem step_eq_next_iff {s t : State} : step s = .next t ↔ StepTo s t := by
  constructor
  · intro h
    cases hq : s.qm with
    | none => exact stepTo_of_step_idle hq h
    | some q => exact stepTo_of_resume hq (step_busy hq ▸ h)
  · intro h
    cases h with
    | idle hq hm => exact step_idle hq hm
    | move hq hm hc => exact step_move hq hm hc
    | issue hq hm hc hd => exact (step_issue hq hm hc hd).trans (exec_idle hq)
    | illegal hq hm hc hd => exact step_illegal hq hm hc hd
    | starved hq hs => rw [step_busy hq, resume, if_pos hs]
    | resumed hq hs hd hr => simp [step_busy hq, resume, hs, hd, hr]

/-- Settles O5: the two kinds of step that a DRA without a running command has on such an input. -/
theorem idleStepIsOneMove : Obligations.IdleStepIsOneMove :=
  ⟨fun _ _ _ hq hm hc => step_move hq hm hc, fun _ hq hm => step_idle hq hm⟩

/-! ## Properties that pass through QM's accesses -/

/-- The state a body has come to, however it ends. -/
def Flow.state : Flow → State
  | .ok _ _ s => s
  | .stop _ s => s
  | .fatal _ s => s
  | .wait s => s

section
variable (s : State)
@[simp] theorem Flow.state_ok (r0 r1 : Word) : (Flow.ok r0 r1 s).state = s := rfl
@[simp] theorem Flow.state_stop (c : Code) : (Flow.stop c s).state = s := rfl
@[simp] theorem Flow.state_fatal (k : FatalKind) : (Flow.fatal k s).state = s := rfl
@[simp] theorem Flow.state_wait : (Flow.wait s).state = s := rfl
end

/-- A property that holds at the end of a body, and that what follows keeps, holds at the end of both. -/
theorem Flow.andThen_keeps {P : State → Prop} {f : Flow} {g : Word → Word → State → Flow} (hf : P f.state)
    (hg : ∀ r0 r1 t, P t → P (g r0 r1 t).state) : P (f.andThen g).state := by
  cases f with
  | ok r0 r1 s => exact hg r0 r1 s hf
  | stop c s => exact hf
  | fatal k s => exact hf
  | wait s => exact hf

/-- The state a reset wait has come to. -/
def WaitEnd.state : WaitEnd → State
  | .done s => s
  | .hang s => s
  | .pending s => s

/-- A property of states that neither a move of another agent nor QM's own bookkeeping can break. -/
structure Stable (P : State → Prop) : Prop where
  applyMove : ∀ m s, P s → P (applyMove m s)
  setMoves : ∀ ms s, P s → P (s.setMoves ms)
  starve : ∀ s, P s → P (starve s)
  countAccess : ∀ s, P s → P (countAccess s)
  countPoll : ∀ s, P s → P (countPoll s)

namespace Stable

variable {P : State → Prop} {s : State}

theorem runMoves (hP : Stable P) (ms : List Move) (hs : P s) :
    (∃ t, runMoves ms s = .due t ∧ P t) ∨ (∃ t, runMoves ms s = .starved t ∧ P t) := by
  induction ms generalizing s with
  | nil => exact .inl ⟨_, rfl, hP.setMoves _ _ hs⟩
  | cons m ms ih =>
    cases m with
    | qm => exact .inl ⟨_, rfl, hP.setMoves _ _ hs⟩
    | untilIdle => exact .inl ⟨_, rfl, hP.setMoves _ _ hs⟩
    | starve => exact .inr ⟨_, rfl, hP.starve _ (hP.setMoves _ _ hs)⟩
    | _ => exact ih (hP.applyMove _ _ hs)

/-- The property passes through QM's turn, whether QM acts or is starved. -/
theorem atTurn {α : Type} {Q : α → Prop} {stuck act : State → α} (hP : Stable P) (hs : P s)
    (hstuck : ∀ t, P t → Q (stuck t)) (hact : ∀ t, P t → Q (act t)) : Q (atTurn s stuck act) := by
  rcases hP.runMoves s.moves hs with ⟨t, ht, hPt⟩ | ⟨t, ht, hPt⟩
  · simpa only [Machine.atTurn, yield, ht] using hact _ (hP.countAccess _ hPt)
  · simpa only [Machine.atTurn, yield, ht] using hstuck _ hPt

theorem access {act : State → Flow} (hP : Stable P) (hs : P s) (hact : ∀ t, P t → P (act t).state) :
    P (access s act).state :=
  hP.atTurn (Q := fun f : Flow => P f.state) hs (fun _ h => h) hact

theorem finish {act : State → State} (hP : Stable P) (hs : P s) (hact : ∀ t, P t → P (act t)) :
    P (finish act s) :=
  hP.atTurn hs (fun _ h => h) hact

theorem poll (hP : Stable P) (hs : P s) : P (poll s).state := by
  have hread := hP.countAccess s hs
  have hcounted := hP.countPoll _ hread
  unfold Machine.poll
  dsimp only
  split
  · split
    · split
      · exact hcounted
      · exact hcounted
    · exact hcounted
  · exact hread

theorem resetWait (hP : Stable P) (ms : List Move) (hs : P s) : P (resetWait ms s).state := by
  induction ms generalizing s with
  | nil => exact hP.poll (hP.setMoves _ _ hs)
  | cons m ms ih =>
    cases m with
    | qm =>
      have hp := hP.poll (hP.setMoves ms s hs)
      unfold Machine.resetWait
      split
      · next t ht => exact ih (by rwa [ht] at hp)
      · exact hp
    | untilIdle => exact hP.poll (hP.setMoves _ _ hs)
    | starve => exact hP.starve _ (hP.setMoves _ _ hs)
    | _ => exact ih (hP.applyMove _ _ hs)

theorem waitThen {rest : State → Flow} (hP : Stable P) (hs : P s) (hrest : ∀ t, P t → P (rest t).state) :
    P (waitThen rest s).state := by
  have hw := hP.resetWait s.moves hs
  unfold Machine.waitThen
  split
  · next t ht => rw [ht] at hw; exact hrest t hw
  · next t ht => rw [ht] at hw; exact hw
  · next t ht => rw [ht] at hw; exact hw

theorem conclude {f : Flow} (hP : Stable P) (hf : P f.state) (hresult : ∀ c r0 r1 t, P t → P (result c r0 r1 t))
    (hraise : ∀ k t, P t → P (raise k t)) : P f.conclude := by
  cases f with
  | ok r0 r1 s => exact hP.finish hf (hresult _ _ _)
  | stop c s => exact hP.finish hf (hresult _ _ _)
  | fatal k s => exact hP.finish hf (hraise k)
  | wait s => exact hf

/-- The property passes through a whole command, if it holds at its start and the command's body, its `result` and its
`raise` keep it. -/
theorem runCommand {w : Word} {body : State → Flow} (hP : Stable P) (hs : P (startCommand w s))
    (hbody : ∀ t, P t → P (body t).state) (hresult : ∀ c r0 r1 t, P t → P (result c r0 r1 t))
    (hraise : ∀ k t, P t → P (raise k t)) : P (runCommand w body s) := by
  unfold Machine.runCommand
  dsimp only
  split
  · exact hP.conclude (hbody _ hs) hresult hraise
  · exact hP.conclude hs hresult hraise

end Stable

end Sys2Proof.Machine
end

section
/-! PROOFS. The frame of every step: the parameters stay (00_scope.md R9), and memory changes only by storing bytes, so
that its power-on contents stay (10_state.md R59). -/

namespace Sys2Proof.Machine

/-! ## Storing bytes -/

/-- Memory `m'` comes from `m` by storing bytes, one after another. -/
def Written : Memory → Memory → Prop := Relation.ReflTransGen fun m m' => ∃ a v, m' = m.write a v

theorem written_refl (m : Memory) : Written m m := .refl

theorem written_trans {m m' m'' : Memory} (h : Written m m') (g : Written m' m'') : Written m m'' := h.trans g

theorem written_write (m : Memory) (a : Word) (v : Byte) : Written m (m.write a v) := .single ⟨a, v, rfl⟩

theorem written_write32 (m : Memory) (a v : Word) : Written m (m.write32 a v) :=
  written_trans (written_trans (written_trans (written_write ..) (written_write ..)) (written_write ..))
    (written_write ..)

theorem written_writeBytes (m : Memory) (a : Word) (bs : List Byte) : Written m (m.writeBytes a bs) := by
  induction bs generalizing m a with
  | nil => exact written_refl m
  | cons b bs ih => exact written_trans (written_write m a b) (ih ..)

/-- Storing bytes leaves the power-on contents. -/
theorem written_init {m m' : Memory} (h : Written m m') : m'.init = m.init := by
  induction h with
  | refl => rfl
  | tail _ hstep ih => obtain ⟨a, v, rfl⟩ := hstep; rw [write_init, ih]

/-! ## Memory after a step of another agent -/

@[simp] theorem rxwFetch_mem (s : State) : (rxwFetch s).mem = s.mem := by
  unfold rxwFetch; dsimp only; split <;> rfl

theorem rxwClose_mem (fr : Frame) (s : State) :
    (rxwClose fr s).mem = s.mem.write32 (descWord s.rxw.cur 0) (rxCloseWord fr) := by
  unfold rxwClose; dsimp only; split <;> simp

@[simp] theorem txwFetch_mem (s : State) : (txwFetch s).mem = s.mem := by
  unfold txwFetch; dsimp only; split <;> rfl

theorem txwClose_mem (s : State) :
    (txwClose s).mem = s.mem.write32 (descWord s.txw.cur 0) (txCloseWord s.txw.lat.w0) := by
  unfold txwClose; dsimp only; split <;> simp

@[simp] theorem macRxOffer_mem (bytes : List Byte) (err : Bool) (s : State) : (macRxOffer bytes err s).mem = s.mem := by
  unfold macRxOffer; split <;> rfl

@[simp] theorem rstStep_mem (s : State) : (rstStep s).mem = s.mem := by
  unfold rstStep
  split
  · rw [withIrq_mem]; rfl
  · rfl

@[simp] theorem portWriteBusy_mem (addr v : Word) (s : State) : (portWriteBusy addr v s).mem = s.mem := by
  unfold portWriteBusy; split <;> rfl

theorem written_rxwStep (s : State) : Written s.mem (rxwStep s).mem := by
  have hclose (fr : Frame) : Written s.mem (rxwClose fr s).mem := rxwClose_mem fr s ▸ written_write32 ..
  have htransfer (fr : Frame) : Written s.mem (rxwTransfer fr s).mem := written_writeBytes ..
  have hfetch : Written s.mem (rxwFetch s).mem := by simp [written_refl]
  unfold rxwStep
  split
  · exact written_refl _
  split
  · split <;> exact written_refl _
  split
  · exact hfetch
  split
  · split <;> exact written_refl _
  split
  · split
    · exact hclose _
    · exact written_refl _
  split
  · split
    · exact htransfer _
    · exact written_refl _
  · exact written_refl _

theorem written_txwStep (s : State) : Written s.mem (txwStep s).mem := by
  have hclose : Written s.mem (txwClose s).mem := txwClose_mem s ▸ written_write32 ..
  have hfetch : Written s.mem (txwFetch s).mem := by simp [written_refl]
  unfold txwStep
  split
  · exact written_refl _
  split
  · split <;> exact written_refl _
  split
  · exact hfetch
  split
  · exact written_refl _
  split
  · exact written_refl _
  split
  · exact hclose
  · exact written_refl _

theorem written_hostPoke (addr : Word) (v : Byte) (s : State) : Written s.mem (hostPoke addr v s).mem := by
  unfold hostPoke
  split
  · exact written_write ..
  · exact written_refl _

theorem written_applyMove (m : Move) (s : State) : Written s.mem (applyMove m s).mem := by
  cases m with
  | qm => exact written_refl _
  | untilIdle => exact written_refl _
  | starve => exact written_refl _
  | rxw => exact written_rxwStep s
  | macRx bytes err => simp [applyMove, written_refl]
  | txw => exact written_txwStep s
  | rst => simp [applyMove, written_refl]
  | portWrite addr v => simp [applyMove, written_refl]
  | poke addr v => exact written_hostPoke addr v s

/-! ## The frame a run keeps -/

/-- State `s` has the parameters of `o`, and its memory comes from that of `o` by storing bytes. -/
def OnlyStored (o s : State) : Prop := s.par = o.par ∧ Written o.mem s.mem

/-- An update of anything but the parameters and memory keeps the frame. -/
theorem onlyStored_congr {o s t : State} (hp : t.par = s.par) (hm : t.mem = s.mem) :
    OnlyStored o t ↔ OnlyStored o s := by
  unfold OnlyStored; rw [hp, hm]

section
variable {o s : State}

theorem onlyStored_setBt (v : List (Word × BufRec)) : OnlyStored o (s.setBt v) ↔ OnlyStored o s := .rfl
theorem onlyStored_setTx (v : TxRing) : OnlyStored o (s.setTx v) ↔ OnlyStored o s := .rfl
theorem onlyStored_setDraws (v : Nat) : OnlyStored o (s.setDraws v) ↔ OnlyStored o s := .rfl
theorem onlyStored_setMoves (v : List Move) : OnlyStored o (s.setMoves v) ↔ OnlyStored o s := .rfl
theorem onlyStored_startCommand (w : Word) : OnlyStored o (startCommand w s) ↔ OnlyStored o s := .rfl
theorem onlyStored_result (c : Code) (r0 r1 : Word) : OnlyStored o (result c r0 r1 s) ↔ OnlyStored o s := .rfl
theorem onlyStored_raise (k : FatalKind) : OnlyStored o (raise k s) ↔ OnlyStored o s := .rfl
theorem onlyStored_txRelease (i : Nat) (e : TxSlot) (b : Word) :
    OnlyStored o (txRelease i e b s) ↔ OnlyStored o s := .rfl

theorem onlyStored_withIrq (f : State → State) : OnlyStored o (withIrq f s) ↔ OnlyStored o (f s) :=
  onlyStored_congr (congrArg QmView.par (qmView_withIrq f s)) (withIrq_mem f s)

theorem onlyStored_regWrite (r : Reg) (v : Word) : OnlyStored o (regWrite r v s) ↔ OnlyStored o s :=
  onlyStored_congr (congrArg QmView.par (qmView_regWrite r v s)) (regWrite_mem r v s)

theorem onlyStored_regField (r : Reg) (m v : Word) : OnlyStored o (regField r m v s) ↔ OnlyStored o s :=
  onlyStored_regWrite ..
end

theorem onlyStored_refl (s : State) : OnlyStored s s := ⟨rfl, written_refl _⟩

namespace OnlyStored

variable {o s : State}

theorem applyMove (h : OnlyStored o s) (m : Move) : OnlyStored o (applyMove m s) :=
  ⟨(congrArg QmView.par (qmView_applyMove m s)).trans h.1, written_trans h.2 (written_applyMove m s)⟩

theorem stable (o : State) : Stable (OnlyStored o) where
  applyMove m _ h := h.applyMove m
  setMoves _ _ h := h
  starve _ h := h
  countAccess _ h := h
  countPoll _ h := h

theorem moveOn (h : OnlyStored o s) : OnlyStored o (moveOn s) := by
  unfold Machine.moveOn
  split
  · exact h
  · exact ((onlyStored_setMoves _).mpr h).applyMove _

/-! ## QM's operations -/

theorem write32 (h : OnlyStored o s) (a v : Word) : OnlyStored o (s.setMem (s.mem.write32 a v)) :=
  ⟨h.1, written_trans h.2 (written_write32 ..)⟩

/-- The allocator touches neither (20_memory.md R84). -/
theorem alloc {held : List Region} {size : Nat} {a : Option Word} {t : State} (h : OnlyStored o s)
    (ha : alloc held size s = (a, t)) : OnlyStored o t := by
  cases a with
  | none => rw [alloc_none ha]; exact h
  | some a => rw [(alloc_some ha).2]; exact h

section
variable {next : State → Flow}

theorem access (h : OnlyStored o s) (hn : ∀ t, OnlyStored o t → OnlyStored o (next t).state) :
    OnlyStored o (access s next).state :=
  (stable o).access h hn

theorem qmWrite {a v : Word} (h : OnlyStored o s) (hn : ∀ t, OnlyStored o t → OnlyStored o (next t).state) :
    OnlyStored o (qmWrite a v s next).state :=
  h.access fun _ ht => hn _ (ht.write32 a v)

theorem qmRegWrite {r : Reg} {v : Word} (h : OnlyStored o s)
    (hn : ∀ t, OnlyStored o t → OnlyStored o (next t).state) : OnlyStored o (qmRegWrite r v s next).state :=
  h.access fun _ ht => hn _ ((onlyStored_regWrite r v).mpr ht)

theorem qmRegField {r : Reg} {mask v : Word} (h : OnlyStored o s)
    (hn : ∀ t, OnlyStored o t → OnlyStored o (next t).state) : OnlyStored o (qmRegField r mask v s next).state :=
  h.access fun _ ht => hn _ ((onlyStored_regField r mask v).mpr ht)

theorem qmEmit {e : Event} (h : OnlyStored o s) (hn : ∀ t, OnlyStored o t → OnlyStored o (next t).state) :
    OnlyStored o (qmEmit e s next).state :=
  h.access fun _ ht => hn _ ht

theorem waitThen (h : OnlyStored o s) (hn : ∀ t, OnlyStored o t → OnlyStored o (next t).state) :
    OnlyStored o (waitThen next s).state :=
  (stable o).waitThen h hn
end

theorem conclude {f : Flow} (h : OnlyStored o f.state) : OnlyStored o f.conclude :=
  (stable o).conclude h (fun _ _ _ _ => (onlyStored_result ..).mpr) (fun _ _ => (onlyStored_raise _).mpr)

theorem runCommand {w : Word} {body : State → Flow} (h : OnlyStored o s)
    (hb : ∀ t, OnlyStored o t → OnlyStored o (body t).state) : OnlyStored o (runCommand w body s) :=
  (stable o).runCommand ((onlyStored_startCommand _).mpr h) hb (fun _ _ _ _ => (onlyStored_result ..).mpr)
    (fun _ _ => (onlyStored_raise _).mpr)

/-! ## Buffer commands -/

theorem withHostBuffer {k : BufRec → State → Flow} (h : OnlyStored o s) (hk : ∀ r, OnlyStored o (k r s).state) :
    OnlyStored o (withHostBuffer s k).state := by
  unfold Machine.withHostBuffer
  split
  · exact hk _
  · exact h

theorem bufNewBody (h : OnlyStored o s) (cap : Nat) : OnlyStored o (bufNewBody cap s).state := by
  unfold Machine.bufNewBody
  split
  · exact h
  split
  · next ha => exact h.alloc ha
  · next ha => exact (onlyStored_setBt _).mpr (h.alloc ha)

theorem bufSetlenBody (h : OnlyStored o s) (len : Nat) : OnlyStored o (bufSetlenBody len s).state :=
  h.withHostBuffer fun r => by split <;> exact h

theorem bufInfoBody (h : OnlyStored o s) : OnlyStored o (bufInfoBody s).state := h.withHostBuffer fun _ => h

theorem bufFreeBody (h : OnlyStored o s) : OnlyStored o (bufFreeBody s).state := h.withHostBuffer fun _ => h

/-! ## Receive ring commands -/

theorem rxNewBody (h : OnlyStored o s) (size : Nat) : OnlyStored o (rxNewBody size s).state := by
  unfold Machine.rxNewBody
  split
  · exact h
  · split <;> exact h

theorem rxGrowOne (h : OnlyStored o s) : OnlyStored o (rxGrowOne s).state := by
  unfold Machine.rxGrowOne
  dsimp only
  split
  · next ha => exact h.alloc ha
  · next ha =>
    refine (h.alloc ha).qmWrite fun _ h => h.qmWrite fun _ h => h.qmWrite fun _ h => h.qmWrite fun _ h => ?_
    split
    · next hb => exact h.alloc hb
    · next hb =>
      exact ((onlyStored_setBt _).mpr (h.alloc hb)).qmWrite fun _ h => h.qmWrite fun _ h => h.qmWrite fun _ h => h

theorem rxGrow (h : OnlyStored o s) (k : Nat) : OnlyStored o (rxGrow k s).state := by
  induction k generalizing s with
  | zero => exact h
  | succ k ih => exact Flow.andThen_keeps h.rxGrowOne fun _ _ _ ht => ih ht

theorem rxRelink (h : OnlyStored o s) (es : List RxSlot) : OnlyStored o (rxRelink es s).state := by
  induction es generalizing s with
  | nil => exact h
  | cons e es ih => exact h.qmWrite fun _ h => h.qmWrite fun _ h => ih h

theorem rxRegister (h : OnlyStored o s) : OnlyStored o (rxRegister s).state :=
  Flow.andThen_keeps (h.rxRelink _) fun _ _ _ h => h.qmRegWrite fun _ h => h.qmRegField fun _ h =>
    h.qmRegWrite fun _ h => h

theorem rxStartBody (h : OnlyStored o s) (n : Nat) : OnlyStored o (rxStartBody n s).state := by
  unfold Machine.rxStartBody
  split
  · exact h
  split
  · exact h
  split
  · exact h
  · exact Flow.andThen_keeps (h.rxGrow _) fun _ _ _ ht => ht.rxRegister

theorem rxPollBody (h : OnlyStored o s) : OnlyStored o (rxPollBody s).state := h.qmRegWrite fun _ h => h

theorem rxStateBody (h : OnlyStored o s) : OnlyStored o (rxStateBody s).state := h.access fun _ h => h

theorem rxPostConsume {next : State → Flow} (h : OnlyStored o s)
    (hn : ∀ t, OnlyStored o t → OnlyStored o (next t).state) : OnlyStored o (rxPostConsume s next).state :=
  h.access fun t ht => by
    split
    · exact ht.qmRegWrite hn
    · exact hn t ht

theorem rxRecvError (h : OnlyStored o s) (i : Nat) (e : RxSlot) (w0 : Word) :
    OnlyStored o (rxRecvError i e w0 s).state :=
  h.qmEmit fun _ h => h.qmWrite fun _ h => rxPostConsume (by split <;> exact h) fun _ h => h

theorem rxRecvFragment (h : OnlyStored o s) (i : Nat) (e : RxSlot) (w0 : Word) :
    OnlyStored o (rxRecvFragment i e w0 s).state :=
  h.qmEmit fun _ h => h.qmWrite fun _ h => rxPostConsume h fun _ h => h

theorem rxHandOut (h : OnlyStored o s) (ob : Word) (len : Nat) : OnlyStored o (rxHandOut ob len s) := by
  unfold Machine.rxHandOut
  split <;> exact h

theorem rxRecvFrame (h : OnlyStored o s) (i : Nat) (e : RxSlot) (w0 : Word) :
    OnlyStored o (rxRecvFrame i e w0 s).state := by
  unfold Machine.rxRecvFrame
  split
  · next ha => exact h.alloc ha
  · next ha =>
    exact ((onlyStored_setBt _).mpr (h.alloc ha)).qmWrite fun _ h => qmWrite h fun _ h =>
      rxPostConsume (h.rxHandOut ..) fun _ h => h

theorem rxRecvBody (h : OnlyStored o s) : OnlyStored o (rxRecvBody s).state := by
  unfold Machine.rxRecvBody
  split
  · exact h
  · refine h.access fun t ht => ?_
    dsimp only
    split
    · exact ht
    split
    · exact ht.rxRecvError ..
    split
    · exact ht.rxRecvFrame ..
    · exact ht.rxRecvFragment ..

/-! ## Transmit ring commands -/

theorem txNewOne (h : OnlyStored o s) : OnlyStored o (txNewOne s).state := by
  unfold Machine.txNewOne
  split
  · next ha => exact h.alloc ha
  · next ha =>
    exact (h.alloc ha).qmWrite fun _ h => h.qmWrite fun _ h => h.qmWrite fun _ h => h.qmWrite fun _ h => h

theorem txNewSlots (h : OnlyStored o s) (k : Nat) : OnlyStored o (txNewSlots k s).state := by
  induction k generalizing s with
  | zero => exact h
  | succ k ih => exact Flow.andThen_keeps h.txNewOne fun _ _ _ ht => ih ht

theorem txNewBody (h : OnlyStored o s) : OnlyStored o (txNewBody s).state := by
  unfold Machine.txNewBody
  split
  · exact h
  · exact Flow.andThen_keeps (((onlyStored_setTx _).mpr h).txNewSlots _) fun _ _ _ ht => ht

theorem txReleaseIf (h : OnlyStored o s) (i : Nat) (e : TxSlot) : OnlyStored o (txReleaseIf i e s) := by
  unfold Machine.txReleaseIf
  split <;> exact h

theorem txInit (h : OnlyStored o s) (i : Nat) (es : List TxSlot) : OnlyStored o (txInit i es s).state := by
  induction es generalizing s i with
  | nil => exact h
  | cons e es ih =>
    exact (h.txReleaseIf i e).qmWrite fun _ h => h.qmWrite fun _ h => h.qmWrite fun _ h => h.qmWrite fun _ h =>
      ih h (i + 1)

theorem txStartBody (h : OnlyStored o s) : OnlyStored o (txStartBody s).state := by
  unfold Machine.txStartBody
  split
  · exact h
  split
  · exact h
  · exact Flow.andThen_keeps (h.txInit 0 _) fun _ _ _ h => h.qmRegWrite fun _ h => h.qmRegField fun _ h => h

theorem txInstall (h : OnlyStored o s) (i : Nat) (e : TxSlot) (a : Word) (r : BufRec) :
    OnlyStored o (txInstall i e a r s).state :=
  (h.txReleaseIf i e).qmWrite fun _ h => h.qmWrite fun _ h => h.qmWrite fun _ h => h

theorem txSendBody (h : OnlyStored o s) : OnlyStored o (txSendBody s).state := by
  unfold Machine.txSendBody
  split
  · exact h
  refine h.withHostBuffer fun r => ?_
  split
  · exact h
  split
  · exact h
  · refine h.access fun t ht => ?_
    split
    · exact ht
    · exact ht.txInstall ..

theorem txStateBody (h : OnlyStored o s) : OnlyStored o (txStateBody s).state := h.access fun _ h => h

theorem txPollBody (h : OnlyStored o s) : OnlyStored o (txPollBody s).state := h.qmRegWrite fun _ h => h

theorem txQlenScan (h : OnlyStored o s) (es : List TxSlot) (n : Nat) : OnlyStored o (txQlenScan es n s).state := by
  induction es generalizing s n with
  | nil => exact h
  | cons e es ih => exact h.access fun _ ht => ih ht _

theorem txReapScan (h : OnlyStored o s) (i : Nat) (es : List TxSlot) (n : Nat) :
    OnlyStored o (txReapScan i es n s).state := by
  induction es generalizing s i n with
  | nil => exact h
  | cons e es ih =>
    unfold Machine.txReapScan
    split
    · exact ih h _ _
    · refine h.access fun t ht => ?_
      split
      · exact ih ht _ _
      · exact ih ((onlyStored_txRelease ..).mpr ht) _ _

/-! ## Orchestrator commands -/

theorem afterReset (h : OnlyStored o s) : OnlyStored o (afterReset s).state := h

theorem resetBody {rest : State → Flow} (h : OnlyStored o s)
    (hr : ∀ t, OnlyStored o t → OnlyStored o (rest t).state) : OnlyStored o (resetBody rest s).state :=
  h.qmRegField fun _ h => h.waitThen fun _ h => Flow.andThen_keeps h.afterReset fun _ _ => hr

theorem afterResetInit (h : OnlyStored o s) : OnlyStored o (afterResetInit s).state :=
  h.qmRegField fun _ h => h.qmEmit fun _ h => h.qmEmit fun _ h => h.qmRegField fun _ h => h.qmRegField fun _ h =>
    h.qmRegField fun _ h => h.qmRegField fun _ h => h.qmRegField fun _ h => h

theorem afterResetNew (h : OnlyStored o s) (n : Nat) : OnlyStored o (afterResetNew n s).state :=
  Flow.andThen_keeps h.afterResetInit fun _ _ _ h => Flow.andThen_keeps h.txStartBody fun _ _ _ h =>
    Flow.andThen_keeps (by split; exacts [h.rxStartBody n, h]) fun _ _ _ h => h

theorem ethNewBody (h : OnlyStored o s) (n : Nat) : OnlyStored o (ethNewBody n s).state := by
  unfold Machine.ethNewBody
  split
  · exact h
  · exact Flow.andThen_keeps (h.rxNewBody _) fun _ _ _ h => Flow.andThen_keeps h.txNewBody fun _ _ _ h =>
      h.resetBody fun _ h => h.afterResetNew n

theorem irqEnableBody (h : OnlyStored o s) : OnlyStored o (irqEnableBody s).state :=
  h.qmRegField fun _ h => h.access fun _ h => by
    rw [Flow.state_ok, onlyStored_withIrq]
    exact h

theorem irqAckBody (h : OnlyStored o s) : OnlyStored o (irqAckBody s).state := h.qmRegWrite fun _ h => h

theorem phyStatusBody (h : OnlyStored o s) : OnlyStored o (phyStatusBody s).state :=
  ((onlyStored_setDraws _).mpr h).qmEmit fun _ h => h

theorem ethSendBody (h : OnlyStored o s) : OnlyStored o (ethSendBody s).state :=
  Flow.andThen_keeps h.txSendBody fun _ _ _ h => h.access fun t ht => by
    split
    · exact ht
    · exact ht.qmRegWrite fun _ h => h

/-! ## Every command and every step -/

theorem body (h : OnlyStored o s) (i : Instr) : OnlyStored o (commandBody i s).state := by
  cases i with
  | bufNew cap => exact h.bufNewBody cap
  | bufSetlen len => exact h.bufSetlenBody len
  | bufInfo => exact h.bufInfoBody
  | bufFree => exact h.bufFreeBody
  | rxNew size => exact h.rxNewBody size
  | rxStart n => exact h.rxStartBody n
  | rxPoll => exact h.rxPollBody
  | rxState => exact h.rxStateBody
  | rxRecv => exact h.rxRecvBody
  | txNew => exact h.txNewBody
  | txStart => exact h.txStartBody
  | txSend => exact h.txSendBody
  | txState => exact h.txStateBody
  | txPoll => exact h.txPollBody
  | txQlen => exact h.txQlenScan _ _
  | txReap => exact h.txReapScan _ _ _
  | ethNew n => exact h.ethNewBody n
  | dmaReset => exact h.resetBody fun _ h => h
  | ethInit => exact h.resetBody fun _ h => h.afterResetInit
  | irqEnable => exact h.irqEnableBody
  | irqAck => exact h.irqAckBody
  | phyStatus => exact h.phyStatusBody
  | ethSend => exact h.ethSendBody

theorem resumeBody (h : OnlyStored o s) {i : Instr} {rest : State → Flow} (hr : resumeBody i = some rest) :
    OnlyStored o (rest s).state := by
  cases i <;> cases hr
  case dmaReset => exact h.waitThen fun _ h => h.afterReset
  case ethInit => exact h.waitThen fun _ h => Flow.andThen_keeps h.afterReset fun _ _ _ h => h.afterResetInit
  case ethNew n => exact h.waitThen fun _ h => Flow.andThen_keeps h.afterReset fun _ _ _ h => h.afterResetNew n

end OnlyStored

/-- What a step can do to the parameters and to memory: nothing, and no more than store bytes. -/
theorem step_onlyStored {s t : State} (h : step s = .next t) : OnlyStored s t := by
  have hs (ms : List Move) : OnlyStored s (s.setMoves ms) := onlyStored_refl s
  cases step_eq_next_iff.mp h with
  | idle => exact onlyStored_refl s
  | move => exact (hs _).applyMove _
  | issue => exact (hs _).runCommand fun _ ht => ht.body _
  | illegal => exact (hs _).runCommand fun _ ht => ht
  | starved => exact (onlyStored_refl s).moveOn
  | resumed _ _ _ hr => exact ((onlyStored_refl s).resumeBody hr).conclude

/-- Settles O18: a step keeps the parameters, and the bytes it stores leave the power-on contents. -/
theorem parametersNeverChange : Obligations.ParametersNeverChange := fun _ _ h =>
  have ⟨hpar, hmem⟩ := step_onlyStored h
  ⟨hpar, written_init hmem⟩

end Sys2Proof.Machine
end

section
/-! PROOFS. The command port as HOST sees it (10_state.md R21 to R27), the state after power-on reset (R59), the fatal
state (60_exceptions.md R316), and what a command leaves of QM's own state where QM makes progress
(70_reset_and_hazards.md R372 (c)). -/

namespace Sys2Proof.Machine

/-! ## Addresses of the command port -/

/-- An address of the port is known by its offset from the base alone (R21). -/
theorem portReg_add (p : Config.Params) (off : Word) :
    portReg p (p.cmdBase + off) =
      if off = 0x00 then some .cmd
      else if off = 0x04 then some .a0
      else if off = 0x08 then some .r0
      else if off = 0x0C then some .r1
      else if off = 0x10 then some .cst
      else if off = 0x14 then some .fault
      else none := by
  have hoff : p.cmdBase + off - p.cmdBase = off := by rw [BitVec.add_comm, BitVec.add_sub_cancel]
  rw [portReg, hoff]

theorem portReg_base (p : Config.Params) : portReg p p.cmdBase = some .cmd := by
  simpa using portReg_add p 0

theorem portReg_eq_none {p : Config.Params} {addr : Word}
    (h : ∀ k : Nat, k < 6 → addr ≠ p.cmdBase + word (4 * k)) : portReg p addr = none := by
  have hoff : ∀ k : Nat, k < 6 → addr - p.cmdBase ≠ word (4 * k) := fun k hk he =>
    h k hk (by rw [← he, BitVec.add_comm, BitVec.sub_add_cancel])
  exact (if_neg (hoff 0 (by decide))).trans <| (if_neg (hoff 1 (by decide))).trans <|
    (if_neg (hoff 2 (by decide))).trans <| (if_neg (hoff 3 (by decide))).trans <|
    (if_neg (hoff 4 (by decide))).trans <| if_neg (hoff 5 (by decide))

theorem portWriteBusy_a0 {addr : Word} {s : State} (h : portReg s.par addr = some .a0) (v : Word) :
    portWriteBusy addr v s = s.setPort { s.port with a0 := v } := by
  simp [portWriteBusy, h]

theorem portWriteBusy_other {addr : Word} {s : State} (h : portReg s.par addr ≠ some .a0) (v : Word) :
    portWriteBusy addr v s = s := by
  unfold portWriteBusy
  split
  · next ha => exact absurd ha h
  · rfl

/-! ## The fields of `CST` -/

theorem cst_code (s : State) : s.cst.setWidth 8 = s.port.code := by
  unfold State.cst bitWord
  cases s.qm.isSome <;> ext i hi <;> simp

theorem cst_busy (s : State) : s.cst.getLsbD 31 = s.qm.isSome := by
  unfold State.cst bitWord
  cases s.qm.isSome <;> simp

theorem cst_between (s : State) (k : Nat) (h8 : 8 ≤ k) (h30 : k ≤ 30) : s.cst.getLsbD k = false := by
  have hcode : s.port.code.getLsbD k = false := BitVec.getLsbD_of_ge _ _ h8
  have hk : k < 31 := by omega
  unfold State.cst
  simp [hcode, hk]

/-- Settles O9: every access is decided by the offset from the port's base. -/
theorem portReadsAndWrites : Obligations.PortReadsAndWrites := by
  intro s
  refine ⟨⟨?_, ?_, ?_, ?_, ?_, ?_, cst_code s, cst_busy s, cst_between s⟩, fun v => ⟨?_, ?_, ?_⟩⟩
  · simp [portRead, portReg_base]
  · simp [portRead, portReg_add]
  · simp [portRead, portReg_add]
  · simp [portRead, portReg_add]
  · simp [portRead, portReg_add]
  · simp [portRead, portReg_add]
  · exact portWriteBusy_a0 (by simp [portReg_add]) v
  · intro off hoff
    apply portWriteBusy_other
    rcases hoff with rfl | rfl | rfl | rfl <;> simp [portReg_add]
  · intro addr haddr
    have hnone := portReg_eq_none haddr
    exact ⟨by simp [portRead, hnone], portWriteBusy_other (by simp [hnone]) v⟩

/-! ## Writes to `CMD` -/

theorem cmdWord_portWrite {p : Config.Params} {addr : Word} (h : portReg p addr = some .cmd) (w : Word) :
    cmdWord p (.portWrite addr w) = some w := by
  simp [cmdWord, h]

/-- Settles O4: the write is the move due, and the host's placement puts such a write first. -/
theorem stepRunsDecodedCommand : Obligations.StepRunsDecodedCommand := by
  refine ⟨fun s addr w ms i hq hm hp hd => step_issue hq hm (cmdWord_portWrite hp w) hd, fun s w i hd => ?_⟩
  have hw : word w.toNat = w := by simp [word]
  have hplaced : s.withFetchWord 32 w.toNat = placeCommand w s := by rw [State.withFetchWord, hw]
  rw [hplaced]
  exact step_issue (s := placeCommand w s) rfl rfl (cmdWord_portWrite (portReg_base _) w) hd

/-- Settles O8: the frame of a command drops the write, and so does the move. -/
theorem cmdWriteWhileBusyIsIgnored : Obligations.CmdWriteWhileBusyIsIgnored :=
  ⟨fun i s hq => by rw [exec_eq_command, command_busy hq],
    fun _ w _ hp => portWriteBusy_other (by simp [hp]) w⟩

/-! ## The state after reset -/

theorem reset_inRange : State.reset.InRange := by
  constructor <;> simp [State.reset, aligned8, onlyFields, State.starved, Config.vectors, Config.Params.wf, Config.bufSizeMax]

theorem reset_owned : State.reset.Owned := by
  constructor <;> simp [State.reset, btRising, btFind, liveRegions]

theorem reset_ringLinks : State.reset.RingLinks where
  reset := rfl
  rxStarted := nofun
  txStarted := nofun
  rxStopped _ := ⟨rfl, rfl⟩
  txStopped _ := ⟨rfl, rfl⟩
  rxChain := nofun
  txChain := nofun
  rxWord2 := nofun
  txWord2 := nofun
  txQueued := nofun
  rxAt h := absurd rfl h
  txAt h := absurd rfl h
  rxHolds := by simp [State.reset]
  txHolds := by simp [State.reset]

/-- Settles O12: empty tables, stopped walkers and zero registers meet each clause. -/
theorem resetMeetsInvariants : Obligations.ResetMeetsInvariants :=
  ⟨rfl, reset_inRange, reset_owned, fun _ _ => reset_ringLinks, rfl, fun _ hq => nomatch hq⟩

/-! ## Words that are no command -/

theorem fixedRow_of_ne_zero {op imm : Nat} (i : Instr) (h : imm ≠ 0) :
    fixedRow op imm i = .error (.nonzeroImm op imm) := if_neg h

/-- An illegal word does not decode (30_encoding.md R118, R133). -/
theorem decode_illegalWord {w : Word} (h : illegalWord w) : ∃ e, decode w = .error e := by
  unfold decode
  rcases h with hop | ⟨hop, himm⟩
  · refine ⟨.unassignedOp (opField w), ?_⟩
    generalize opField w = op at hop
    simp only [List.mem_cons, List.not_mem_nil, or_false, not_or] at hop
    unfold decodeFields
    split
    on_goal 24 => rfl
    all_goals simp at hop
  · refine ⟨.nonzeroImm (opField w) (immField w), ?_⟩
    generalize opField w = op at hop
    simp only [List.mem_cons, List.not_mem_nil, or_false] at hop
    rcases hop with rfl | rfl | rfl | rfl | rfl | rfl | rfl | rfl | rfl | rfl | rfl | rfl | rfl | rfl | rfl | rfl |
      rfl | rfl <;> exact fixedRow_of_ne_zero _ himm

/-! ## The last action of a command, where QM makes progress -/

/-- QM's own state after a command has ended with this code and these results. -/
def QmView.ended (v : QmView) (c : Code) (r0 r1 : Word) : QmView :=
  { v with r0 := r0, r1 := r1, code := c.byte, qm := none }

theorem qmView_result (c : Code) (r0 r1 : Word) (s : State) :
    qmView (result c r0 r1 s) = (qmView s).ended c r0 r1 := rfl

theorem qmView_finish_result {c : Code} {r0 r1 : Word} {s : State} (h : .starve ∉ s.moves) :
    qmView (finish (result c r0 r1) s) = (qmView s).ended c r0 r1 := by
  obtain ⟨t, ht, ⟨hview, _⟩, _⟩ := atTurn_fair id (result c r0 r1) h
  rw [finish, ht, qmView_result, qmView_countAccess, hview]
  rfl

/-- The fatal state: a command of any word only ends with `FAULTED` (60_exceptions.md R316). -/
theorem runCommand_of_fault {w : Word} {body : State → Flow} {s : State} (hf : s.port.fault ≠ 0) :
    runCommand w body s = finish (result .faulted 0 0) (startCommand w s) :=
  if_neg hf

theorem runCommand_of_ready {w : Word} {body : State → Flow} {s : State} (hf : s.port.fault = 0) :
    runCommand w body s = (body (startCommand w s)).conclude :=
  if_pos hf

theorem qmView_runCommand_of_fault {w : Word} {body : State → Flow} {s : State} (hq : s.qm = none)
    (hf : s.port.fault ≠ 0) (hm : .starve ∉ s.moves) :
    qmView (runCommand w body s) = { qmView s with r0 := 0, r1 := 0, code := Code.faulted.byte } := by
  rw [runCommand_of_fault hf, qmView_finish_result (s := startCommand w s) hm]
  simp [QmView.ended, qmView, startCommand, emit, State.setHist, State.setQm, hq]

/-- Settles O7: the check of `FAULT` stands before any body, and the end of the command comes where QM makes progress. -/
theorem fatalStateAnswersFaulted : Obligations.FatalStateAnswersFaulted := by
  refine ⟨fun i s hq hf hm => ⟨_, exec_idle hq, qmView_runCommand_of_fault hq hf hm, fun h => runCommand_faulted h hf⟩,
    fun s addr w ms hq hf hm hmoves hp hw => ?_⟩
  obtain ⟨e, hd⟩ := decode_illegalWord hw
  exact ⟨_, step_illegal hq hmoves (cmdWord_portWrite hp w) hd,
    qmView_runCommand_of_fault (s := s.setMoves ms) hq hf hm, fun h => runCommand_faulted h hf⟩

/-! ## Buffer commands under any schedule -/

/-- A command whose body answers at once leaves of QM's own state what the body says, under any schedule on which QM
makes progress. -/
theorem exec_of_body_ok {i : Instr} {s t : State} {r0 r1 : Word} (hs : s.ready) (hm : .starve ∉ s.moves)
    (hb : commandBody i (startCommand (encode i) s) = .ok r0 r1 t) (ht : t.moves = s.moves) :
    ∃ u, exec i s = .next u ∧ qmView u = { qmView t with r0 := r0, r1 := r1, code := Code.ok.byte, qm := s.qm } := by
  refine ⟨_, exec_idle hs.1, ?_⟩
  rw [runCommand_of_ready hs.2, hb, hs.1]
  exact qmView_finish_result (ht ▸ hm)

/-- The allocator looks at no more than the tables, the parameters and the oracle. -/
theorem alloc_of_proposal {s : State} {size : Nat} {a : Word} {h : Heap} {held : List Region}
    (hp : proposal size s = (some a, h)) (ha : admissible s held size a = true) :
    alloc held size s = (some a, s.setHeap h) := by
  simp [alloc, hp, ha]

theorem withHostBuffer_host {s : State} {r : BufRec} (k : BufRec → State → Flow)
    (hr : btFind s.bt (operandA s) = some r) (ho : r.owner = .host) : withHostBuffer s k = k r s := by
  simp [withHostBuffer, hostBuffer, hr, ho]

theorem bufNewBody_ok {cap : Nat} {s : State} {a : Word} {h : Heap} (hcap : 0 < cap)
    (hp : proposal cap s = (some a, h)) (ha : admissible s [] cap a = true) :
    bufNewBody cap s =
      .ok a (word cap) ((s.setHeap h).setBt (btInsert s.bt a { cap := cap, len := 0, owner := .host })) := by
  rw [bufNewBody, if_neg hcap.ne', alloc_of_proposal hp ha]
  rfl

section
variable {s : State} {r : BufRec}

theorem bufSetlenBody_ok {len : Nat} (hr : btFind s.bt (operandA s) = some r) (ho : r.owner = .host)
    (hlen : len ≤ r.cap) :
    bufSetlenBody len s = .ok 0 0 (s.setBt (btInsert s.bt (operandA s) { r with len := len })) := by
  rw [bufSetlenBody, withHostBuffer_host _ hr ho, if_neg hlen.not_gt]

theorem bufInfoBody_ok (hr : btFind s.bt (operandA s) = some r) (ho : r.owner = .host) :
    bufInfoBody s = .ok (word r.cap) (word r.len) s :=
  withHostBuffer_host _ hr ho

theorem bufFreeBody_ok (hr : btFind s.bt (operandA s) = some r) (ho : r.owner = .host) :
    bufFreeBody s = .ok 0 0 (s.setBt (btErase s.bt (operandA s))) :=
  withHostBuffer_host _ hr ho
end

/-- Settles O22: each body reads the operand sampled at the start and touches QM's tables alone, so that the moves
before the command's one `result` change nothing of its effect. -/
theorem bufferCommandsUnderAnySchedule : Obligations.BufferCommandsUnderAnySchedule := by
  intro s hs hm
  refine ⟨fun cap a h hcap hp ha => ?_, fun r hr ho => ⟨fun len hlen => ?_, ?_, ?_⟩⟩
  · obtain ⟨u, hu, hv⟩ := exec_of_body_ok (i := .bufNew cap) hs hm (bufNewBody_ok hcap hp ha) rfl
    exact ⟨u, hu, hv⟩
  · obtain ⟨u, hu, hv⟩ := exec_of_body_ok (i := .bufSetlen len) hs hm (bufSetlenBody_ok hr ho hlen) rfl
    exact ⟨u, hu, hv⟩
  · obtain ⟨u, hu, hv⟩ := exec_of_body_ok (i := .bufInfo) hs hm (bufInfoBody_ok hr ho) rfl
    exact ⟨u, hu, hv⟩
  · obtain ⟨u, hu, hv⟩ := exec_of_body_ok (i := .bufFree) hs hm (bufFreeBody_ok hr ho) rfl
    exact ⟨u, hu, hv⟩

/-! ## The fatal cause stays -/

theorem fault_of_qmView {s t : State} (h : qmView t = qmView s) : t.port.fault = s.port.fault :=
  congrArg QmView.fault h

theorem fault_applyMove (m : Move) (s : State) : (applyMove m s).port.fault = s.port.fault :=
  fault_of_qmView (qmView_applyMove m s)

theorem fault_finish_result (c : Code) (r0 r1 : Word) (s : State) :
    (finish (result c r0 r1) s).port.fault = s.port.fault := by
  rcases finish_cases (result c r0 r1) s with ⟨t, ht, hview, _⟩ | ⟨t, ht, hview, _⟩
  · rw [ht]; exact fault_of_qmView (t := t) hview
  · rw [ht]; exact fault_of_qmView (t := t) hview

theorem fault_runCommand_of_fault {w : Word} {body : State → Flow} {s : State} (hf : s.port.fault ≠ 0) :
    (runCommand w body s).port.fault = s.port.fault := by
  rw [runCommand_of_fault hf]
  exact fault_finish_result ..

theorem fault_moveOn (s : State) : (moveOn s).port.fault = s.port.fault := by
  unfold moveOn
  split
  · rfl
  · exact fault_applyMove ..

theorem starved_eq {s : State} {q : Qm} (hq : s.qm = some q) : s.starved = q.starved := by
  simp [State.starved, hq]

/-- Settles O20: no move of another agent touches `FAULT`, a command answers `FAULTED`, and no reset wait is on. -/
theorem fatalCauseIsSticky : Obligations.FatalCauseIsSticky := by
  intro s t hr hf h
  cases step_eq_next_iff.mp h with
  | idle => rfl
  | move => exact fault_applyMove ..
  | issue => exact fault_runCommand_of_fault hf
  | illegal => exact fault_runCommand_of_fault hf
  | starved => exact fault_moveOn s
  | resumed hq hs =>
    rcases hr.faultIdle hf with hnone | hstarved
    · rw [hq] at hnone; cases hnone
    · rw [starved_eq hq, hs] at hstarved; cases hstarved

end Sys2Proof.Machine
end

section
/-! PROOFS. The ranges of the walkers and the registers (10_state.md R38, R47, R48, R50 to R52): every move of every
agent and every register write of QM keeps them, whatever QM's tables hold. -/

namespace Sys2Proof.Machine

/-! ## The steps of the walkers, by kind -/

/-- A step of RXW from `s`, by its kind (44_walker.md R293). -/
inductive RxwStepTo (s : State) : State → Prop where
  /-- No step of RXW is enabled. -/
  | none : RxwStepTo s s
  | start (hr : s.regs.resetPending = false) (hp : s.rxw.ps = 0) (hs : s.regs.startRx = true) :
      RxwStepTo s (rxwStart s)
  | fetch (hr : s.regs.resetPending = false) (hp : s.rxw.ps = 1) : RxwStepTo s (rxwFetch s)
  | refetch (hr : s.regs.resetPending = false) (hp : s.rxw.ps = 4) : RxwStepTo s (s.setRxw { s.rxw with ps := 1 })
  | close {fr : Frame} (hr : s.regs.resetPending = false) (hp : s.rxw.ps = 5) (hf : s.rxw.fr = some fr) :
      RxwStepTo s (rxwClose fr s)
  | transfer {fr : Frame} (hr : s.regs.resetPending = false) (hp : s.rxw.ps = 7) (hf : s.rxw.fr = some fr) :
      RxwStepTo s (rxwTransfer fr s)

theorem rxwStep_to (s : State) : RxwStepTo s (rxwStep s) := by
  unfold rxwStep
  split
  · exact .none
  next hr =>
  have hr : s.regs.resetPending = false := Bool.eq_false_iff.mpr hr
  split
  · next hp =>
    split
    · next hs => exact .start hr hp hs
    · exact .none
  split
  · next hp => exact .fetch hr hp
  split
  · next hp =>
    split
    · exact .refetch hr hp
    · exact .none
  split
  · next hp =>
    split
    · next hf => exact .close hr hp hf
    · exact .none
  split
  · next hp =>
    split
    · next hf => exact .transfer hr hp hf
    · exact .none
  · exact .none

/-- A step of TXW from `s`, by its kind (44_walker.md R293). -/
inductive TxwStepTo (s : State) : State → Prop where
  /-- No step of TXW is enabled. -/
  | none : TxwStepTo s s
  | start (hr : s.regs.resetPending = false) (hp : s.txw.ps = 0) (hs : s.regs.startTx = true) :
      TxwStepTo s (txwStart s)
  | fetch (hr : s.regs.resetPending = false) (hp : s.txw.ps = 1) : TxwStepTo s (txwFetch s)
  | emit (hr : s.regs.resetPending = false) (hp : s.txw.ps = 2) : TxwStepTo s (txwEmit s)
  | read (hr : s.regs.resetPending = false) (hp : s.txw.ps = 3) : TxwStepTo s (txwRead s)
  | close (hr : s.regs.resetPending = false) (hp : s.txw.ps = 7) : TxwStepTo s (txwClose s)

theorem txwStep_to (s : State) : TxwStepTo s (txwStep s) := by
  unfold txwStep
  split
  · exact .none
  next hr =>
  have hr : s.regs.resetPending = false := Bool.eq_false_iff.mpr hr
  split
  · next hp =>
    split
    · next hs => exact .start hr hp hs
    · exact .none
  split
  · next hp => exact .fetch hr hp
  split
  · next hp => exact .emit hr hp
  split
  · next hp => exact .read hr hp
  split
  · next hp => exact .close hr hp
  · exact .none

/-! ## What a walker leaves of the hardware -/

section
variable (f : State → State) (s : State)

theorem withIrq_regs : (withIrq f s).regs = (f s).regs := by unfold withIrq; split <;> rfl
theorem withIrq_rxw : (withIrq f s).rxw = (f s).rxw := by unfold withIrq; split <;> rfl
theorem withIrq_txw : (withIrq f s).txw = (f s).txw := by unfold withIrq; split <;> rfl
end

section
variable (s : State)

@[simp] theorem rxCompletion_regs :
    (rxCompletion s).regs = { s.regs with rs := true, nis := s.regs.nis || s.regs.rie } := by
  rw [rxCompletion, withIrq_regs]; rfl

@[simp] theorem rxCompletion_rxw : (rxCompletion s).rxw = s.rxw := by rw [rxCompletion, withIrq_rxw]; rfl
@[simp] theorem rxCompletion_txw : (rxCompletion s).txw = s.txw := by rw [rxCompletion, withIrq_txw]; rfl

@[simp] theorem txCompletion_regs :
    (txCompletion s).regs = { s.regs with ts := true, nis := s.regs.nis || s.regs.tie } := by
  rw [txCompletion, withIrq_regs]; rfl

@[simp] theorem txCompletion_rxw : (txCompletion s).rxw = s.rxw := by rw [txCompletion, withIrq_rxw]; rfl
@[simp] theorem txCompletion_txw : (txCompletion s).txw = s.txw := by rw [txCompletion, withIrq_txw]; rfl

theorem rxwClose_rxw (fr : Frame) : (rxwClose fr s).rxw =
    { cur := nextDesc s.rxw.lat.eor s.rxw.lat.ch s.rxw.lat.next s.regs.dmardlar s.rxw.cur
      ps := 1
      fr := if fr.pos = fr.bytes.length then none else some { fr with first := false }
      lat := freeRxLatch s.draws } := by
  simp [rxwClose]

@[simp] theorem rxwClose_txw (fr : Frame) : (rxwClose fr s).txw = s.txw := by
  unfold rxwClose; dsimp only; split <;> simp

theorem txwClose_txw : (txwClose s).txw =
    { cur := nextDesc (txTer s.txw.lat.w0) (txTch s.txw.lat.w0) s.txw.lat.next s.regs.dmatdlar s.txw.cur
      ps := 1
      asm := s.txw.asm
      lat := freeTxLatch s.draws } := rfl

@[simp] theorem txwClose_rxw : (txwClose s).rxw = s.rxw := by
  unfold txwClose; dsimp only; split <;> simp
end

/-- Registers that differ in pending bits of `DMASR` alone (10_state.md R42). -/
def Regs.EqButPending (r r' : Regs) : Prop := r' = { r with ts := r'.ts, rs := r'.rs, nis := r'.nis }

theorem rxwClose_regs (fr : Frame) (s : State) : s.regs.EqButPending (rxwClose fr s).regs := by
  unfold rxwClose; dsimp only; split <;> simp [Regs.EqButPending]

theorem txwClose_regs (s : State) : s.regs.EqButPending (txwClose s).regs := by
  unfold txwClose; dsimp only; split <;> simp [Regs.EqButPending]

/-! ## The ranges of the hardware -/

/-- The registers hold only fields that exist (10_state.md R38). -/
structure Regs.OnlyFields (r : Regs) : Prop where
  maccr : onlyFields .maccr r.maccr
  macffr : onlyFields .macffr r.macffr
  macmiiar : onlyFields .macmiiar r.macmiiar
  macfcr : onlyFields .macfcr r.macfcr
  dmabmr : onlyFields .dmabmr r.dmabmr
  dmaomr : onlyFields .dmaomr r.dmaomr
  dmaier : onlyFields .dmaier r.dmaier

/-- A frame in progress is of a legal length and stored no further than that (R50). -/
def Frame.InRange (fr : Frame) : Prop :=
  1 ≤ fr.bytes.length ∧ fr.bytes.length ≤ Config.frameMax ∧ fr.pos ≤ fr.bytes.length

/-- The ranges of RXW (R47 to R50). -/
structure Rxw.InRange (w : Rxw) : Prop where
  ps : w.ps ≠ 2 ∧ w.ps ≠ 6
  cur : aligned8 w.cur
  frame : ∀ fr, w.fr = some fr → fr.InRange
  framed : w.ps = 5 ∨ w.ps = 7 → w.fr ≠ none

/-- The ranges of TXW (R51, R52). -/
structure Txw.InRange (w : Txw) : Prop where
  ps : w.ps ≠ 4 ∧ w.ps ≠ 5
  cur : aligned8 w.cur

/-- The part of `State.InRange` that speaks of the walkers and the registers. -/
structure State.HardwareInRange (s : State) : Prop where
  rxw : s.rxw.InRange
  txw : s.txw.InRange
  regs : s.regs.OnlyFields

theorem hardwareInRange_congr {s t : State} (hr : t.rxw = s.rxw) (ht : t.txw = s.txw) (hg : t.regs = s.regs)
    (h : s.HardwareInRange) : t.HardwareInRange :=
  ⟨hr ▸ h.rxw, ht ▸ h.txw, hg ▸ h.regs⟩

theorem onlyFields_and (r : Reg) (v : Word) : onlyFields r (v &&& r.fields) := by
  rw [onlyFields, BitVec.and_assoc, BitVec.and_self]

theorem onlyFields_zero (r : Reg) : onlyFields r 0 := BitVec.zero_and

theorem onlyFields_or {r : Reg} {v w : Word} (hv : onlyFields r v) (hw : onlyFields r w) : onlyFields r (v ||| w) := by
  unfold onlyFields at *
  conv_rhs => rw [← hv, ← hw]
  ext i hi
  simp [Bool.and_or_distrib_right]

theorem onlyFields_resetBit (v : Word) : onlyFields .dmabmr (v &&& BMR_SR) := by
  have h : BMR_SR &&& Reg.dmabmr.fields = BMR_SR := by decide
  rw [onlyFields, BitVec.and_assoc, h]

theorem onlyFields_zeroRegs : zeroRegs.OnlyFields := by constructor <;> exact onlyFields_zero _

theorem onlyFields_of_eqButPending {r r' : Regs} (h : r.EqButPending r') (hr : r.OnlyFields) : r'.OnlyFields := by
  rw [h]
  exact ⟨hr.maccr, hr.macffr, hr.macmiiar, hr.macfcr, hr.dmabmr, hr.dmaomr, hr.dmaier⟩

theorem aligned8_trunc8 (a : Word) : aligned8 (trunc8 a) := by
  have h : (0xFFFFFFF8 : Word) &&& 7 = 0 := by decide
  have h0 : trunc8 a &&& 7 = 0 := by rw [trunc8, BitVec.and_assoc, h]; exact BitVec.and_zero
  have hn : (trunc8 a &&& 7).toNat = (trunc8 a).toNat % 8 := by
    rw [BitVec.toNat_and]
    exact Nat.and_two_pow_sub_one_eq_mod (trunc8 a).toNat 3
  rw [aligned8, ← hn, h0]
  rfl

theorem aligned8_zero : aligned8 0 := rfl

theorem aligned8_nextDesc {eor ch : Bool} {nxt base cur : Word} (h : aligned8 cur) :
    aligned8 (nextDesc eor ch nxt base cur) := by
  unfold nextDesc
  split
  · exact aligned8_trunc8 _
  · split
    · exact aligned8_trunc8 _
    · exact h

/-! ## Every move keeps them -/

section
variable {s : State}

theorem rxwInRange_fetch (h : s.rxw.InRange) : (rxwFetch s).rxw.InRange := by
  unfold rxwFetch
  dsimp only
  split
  · refine ⟨?_, h.cur, h.frame, fun _ hn => ?_⟩
    · rw [State.setRxw_rxw]
      dsimp only
      split <;> decide
    · rw [State.setRxw_rxw] at hn
      simp_all
  · exact ⟨by simp, h.cur, h.frame, by simp⟩

theorem rxwInRange_close {fr : Frame} (h : s.rxw.InRange) (hf : fr.InRange) : (rxwClose fr s).rxw.InRange := by
  rw [rxwClose_rxw]
  refine ⟨by simp, aligned8_nextDesc h.cur, fun fr' hfr => ?_, by simp⟩
  dsimp only at hfr
  split at hfr
  · cases hfr
  · cases hfr; exact hf

theorem rxwInRange_transfer {fr : Frame} (h : s.rxw.InRange) (hf : fr.InRange) : (rxwTransfer fr s).rxw.InRange := by
  obtain ⟨hpos, hmax, hle⟩ := hf
  have hk : fr.pos + rxwChunk fr s.rxw.lat ≤ fr.bytes.length := by
    have : rxwChunk fr s.rxw.lat ≤ fr.bytes.length - fr.pos := Nat.min_le_left _ _
    omega
  exact ⟨by simp [rxwTransfer], h.cur, fun fr' hfr => by cases hfr; exact ⟨hpos, hmax, hk⟩, by simp [rxwTransfer]⟩

theorem hardware_rxwStep {t : State} (hs : RxwStepTo s t) (h : s.HardwareInRange) : t.HardwareInRange := by
  cases hs with
  | none => exact h
  | start => exact ⟨⟨by simp [rxwStart], aligned8_trunc8 _, h.rxw.frame, by simp [rxwStart]⟩, h.txw, h.regs⟩
  | fetch =>
    refine ⟨rxwInRange_fetch h.rxw, ?_, ?_⟩ <;> unfold rxwFetch <;> dsimp only <;> split
    · exact h.txw
    · exact h.txw
    · exact h.regs
    · exact h.regs
  | refetch => exact ⟨⟨by simp, h.rxw.cur, h.rxw.frame, by simp⟩, h.txw, h.regs⟩
  | close _ _ hf =>
    exact ⟨rxwInRange_close h.rxw (h.rxw.frame _ hf), by rw [rxwClose_txw]; exact h.txw,
      onlyFields_of_eqButPending (rxwClose_regs ..) h.regs⟩
  | transfer _ _ hf => exact ⟨rxwInRange_transfer h.rxw (h.rxw.frame _ hf), h.txw, h.regs⟩

theorem hardware_txwStep {t : State} (hs : TxwStepTo s t) (h : s.HardwareInRange) : t.HardwareInRange := by
  cases hs with
  | none => exact h
  | start => exact ⟨h.rxw, ⟨by simp [txwStart], aligned8_trunc8 _⟩, h.regs⟩
  | fetch =>
    unfold txwFetch
    dsimp only
    split
    · exact ⟨h.rxw, ⟨by simp, h.txw.cur⟩, h.regs⟩
    · exact ⟨h.rxw, ⟨by simp, h.txw.cur⟩, h.regs⟩
  | emit => exact ⟨h.rxw, ⟨by simp [txwEmit], h.txw.cur⟩, h.regs⟩
  | read =>
    refine ⟨h.rxw, ⟨?_, h.txw.cur⟩, h.regs⟩
    unfold txwRead
    rw [State.setTxw_txw]
    dsimp only
    split <;> decide
  | close =>
    refine ⟨by rw [txwClose_rxw]; exact h.rxw, ?_, onlyFields_of_eqButPending (txwClose_regs s) h.regs⟩
    rw [txwClose_txw]
    exact ⟨by simp, aligned8_nextDesc h.txw.cur⟩

theorem hardware_macRxOffer (bytes : List Byte) (err : Bool) (h : s.HardwareInRange) :
    (macRxOffer bytes err s).HardwareInRange := by
  unfold macRxOffer
  split
  · next hc =>
    obtain ⟨_, _, hpos, hmax⟩ := hc
    exact ⟨⟨by simp [rxwAccept], h.rxw.cur, fun fr hfr => by cases hfr; exact ⟨hpos, hmax, Nat.zero_le _⟩,
      by simp [rxwAccept]⟩, h.txw, h.regs⟩
  · exact h

theorem hardware_rstStep (h : s.HardwareInRange) : (rstStep s).HardwareInRange := by
  unfold rstStep
  split
  · refine ⟨?_, ?_, ?_⟩
    · rw [withIrq_rxw]; exact ⟨by simp, aligned8_zero, by simp, by simp⟩
    · rw [withIrq_txw]; exact ⟨by simp, aligned8_zero⟩
    · rw [withIrq_regs]; exact onlyFields_zeroRegs
  · exact h

theorem hardware_applyMove (m : Move) (h : s.HardwareInRange) : (applyMove m s).HardwareInRange := by
  cases m with
  | qm => exact h
  | untilIdle => exact h
  | starve => exact h
  | rxw => exact hardware_rxwStep (rxwStep_to s) h
  | macRx bytes err => exact hardware_macRxOffer bytes err h
  | txw => exact hardware_txwStep (txwStep_to s) h
  | rst => exact hardware_rstStep h
  | portWrite addr v => simp only [applyMove, portWriteBusy]; split <;> exact ⟨h.rxw, h.txw, h.regs⟩
  | poke addr v => simp only [applyMove, hostPoke]; split <;> exact ⟨h.rxw, h.txw, h.regs⟩

/-! ## Every register write keeps them -/

theorem hardware_withIrq {f : State → State} (h : (f s).HardwareInRange) : (withIrq f s).HardwareInRange :=
  hardwareInRange_congr (withIrq_rxw f s) (withIrq_txw f s) (withIrq_regs f s) h

theorem hardware_rxDemandPoll (h : s.HardwareInRange) : (rxDemandPoll s).HardwareInRange := by
  unfold rxDemandPoll
  split
  · exact ⟨⟨by simp, h.rxw.cur, h.rxw.frame, by simp⟩, h.txw, h.regs⟩
  · exact h

theorem hardware_txDemandPoll (h : s.HardwareInRange) : (txDemandPoll s).HardwareInRange := by
  unfold txDemandPoll
  split
  · exact ⟨h.rxw, ⟨by simp, h.txw.cur⟩, h.regs⟩
  · exact h

theorem hardware_regWrite (r : Reg) (v : Word) (h : s.HardwareInRange) : (regWrite r v s).HardwareInRange := by
  have hset (g : Regs) (hg : g.OnlyFields) : (s.setRegs g).HardwareInRange := ⟨h.rxw, h.txw, hg⟩
  obtain ⟨h1, h2, h3, h4, h5, h6, h7⟩ := h.regs
  have hv := onlyFields_and r v
  cases r with
  | maccr => exact hset _ ⟨hv, h2, h3, h4, h5, h6, h7⟩
  | macffr => exact hset _ ⟨h1, hv, h3, h4, h5, h6, h7⟩
  | macmiiar => exact hset _ ⟨h1, h2, hv, h4, h5, h6, h7⟩
  | macfcr => exact hset _ ⟨h1, h2, h3, hv, h5, h6, h7⟩
  | dmabmr => exact hset _ ⟨h1, h2, h3, h4, onlyFields_or hv (onlyFields_resetBit _), h6, h7⟩
  | dmatpdr => exact hardware_txDemandPoll h
  | dmarpdr => exact hardware_rxDemandPoll h
  | dmardlar => exact hset _ ⟨h1, h2, h3, h4, h5, h6, h7⟩
  | dmatdlar => exact hset _ ⟨h1, h2, h3, h4, h5, h6, h7⟩
  | dmasr => exact hardware_withIrq (f := fun t => t.setRegs _) (hset _ ⟨h1, h2, h3, h4, h5, h6, h7⟩)
  | dmaomr => exact hset _ ⟨h1, h2, h3, h4, h5, hv, h7⟩
  | dmaier => exact hardware_withIrq (f := fun t => t.setRegs _) (hset _ ⟨h1, h2, h3, h4, h5, h6, hv⟩)
end

end Sys2Proof.Machine
end

section
/-! PROOFS. What a command can do to QM's tables (10_state.md R28 to R37), said once: its table operations in their
order, each with what QM has checked before it, and every body a run of them under every schedule. -/

namespace Sys2Proof.Machine

/-! ## The tables -/

/-- The part of the state that the rules of 10_state.md R28 to R37 speak of. -/
structure Tables where
  par : Config.Params
  bt : List (Word × BufRec)
  rx : RxRing
  tx : TxRing

def State.tables (s : State) : Tables := { par := s.par, bt := s.bt, rx := s.rx, tx := s.tx }

theorem tables_eq_iff {s t : State} :
    t.tables = s.tables ↔ t.par = s.par ∧ t.bt = s.bt ∧ t.rx = s.rx ∧ t.tx = s.tx := by
  simp [State.tables]

theorem tables_of_qmView {s t : State} (h : qmView t = qmView s) : t.tables = s.tables :=
  tables_eq_iff.mpr
    ⟨congrArg QmView.par h, congrArg QmView.bt h, congrArg QmView.rx h, congrArg QmView.tx h⟩

theorem tables_applyMove (m : Move) (s : State) : (applyMove m s).tables = s.tables :=
  tables_of_qmView (qmView_applyMove m s)

theorem tables_regWrite (r : Reg) (v : Word) (s : State) : (regWrite r v s).tables = s.tables :=
  tables_of_qmView (qmView_regWrite r v s)

theorem liveRegions_congr {s t : State} (h : t.tables = s.tables) : liveRegions t = liveRegions s := by
  obtain ⟨_, hbt, hrx, htx⟩ := tables_eq_iff.mp h
  simp only [liveRegions, hbt, hrx, htx]

/-- An address that obeys the laws of an allocation of this size (20_memory.md R84). -/
structure Fresh (s : State) (size : Nat) (a : Word) : Prop where
  aligned : aligned8 a
  nonzero : a ≠ 0
  base : s.par.heapBase ≤ a.toNat
  limit : a.toNat + size ≤ s.par.heapBase + s.par.heapSize
  apart : ∀ r ∈ liveRegions s, Region.disjoint (a.toNat, size) r = true

theorem fresh_congr {s t : State} {size : Nat} {a : Word} (h : t.tables = s.tables) (hf : Fresh s size a) :
    Fresh t size a := by
  have hpar := (tables_eq_iff.mp h).1
  exact ⟨hf.aligned, hf.nonzero, hpar ▸ hf.base, hpar ▸ hf.limit, liveRegions_congr h ▸ hf.apart⟩

theorem region_disjoint_comm (x y : Region) : Region.disjoint x y = Region.disjoint y x :=
  Bool.or_comm ..

/-- A successful allocation answers a fresh address, apart from the held regions too, and keeps the tables. -/
theorem fresh_of_alloc {held : List Region} {size : Nat} {s t : State} {a : Word}
    (h : alloc held size s = (some a, t)) :
    Fresh s size a ∧ (∀ r ∈ held, Region.disjoint (a.toNat, size) r = true) ∧ t.tables = s.tables := by
  obtain ⟨hadm, rfl⟩ := alloc_some h
  obtain ⟨h8, h0, hb, hl, hd⟩ := admissible_spec hadm
  refine ⟨⟨h8, fun hz => h0 (by rw [hz]; rfl), hb, hl, fun r hr => hd r (List.mem_append_right _ hr)⟩,
    fun r hr => hd r (List.mem_append_left _ hr), rfl⟩

/-- The region of a new Buffer is the only one an insertion makes live. -/
theorem mem_btInsert {bt : List (Word × BufRec)} {a : Word} {r : BufRec} {e : Word × BufRec}
    (h : e ∈ btInsert bt a r) : e = (a, r) ∨ e ∈ bt := by
  induction bt with
  | nil => exact .inl (List.mem_singleton.mp h)
  | cons x bt ih =>
    obtain ⟨k, q⟩ := x
    unfold btInsert at h
    split at h
    · exact List.mem_cons.mp h
    · split at h
      · rcases List.mem_cons.mp h with h | h
        · exact .inl h
        · exact .inr (List.mem_cons_of_mem _ h)
      · rcases List.mem_cons.mp h with h | h
        · exact .inr (h ▸ List.mem_cons_self)
        · rcases ih h with h | h
          · exact .inl h
          · exact .inr (List.mem_cons_of_mem _ h)

theorem mem_liveRegions {s : State} {x : Region} :
    x ∈ liveRegions s ↔ (∃ e ∈ s.rx.slots, x = (e.desc.toNat, Config.descBytes)) ∨
      (∃ e ∈ s.tx.slots, x = (e.desc.toNat, Config.descBytes)) ∨ ∃ e ∈ s.bt, x = (e.1.toNat, e.2.cap) := by
  simp only [liveRegions, List.mem_append, List.mem_map, or_assoc, eq_comm]

/-- An address stays fresh when a Buffer apart from it is entered. -/
theorem fresh_insert {s t : State} {size : Nat} {a b : Word} {r : BufRec} (hf : Fresh s size a)
    (hb : Region.disjoint (b.toNat, r.cap) (a.toNat, size) = true)
    (ht : t.tables = { s.tables with bt := btInsert s.bt b r }) : Fresh t size a := by
  obtain ⟨hpar, hbt, hrx, htx⟩ := (tables_eq_iff (s := s.setBt (btInsert s.bt b r))).mp ht
  refine ⟨hf.aligned, hf.nonzero, hpar ▸ hf.base, hpar ▸ hf.limit, fun x hx => ?_⟩
  rw [mem_liveRegions, hbt, hrx, htx] at hx
  rcases hx with hx | hx | ⟨e, he, rfl⟩
  · exact hf.apart x (mem_liveRegions.mpr (.inl hx))
  · exact hf.apart x (mem_liveRegions.mpr (.inr (.inl hx)))
  · rcases mem_btInsert he with rfl | he
    · rwa [region_disjoint_comm]
    · exact hf.apart _ (mem_liveRegions.mpr (.inr (.inr ⟨e, he, rfl⟩)))

/-! ## The table operations -/

/-- How far the tables are from what a command leaves. -/
inductive Stage where
  /-- As a command leaves them. -/
  | closed
  /-- `RX_START` or `RX_RECV` is exchanging Buffers: the record of this Buffer names a slot that does not show it. -/
  | loose (b : Word)
  /-- `TX_NEW` is building the transmit table. -/
  | building

/-- The Buffer whose record names a slot that does not show it. -/
def Stage.looseBuf : Stage → Option Word
  | .loose b => some b
  | _ => none

/-- The table after the Buffer installed in a slot, if there is one, has ceased to exist (42_tx_ring.md R206). -/
def btRelease (bt : List (Word × BufRec)) (o : Option Word) : List (Word × BufRec) :=
  match o with
  | some b => btErase bt b
  | none => bt

/-- The tables of a state come from those of `o` by QM's operations, each with what QM has checked before it. -/
inductive TableRun (o : State) : Stage → State → Prop where
  | start : TableRun o .closed o
  | same {st : Stage} {s t : State} (h : TableRun o st s) (ht : t.tables = s.tables) : TableRun o st t
  /-- `BUF_NEW` (40_buffer.md R151). -/
  | bufNew {s t : State} {cap : Nat} {a : Word} (h : TableRun o .closed s) (hcap : 1 ≤ cap) (ha : Fresh s cap a)
      (ht : t.tables = { s.tables with bt := btInsert s.bt a { cap := cap, len := 0, owner := .host } }) :
      TableRun o .closed t
  /-- `BUF_SETLEN` (R154). -/
  | setLen {s t : State} {a : Word} {r : BufRec} {len : Nat} (h : TableRun o .closed s)
      (hr : btFind s.bt a = some r) (ho : r.owner = .host) (hlen : len ≤ r.cap)
      (ht : t.tables = { s.tables with bt := btInsert s.bt a { r with len := len } }) : TableRun o .closed t
  /-- `BUF_FREE` (R160). -/
  | bufFree {s t : State} {a : Word} {r : BufRec} (h : TableRun o .closed s) (hr : btFind s.bt a = some r)
      (ho : r.owner = .host) (ht : t.tables = { s.tables with bt := btErase s.bt a }) : TableRun o .closed t
  /-- `RX_NEW` (41_rx_ring.md R171). -/
  | rxNew {s t : State} {size : Nat} (h : TableRun o .closed s) (hc : s.rx.constructed = false) (hmin : 1 ≤ size)
      (hmax : size ≤ Config.bufSizeMax)
      (ht : t.tables =
        { s.tables with rx := { constructed := true, started := false, bufSize := size, slots := [], cur := 0 } }) :
      TableRun o .closed t
  /-- A Buffer allocated for a receive slot (R174, R187). -/
  | rxBuffer {s t : State} {i : Nat} {b : Word} (h : TableRun o .closed s)
      (hc : s.rx.constructed = true ∨ s.rx.slots ≠ []) (hb : Fresh s s.rx.bufSize b)
      (ht : t.tables =
        { s.tables with bt := btInsert s.bt b { cap := s.rx.bufSize, len := 0, owner := .rxSlot i } }) :
      TableRun o (.loose b) t
  /-- A new receive entry with that Buffer (R174). -/
  | rxEntry {s t : State} {d b : Word} (h : TableRun o (.loose b) s) (hc : s.rx.constructed = true)
      (hlen : s.rx.slots.length < s.par.maxRing) (hd : Fresh s Config.descBytes d)
      (hb : btFind s.bt b = some { cap := s.rx.bufSize, len := 0, owner := .rxSlot s.rx.slots.length })
      (ht : t.tables = { s.tables with rx := { s.rx with slots := s.rx.slots ++ [{ desc := d, buf := b }] } }) :
      TableRun o .closed t
  /-- That Buffer in the place of the one a received frame is in (R187). -/
  | rxSwap {s t : State} {i : Nat} {e : RxSlot} {nb : Word} (h : TableRun o (.loose nb) s)
      (he : s.rx.slots[i]? = some e)
      (hb : btFind s.bt nb = some { cap := s.rx.bufSize, len := 0, owner := .rxSlot i })
      (ht : t.tables = { s.tables with rx := { s.rx with slots := s.rx.slots.set i { e with buf := nb } } }) :
      TableRun o (.loose e.buf) t
  /-- The Buffer with the frame handed to HOST (R187). -/
  | handOut {s t : State} {ob : Word} {len : Nat} (h : TableRun o (.loose ob) s)
      (ht : t.tables = (rxHandOut ob len s).tables) : TableRun o .closed t
  /-- The receive cursor advances (R190). -/
  | rxAdvance {s t : State} (h : TableRun o .closed s) (hn : s.rx.slots ≠ []) (ht : t.tables = (rxAdvance s).tables) :
      TableRun o .closed t
  /-- The receive ring is started, or stopped by a reset (R173, 43_eth.md R232). -/
  | rxFlag {s t : State} {v : Bool} (h : TableRun o .closed s)
      (ht : t.tables = { s.tables with rx := { s.rx with started := v } }) : TableRun o .closed t
  /-- `TX_NEW` starts from an empty table (42_tx_ring.md R201). -/
  | txClear {s t : State} (h : TableRun o .closed s) (hc : s.tx.constructed = false)
      (ht : t.tables = { s.tables with tx := { s.tx with slots := [] } }) : TableRun o .building t
  | txEntry {s t : State} {d : Word} (h : TableRun o .building s) (hlen : s.tx.slots.length < s.par.txRingLen)
      (hd : Fresh s Config.descBytes d)
      (ht : t.tables = { s.tables with tx := { s.tx with slots := s.tx.slots ++ [{ desc := d, buf := none }] } }) :
      TableRun o .building t
  | txMade {s t : State} (h : TableRun o .building s) (hlen : s.tx.slots.length = s.par.txRingLen)
      (ht : t.tables = { s.tables with tx := { s.tx with constructed := true, started := false, cur := 0 } }) :
      TableRun o .closed t
  /-- A slot's Buffer ceases to exist (R206). -/
  | txRelease {s t : State} {i : Nat} {e : TxSlot} {b : Word} (h : TableRun o .closed s)
      (he : s.tx.slots[i]? = some e) (hb : e.buf = some b) (ht : t.tables = (txRelease i e b s).tables) :
      TableRun o .closed t
  /-- `TX_SEND` as a whole: the slot's old Buffer released, HOST's Buffer installed, the cursor advanced (R212 to
  R215). -/
  | txHandOver {s t : State} {i : Nat} {e : TxSlot} {a : Word} {r : BufRec} (h : TableRun o .closed s)
      (hs : s.tx.started = true) (he : s.tx.slots[i]? = some e) (hr : btFind s.bt a = some r) (ho : r.owner = .host)
      (ht : t.tables =
        { s.tables with
          bt := btInsert (btRelease s.bt e.buf) a { r with owner := .txSlot i }
          tx := { s.tx with slots := s.tx.slots.set i { e with buf := some a }
                            cur := (s.tx.cur + 1) % s.tx.slots.length } }) : TableRun o .closed t
  /-- The transmit ring is started (R205). -/
  | txStarted {s t : State} (h : TableRun o .closed s) (hc : s.tx.constructed = true)
      (ht : t.tables = { s.tables with tx := { s.tx with cur := 0, started := true } }) : TableRun o .closed t
  /-- The transmit ring is stopped by a reset (43_eth.md R232). -/
  | txStopped {s t : State} (h : TableRun o .closed s)
      (ht : t.tables = { s.tables with tx := { s.tx with started := false } }) : TableRun o .closed t

/-! ## The run of a command -/

/-- A point in the run of the command of word `w`, issued in `o`. -/
structure Run (o : State) (w : Word) (st : Stage) (s : State) : Prop where
  tables : TableRun o st s
  qm : ∃ q, s.qm = some q ∧ q.cmd = w
  fault : s.port.fault = o.port.fault
  hardware : o.HardwareInRange → s.HardwareInRange

/-- The states agree on everything a point of a run speaks of, but the tables. -/
structure SameBesidesTables (s t : State) : Prop where
  qm : t.qm = s.qm
  fault : t.port.fault = s.port.fault
  rxw : t.rxw = s.rxw
  txw : t.txw = s.txw
  regs : t.regs = s.regs

namespace Run

variable {o s t : State} {w : Word} {st st' : Stage}

theorem reach (h : Run o w st s) (ht : TableRun o st' t) (hsame : SameBesidesTables s t) : Run o w st' t :=
  ⟨ht, hsame.qm ▸ h.qm, hsame.fault ▸ h.fault,
    fun ho => hardwareInRange_congr hsame.rxw hsame.txw hsame.regs (h.hardware ho)⟩

theorem same (h : Run o w st s) (ht : t.tables = s.tables) (hsame : SameBesidesTables s t) : Run o w st t :=
  h.reach (h.tables.same ht) hsame

theorem applyMove (m : Move) (h : Run o w st s) : Run o w st (applyMove m s) := by
  have hview := qmView_applyMove m s
  have hqm : (Machine.applyMove m s).qm = s.qm := congrArg QmView.qm hview
  exact ⟨h.tables.same (tables_applyMove m s), hqm ▸ h.qm, (fault_applyMove m s).trans h.fault,
    fun ho => hardware_applyMove m (h.hardware ho)⟩

/-- QM's bookkeeping on its own record keeps the command's word. -/
theorem mapQm {f : Qm → Qm} (hf : ∀ q, (f q).cmd = q.cmd) (h : Run o w st s) : Run o w st (s.setQm (s.qm.map f)) := by
  obtain ⟨q, hq, hw⟩ := h.qm
  exact ⟨h.tables.same rfl, ⟨f q, by simp [hq], by rw [hf, hw]⟩, h.fault,
    fun ho => hardwareInRange_congr (s := s) rfl rfl rfl (h.hardware ho)⟩

theorem stable (o : State) (w : Word) (st : Stage) : Stable (Run o w st) where
  applyMove m _ h := h.applyMove m
  setMoves _ _ h := h.same rfl ⟨rfl, rfl, rfl, rfl, rfl⟩
  starve _ h := h.mapQm fun _ => rfl
  countAccess _ h := h.mapQm fun _ => rfl
  countPoll _ h := h.mapQm fun _ => rfl

theorem isSome (h : Run o w st s) : s.qm.isSome = true := by
  obtain ⟨q, hq, _⟩ := h.qm
  rw [hq]; rfl

theorem regWrite (r : Reg) (v : Word) (h : Run o w st s) : Run o w st (regWrite r v s) := by
  have hview := qmView_regWrite r v s
  have hqm : (Machine.regWrite r v s).qm = s.qm := congrArg QmView.qm hview
  have hfault : (Machine.regWrite r v s).port.fault = s.port.fault := congrArg QmView.fault hview
  exact ⟨h.tables.same (tables_of_qmView hview), hqm ▸ h.qm, hfault.trans h.fault,
    fun ho => hardware_regWrite r v (h.hardware ho)⟩

end Run

/-! ## How a body ends -/

/-- A body's end, by the four ways there are. -/
def Flow.Ends (ok stop fatal wait : State → Prop) : Flow → Prop
  | .ok _ _ s => ok s
  | .stop _ s => stop s
  | .fatal _ s => fatal s
  | .wait s => wait s

theorem Flow.Ends.andThen {ok ok' stop fatal wait : State → Prop} {f : Flow} {g : Word → Word → State → Flow}
    (hf : f.Ends ok stop fatal wait) (hg : ∀ r0 r1 t, ok t → (g r0 r1 t).Ends ok' stop fatal wait) :
    (f.andThen g).Ends ok' stop fatal wait := by
  cases f with
  | ok r0 r1 s => exact hg r0 r1 s hf
  | stop c s => exact hf
  | fatal k s => exact hf
  | wait s => exact hf

/-- The command has been left busy: QM is starved, or it is in the reset wait of a command that has one. -/
def Run.Waits (o : State) (w : Word) (resets : Bool) (t : State) : Prop :=
  (t.starved = true ∧ ∃ st, Run o w st t) ∨ (resets = true ∧ Run o w .closed t)

/-- The run of a body that answers where `ok` holds, and otherwise ends with its tables closed, in a fatal fault with no
Buffer loose, or busy. -/
abbrev Flow.Runs (o : State) (w : Word) (resets : Bool) (ok : State → Prop) (f : Flow) : Prop :=
  f.Ends ok (Run o w .closed) (fun t => ∃ st, st.looseBuf = none ∧ Run o w st t) (Run.Waits o w resets)

namespace Stable

variable {P : State → Prop} {s : State}

theorem turn_cases (hP : Stable P) (hs : P s) :
    (∃ t, yield s = .due t ∧ P t) ∨ (∃ t, yield s = .starved (Machine.starve t) ∧ P t) := by
  suffices h : ∀ ms s, P s →
      (∃ t, Machine.runMoves ms s = .due t ∧ P t) ∨ (∃ t, Machine.runMoves ms s = .starved (Machine.starve t) ∧ P t) from
    h s.moves s hs
  intro ms
  induction ms with
  | nil => exact fun s hs => .inl ⟨_, rfl, hP.setMoves _ _ hs⟩
  | cons m ms ih =>
    intro s hs
    cases m with
    | qm => exact .inl ⟨_, rfl, hP.setMoves _ _ hs⟩
    | untilIdle => exact .inl ⟨_, rfl, hP.setMoves _ _ hs⟩
    | starve => exact .inr ⟨_, rfl, hP.setMoves _ _ hs⟩
    | _ => exact ih _ (hP.applyMove _ _ hs)

theorem access_ends {ok stop fatal wait : State → Prop} {next : State → Flow} (hP : Stable P) (hs : P s)
    (hstuck : ∀ t, P t → wait (Machine.starve t)) (hn : ∀ t, P t → (next t).Ends ok stop fatal wait) :
    (Machine.access s next).Ends ok stop fatal wait := by
  rcases hP.turn_cases hs with ⟨t, ht, hPt⟩ | ⟨t, ht, hPt⟩
  · have hdue : Machine.access s next = next (Machine.countAccess t) := by
      rw [Machine.access, Machine.atTurn, ht]
    exact hdue ▸ hn _ (hP.countAccess _ hPt)
  · have hwait : Machine.access s next = .wait (Machine.starve t) := by
      rw [Machine.access, Machine.atTurn, ht]
    exact hwait ▸ hstuck _ hPt

/-- What a reset wait comes to. -/
theorem waitThen_ends {ok stop fatal wait : State → Prop} {rest : State → Flow} (hP : Stable P) (hs : P s)
    (hhang : ∀ t, P t → fatal t) (hpend : ∀ t, P t → wait t)
    (hrest : ∀ t, P t → (rest t).Ends ok stop fatal wait) : (Machine.waitThen rest s).Ends ok stop fatal wait := by
  have hw := hP.resetWait s.moves hs
  unfold Machine.waitThen
  split
  · next t ht => rw [ht] at hw; exact hrest t hw
  · next t ht => rw [ht] at hw; exact hhang t hw
  · next t ht => rw [ht] at hw; exact hpend t hw

/-- A property that speaks of the tables alone holds on beside another one. -/
theorem and_tables (hP : Stable P) (T : Tables) : Stable fun s => P s ∧ s.tables = T where
  applyMove m s h := ⟨hP.applyMove m s h.1, (tables_applyMove m s).trans h.2⟩
  setMoves ms s h := ⟨hP.setMoves ms s h.1, h.2⟩
  starve s h := ⟨hP.starve s h.1, h.2⟩
  countAccess s h := ⟨hP.countAccess s h.1, h.2⟩
  countPoll s h := ⟨hP.countPoll s h.1, h.2⟩

end Stable

namespace Run

variable {o s : State} {w : Word} {st : Stage} {resets : Bool} {ok : State → Prop} {next : State → Flow}

theorem access (h : Run o w st s) (hn : ∀ t, Run o w st t → t.tables = s.tables → (next t).Runs o w resets ok) :
    (access s next).Runs o w resets ok :=
  ((stable o w st).and_tables s.tables).access_ends ⟨h, rfl⟩
    (fun t ht => .inl ⟨starve_starved ht.1.isSome, st, (stable o w st).starve t ht.1⟩) fun t ht => hn t ht.1 ht.2

theorem qmWrite {a v : Word} (h : Run o w st s)
    (hn : ∀ t, Run o w st t → t.tables = s.tables → (next t).Runs o w resets ok) :
    (qmWrite a v s next).Runs o w resets ok :=
  h.access fun _ h ht => hn _ (h.same rfl ⟨rfl, rfl, rfl, rfl, rfl⟩) ht

theorem qmRegWrite {r : Reg} {v : Word} (h : Run o w st s)
    (hn : ∀ t, Run o w st t → t.tables = s.tables → (next t).Runs o w resets ok) :
    (qmRegWrite r v s next).Runs o w resets ok :=
  h.access fun _ h ht => hn _ (h.regWrite r v) ((tables_regWrite r v _).trans ht)

theorem qmRegField {r : Reg} {mask v : Word} (h : Run o w st s)
    (hn : ∀ t, Run o w st t → t.tables = s.tables → (next t).Runs o w resets ok) :
    (qmRegField r mask v s next).Runs o w resets ok :=
  h.access fun _ h ht => hn _ (h.regWrite r _) ((tables_regWrite r _ _).trans ht)

theorem qmEmit {e : Event} (h : Run o w st s)
    (hn : ∀ t, Run o w st t → t.tables = s.tables → (next t).Runs o w resets ok) :
    (qmEmit e s next).Runs o w resets ok :=
  h.access fun _ h ht => hn _ (h.same rfl ⟨rfl, rfl, rfl, rfl, rfl⟩) ht

theorem waitThen (h : Run o w .closed s) (hr : resets = true) (hn : ∀ t, Run o w .closed t → (next t).Runs o w resets ok) :
    (waitThen next s).Runs o w resets ok :=
  (stable o w .closed).waitThen_ends h (fun _ ht => ⟨.closed, rfl, ht⟩) (fun _ ht => .inr ⟨hr, ht⟩) hn

/-- A failed allocation changes the oracle alone. -/
theorem allocNone {held : List Region} {size : Nat} {t : State} (h : Run o w st s)
    (ha : alloc held size s = (none, t)) : Run o w st t := by
  rw [alloc_none ha]
  exact h.same rfl ⟨rfl, rfl, rfl, rfl, rfl⟩

theorem allocSome {held : List Region} {size : Nat} {a : Word} {t : State} (h : Run o w st s)
    (ha : alloc held size s = (some a, t)) : Run o w st t := by
  rw [(alloc_some ha).2]
  exact h.same rfl ⟨rfl, rfl, rfl, rfl, rfl⟩

/-! ## Buffer commands -/

theorem withHostBuffer {k : BufRec → State → Flow} (h : Run o w .closed s)
    (hk : ∀ r, btFind s.bt (operandA s) = some r → r.owner = .host → (k r s).Runs o w resets ok) :
    (withHostBuffer s k).Runs o w resets ok := by
  unfold Machine.withHostBuffer
  split
  · next r hr =>
    unfold hostBuffer at hr
    split at hr
    · next r' hf =>
      split at hr
      · next ho => cases hr; exact hk _ hf ho
      · cases hr
    · cases hr
  · exact h

theorem bufNewBody (h : Run o w .closed s) (cap : Nat) : (bufNewBody cap s).Runs o w resets (Run o w .closed) := by
  unfold Machine.bufNewBody
  split
  · exact h
  next hcap =>
  split
  · next ha => exact h.allocNone ha
  · next ha =>
    obtain ⟨hfresh, _, htables⟩ := fresh_of_alloc ha
    have ht := h.allocSome ha
    exact ht.reach (.bufNew ht.tables (Nat.pos_of_ne_zero hcap) (fresh_congr htables hfresh) rfl)
      ⟨rfl, rfl, rfl, rfl, rfl⟩

theorem bufSetlenBody (h : Run o w .closed s) (len : Nat) :
    (bufSetlenBody len s).Runs o w resets (Run o w .closed) :=
  h.withHostBuffer fun r hr ho => by
    split
    · exact h
    · next hlen => exact h.reach (.setLen h.tables hr ho (Nat.not_lt.mp hlen) rfl) ⟨rfl, rfl, rfl, rfl, rfl⟩

theorem bufInfoBody (h : Run o w .closed s) : (bufInfoBody s).Runs o w resets (Run o w .closed) :=
  h.withHostBuffer fun _ _ _ => h

theorem bufFreeBody (h : Run o w .closed s) : (bufFreeBody s).Runs o w resets (Run o w .closed) :=
  h.withHostBuffer fun _ hr ho => h.reach (.bufFree h.tables hr ho rfl) ⟨rfl, rfl, rfl, rfl, rfl⟩

/-! ## Receive ring commands -/

theorem rxNewBody (h : Run o w .closed s) (size : Nat) :
    (rxNewBody size s).Runs o w resets (Run o w .closed) := by
  unfold Machine.rxNewBody
  split
  · exact h
  next hc =>
  split
  · exact h
  next hsize =>
  rw [not_or, Nat.not_lt] at hsize
  exact h.reach (.rxNew h.tables (Bool.eq_false_iff.mpr hc) (Nat.pos_of_ne_zero hsize.1) hsize.2 rfl)
    ⟨rfl, rfl, rfl, rfl, rfl⟩

/-- A point of `RX_START` at which so many entries are missing to a table of `N`. -/
structure Growable (o : State) (w : Word) (N n : Nat) (s : State) : Prop where
  run : Run o w .closed s
  constructed : s.rx.constructed = true
  length : s.rx.slots.length + n = N
  max : N ≤ s.par.maxRing

/-- A point of `RX_START` at which a descriptor and a Buffer stand ready for the next entry. -/
structure Grafting (o : State) (w : Word) (N n : Nat) (d b : Word) (s : State) : Prop where
  run : Run o w (.loose b) s
  constructed : s.rx.constructed = true
  length : s.rx.slots.length + (n + 1) = N
  max : N ≤ s.par.maxRing
  fresh : Fresh s Config.descBytes d
  record : btFind s.bt b = some { cap := s.rx.bufSize, len := 0, owner := .rxSlot s.rx.slots.length }

theorem Growable.same {N n : Nat} {t : State} (h : Growable o w N n s) (hrun : Run o w .closed t)
    (ht : t.tables = s.tables) : Growable o w N n t := by
  obtain ⟨epar, _, erx, _⟩ := tables_eq_iff.mp ht
  exact ⟨hrun, erx ▸ h.constructed, erx ▸ h.length, epar ▸ h.max⟩

theorem Grafting.same {N n : Nat} {d b : Word} {t : State} (h : Grafting o w N n d b s)
    (hrun : Run o w (.loose b) t) (ht : t.tables = s.tables) : Grafting o w N n d b t := by
  obtain ⟨epar, ebt, erx, _⟩ := tables_eq_iff.mp ht
  exact ⟨hrun, erx ▸ h.constructed, erx ▸ h.length, epar ▸ h.max, fresh_congr ht h.fresh, ebt ▸ erx ▸ h.record⟩

/-- The second allocation of a new entry, entered in the Buffer table (R174). -/
theorem Growable.graft {N n : Nat} {d b : Word} {t : State} (h : Growable o w N (n + 1) s)
    (hd : Fresh s Config.descBytes d) (hb : alloc [(d.toNat, Config.descBytes)] s.rx.bufSize s = (some b, t)) :
    Grafting o w N n d b
      (t.setBt (btInsert t.bt b { cap := t.rx.bufSize, len := 0, owner := .rxSlot s.rx.slots.length })) := by
  obtain ⟨hfresh, hheld, et⟩ := fresh_of_alloc hb
  have ht := h.same (h.run.allocSome hb) et
  have erx : t.rx = s.rx := (tables_eq_iff.mp et).2.2.1
  have hdisj : Region.disjoint (b.toNat, t.rx.bufSize) (d.toNat, Config.descBytes) = true :=
    erx ▸ hheld _ List.mem_cons_self
  refine ⟨ht.run.reach (.rxBuffer ht.run.tables (.inl ht.constructed) (erx ▸ fresh_congr et hfresh) rfl)
    ⟨rfl, rfl, rfl, rfl, rfl⟩, ht.constructed, ht.length, ht.max, fresh_insert (fresh_congr et hd) hdisj rfl, ?_⟩
  rw [State.setBt_bt, State.setBt_rx, btFind_insert_same, erx]

/-- The new entry enters the receive table. -/
theorem Grafting.append {N n : Nat} {d b : Word} (h : Grafting o w N n d b s) :
    Growable o w N n (s.setRx { s.rx with slots := s.rx.slots ++ [{ desc := d, buf := b }] }) := by
  have hlen := h.length
  have hmax := h.max
  refine ⟨h.run.reach (.rxEntry h.run.tables h.constructed (by omega) h.fresh h.record rfl)
    ⟨rfl, rfl, rfl, rfl, rfl⟩, h.constructed, ?_, h.max⟩
  rw [State.setRx_rx, List.length_append, List.length_singleton]
  omega

theorem rxGrowOne {N n : Nat} (h : Growable o w N (n + 1) s) :
    (rxGrowOne s).Runs o w resets (Growable o w N n) := by
  unfold Machine.rxGrowOne
  dsimp only
  split
  · next ha => exact ⟨.closed, rfl, h.run.allocNone ha⟩
  next d s1 hd =>
  obtain ⟨hfresh, _, e1⟩ := fresh_of_alloc hd
  refine (h.run.allocSome hd).qmWrite fun _ h2 e2 => h2.qmWrite fun _ h3 e3 => h3.qmWrite fun _ h4 e4 =>
    h4.qmWrite fun s5 h5 e5 => ?_
  replace e5 : s5.tables = s.tables := e5.trans (e4.trans (e3.trans (e2.trans e1)))
  split
  · next ha => exact ⟨.closed, rfl, h5.allocNone ha⟩
  next b s6 hb =>
  have hgraft := (h.same h5 e5).graft (fresh_congr e5 hfresh) hb
  rw [(tables_eq_iff.mp e5).2.2.1] at hgraft
  exact hgraft.run.qmWrite fun _ h7 e7 => h7.qmWrite fun _ h8 e8 => h8.qmWrite fun _ h9 e9 =>
    (hgraft.same h9 (e9.trans (e8.trans e7))).append

theorem rxGrow {N n : Nat} (h : Growable o w N n s) : (rxGrow n s).Runs o w resets (Growable o w N 0) := by
  induction n generalizing s with
  | zero => exact h
  | succ n ih => exact (rxGrowOne h).andThen fun _ _ _ ht => ih ht

theorem rxRelink (h : Run o w .closed s) (es : List RxSlot) :
    (rxRelink es s).Runs o w resets (Run o w .closed) := by
  induction es generalizing s with
  | nil => exact h
  | cons e es ih => exact h.qmWrite fun _ h _ => h.qmWrite fun _ h _ => ih h

theorem rxRegister (h : Run o w .closed s) : (rxRegister s).Runs o w resets (Run o w .closed) :=
  (h.rxRelink _).andThen fun _ _ _ h => h.qmRegWrite fun _ h _ => h.qmRegField fun _ h _ => h.qmRegWrite fun _ h _ =>
    h.reach (.rxFlag h.tables rfl) ⟨rfl, rfl, rfl, rfl, rfl⟩

theorem rxStartBody (h : Run o w .closed s) (n : Nat) : (rxStartBody n s).Runs o w resets (Run o w .closed) := by
  unfold Machine.rxStartBody
  split
  · exact h
  next hc =>
  split
  · exact h
  next hmax =>
  split
  · exact h
  rw [not_not] at hc
  by_cases hn : s.rx.slots.length ≤ n
  · exact (rxGrow ⟨h, hc, Nat.add_sub_cancel' hn, Nat.not_lt.mp hmax⟩).andThen fun _ _ _ ht => ht.run.rxRegister
  · rw [Nat.sub_eq_zero_of_le (Nat.le_of_not_le hn)]
    exact h.rxRegister

theorem rxPollBody (h : Run o w .closed s) : (rxPollBody s).Runs o w resets (Run o w .closed) :=
  h.qmRegWrite fun _ h _ => h

theorem rxStateBody (h : Run o w .closed s) : (rxStateBody s).Runs o w resets (Run o w .closed) :=
  h.access fun _ h _ => h

theorem rxPostConsume (h : Run o w .closed s) (hn : ∀ t, Run o w .closed t → (next t).Runs o w resets ok) :
    (rxPostConsume s next).Runs o w resets ok :=
  h.access fun t ht _ => by
    split
    · exact ht.qmRegWrite fun _ h _ => hn _ h
    · exact hn t ht

theorem rxAdvance (h : Run o w .closed s) (hn : s.rx.slots ≠ []) : Run o w .closed (rxAdvance s) :=
  h.reach (.rxAdvance h.tables hn rfl) ⟨rfl, rfl, rfl, rfl, rfl⟩

theorem rxRecvError {i : Nat} {e : RxSlot} {w0 : Word} (h : Run o w .closed s) (hn : s.rx.slots ≠ []) :
    (rxRecvError i e w0 s).Runs o w resets (Run o w .closed) :=
  h.qmEmit fun _ _ e1 => qmWrite ‹_› fun t ht e2 => by
    have hslots : t.rx.slots ≠ [] := (tables_eq_iff.mp (e2.trans e1)).2.2.1 ▸ hn
    refine rxPostConsume ?_ fun _ h => h
    split
    · exact ht.rxAdvance hslots
    · exact ht

theorem rxRecvFragment {i : Nat} {e : RxSlot} {w0 : Word} (h : Run o w .closed s) (hn : s.rx.slots ≠ []) :
    (rxRecvFragment i e w0 s).Runs o w resets (Run o w .closed) :=
  h.qmEmit fun _ _ e1 => qmWrite ‹_› fun _ ht e2 =>
    rxPostConsume (ht.rxAdvance ((tables_eq_iff.mp (e2.trans e1)).2.2.1 ▸ hn)) fun _ h => h

theorem rxHandOut_besides (ob : Word) (len : Nat) (s : State) : SameBesidesTables s (rxHandOut ob len s) := by
  unfold Machine.rxHandOut
  split <;> exact ⟨rfl, rfl, rfl, rfl, rfl⟩

theorem rxHandOut_rx (ob : Word) (len : Nat) (s : State) : (rxHandOut ob len s).rx = s.rx := by
  unfold Machine.rxHandOut
  split <;> rfl

/-- The Buffer allocated for a receive slot, entered in the Buffer table (R187). -/
theorem replacement {i : Nat} {e : RxSlot} {nb : Word} {t : State} (h : Run o w .closed s)
    (he : s.rx.slots[i]? = some e) (hb : alloc [] s.rx.bufSize s = (some nb, t)) :
    Run o w (.loose nb) (t.setBt (btInsert t.bt nb { cap := t.rx.bufSize, len := 0, owner := .rxSlot i })) := by
  obtain ⟨hfresh, _, et⟩ := fresh_of_alloc hb
  have ht := h.allocSome hb
  have erx : t.rx = s.rx := (tables_eq_iff.mp et).2.2.1
  have hslots : t.rx.slots ≠ [] := fun hnil => by rw [← erx, hnil] at he; cases he
  exact ht.reach (.rxBuffer ht.tables (.inr hslots) (erx ▸ fresh_congr et hfresh) rfl) ⟨rfl, rfl, rfl, rfl, rfl⟩

/-- That Buffer takes the place of the one in the slot (R187). -/
theorem swap {i : Nat} {e : RxSlot} {nb : Word} {t : State} (ht : Run o w (.loose nb) t)
    (he : s.rx.slots[i]? = some e)
    (et : t.tables =
      (s.setBt (btInsert s.bt nb { cap := s.rx.bufSize, len := 0, owner := .rxSlot i })).tables) :
    Run o w (.loose e.buf) (t.setRx { t.rx with slots := t.rx.slots.set i { e with buf := nb } }) := by
  obtain ⟨_, ebt, erx, _⟩ := tables_eq_iff.mp et
  exact ht.reach (.rxSwap ht.tables (by rw [erx]; exact he)
    (by rw [ebt, erx, State.setBt_bt, State.setBt_rx, btFind_insert_same]) rfl) ⟨rfl, rfl, rfl, rfl, rfl⟩

/-- The Buffer with the frame goes to HOST and the cursor advances (R187, R190). -/
theorem handOut {ob : Word} {len : Nat} (h : Run o w (.loose ob) s) (hn : s.rx.slots ≠ []) :
    Run o w .closed (Machine.rxAdvance (rxHandOut ob len s)) :=
  have hout : Run o w .closed (rxHandOut ob len s) := h.reach (.handOut h.tables rfl) (rxHandOut_besides ..)
  hout.rxAdvance (by rwa [rxHandOut_rx])

theorem rxRecvFrame {i : Nat} {e : RxSlot} {w0 : Word} (h : Run o w .closed s) (he : s.rx.slots[i]? = some e) :
    (rxRecvFrame i e w0 s).Runs o w resets (Run o w .closed) := by
  unfold Machine.rxRecvFrame
  split
  · next ha => exact ⟨.closed, rfl, h.allocNone ha⟩
  next nb s1 hb =>
  have erx : s1.rx = s.rx := (tables_eq_iff.mp (fresh_of_alloc hb).2.2).2.2.1
  refine (h.replacement he hb).qmWrite fun s2 h2 e2 => qmWrite (h2.swap (erx ▸ he) e2) fun s3 h3 e3 => ?_
  refine rxPostConsume (h3.handOut fun hnil => ?_) fun _ h => h
  rw [(tables_eq_iff.mp e3).2.2.1, State.setRx_rx, List.set_eq_nil_iff, (tables_eq_iff.mp e2).2.2.1, State.setBt_rx,
    erx] at hnil
  rw [hnil] at he
  cases he

theorem rxRecvBody (h : Run o w .closed s) : (rxRecvBody s).Runs o w resets (Run o w .closed) := by
  unfold Machine.rxRecvBody
  split
  · exact h
  next e he =>
  refine h.access fun t ht et => ?_
  have erx : t.rx = s.rx := (tables_eq_iff.mp et).2.2.1
  have het : t.rx.slots[s.rx.cur]? = some e := erx ▸ he
  have hn : t.rx.slots ≠ [] := fun hnil => by rw [hnil] at het; cases het
  dsimp only
  split
  · exact ht
  split
  · exact ht.rxRecvError hn
  split
  · exact ht.rxRecvFrame het
  · exact ht.rxRecvFragment hn

/-! ## Transmit ring commands -/

/-- A point of `TX_NEW` at which so many entries are still missing. -/
structure Building (o : State) (w : Word) (n : Nat) (s : State) : Prop where
  run : Run o w .building s
  length : s.tx.slots.length + n = s.par.txRingLen

/-- The new entry enters the transmit table. -/
theorem Building.append {n : Nat} {d : Word} {t : State} (h : Building o w (n + 1) s) (ht : Run o w .building t)
    (et : t.tables = s.tables) (hd : Fresh t Config.descBytes d) :
    Building o w n (t.setTx { t.tx with slots := t.tx.slots ++ [{ desc := d, buf := none }] }) := by
  obtain ⟨epar, _, _, etx⟩ := tables_eq_iff.mp et
  have hlen := h.length
  refine ⟨ht.reach (.txEntry ht.tables (by rw [etx, epar]; omega) hd rfl) ⟨rfl, rfl, rfl, rfl, rfl⟩, ?_⟩
  rw [State.setTx_tx, State.setTx_par, List.length_append, List.length_singleton, etx, epar]
  omega

theorem txNewOne {n : Nat} (h : Building o w (n + 1) s) : (txNewOne s).Runs o w resets (Building o w n) := by
  unfold Machine.txNewOne
  split
  · next ha => exact ⟨.building, rfl, h.run.allocNone ha⟩
  next d s1 hd =>
  obtain ⟨hfresh, _, e1⟩ := fresh_of_alloc hd
  refine (h.run.allocSome hd).qmWrite fun _ h2 e2 => h2.qmWrite fun _ h3 e3 => h3.qmWrite fun _ h4 e4 =>
    h4.qmWrite fun s5 h5 e5 => ?_
  replace e5 : s5.tables = s.tables := e5.trans (e4.trans (e3.trans (e2.trans e1)))
  exact h.append h5 e5 (fresh_congr e5 hfresh)

theorem txNewSlots {n : Nat} (h : Building o w n s) : (txNewSlots n s).Runs o w resets (Building o w 0) := by
  induction n generalizing s with
  | zero => exact h
  | succ n ih => exact (txNewOne h).andThen fun _ _ _ ht => ih ht

theorem txNewBody (h : Run o w .closed s) : (txNewBody s).Runs o w resets (Run o w .closed) := by
  unfold Machine.txNewBody
  split
  · exact h
  next hc =>
  have hclear : Run o w .building (s.setTx { s.tx with slots := [] }) :=
    h.reach (.txClear h.tables (Bool.eq_false_iff.mpr hc) rfl) ⟨rfl, rfl, rfl, rfl, rfl⟩
  exact (txNewSlots ⟨hclear, Nat.zero_add _⟩).andThen fun _ _ _ ht =>
    ht.run.reach (.txMade ht.run.tables ht.length rfl) ⟨rfl, rfl, rfl, rfl, rfl⟩

theorem txRelease {i : Nat} {e : TxSlot} {b : Word} (h : Run o w .closed s) (he : s.tx.slots[i]? = some e)
    (hb : e.buf = some b) : Run o w .closed (txRelease i e b s) :=
  h.reach (.txRelease h.tables he hb rfl) ⟨rfl, rfl, rfl, rfl, rfl⟩

theorem txReleaseIf {i : Nat} {e : TxSlot} (h : Run o w .closed s) (he : s.tx.slots[i]? = some e) :
    Run o w .closed (txReleaseIf i e s) := by
  unfold Machine.txReleaseIf
  split
  · next hb => exact h.txRelease he hb
  · exact h

end Run

/-- A release touches its own slot alone. -/
theorem txReleaseIf_slots_other {i j : Nat} (e : TxSlot) (s : State) (hij : i ≠ j) :
    (txReleaseIf i e s).tx.slots[j]? = s.tx.slots[j]? := by
  unfold txReleaseIf
  split
  · exact List.getElem?_set_ne hij
  · rfl

namespace Run

variable {o s : State} {w : Word} {st : Stage} {resets : Bool} {ok : State → Prop} {next : State → Flow}

theorem txInit {i : Nat} {es : List TxSlot} (h : Run o w .closed s)
    (hes : ∀ j e, es[j]? = some e → s.tx.slots[i + j]? = some e) (hc : s.tx.constructed = true) :
    (txInit i es s).Runs o w resets fun t => Run o w .closed t ∧ t.tx.constructed = true := by
  induction es generalizing s i with
  | nil => exact ⟨h, hc⟩
  | cons e es ih =>
    refine (h.txReleaseIf (hes 0 e rfl)).qmWrite fun _ h1 e1 => h1.qmWrite fun _ h2 e2 => h2.qmWrite fun _ h3 e3 =>
      h3.qmWrite fun _ h4 e4 => ?_
    have etx := (tables_eq_iff.mp (e4.trans (e3.trans (e2.trans e1)))).2.2.2
    refine ih h4 (fun j e' he' => ?_) ?_
    · rw [etx, txReleaseIf_slots_other e s (by omega), Nat.add_assoc, Nat.add_comm 1 j]
      exact hes (j + 1) e' he'
    · rw [etx]
      unfold Machine.txReleaseIf
      split <;> exact hc

theorem txStartBody (h : Run o w .closed s) : (txStartBody s).Runs o w resets (Run o w .closed) := by
  unfold Machine.txStartBody
  split
  · exact h
  next hc =>
  split
  · exact h
  refine (h.txInit (i := 0) (fun j e he => by rwa [Nat.zero_add]) (not_not.mp hc)).andThen fun _ _ t ht => ?_
  refine ht.1.qmRegWrite fun _ h1 e1 => h1.qmRegField fun _ h2 e2 => ?_
  exact h2.reach (.txStarted h2.tables ((tables_eq_iff.mp (e2.trans e1)).2.2.2 ▸ ht.2) rfl) ⟨rfl, rfl, rfl, rfl, rfl⟩

/-- After the release, the tables are those of before it, with the slot empty and its Buffer gone. -/
theorem tables_txReleaseIf {i : Nat} {e : TxSlot} (he : s.tx.slots[i]? = some e) :
    (Machine.txReleaseIf i e s).tables =
      { s.tables with bt := btRelease s.bt e.buf
                      tx := { s.tx with slots := s.tx.slots.set i { e with buf := none } } } := by
  unfold Machine.txReleaseIf btRelease
  cases hb : e.buf with
  | some b => rfl
  | none =>
    have hset : s.tx.slots.set i { e with buf := none } = s.tx.slots := by
      rw [← hb]
      obtain ⟨hi, rfl⟩ := List.getElem?_eq_some_iff.mp he
      exact List.set_getElem_self hi
    simp only [hset]
    rfl

/-- The last action of `TX_SEND`, after the release of the slot (R214, R215). -/
theorem handOver {i : Nat} {e : TxSlot} {a : Word} {r : BufRec} {t : State} (h : Run o w .closed s)
    (hs : s.tx.started = true) (he : s.tx.slots[i]? = some e) (hr : btFind s.bt a = some r) (ho : r.owner = .host)
    (ht : Run o w .closed t) (et : t.tables = (Machine.txReleaseIf i e s).tables) :
    Run o w .closed
      ((t.setTx { t.tx with slots := t.tx.slots.set i { e with buf := some a }
                            cur := (t.tx.cur + 1) % t.tx.slots.length }).setBt
        (btInsert t.bt a { r with owner := .txSlot i })) := by
  have et := et.trans (tables_txReleaseIf he)
  refine ht.reach (.txHandOver h.tables hs he hr ho ?_) ⟨rfl, rfl, rfl, rfl, rfl⟩
  injection et with epar ebt erx etx
  simp only [State.tables, State.setBt_par, State.setBt_bt, State.setBt_rx, State.setBt_tx, State.setTx_par,
    State.setTx_rx, State.setTx_tx, epar, ebt, erx, etx, List.set_set, List.length_set]

theorem txInstall {i : Nat} {e : TxSlot} {a : Word} {r : BufRec} (h : Run o w .closed s) (hs : s.tx.started = true)
    (he : s.tx.slots[i]? = some e) (hr : btFind s.bt a = some r) (ho : r.owner = .host) :
    (txInstall i e a r s).Runs o w resets (Run o w .closed) :=
  (h.txReleaseIf he).qmWrite fun _ h1 e1 => h1.qmWrite fun _ h2 e2 => h2.qmWrite fun _ ht e3 =>
    h.handOver hs he hr ho (ht.same rfl ⟨rfl, rfl, rfl, rfl, rfl⟩) (e3.trans (e2.trans e1))

theorem txSendBody (h : Run o w .closed s) : (txSendBody s).Runs o w resets (Run o w .closed) := by
  unfold Machine.txSendBody
  split
  · exact h
  next hs =>
  refine h.withHostBuffer fun r hr ho => ?_
  split
  · exact h
  split
  · exact h
  next e he =>
  refine h.access fun t ht et => ?_
  obtain ⟨_, ebt, _, etx⟩ := tables_eq_iff.mp et
  split
  · exact ht
  · exact ht.txInstall (etx ▸ not_not.mp hs) (etx ▸ he) (ebt ▸ hr) ho

theorem txStateBody (h : Run o w .closed s) : (txStateBody s).Runs o w resets (Run o w .closed) :=
  h.access fun _ h _ => h

theorem txPollBody (h : Run o w .closed s) : (txPollBody s).Runs o w resets (Run o w .closed) :=
  h.qmRegWrite fun _ h _ => h

theorem txQlenScan (h : Run o w .closed s) (es : List TxSlot) (n : Nat) :
    (txQlenScan es n s).Runs o w resets (Run o w .closed) := by
  induction es generalizing s n with
  | nil => exact h
  | cons e es ih => exact h.access fun _ ht _ => ih ht _

theorem txReapScan {i : Nat} {es : List TxSlot} {n : Nat} (h : Run o w .closed s)
    (hes : ∀ j e, es[j]? = some e → s.tx.slots[i + j]? = some e) :
    (txReapScan i es n s).Runs o w resets (Run o w .closed) := by
  induction es generalizing s i n with
  | nil => exact h
  | cons e es ih =>
    have hrest (t : State) (ht : t.tx.slots = s.tx.slots) (j : Nat) (e' : TxSlot) (he' : es[j]? = some e') :
        t.tx.slots[i + 1 + j]? = some e' := by
      rw [ht, Nat.add_assoc, Nat.add_comm 1 j]
      exact hes (j + 1) e' he'
    unfold Machine.txReapScan
    split
    · exact ih h (hrest s rfl)
    next b hb =>
    refine h.access fun t ht et => ?_
    have etx : t.tx = s.tx := (tables_eq_iff.mp et).2.2.2
    split
    · exact ih ht (hrest t (etx ▸ rfl))
    · refine ih (ht.txRelease (etx ▸ hes 0 e rfl) hb) fun j e' he' => ?_
      rw [Machine.txRelease, State.setTx_tx, List.getElem?_set_ne (by omega)]
      exact hrest t (etx ▸ rfl) j e' he'

/-! ## Orchestrator commands -/

theorem afterReset (h : Run o w .closed s) : (afterReset s).Runs o w resets (Run o w .closed) :=
  have hrx : Run o w .closed (s.setRx { s.rx with started := false }) :=
    h.reach (.rxFlag h.tables rfl) ⟨rfl, rfl, rfl, rfl, rfl⟩
  hrx.reach (.txStopped hrx.tables rfl) ⟨rfl, rfl, rfl, rfl, rfl⟩

theorem resetBody {rest : State → Flow} (h : Run o w .closed s) (hr : resets = true)
    (hrest : ∀ t, Run o w .closed t → (rest t).Runs o w resets ok) : (resetBody rest s).Runs o w resets ok :=
  h.qmRegField fun _ h _ => h.waitThen hr fun _ h => h.afterReset.andThen fun _ _ => hrest

theorem afterResetInit (h : Run o w .closed s) : (afterResetInit s).Runs o w resets (Run o w .closed) :=
  h.qmRegField fun _ h _ => h.qmEmit fun _ h _ => h.qmEmit fun _ h _ => h.qmRegField fun _ h _ =>
    h.qmRegField fun _ h _ => h.qmRegField fun _ h _ => h.qmRegField fun _ h _ => h.qmRegField fun _ h _ => h

theorem afterResetNew (h : Run o w .closed s) (n : Nat) : (afterResetNew n s).Runs o w resets (Run o w .closed) :=
  h.afterResetInit.andThen fun _ _ _ h => h.txStartBody.andThen fun _ _ t h => by
    have hrx : (if 0 < n then Machine.rxStartBody n t else .ok 0 0 t).Runs o w resets (Run o w .closed) := by
      split
      · exact h.rxStartBody n
      · exact h
    exact hrx.andThen fun _ _ _ h => h

theorem ethNewBody (h : Run o w .closed s) (hr : resets = true) (n : Nat) :
    (ethNewBody n s).Runs o w resets (Run o w .closed) := by
  unfold Machine.ethNewBody
  split
  · exact h
  · exact (h.rxNewBody _).andThen fun _ _ _ h => h.txNewBody.andThen fun _ _ _ h =>
      h.resetBody hr fun _ h => h.afterResetNew n

theorem irqEnableBody (h : Run o w .closed s) : (irqEnableBody s).Runs o w resets (Run o w .closed) :=
  h.qmRegField fun _ h _ => h.access fun t ht _ => by
    have hirq : Run o w .closed (t.setNvic true) := ht.same rfl ⟨rfl, rfl, rfl, rfl, rfl⟩
    show Run o w .closed (withIrq (fun t => t.setNvic true) t)
    unfold withIrq
    split
    · exact hirq
    · exact hirq.same rfl ⟨rfl, rfl, rfl, rfl, rfl⟩

theorem irqAckBody (h : Run o w .closed s) : (irqAckBody s).Runs o w resets (Run o w .closed) :=
  h.qmRegWrite fun _ h _ => h

theorem phyStatusBody (h : Run o w .closed s) : (phyStatusBody s).Runs o w resets (Run o w .closed) :=
  qmEmit (h.same (t := s.setDraws _) rfl ⟨rfl, rfl, rfl, rfl, rfl⟩) fun _ h _ => h

theorem ethSendBody (h : Run o w .closed s) : (ethSendBody s).Runs o w resets (Run o w .closed) :=
  h.txSendBody.andThen fun _ _ _ h => h.access fun t ht _ => by
    split
    · exact ht
    · exact ht.qmRegWrite fun _ h _ => h

/-! ## Every body -/

theorem body (h : Run o w .closed s) (i : Instr) :
    (commandBody i s).Runs o w (Machine.resumeBody i).isSome (Run o w .closed) := by
  cases i with
  | bufNew cap => exact h.bufNewBody cap
  | bufSetlen len => exact h.bufSetlenBody len
  | bufInfo => exact h.bufInfoBody
  | bufFree => exact h.bufFreeBody
  | rxNew size => exact h.rxNewBody size
  | rxStart n => exact h.rxStartBody n
  | rxPoll => exact h.rxPollBody
  | rxState => exact h.rxStateBody
  | rxRecv => exact h.rxRecvBody
  | txNew => exact h.txNewBody
  | txStart => exact h.txStartBody
  | txSend => exact h.txSendBody
  | txState => exact h.txStateBody
  | txPoll => exact h.txPollBody
  | txQlen => exact h.txQlenScan _ _
  | txReap => exact h.txReapScan fun j e he => by rwa [Nat.zero_add]
  | ethNew n => exact h.ethNewBody rfl n
  | dmaReset => exact h.resetBody rfl fun _ h => h
  | ethInit => exact h.resetBody rfl fun _ h => h.afterResetInit
  | irqEnable => exact h.irqEnableBody
  | irqAck => exact h.irqAckBody
  | phyStatus => exact h.phyStatusBody
  | ethSend => exact h.ethSendBody

theorem resumeBody (h : Run o w .closed s) {i : Instr} {rest : State → Flow}
    (hr : Machine.resumeBody i = some rest) : (rest s).Runs o w true (Run o w .closed) := by
  cases i <;> cases hr
  case dmaReset => exact h.waitThen rfl fun _ h => h.afterReset
  case ethInit => exact h.waitThen rfl fun _ h => h.afterReset.andThen fun _ _ _ h => h.afterResetInit
  case ethNew n => exact h.waitThen rfl fun _ h => h.afterReset.andThen fun _ _ _ h => h.afterResetNew n

end Run

/-! ## The end of a command -/

/-- What a command of word `w`, issued in `o`, can come to: its `result`, its `raise`, or a state in which it is left
busy. -/
inductive Ended (o : State) (w : Word) (resets : Bool) : State → Prop where
  | result {t : State} (c : Code) (r0 r1 : Word) (h : Run o w .closed t) : Ended o w resets (result c r0 r1 t)
  | raise {st : Stage} {t : State} (k : FatalKind) (hst : st.looseBuf = none) (h : Run o w st t) :
      Ended o w resets (raise k t)
  | starved {st : Stage} {t : State} (hs : t.starved = true) (h : Run o w st t) : Ended o w resets t
  | waiting {t : State} (hr : resets = true) (h : Run o w .closed t) : Ended o w resets t

section
variable {o s : State} {w : Word} {st : Stage} {resets : Bool}

theorem Stable.finish_cases {P : State → Prop} (hP : Stable P) (hs : P s) (act : State → State) :
    (∃ t, P t ∧ Machine.finish act s = act t) ∨ (∃ t, P t ∧ Machine.finish act s = Machine.starve t) := by
  rcases hP.turn_cases hs with ⟨t, ht, hPt⟩ | ⟨t, ht, hPt⟩
  · exact .inl ⟨_, hP.countAccess t hPt, by rw [Machine.finish, Machine.atTurn, ht]⟩
  · exact .inr ⟨t, hPt, by rw [Machine.finish, Machine.atTurn, ht]; rfl⟩

theorem Run.finish {act : State → State} (h : Run o w st s) (hact : ∀ t, Run o w st t → Ended o w resets (act t)) :
    Ended o w resets (finish act s) := by
  rcases (Run.stable o w st).finish_cases h act with ⟨t, hrun, ht⟩ | ⟨t, hrun, ht⟩
  · exact ht ▸ hact t hrun
  · exact ht ▸ .starved (starve_starved hrun.isSome) ((Run.stable o w st).starve t hrun)

theorem Run.conclude {f : Flow} (h : f.Runs o w resets (Run o w .closed)) : Ended o w resets f.conclude := by
  cases f with
  | ok r0 r1 s => exact Run.finish h fun t ht => .result _ _ _ ht
  | stop c s => exact Run.finish h fun t ht => .result _ _ _ ht
  | fatal k s =>
    obtain ⟨st, hst, hrun⟩ := h
    exact hrun.finish fun t ht => .raise k hst ht
  | wait s =>
    rcases h with ⟨hs, st, hrun⟩ | ⟨hr, hrun⟩
    · exact .starved hs hrun
    · exact .waiting hr hrun

theorem Run.startCommand (s : State) (ms : List Move) (w : Word) :
    Run s w .closed (startCommand w (s.setMoves ms)) :=
  ⟨TableRun.start.same rfl, ⟨_, rfl, rfl⟩, rfl, fun h => hardwareInRange_congr (s := s) rfl rfl rfl h⟩

end

/-! ## What a step can do to the tables -/

/-- The word is that of a command with a reset wait, which can be left and taken up again. -/
def Resumable (w : Word) : Prop := ∃ i, decode w = .ok i ∧ (resumeBody i).isSome = true

/-- A step of another agent, a command in the fatal state, or a run of a command. -/
inductive StepRun (s : State) : State → Prop where
  | others {t : State} (hv : qmView t = qmView s) (hh : s.HardwareInRange → t.HardwareInRange) : StepRun s t
  | faulted {t : State} (hq : s.qm = none) (ht : t.tables = s.tables) (hfault : t.port.fault = s.port.fault)
      (hend : t.qm = none ∨ t.starved = true) (hh : s.HardwareInRange → t.HardwareInRange) : StepRun s t
  | command {w : Word} {resets : Bool} {t : State} (hs : s.starved = false)
      (hf : s.port.fault = 0 ∨ s.qm.isSome = true) (hr : resets = true → Resumable w) (h : Ended s w resets t) :
      StepRun s t

section
variable {s t : State} {w : Word} {resets : Bool} {body : State → Flow} {ms : List Move}

theorem starved_of_none (hq : s.qm = none) : s.starved = false := by
  simp [State.starved, hq]

theorem stepRun_of_fault (hq : s.qm = none) (hf : s.port.fault ≠ 0) :
    StepRun s (runCommand w body (s.setMoves ms)) := by
  rw [runCommand_of_fault (s := s.setMoves ms) hf]
  rcases ((Run.stable s w .closed).and_tables s.tables).finish_cases ⟨Run.startCommand s ms w, rfl⟩
    (result .faulted 0 0) with ⟨t, ⟨hrun, htables⟩, ht⟩ | ⟨t, ⟨hrun, htables⟩, ht⟩
  · exact ht ▸ .faulted hq htables hrun.fault (.inl rfl) fun hh =>
      hardwareInRange_congr (s := t) rfl rfl rfl (hrun.hardware hh)
  · exact ht ▸ .faulted hq htables hrun.fault (.inr (starve_starved hrun.isSome)) fun hh =>
      hardwareInRange_congr (s := t) rfl rfl rfl (hrun.hardware hh)

theorem stepRun_runCommand (hq : s.qm = none) (hr : resets = true → Resumable w)
    (hb : (body (Machine.startCommand w (s.setMoves ms))).Runs s w resets (Run s w .closed)) :
    StepRun s (runCommand w body (s.setMoves ms)) := by
  by_cases hf : s.port.fault = 0
  · rw [runCommand_of_ready (s := s.setMoves ms) hf]
    exact .command (starved_of_none hq) (.inl hf) hr (Run.conclude hb)
  · exact stepRun_of_fault hq hf
end

theorem opField_encode (i : Instr) : opField (encode i) = i.fields.1 := by
  have hlt : i.fields.2 % 2 ^ 24 < 2 ^ 24 := Nat.mod_lt _ (by decide)
  have hop : i.fields.1 < 2 ^ 8 := by cases i <;> simp [Instr.fields]
  rw [opField, encode, word, BitVec.toNat_ofNat]
  omega

theorem decode_encode_of_resume {i : Instr} (h : (resumeBody i).isSome = true) :
    Resumable (encode i) := by
  have hop := opField_encode i
  cases i <;> cases h
  case ethNew n => exact ⟨.ethNew (immField (encode (.ethNew n))), by rw [decode, hop]; rfl, rfl⟩
  case dmaReset => exact ⟨.dmaReset, rfl, rfl⟩
  case ethInit => exact ⟨.ethInit, rfl, rfl⟩

theorem step_run {s t : State} (h : step s = .next t) : StepRun s t := by
  cases step_eq_next_iff.mp h with
  | idle => exact .others rfl id
  | move =>
    exact .others (qmView_applyMove ..) fun hh => hardware_applyMove _ (hardwareInRange_congr (s := s) rfl rfl rfl hh)
  | @issue _ ms _ i hq => exact stepRun_runCommand hq decode_encode_of_resume ((Run.startCommand s ms _).body i)
  | @illegal _ ms w _ hq =>
    exact stepRun_runCommand (resets := false) hq (fun hr => nomatch hr) (Run.startCommand s ms w)
  | starved =>
    unfold moveOn
    split
    · exact .others rfl id
    · exact .others (qmView_applyMove ..) fun hh => hardware_applyMove _ (hardwareInRange_congr (s := s) rfl rfl rfl hh)
  | @resumed q i _ hq hs hd hr =>
    have hrun : Run s q.cmd .closed s := ⟨.start, ⟨q, hq, rfl⟩, rfl, id⟩
    exact .command ((starved_eq hq).trans hs) (.inr (by rw [hq]; rfl)) (fun _ => ⟨i, hd, by rw [hr]; rfl⟩)
      (Run.conclude (hrun.resumeBody hr))

/-! ## Every step answers -/

theorem step_answers {s : State} (h : s.busyWaits) : ∃ t, step s = .next t := by
  cases hq : s.qm with
  | some q =>
    rw [step_busy hq, resume]
    rcases h q hq with hs | ⟨i, hd, hr⟩
    · rw [if_pos hs]; exact ⟨_, rfl⟩
    · obtain ⟨rest, hrest⟩ := Option.isSome_iff_exists.mp hr
      split
      · exact ⟨_, rfl⟩
      · simp only [hd, hrest]
        exact ⟨_, rfl⟩
  | none =>
    unfold step
    simp only [hq]
    split
    · exact ⟨_, rfl⟩
    · exact ⟨_, rfl⟩
    · next i t _ =>
      rw [exec_eq_command]
      exact command_next _ _ _
    · exact ⟨_, rfl⟩

theorem busyWaits_of_starved {t : State} (h : t.starved = true) : t.busyWaits := fun _ hq =>
  .inl ((starved_eq hq).symm.trans h)

/-- Settles O17: a command is left busy only where QM is starved or its reset wait goes on, and both answer again. -/
theorem stepAlwaysAnswers : Obligations.StepAlwaysAnswers := by
  intro s hs
  obtain ⟨t, ht⟩ := step_answers hs
  refine ⟨t, ht, ?_⟩
  cases step_run ht with
  | others hv =>
    have hqm : t.qm = s.qm := congrArg QmView.qm hv
    exact fun q hq => hs q (hqm ▸ hq)
  | faulted _ _ _ hend =>
    rcases hend with hnone | hstarved
    · exact fun q hq => nomatch hnone.symm.trans hq
    · exact busyWaits_of_starved hstarved
  | command _ _ hr h =>
    cases h with
    | result => exact fun q hq => nomatch hq
    | raise => exact fun q hq => nomatch hq
    | starved hst => exact busyWaits_of_starved hst
    | waiting hresets hrun =>
      intro q hq
      obtain ⟨q', hq', hw⟩ := hrun.qm
      obtain rfl : q' = q := Option.some.inj (hq'.symm.trans hq)
      exact .inr (hw ▸ hr hresets)

end Sys2Proof.Machine
end

section
/-! PROOFS. The ranges of 10_state.md R27 to R52 and R64, kept by every step: those of the tables by every table
operation, those of the walkers and registers by every move. Neither ring shrinks (R65). -/

namespace Sys2Proof.Machine

/-! ## The ranges of the tables -/

/-- The ranges of the receive ring (R30 to R33, R64). -/
structure RxRing.InRange (p : Config.Params) (r : RxRing) : Prop where
  length : r.slots.length ≤ p.maxRing
  cur : r.cur < max r.slots.length 1
  size : r.bufSize ≤ Config.bufSizeMax
  made : r.constructed = true → 1 ≤ r.bufSize
  unmade : r.constructed = false → r.slots = []

/-- The ranges of the transmit ring (R34 to R37, R64), and in the middle of `TX_NEW`. -/
structure TxRing.InRange (p : Config.Params) (st : Stage) (r : TxRing) : Prop where
  length : r.slots.length ≤ p.maxRing
  cur : r.cur < max r.slots.length 1
  started : r.started = true → r.constructed = true
  made : r.constructed = true → r.slots.length = p.txRingLen
  unmade : r.constructed = false → r.cur = 0
  empty : st ≠ .building → r.constructed = false → r.slots = []
  building : st = .building → r.constructed = false ∧ r.slots.length ≤ p.txRingLen

/-- The ranges of the tables at a point of a run that began with tables `T₀`, no ring shorter than there. -/
structure Tables.InRange (T₀ : Tables) (st : Stage) (T : Tables) : Prop where
  par : T.par.wf = true
  rx : T.rx.InRange T.par
  tx : T.tx.InRange T.par st
  rxGrown : T₀.rx.slots.length ≤ T.rx.slots.length
  txGrown : T₀.tx.slots.length ≤ T.tx.slots.length

theorem txRingLen_le_maxRing {p : Config.Params} (h : p.wf = true) : p.txRingLen ≤ p.maxRing := by
  simp only [Config.Params.wf, Bool.and_eq_true, decide_eq_true_eq] at h
  obtain ⟨⟨⟨⟨⟨⟨_, hle⟩, _⟩, _⟩, _⟩, _⟩, _⟩ := h
  exact hle

theorem mod_lt_max {a n : Nat} (h : 0 < n) : a % n < max n 1 :=
  lt_of_lt_of_le (Nat.mod_lt a h) (Nat.le_max_left n 1)

theorem length_pos_of_getElem? {α : Type} {l : List α} {i : Nat} {e : α} (h : l[i]? = some e) : 0 < l.length :=
  List.length_pos_of_mem (List.mem_of_getElem? h)

theorem rxHandOut_tables (ob : Word) (len : Nat) (s : State) :
    (rxHandOut ob len s).tables = { s.tables with bt := (rxHandOut ob len s).bt } := by
  unfold rxHandOut
  split <;> rfl

section
variable {p : Config.Params} {st st' : Stage} {rx : RxRing} {tx : TxRing}

/-- Outside `TX_NEW` the stage says nothing of the transmit ring. -/
theorem TxRing.InRange.of_stage (h : tx.InRange p st) (hst : st ≠ .building) (hst' : st' ≠ .building) :
    tx.InRange p st' :=
  ⟨h.length, h.cur, h.started, h.made, h.unmade, fun _ => h.empty hst, fun hb => absurd hb hst'⟩

theorem RxRing.InRange.set (h : rx.InRange p) (i : Nat) (e : RxSlot) :
    RxRing.InRange p { rx with slots := rx.slots.set i e } :=
  ⟨by rw [List.length_set]; exact h.length, by rw [List.length_set]; exact h.cur, h.size, h.made,
    fun hc => by rw [h.unmade hc]; rfl⟩

theorem TxRing.InRange.set (h : tx.InRange p .closed) (i : Nat) (e : TxSlot) :
    TxRing.InRange p .closed { tx with slots := tx.slots.set i e } :=
  ⟨by rw [List.length_set]; exact h.length, by rw [List.length_set]; exact h.cur, h.started,
    by rw [List.length_set]; exact h.made, h.unmade, fun hst hc => by rw [h.empty hst hc]; rfl, fun hb => nomatch hb⟩

theorem TxRing.InRange.setCur (h : tx.InRange p .closed) {c : Nat} (hc : c < max tx.slots.length 1)
    (hs : tx.constructed = true) : TxRing.InRange p .closed { tx with cur := c } :=
  ⟨h.length, hc, h.started, h.made, fun hc => absurd (hs.symm.trans hc) (by decide), h.empty, h.building⟩
end

/-- Every table operation keeps the ranges. -/
theorem TableRun.inRange {o s : State} {st : Stage} (h : TableRun o st s)
    (ho : Tables.InRange o.tables .closed o.tables) : Tables.InRange o.tables st s.tables := by
  induction h with
  | start => exact ho
  | same _ ht ih => exact ht ▸ ih
  | bufNew _ _ _ ht ih => exact ht ▸ ⟨ih.par, ih.rx, ih.tx, ih.rxGrown, ih.txGrown⟩
  | setLen _ _ _ _ ht ih => exact ht ▸ ⟨ih.par, ih.rx, ih.tx, ih.rxGrown, ih.txGrown⟩
  | bufFree _ _ _ ht ih => exact ht ▸ ⟨ih.par, ih.rx, ih.tx, ih.rxGrown, ih.txGrown⟩
  | @rxNew s _ size _ hc hmin hmax ht ih =>
    have hempty : s.rx.slots = [] := ih.rx.unmade hc
    refine ht ▸ ⟨ih.par, ⟨Nat.zero_le _, by simp, hmax, fun _ => hmin, fun _ => rfl⟩, ih.tx, ?_, ih.txGrown⟩
    exact (hempty ▸ ih.rxGrown : o.rx.slots.length ≤ ([] : List RxSlot).length)
  | rxBuffer _ _ _ ht ih =>
    exact ht ▸ ⟨ih.par, ih.rx, ih.tx.of_stage (by simp) (by simp), ih.rxGrown, ih.txGrown⟩
  | @rxEntry s _ d b _ hc hlen _ _ ht ih =>
    have hl : (s.rx.slots ++ [({ desc := d, buf := b } : RxSlot)]).length = s.rx.slots.length + 1 := List.length_append
    have hcur : s.rx.cur < max s.rx.slots.length 1 := ih.rx.cur
    refine ht ▸ ⟨ih.par, ⟨hl ▸ hlen, ?_, ih.rx.size, ih.rx.made, fun hf => absurd (hc.symm.trans hf) (by decide)⟩,
      ih.tx.of_stage (by simp) (by simp), hl ▸ Nat.le_succ_of_le ih.rxGrown, ih.txGrown⟩
    show s.rx.cur < max (s.rx.slots ++ [({ desc := d, buf := b } : RxSlot)]).length 1
    omega
  | rxSwap _ _ _ ht ih =>
    exact ht ▸ ⟨ih.par, ih.rx.set _ _, ih.tx.of_stage (by simp) (by simp),
      (List.length_set ..).symm ▸ ih.rxGrown, ih.txGrown⟩
  | handOut _ ht ih =>
    rw [ht, rxHandOut_tables]
    exact ⟨ih.par, ih.rx, ih.tx.of_stage (by simp) (by simp), ih.rxGrown, ih.txGrown⟩
  | rxAdvance _ hn ht ih =>
    exact ht ▸ ⟨ih.par, ⟨ih.rx.length, mod_lt_max (List.length_pos_iff.mpr hn), ih.rx.size, ih.rx.made, ih.rx.unmade⟩,
      ih.tx, ih.rxGrown, ih.txGrown⟩
  | rxFlag _ ht ih =>
    exact ht ▸ ⟨ih.par, ⟨ih.rx.length, ih.rx.cur, ih.rx.size, ih.rx.made, ih.rx.unmade⟩, ih.tx, ih.rxGrown, ih.txGrown⟩
  | @txClear s _ _ hc ht ih =>
    have hempty : s.tx.slots = [] := ih.tx.empty (by simp) hc
    have hsame : ({ s.tx with slots := [] } : TxRing) = s.tx := by rw [← hempty]
    rw [ht, hsame]
    refine ⟨ih.par, ih.rx, ⟨ih.tx.length, ih.tx.cur, ih.tx.started, ih.tx.made, ih.tx.unmade, fun h => absurd rfl h,
      fun _ => ⟨hc, ?_⟩⟩, ih.rxGrown, ih.txGrown⟩
    exact (congrArg List.length hempty).trans_le (Nat.zero_le _)
  | @txEntry s _ d _ hlen _ ht ih =>
    have hl : (s.tx.slots ++ [({ desc := d, buf := none } : TxSlot)]).length = s.tx.slots.length + 1 := List.length_append
    have hmax := txRingLen_le_maxRing ih.par
    have hc : s.tx.constructed = false := (ih.tx.building rfl).1
    have hcur : s.tx.cur < max s.tx.slots.length 1 := ih.tx.cur
    have hcur' : s.tx.cur < max (s.tx.slots ++ [({ desc := d, buf := none } : TxSlot)]).length 1 := by omega
    exact ht ▸ ⟨ih.par, ih.rx, ⟨hl ▸ Nat.le_trans hlen hmax, hcur', ih.tx.started,
      fun hf => absurd (hc.symm.trans hf) (by decide), ih.tx.unmade, fun h => absurd rfl h, fun _ => ⟨hc, hl ▸ hlen⟩⟩,
      ih.rxGrown, hl ▸ Nat.le_succ_of_le ih.txGrown⟩
  | txMade _ hlen ht ih =>
    exact ht ▸ ⟨ih.par, ih.rx, ⟨ih.tx.length, by simp, by simp, fun _ => hlen, by simp, by simp, by simp⟩, ih.rxGrown, ih.txGrown⟩
  | txRelease _ _ _ ht ih =>
    exact ht ▸ ⟨ih.par, ih.rx, ih.tx.set _ _, ih.rxGrown, (List.length_set ..).symm ▸ ih.txGrown⟩
  | @txHandOver s _ i e a _ _ hs he _ _ ht ih =>
    have hpos := length_pos_of_getElem? he
    have hset : TxRing.InRange s.par .closed { s.tx with slots := s.tx.slots.set i { e with buf := some a } } :=
      ih.tx.set _ _
    refine ht ▸ ⟨ih.par, ih.rx, hset.setCur ?_ (ih.tx.started hs), ih.rxGrown,
      (List.length_set ..).symm ▸ ih.txGrown⟩
    simpa using mod_lt_max hpos
  | txStarted _ hc ht ih =>
    exact ht ▸ ⟨ih.par, ih.rx, ⟨ih.tx.length, by simp, fun _ => hc, ih.tx.made, fun _ => rfl, ih.tx.empty,
      by simp⟩, ih.rxGrown, ih.txGrown⟩
  | txStopped _ ht ih =>
    exact ht ▸ ⟨ih.par, ih.rx, ⟨ih.tx.length, ih.tx.cur, by simp, ih.tx.made, ih.tx.unmade, ih.tx.empty,
      by simp⟩, ih.rxGrown, ih.txGrown⟩

/-! ## The ranges of a state -/

theorem hardware_of_inRange {s : State} (h : s.InRange) : s.HardwareInRange :=
  ⟨⟨h.rxwPs, h.rxwCur, h.frame, h.framed⟩, ⟨h.txwPs, h.txwCur⟩,
    ⟨h.maccr, h.macffr, h.macmiiar, h.macfcr, h.dmabmr, h.dmaomr, h.dmaier⟩⟩

/-- Where no fatal cause is set and QM makes progress, no transmit table is left half built. -/
theorem tables_of_inRange {s : State} (h : s.InRange) (hf : s.port.fault = 0) (hs : s.starved = false) :
    Tables.InRange s.tables .closed s.tables := by
  refine ⟨h.par, ⟨h.rxLen, h.rxCur, h.rxSize, h.rxMade, h.rxUnmade⟩, ⟨h.txLen, h.txCur, h.txStarted, h.txMade,
    fun hc => (h.txUnmade hc).1, fun _ hc => ?_, fun hb => nomatch hb⟩, Nat.le_refl _, Nat.le_refl _⟩
  rcases (h.txUnmade hc).2 with hempty | hfault | hstarved
  · exact hempty
  · exact absurd hf hfault
  · exact absurd (hs.symm.trans hstarved) (by decide)

/-- A fatal cause is one of two, and no command goes on after it. -/
structure State.FaultInRange (s : State) : Prop where
  cause : s.port.fault = 0 ∨ s.port.fault = Code.allocFailure.byte ∨ s.port.fault = Code.initHang.byte
  idle : s.port.fault ≠ 0 → s.qm = none ∨ s.starved = true

theorem inRange_of_parts {T₀ : Tables} {st : Stage} {t : State} (ht : Tables.InRange T₀ st t.tables)
    (hst : st ≠ .building ∨ t.port.fault ≠ 0 ∨ t.starved = true) (hf : t.FaultInRange) (hh : t.HardwareInRange) :
    t.InRange := by
  obtain ⟨hpar, hrx, htx, _, _⟩ := ht
  obtain ⟨hrxw, htxw, hregs⟩ := hh
  exact
    { par := hpar, fault := hf.cause, faultIdle := hf.idle
      rxLen := hrx.length, rxCur := hrx.cur, rxSize := hrx.size, rxMade := hrx.made, rxUnmade := hrx.unmade
      txLen := htx.length, txCur := htx.cur, txStarted := htx.started, txMade := htx.made
      txUnmade := fun hc => ⟨htx.unmade hc, hst.imp_left fun h => htx.empty h hc⟩
      rxwPs := hrxw.ps, txwPs := htxw.ps, rxwCur := hrxw.cur, txwCur := htxw.cur
      frame := hrxw.frame, framed := hrxw.framed
      maccr := hregs.maccr, macffr := hregs.macffr, macmiiar := hregs.macmiiar, macfcr := hregs.macfcr
      dmabmr := hregs.dmabmr, dmaomr := hregs.dmaomr, dmaier := hregs.dmaier }

/-- The ranges are a matter of the tables, the fatal cause and its command, and the hardware. -/
theorem inRange_of_same {s t : State} (h : s.InRange) (ht : t.tables = s.tables) (hf : t.port.fault = s.port.fault)
    (hq : t.port.fault ≠ 0 → t.qm = none ∨ t.starved = true)
    (hst : s.starved = true → t.starved = true) (hh : t.HardwareInRange) : t.InRange := by
  obtain ⟨epar, _, erx, etx⟩ := tables_eq_iff.mp ht
  obtain ⟨hrxw, htxw, hregs⟩ := hh
  constructor
  case fault => exact hf ▸ h.fault
  case faultIdle => exact hq
  case txUnmade =>
    rw [etx, hf]
    exact fun hc => ⟨(h.txUnmade hc).1, (h.txUnmade hc).2.imp_right (Or.imp_right hst)⟩
  case par => exact epar ▸ h.par
  case rxLen => exact epar ▸ erx ▸ h.rxLen
  case rxCur => exact erx ▸ h.rxCur
  case rxSize => exact erx ▸ h.rxSize
  case rxMade => exact erx ▸ h.rxMade
  case rxUnmade => exact erx ▸ h.rxUnmade
  case txLen => exact epar ▸ etx ▸ h.txLen
  case txCur => exact etx ▸ h.txCur
  case txStarted => exact etx ▸ h.txStarted
  case txMade => exact epar ▸ etx ▸ h.txMade
  case rxwPs => exact hrxw.ps
  case txwPs => exact htxw.ps
  case rxwCur => exact hrxw.cur
  case txwCur => exact htxw.cur
  case frame => exact hrxw.frame
  case framed => exact hrxw.framed
  case maccr => exact hregs.maccr
  case macffr => exact hregs.macffr
  case macmiiar => exact hregs.macmiiar
  case macfcr => exact hregs.macfcr
  case dmabmr => exact hregs.dmabmr
  case dmaomr => exact hregs.dmaomr
  case dmaier => exact hregs.dmaier

/-- In the run of a command no fatal cause is set until its `raise`. -/
theorem fault_of_command {s : State} (h : s.InRange) (hs : s.starved = false)
    (hf : s.port.fault = 0 ∨ s.qm.isSome = true) : s.port.fault = 0 := by
  by_contra hne
  rcases h.faultIdle hne with hq | hstarved
  · rw [hq] at hf; simp at hf; exact hne hf
  · rw [hs] at hstarved; cases hstarved

theorem faultInRange_of_zero {t : State} (h : t.port.fault = 0) : t.FaultInRange :=
  ⟨.inl h, fun hne => absurd h hne⟩

theorem fatalCode_inRange (k : FatalKind) :
    k.code.byte = Code.allocFailure.byte ∨ k.code.byte = Code.initHang.byte := by
  cases k
  · exact .inl rfl
  · exact .inr rfl

theorem fatalCode_ne_zero (k : FatalKind) : k.code.byte ≠ 0 := by cases k <;> decide

/-- The end of a command, from a state in range without a fatal cause. -/
theorem inRange_of_ended {s t : State} {w : Word} {resets : Bool} (hs : s.InRange) (hf : s.port.fault = 0)
    (hns : s.starved = false) (h : Ended s w resets t) : t.InRange := by
  have htables := tables_of_inRange hs hf hns
  have hhard := hardware_of_inRange hs
  cases h with
  | @result u c r0 r1 h =>
    exact inRange_of_parts (t := result c r0 r1 u) (h.tables.inRange htables) (.inl (by simp))
      (faultInRange_of_zero (h.fault.trans hf)) (hardwareInRange_congr (s := u) rfl rfl rfl (h.hardware hhard))
  | @raise st u k _ h =>
    exact inRange_of_parts (t := raise k u) (h.tables.inRange htables) (.inr (.inl (fatalCode_ne_zero k)))
      ⟨.inr (fatalCode_inRange k), fun _ => .inl rfl⟩ (hardwareInRange_congr (s := u) rfl rfl rfl (h.hardware hhard))
  | starved hst h =>
    exact inRange_of_parts (h.tables.inRange htables) (.inr (.inr hst)) (faultInRange_of_zero (h.fault.trans hf))
      (h.hardware hhard)
  | waiting _ h =>
    exact inRange_of_parts (h.tables.inRange htables) (.inl (by simp)) (faultInRange_of_zero (h.fault.trans hf))
      (h.hardware hhard)

theorem starved_of_qmView {s t : State} (h : qmView t = qmView s) : t.starved = s.starved := by
  have hq : t.qm = s.qm := congrArg QmView.qm h
  rw [State.starved, State.starved, hq]

/-- Settles O13: the tables are kept by QM's operations, the hardware by every move, and a fatal cause stays. -/
theorem stepKeepsRanges : Obligations.StepKeepsRanges := by
  intro s t hs h
  have hhard := hardware_of_inRange hs
  cases step_run h with
  | others hv hh =>
    have hq : t.qm = s.qm := congrArg QmView.qm hv
    have hstarved := starved_of_qmView hv
    have hfault := fault_of_qmView hv
    exact inRange_of_same hs (tables_of_qmView hv) hfault
      (fun hne => by rw [hq, hstarved]; exact hs.faultIdle (hfault ▸ hne)) (fun hst => hstarved.trans hst) (hh hhard)
  | faulted hq ht hf hend hh =>
    exact inRange_of_same hs ht hf (fun _ => hend)
      (fun hst => absurd ((starved_of_none hq).symm.trans hst) (by decide)) (hh hhard)
  | command hns hf _ hend => exact inRange_of_ended hs (fault_of_command hs hns hf) hns hend

/-! ## The rings never shrink -/

theorem grown_of_tables {s t : State} (h : t.tables = s.tables) :
    s.rx.slots.length ≤ t.rx.slots.length ∧ s.tx.slots.length ≤ t.tx.slots.length := by
  obtain ⟨_, _, erx, etx⟩ := tables_eq_iff.mp h
  exact ⟨erx ▸ Nat.le_refl _, etx ▸ Nat.le_refl _⟩

theorem Ended.run {s t : State} {w : Word} {resets : Bool} (h : Ended s w resets t) :
    ∃ st u, Run s w st u ∧ t.tables = u.tables := by
  cases h with
  | result _ _ _ h => exact ⟨_, _, h, rfl⟩
  | raise _ _ h => exact ⟨_, _, h, rfl⟩
  | starved _ h => exact ⟨_, _, h, rfl⟩
  | waiting _ h => exact ⟨_, _, h, rfl⟩

/-- Settles O19: a ring is emptied only by the command that makes it, and it is empty then. -/
theorem ringsNeverShrink : Obligations.RingsNeverShrink := by
  intro s t hs h
  cases step_run h with
  | others hv => exact grown_of_tables (tables_of_qmView hv)
  | faulted _ ht => exact grown_of_tables ht
  | command hns hf _ hend =>
    obtain ⟨st, u, hrun, ht⟩ := hend.run
    have hu := hrun.tables.inRange (tables_of_inRange hs (fault_of_command hs hns hf) hns)
    obtain ⟨hrx, htx⟩ := grown_of_tables ht
    exact ⟨Nat.le_trans hu.rxGrown hrx, Nat.le_trans hu.txGrown htx⟩

end Sys2Proof.Machine
end

section
/-! PROOFS. Ownership and allocation (10_state.md R28, R29, R63, R66, 20_memory.md R83): every table operation keeps the
live regions apart and every Buffer with the one owner its record names. -/

namespace Sys2Proof.Machine

/-! ## The Buffer table as a finite map -/

theorem mem_of_btFind {bt : List (Word × BufRec)} {a : Word} {r : BufRec} (h : btFind bt a = some r) :
    (a, r) ∈ bt := by
  induction bt with
  | nil => cases h
  | cons e bt ih =>
    obtain ⟨k, q⟩ := e
    unfold btFind at h
    split at h
    · next hk => cases h; exact hk ▸ List.mem_cons_self
    · exact List.mem_cons_of_mem _ (ih h)

theorem key_ne_of_btFind_none {bt : List (Word × BufRec)} {a : Word} {e : Word × BufRec} (h : btFind bt a = none)
    (he : e ∈ bt) : e.1 ≠ a := by
  induction bt with
  | nil => cases he
  | cons x bt ih =>
    obtain ⟨k, q⟩ := x
    unfold btFind at h
    split at h
    · cases h
    · next hk =>
      rcases List.mem_cons.mp he with rfl | he
      · exact hk
      · exact ih h he

theorem btRising_insert {bt : List (Word × BufRec)} (h : btRising bt) (a : Word) (r : BufRec) :
    btRising (btInsert bt a r) := by
  induction bt with
  | nil => exact List.pairwise_singleton ..
  | cons e bt ih =>
    obtain ⟨k, q⟩ := e
    obtain ⟨hk, hbt⟩ := List.pairwise_cons.mp h
    unfold btInsert
    split
    · next hlt =>
      refine List.pairwise_cons.mpr ⟨fun y hy => ?_, h⟩
      rcases List.mem_cons.mp hy with rfl | hy
      · exact hlt
      · exact BitVec.lt_trans hlt (hk y hy)
    · next hnlt =>
      split
      · next heq => subst heq; exact List.pairwise_cons.mpr ⟨hk, hbt⟩
      · next hne =>
        refine List.pairwise_cons.mpr ⟨fun y hy => ?_, ih hbt⟩
        rcases mem_btInsert hy with rfl | hy
        · show k < a; bv_omega
        · exact hk y hy

theorem btErase_sublist (bt : List (Word × BufRec)) (a : Word) : (btErase bt a).Sublist bt := by
  induction bt with
  | nil => exact .slnil
  | cons e bt ih =>
    obtain ⟨k, q⟩ := e
    unfold btErase
    split
    · exact ih.cons _
    · exact ih.cons_cons _

/-- The region of a Buffer (20_memory.md R83). -/
def bufRegion (e : Word × BufRec) : Region := (e.1.toNat, e.2.cap)

/-- A Buffer at a new address makes one region live. -/
theorem map_bufRegion_insert_new {bt : List (Word × BufRec)} {a : Word} (h : btFind bt a = none) (r : BufRec) :
    ((btInsert bt a r).map bufRegion).Perm (bufRegion (a, r) :: bt.map bufRegion) := by
  induction bt with
  | nil => exact .refl _
  | cons e bt ih =>
    obtain ⟨k, q⟩ := e
    have hka : k ≠ a := key_ne_of_btFind_none h List.mem_cons_self
    have hbt : btFind bt a = none := by rwa [btFind, if_neg hka] at h
    unfold btInsert
    split
    · exact .refl _
    · rw [if_neg (Ne.symm hka)]
      exact ((ih hbt).cons _).trans (.swap ..)

/-- A new record of the same capacity at an address of the table leaves the live regions as they are. -/
theorem map_bufRegion_insert_same {bt : List (Word × BufRec)} {a : Word} {r r' : BufRec} (hrise : btRising bt)
    (h : btFind bt a = some r) (hcap : r'.cap = r.cap) : (btInsert bt a r').map bufRegion = bt.map bufRegion := by
  induction bt with
  | nil => cases h
  | cons e bt ih =>
    obtain ⟨k, q⟩ := e
    obtain ⟨hk, hbt⟩ := List.pairwise_cons.mp hrise
    by_cases hka : k = a
    · subst hka
      rw [btFind, if_pos rfl] at h
      cases h
      rw [btInsert, if_neg (BitVec.lt_irrefl _), if_pos rfl]
      simp [bufRegion, hcap]
    · rw [btFind, if_neg hka] at h
      have hlt : ¬ a < k := BitVec.lt_asymm (hk _ (mem_of_btFind h))
      rw [btInsert, if_neg hlt, if_neg (Ne.symm hka), List.map_cons, List.map_cons, ih hbt h]

/-! ## The live regions -/

/-- The live regions of the tables (20_memory.md R83). -/
def Tables.live (T : Tables) : List Region :=
  T.rx.slots.map (fun e => (e.desc.toNat, Config.descBytes)) ++
    T.tx.slots.map (fun e => (e.desc.toNat, Config.descBytes)) ++ T.bt.map bufRegion

theorem live_tables (s : State) : s.tables.live = liveRegions s := rfl

/-- Pairwise disjoint regions inside the heap range. -/
structure Apart (p : Config.Params) (l : List Region) : Prop where
  pairwise : l.Pairwise fun x y => Region.disjoint x y = true
  inHeap : ∀ r ∈ l, p.heapBase ≤ r.1 ∧ r.1 + r.2 ≤ p.heapBase + p.heapSize

namespace Apart

variable {p : Config.Params} {l l' : List Region}

theorem sublist (h : Apart p l) (hs : l'.Sublist l) : Apart p l' :=
  ⟨h.pairwise.sublist hs, fun r hr => h.inHeap r (hs.subset hr)⟩

theorem perm (h : Apart p l) (hp : l'.Perm l) : Apart p l' :=
  ⟨(hp.pairwise_iff fun {x y} hxy => (region_disjoint_comm y x).trans hxy).mpr h.pairwise,
    fun r hr => h.inHeap r (hp.mem_iff.mp hr)⟩

/-- A fresh region stays apart from the live ones. -/
theorem cons {s : State} {size : Nat} {a : Word} (h : Apart s.par (liveRegions s)) (ha : Fresh s size a) :
    Apart s.par ((a.toNat, size) :: liveRegions s) :=
  ⟨List.pairwise_cons.mpr ⟨ha.apart, h.pairwise⟩, fun r hr => by
    rcases List.mem_cons.mp hr with rfl | hr
    · exact ⟨ha.base, ha.limit⟩
    · exact h.inHeap r hr⟩

end Apart

/-- A fresh address is no Buffer's, where every Buffer has a byte. -/
theorem Fresh.btFind_none {s : State} {size : Nat} {a : Word} (h : Fresh s size a) (hsize : 1 ≤ size)
    (hcap : ∀ a r, btFind s.bt a = some r → 1 ≤ r.cap) : btFind s.bt a = none := by
  rw [Option.eq_none_iff_forall_ne_some]
  intro r hr
  have hmem : (a.toNat, r.cap) ∈ liveRegions s :=
    mem_liveRegions.mpr (.inr (.inr ⟨(a, r), mem_of_btFind hr, rfl⟩))
  have hd := h.apart _ hmem
  have hc := hcap a r hr
  simp only [Region.disjoint, Bool.or_eq_true, decide_eq_true_eq] at hd
  omega

/-! ## Where the tables' regions lie -/

/-- A record is that of a Buffer: aligned, not at 0, of at least one byte, its length within (10_state.md R28). -/
structure BufRec.Sound (a : Word) (r : BufRec) : Prop where
  aligned : aligned8 a
  nonzero : a ≠ 0
  cap : 1 ≤ r.cap
  len : r.len ≤ r.cap

/-- The part of ownership that speaks of addresses: R28, R63, 20_memory.md R83. -/
structure Tables.Placed (T : Tables) : Prop where
  rising : btRising T.bt
  record : ∀ a r, btFind T.bt a = some r → r.Sound a
  rxDesc : ∀ e ∈ T.rx.slots, aligned8 e.desc
  txDesc : ∀ e ∈ T.tx.slots, aligned8 e.desc
  apart : Apart T.par T.live

namespace Tables.Placed

variable {T : Tables} {s : State} {a d : Word} {r r' : BufRec}

/-- Only the Buffer table and the descriptors' addresses matter. -/
theorem slots {rx : RxRing} {tx : TxRing} (h : T.Placed) (hrx : rx.slots.map (·.desc) = T.rx.slots.map (·.desc))
    (htx : tx.slots.map (·.desc) = T.tx.slots.map (·.desc)) : Tables.Placed { T with rx := rx, tx := tx } := by
  have hlive : Tables.live { T with rx := rx, tx := tx } = T.live := by
    have hr : rx.slots.map (fun e => (e.desc.toNat, Config.descBytes)) =
        T.rx.slots.map (fun e => (e.desc.toNat, Config.descBytes)) := by
      simpa [Function.comp_def] using congrArg (List.map fun d : Word => (d.toNat, Config.descBytes)) hrx
    have ht : tx.slots.map (fun e => (e.desc.toNat, Config.descBytes)) =
        T.tx.slots.map (fun e => (e.desc.toNat, Config.descBytes)) := by
      simpa [Function.comp_def] using congrArg (List.map fun d : Word => (d.toNat, Config.descBytes)) htx
    simp only [Tables.live, hr, ht]
  refine ⟨h.rising, h.record, fun e he => ?_, fun e he => ?_, hlive ▸ h.apart⟩
  · have hmem : e.desc ∈ rx.slots.map (·.desc) := List.mem_map_of_mem he
    rw [hrx] at hmem
    obtain ⟨e', he', heq⟩ := List.mem_map.mp hmem
    exact heq ▸ h.rxDesc e' he'
  · have hmem : e.desc ∈ tx.slots.map (·.desc) := List.mem_map_of_mem he
    rw [htx] at hmem
    obtain ⟨e', he', heq⟩ := List.mem_map.mp hmem
    exact heq ▸ h.txDesc e' he'

theorem btFind_none (h : s.tables.Placed) {size : Nat} (ha : Fresh s size a) (hsize : 1 ≤ size) :
    btFind s.bt a = none :=
  ha.btFind_none hsize fun a r hr => (h.record a r hr).cap

theorem insert (h : s.tables.Placed) (ha : Fresh s r.cap a) (hcap : 1 ≤ r.cap) (hlen : r.len ≤ r.cap) :
    Tables.Placed { s.tables with bt := btInsert s.bt a r } := by
  have hnew := h.btFind_none ha hcap
  refine ⟨btRising_insert h.rising a r, fun b q hq => ?_, h.rxDesc, h.txDesc, ?_⟩
  · rw [btFind_insert] at hq
    split at hq
    · next hba => cases hq; exact hba ▸ ⟨ha.aligned, ha.nonzero, hcap, hlen⟩
    · exact h.record b q hq
  · exact (h.apart.cons ha).perm
      (((map_bufRegion_insert_new hnew r).append_left _).trans List.perm_middle)

theorem update (h : T.Placed) (hr : btFind T.bt a = some r) (hcap : r'.cap = r.cap) (hlen : r'.len ≤ r'.cap) :
    Tables.Placed { T with bt := btInsert T.bt a r' } := by
  refine ⟨btRising_insert h.rising a r', fun b q hq => ?_, h.rxDesc, h.txDesc, ?_⟩
  · rw [btFind_insert] at hq
    split at hq
    · next hba =>
      cases hq
      obtain ⟨h8, h0, hc, _⟩ := h.record a r hr
      exact hba ▸ ⟨h8, h0, hcap ▸ hc, hlen⟩
    · exact h.record b q hq
  · have hlive : Tables.live { T with bt := btInsert T.bt a r' } = T.live := by
      simp only [Tables.live, map_bufRegion_insert_same h.rising hr hcap]
    exact hlive ▸ h.apart

theorem erase (h : T.Placed) (a : Word) : Tables.Placed { T with bt := btErase T.bt a } := by
  refine ⟨h.rising.sublist (btErase_sublist ..), fun b q hq => ?_, h.rxDesc, h.txDesc, ?_⟩
  · rw [btFind_erase] at hq
    split at hq
    · cases hq
    · exact h.record b q hq
  · exact h.apart.sublist (((btErase_sublist ..).map _).append_left _)

theorem release (h : T.Placed) (b : Option Word) : Tables.Placed { T with bt := btRelease T.bt b } := by
  cases b with
  | none => exact h
  | some b => exact h.erase b

theorem rxAppend (h : s.tables.Placed) (hd : Fresh s Config.descBytes d) (b : Word) :
    Tables.Placed { s.tables with rx := { s.rx with slots := s.rx.slots ++ [{ desc := d, buf := b }] } } := by
  refine ⟨h.rising, h.record, fun e he => ?_, h.txDesc, (h.apart.cons hd).perm ?_⟩
  · rcases List.mem_append.mp he with he | he
    · exact h.rxDesc e he
    · rw [List.mem_singleton.mp he]; exact hd.aligned
  · simp only [Tables.live, liveRegions, List.map_append, List.append_assoc, List.map_cons, List.map_nil,
      List.singleton_append]
    exact List.perm_middle

theorem txAppend (h : s.tables.Placed) (hd : Fresh s Config.descBytes d) (b : Option Word) :
    Tables.Placed { s.tables with tx := { s.tx with slots := s.tx.slots ++ [{ desc := d, buf := b }] } } := by
  refine ⟨h.rising, h.record, h.rxDesc, fun e he => ?_, (h.apart.cons hd).perm ?_⟩
  · rcases List.mem_append.mp he with he | he
    · exact h.txDesc e he
    · rw [List.mem_singleton.mp he]; exact hd.aligned
  · simp only [Tables.live, liveRegions, List.map_append, List.append_assoc, List.map_cons, List.map_nil,
      List.singleton_append]
    exact (List.perm_middle.append_left _).trans List.perm_middle

theorem txClear (h : T.Placed) : Tables.Placed { T with tx := { T.tx with slots := [] } } :=
  ⟨h.rising, h.record, h.rxDesc, nofun,
    h.apart.sublist (((List.nil_sublist _).append_left _).append_right _)⟩

end Tables.Placed

/-! ## Who owns a Buffer -/

/-- The part of ownership that speaks of owners (R29, R66), all Buffers but the loose one showing in the slot their
record names. -/
structure Tables.Claimed (x : Option Word) (T : Tables) : Prop where
  rxBuf : ∀ i e, T.rx.slots[i]? = some e →
    ∃ r, btFind T.bt e.buf = some r ∧ r.owner = .rxSlot i ∧ r.cap = T.rx.bufSize
  txBuf : ∀ i e b, T.tx.slots[i]? = some e → e.buf = some b → ∃ r, btFind T.bt b = some r ∧ r.owner = .txSlot i
  rxOwner : ∀ a r i, btFind T.bt a = some r → r.owner = .rxSlot i →
    x = some a ∨ ∃ e, T.rx.slots[i]? = some e ∧ e.buf = a
  txOwner : ∀ a r i, btFind T.bt a = some r → r.owner = .txSlot i → ∃ e, T.tx.slots[i]? = some e ∧ e.buf = some a
  loose : ∀ b, x = some b → (∀ e ∈ T.rx.slots, e.buf ≠ b) ∧ ∀ r i, btFind T.bt b = some r → r.owner ≠ .txSlot i
  rxUnmade : T.rx.constructed = false → T.rx.slots = []
  rxMade : T.rx.constructed = true → 1 ≤ T.rx.bufSize
  txUnmade : T.tx.constructed = false → ∀ e ∈ T.tx.slots, e.buf = none
  txStarted : T.tx.started = true → T.tx.constructed = true

namespace Tables.Claimed

variable {T : Tables} {x x' : Option Word} {a b : Word} {r r' : BufRec} {i : Nat}

theorem rxBuf_ne (h : T.Claimed x) {j : Nat} {e : RxSlot} (he : T.rx.slots[j]? = some e)
    (hr : btFind T.bt a = some r) (ho : r.owner ≠ .rxSlot j) : e.buf ≠ a := by
  rintro rfl
  obtain ⟨q, hq, hqo, _⟩ := h.rxBuf j e he
  rw [hr] at hq
  cases hq
  exact ho hqo

theorem txBuf_ne (h : T.Claimed x) {j : Nat} {e : TxSlot} (he : T.tx.slots[j]? = some e)
    (hr : btFind T.bt a = some r) (ho : r.owner ≠ .txSlot j) : e.buf ≠ some a := by
  intro heq
  obtain ⟨q, hq, hqo⟩ := h.txBuf j e a he heq
  rw [hr] at hq
  cases hq
  exact ho hqo

/-- A new Buffer is HOST's, or loose. -/
theorem insert (h : T.Claimed none) (hnew : btFind T.bt a = none) (htx : ∀ i, r.owner ≠ .txSlot i)
    (hrx : ∀ i, r.owner = .rxSlot i → x = some a) (hx : x = none ∨ x = some a) :
    Tables.Claimed x { T with bt := btInsert T.bt a r } where
  rxBuf i e he := by
    obtain ⟨q, hq, hqo⟩ := h.rxBuf i e he
    have hne : e.buf ≠ a := fun heq => by rw [heq, hnew] at hq; cases hq
    exact ⟨q, (btFind_insert_other _ _ _ _ hne).trans hq, hqo⟩
  txBuf i e b he hb := by
    obtain ⟨q, hq, hqo⟩ := h.txBuf i e b he hb
    have hne : b ≠ a := fun heq => by rw [heq, hnew] at hq; cases hq
    exact ⟨q, (btFind_insert_other _ _ _ _ hne).trans hq, hqo⟩
  rxOwner b q i hq hqo := by
    rw [btFind_insert] at hq
    split at hq
    · next hba => cases hq; exact .inl (hba ▸ hrx i hqo)
    · exact .inr ((h.rxOwner b q i hq hqo).resolve_left (by simp))
  txOwner b q i hq hqo := by
    rw [btFind_insert] at hq
    split at hq
    · cases hq; exact absurd hqo (htx i)
    · exact h.txOwner b q i hq hqo
  loose b hb := by
    obtain rfl : b = a := by rcases hx with rfl | rfl <;> cases hb; rfl
    refine ⟨fun e he heq => ?_, fun q i hq => ?_⟩
    · obtain ⟨i, hi⟩ := List.getElem?_of_mem he
      obtain ⟨q, hq, _⟩ := h.rxBuf i e hi
      rw [heq, hnew] at hq
      cases hq
    · rw [btFind_insert_same] at hq
      cases hq
      exact htx i
  rxUnmade := h.rxUnmade
  rxMade := h.rxMade
  txUnmade := h.txUnmade
  txStarted := h.txStarted

/-- A record of HOST's, or of the loose Buffer, becomes another of HOST's. -/
theorem toHost (h : T.Claimed x) (hr : btFind T.bt a = some r)
    (hx : (x = none ∧ r.owner = .host) ∨ x = some a) (ho : r'.owner = .host) :
    Tables.Claimed none { T with bt := btInsert T.bt a r' } where
  rxBuf i e he := by
    have hne : e.buf ≠ a := by
      rcases hx with ⟨_, hhost⟩ | hloose
      · exact h.rxBuf_ne he hr (by rw [hhost]; simp)
      · exact (h.loose a hloose).1 e (List.mem_of_getElem? he)
    obtain ⟨q, hq, hqo⟩ := h.rxBuf i e he
    exact ⟨q, (btFind_insert_other _ _ _ _ hne).trans hq, hqo⟩
  txBuf i e b he hb := by
    have hne : b ≠ a := by
      rintro rfl
      refine h.txBuf_ne he hr ?_ hb
      rcases hx with ⟨_, hhost⟩ | hloose
      · rw [hhost]; simp
      · exact (h.loose b hloose).2 r i hr
    obtain ⟨q, hq, hqo⟩ := h.txBuf i e b he hb
    exact ⟨q, (btFind_insert_other _ _ _ _ hne).trans hq, hqo⟩
  rxOwner b q i hq hqo := by
    rw [btFind_insert] at hq
    split at hq
    · cases hq; rw [ho] at hqo; cases hqo
    · next hba =>
      rcases h.rxOwner b q i hq hqo with hxb | hshown
      · rcases hx with ⟨hnone, _⟩ | hloose
        · rw [hnone] at hxb; cases hxb
        · rw [hloose] at hxb; cases hxb; exact absurd rfl hba
      · exact .inr hshown
  txOwner b q i hq hqo := by
    rw [btFind_insert] at hq
    split at hq
    · cases hq; rw [ho] at hqo; cases hqo
    · exact h.txOwner b q i hq hqo
  loose := nofun
  rxUnmade := h.rxUnmade
  rxMade := h.rxMade
  txUnmade := h.txUnmade
  txStarted := h.txStarted

/-- HOST's Buffer ceases to exist. -/
theorem eraseHost (h : T.Claimed none) (hr : btFind T.bt a = some r) (ho : r.owner = .host) :
    Tables.Claimed none { T with bt := btErase T.bt a } where
  rxBuf i e he := by
    obtain ⟨q, hq, hqo⟩ := h.rxBuf i e he
    exact ⟨q, (btFind_erase_other _ _ _ (h.rxBuf_ne he hr (by rw [ho]; simp))).trans hq, hqo⟩
  txBuf i e b he hb := by
    obtain ⟨q, hq, hqo⟩ := h.txBuf i e b he hb
    have hne : b ≠ a := fun heq => h.txBuf_ne he hr (by rw [ho]; simp) (heq ▸ hb)
    exact ⟨q, (btFind_erase_other _ _ _ hne).trans hq, hqo⟩
  rxOwner b q i hq hqo := by
    rw [btFind_erase] at hq
    split at hq
    · cases hq
    · exact h.rxOwner b q i hq hqo
  txOwner b q i hq hqo := by
    rw [btFind_erase] at hq
    split at hq
    · cases hq
    · exact h.txOwner b q i hq hqo
  loose := nofun
  rxUnmade := h.rxUnmade
  rxMade := h.rxMade
  txUnmade := h.txUnmade
  txStarted := h.txStarted

theorem rxNew (h : T.Claimed none) (hc : T.rx.constructed = false) {size : Nat} (hsize : 1 ≤ size) :
    Tables.Claimed none
      { T with rx := { constructed := true, started := false, bufSize := size, slots := [], cur := 0 } } :=
  { h with
    rxBuf := nofun
    rxOwner := fun a r i hr ho => by
      obtain ⟨e, he, _⟩ := (h.rxOwner a r i hr ho).resolve_left (by simp)
      rw [h.rxUnmade hc] at he
      cases he
    loose := nofun
    rxUnmade := fun _ => rfl
    rxMade := fun _ => hsize }

/-- The loose Buffer shows in the new last slot. -/
theorem rxAppend (h : T.Claimed (some b)) (hc : T.rx.constructed = true)
    (hb : btFind T.bt b = some { cap := T.rx.bufSize, len := 0, owner := .rxSlot T.rx.slots.length }) (d : Word) :
    Tables.Claimed none { T with rx := { T.rx with slots := T.rx.slots ++ [{ desc := d, buf := b }] } } := by
  have hold {i : Nat} {e : RxSlot} (he : T.rx.slots[i]? = some e) :
      (T.rx.slots ++ [{ desc := d, buf := b }])[i]? = some e := by
    rw [List.getElem?_append_left (List.getElem?_eq_some_iff.mp he).1, he]
  refine { h with rxBuf := fun i e he => ?_, rxOwner := fun a r i hr ho => ?_, loose := nofun,
                  rxUnmade := fun hf => absurd (hc.symm.trans hf) (by decide) }
  · rcases Nat.lt_or_ge i T.rx.slots.length with hi | hi
    · exact h.rxBuf i e (by rwa [List.getElem?_append_left hi] at he)
    · rw [List.getElem?_append_right hi, List.getElem?_singleton] at he
      split at he
      · next hz =>
        cases he
        obtain rfl : i = T.rx.slots.length := by omega
        exact ⟨_, hb, rfl, rfl⟩
      · cases he
  · rcases h.rxOwner a r i hr ho with hx | ⟨e, he, hea⟩
    · cases hx
      rw [hb] at hr
      cases hr
      cases ho
      exact .inr ⟨_, List.getElem?_concat_length, rfl⟩
    · exact .inr ⟨e, hold he, hea⟩

/-- The loose Buffer shows in a slot, and the one that showed there is loose. -/
theorem rxSwap (h : T.Claimed (some b)) {e : RxSlot} (he : T.rx.slots[i]? = some e)
    (hb : btFind T.bt b = some { cap := T.rx.bufSize, len := 0, owner := .rxSlot i }) :
    Tables.Claimed (some e.buf) { T with rx := { T.rx with slots := T.rx.slots.set i { e with buf := b } } } := by
  obtain ⟨q, hq, hqo, _⟩ := h.rxBuf i e he
  have hi : i < T.rx.slots.length := (List.getElem?_eq_some_iff.mp he).1
  have hset (j : Nat) : (T.rx.slots.set i { e with buf := b })[j]? =
      if i = j then some { e with buf := b } else T.rx.slots[j]? := by
    rw [List.getElem?_set]; simp [hi]
  refine { h with rxBuf := fun j e' he' => ?_, rxOwner := fun a r j hr ho => ?_, loose := fun b' hb' => ⟨?_, ?_⟩,
                  rxUnmade := fun hc => ?_ }
  · change (T.rx.slots.set i { e with buf := b })[j]? = some e' at he'
    rw [hset] at he'
    split at he'
    · next hij => cases he'; exact ⟨_, hb, by rw [hij], rfl⟩
    · exact h.rxBuf j e' he'
  · show _ ∨ ∃ e', (T.rx.slots.set i { e with buf := b })[j]? = some e' ∧ e'.buf = a
    simp only [hset]
    rcases h.rxOwner a r j hr ho with hx | ⟨e', he', hea⟩
    · cases hx
      rw [hb] at hr
      cases hr
      cases ho
      exact .inr ⟨{ e with buf := b }, if_pos rfl, rfl⟩
    · by_cases hij : i = j
      · subst hij
        rw [he] at he'
        cases he'
        exact .inl (by rw [hea])
      · exact .inr ⟨e', by rw [if_neg hij, he'], hea⟩
  · cases hb'
    intro e' hmem heq
    obtain ⟨j, hj⟩ := List.getElem?_of_mem hmem
    change (T.rx.slots.set i { e with buf := b })[j]? = some e' at hj
    rw [hset] at hj
    split at hj
    · cases hj
      exact (h.loose b rfl).1 e (List.mem_of_getElem? he) heq.symm
    · next hij => exact h.rxBuf_ne hj hq (by rw [hqo]; simpa using hij) heq
  · cases hb'
    intro r j hr
    rw [hq] at hr
    cases hr
    rw [hqo]
    simp
  · rw [h.rxUnmade hc] at he
    cases he

/-- The Buffer of a transmit slot ceases to exist and the slot shows none. -/
theorem txRelease (h : T.Claimed none) {e : TxSlot} (he : T.tx.slots[i]? = some e) (hb : e.buf = some b) :
    Tables.Claimed none { T with bt := btErase T.bt b
                                 tx := { T.tx with slots := T.tx.slots.set i { e with buf := none } } } := by
  obtain ⟨q, hq, hqo⟩ := h.txBuf i e b he hb
  have hi : i < T.tx.slots.length := (List.getElem?_eq_some_iff.mp he).1
  have hset (j : Nat) : (T.tx.slots.set i { e with buf := none })[j]? =
      if i = j then some { e with buf := none } else T.tx.slots[j]? := by
    rw [List.getElem?_set]; simp [hi]
  have hkeep {a : Word} {r : BufRec} (hr : btFind (btErase T.bt b) a = some r) : a ≠ b ∧ btFind T.bt a = some r := by
    rw [btFind_erase] at hr
    split at hr
    · cases hr
    · next hab => exact ⟨hab, hr⟩
  refine { h with rxBuf := fun j e' he' => ?_, txBuf := fun j e' b' he' hb' => ?_, rxOwner := fun a r j hr ho => ?_,
                  txOwner := fun a r j hr ho => ?_, loose := nofun, txUnmade := fun hc e' he' => ?_ }
  · obtain ⟨r, hr, hro⟩ := h.rxBuf j e' he'
    exact ⟨r, (btFind_erase_other _ _ _ (h.rxBuf_ne he' hq (by rw [hqo]; simp))).trans hr, hro⟩
  · change (T.tx.slots.set i { e with buf := none })[j]? = some e' at he'
    rw [hset] at he'
    split at he'
    · cases he'; cases hb'
    · next hij =>
      obtain ⟨r, hr, hro⟩ := h.txBuf j e' b' he' hb'
      have hne : b' ≠ b := fun heq => h.txBuf_ne he' hq (by rw [hqo]; simpa using hij) (heq ▸ hb')
      exact ⟨r, (btFind_erase_other _ _ _ hne).trans hr, hro⟩
  · exact h.rxOwner a r j (hkeep hr).2 ho
  · show ∃ e', (T.tx.slots.set i { e with buf := none })[j]? = some e' ∧ e'.buf = some a
    obtain ⟨hab, hr⟩ := hkeep hr
    obtain ⟨e', he', hea⟩ := h.txOwner a r j hr ho
    have hij : i ≠ j := by
      rintro rfl
      rw [he] at he'
      cases he'
      rw [hb] at hea
      cases hea
      exact hab rfl
    exact ⟨e', by rw [hset, if_neg hij, he'], hea⟩
  · rcases List.mem_or_eq_of_mem_set he' with he' | rfl
    · exact h.txUnmade hc e' he'
    · rfl

/-- An empty transmit slot takes HOST's Buffer. -/
theorem txInstall (h : T.Claimed none) {e : TxSlot} {c : Nat} (he : T.tx.slots[i]? = some e) (hfree : e.buf = none)
    (hr : btFind T.bt a = some r) (ho : r.owner = .host) (hs : T.tx.started = true) :
    Tables.Claimed none { T with bt := btInsert T.bt a { r with owner := .txSlot i }
                                 tx := { T.tx with slots := T.tx.slots.set i { e with buf := some a }, cur := c } } := by
  have hi : i < T.tx.slots.length := (List.getElem?_eq_some_iff.mp he).1
  have hset (j : Nat) : (T.tx.slots.set i { e with buf := some a })[j]? =
      if i = j then some { e with buf := some a } else T.tx.slots[j]? := by
    rw [List.getElem?_set]; simp [hi]
  refine { h with rxBuf := fun j e' he' => ?_, txBuf := fun j e' b' he' hb' => ?_, rxOwner := fun b q j hq hqo => ?_,
                  txOwner := fun b q j hq hqo => ?_, loose := nofun
                  txUnmade := fun hc => absurd ((h.txStarted hs).symm.trans hc) (by decide) }
  · obtain ⟨q, hq, hqo⟩ := h.rxBuf j e' he'
    exact ⟨q, (btFind_insert_other _ _ _ _ (h.rxBuf_ne he' hr (by rw [ho]; simp))).trans hq, hqo⟩
  · change (T.tx.slots.set i { e with buf := some a })[j]? = some e' at he'
    rw [hset] at he'
    split at he'
    · next hij =>
      cases he'
      cases hb'
      exact ⟨_, btFind_insert_same _ _ _, by rw [hij]⟩
    · obtain ⟨q, hq, hqo⟩ := h.txBuf j e' b' he' hb'
      have hne : b' ≠ a := fun heq => h.txBuf_ne he' hr (by rw [ho]; simp) (heq ▸ hb')
      exact ⟨q, (btFind_insert_other _ _ _ _ hne).trans hq, hqo⟩
  · rw [btFind_insert] at hq
    split at hq
    · cases hq; cases hqo
    · exact h.rxOwner b q j hq hqo
  · show ∃ e', (T.tx.slots.set i { e with buf := some a })[j]? = some e' ∧ e'.buf = some b
    rw [btFind_insert] at hq
    split at hq
    · next hba =>
      cases hq
      cases hqo
      exact ⟨_, by rw [hset, if_pos rfl], by rw [hba]⟩
    · obtain ⟨e', he', hea⟩ := h.txOwner b q j hq hqo
      have hij : i ≠ j := by
        rintro rfl
        rw [he] at he'
        cases he'
        rw [hfree] at hea
        cases hea
      exact ⟨e', by rw [hset, if_neg hij, he'], hea⟩

theorem txClear (h : T.Claimed none) (hc : T.tx.constructed = false) :
    Tables.Claimed none { T with tx := { T.tx with slots := [] } } :=
  { h with
    txBuf := nofun
    txOwner := fun a r i hr ho => by
      obtain ⟨e, he, hea⟩ := h.txOwner a r i hr ho
      rw [h.txUnmade hc e (List.mem_of_getElem? he)] at hea
      cases hea
    loose := nofun
    txUnmade := nofun }

theorem txAppend (h : T.Claimed none) (d : Word) :
    Tables.Claimed none { T with tx := { T.tx with slots := T.tx.slots ++ [{ desc := d, buf := none }] } } := by
  have hold {i : Nat} {e : TxSlot} (he : (T.tx.slots ++ [{ desc := d, buf := none }])[i]? = some e)
      {b : Word} (hb : e.buf = some b) : T.tx.slots[i]? = some e := by
    rcases Nat.lt_or_ge i T.tx.slots.length with hi | hi
    · rwa [List.getElem?_append_left hi] at he
    · rw [List.getElem?_append_right hi, List.getElem?_singleton] at he
      split at he
      · cases he; cases hb
      · cases he
  refine { h with txBuf := fun i e b he hb => h.txBuf i e b (hold he hb) hb, txOwner := fun a r i hr ho => ?_
                  loose := nofun, txUnmade := fun hc e he => ?_ }
  · obtain ⟨e, he, hea⟩ := h.txOwner a r i hr ho
    exact ⟨e, by rw [List.getElem?_append_left (List.getElem?_eq_some_iff.mp he).1, he], hea⟩
  · rcases List.mem_append.mp he with he | he
    · exact h.txUnmade hc e he
    · rw [List.mem_singleton.mp he]

end Tables.Claimed

/-! ## Every table operation keeps ownership -/

/-- Ownership at a point of a run. -/
structure Tables.Owned (x : Option Word) (T : Tables) : Prop where
  placed : T.Placed
  claimed : T.Claimed x

theorem map_desc_set_rx {l : List RxSlot} {i : Nat} {e : RxSlot} (he : l[i]? = some e) (b : Word) :
    (l.set i { e with buf := b }).map (·.desc) = l.map (·.desc) := by
  obtain ⟨hi, rfl⟩ := List.getElem?_eq_some_iff.mp he
  have hmap : l[i].desc = (l.map (·.desc))[i]'(by simpa using hi) := (List.getElem_map ..).symm
  rw [List.map_set]
  exact hmap ▸ List.set_getElem_self _

theorem map_desc_set_tx {l : List TxSlot} {i : Nat} {e : TxSlot} (he : l[i]? = some e) (b : Option Word) :
    (l.set i { e with buf := b }).map (·.desc) = l.map (·.desc) := by
  obtain ⟨hi, rfl⟩ := List.getElem?_eq_some_iff.mp he
  have hmap : l[i].desc = (l.map (·.desc))[i]'(by simpa using hi) := (List.getElem_map ..).symm
  rw [List.map_set]
  exact hmap ▸ List.set_getElem_self _

namespace Tables.Owned

variable {T : Tables} {x : Option Word}

theorem handOut {s : State} {ob : Word} (h : Tables.Owned (some ob) s.tables) (len : Nat) :
    Tables.Owned none (rxHandOut ob len s).tables := by
  unfold rxHandOut
  split
  · next r hr =>
    exact ⟨h.placed.update hr rfl (Nat.min_le_right ..), h.claimed.toHost hr (.inr rfl) rfl⟩
  · next hr =>
    refine ⟨h.placed, { h.claimed with rxOwner := fun a r i hr' ho => ?_, loose := nofun }⟩
    rcases h.claimed.rxOwner a r i hr' ho with hx | hshown
    · cases hx
      exact absurd (hr.symm.trans hr') (by simp)
    · exact .inr hshown

theorem txRelease (h : Tables.Owned none T) {i : Nat} {e : TxSlot} (he : T.tx.slots[i]? = some e) :
    Tables.Owned none { T with bt := btRelease T.bt e.buf
                               tx := { T.tx with slots := T.tx.slots.set i { e with buf := none } } } := by
  refine ⟨(h.placed.release e.buf).slots (T := { T with bt := _ }) rfl (map_desc_set_tx he none), ?_⟩
  cases hb : e.buf with
  | some b => exact h.claimed.txRelease he hb
  | none =>
    have hset : T.tx.slots.set i { e with buf := none } = T.tx.slots := by
      obtain ⟨hi, rfl⟩ := List.getElem?_eq_some_iff.mp he
      rw [← hb]
      exact List.set_getElem_self hi
    rw [hset]
    exact h.claimed

theorem txHandOver (h : Tables.Owned none T) {i c : Nat} {e : TxSlot} {a : Word} {r : BufRec}
    (hs : T.tx.started = true) (he : T.tx.slots[i]? = some e) (hr : btFind T.bt a = some r) (ho : r.owner = .host) :
    Tables.Owned none
      { T with bt := btInsert (btRelease T.bt e.buf) a { r with owner := .txSlot i }
               tx := { T.tx with slots := T.tx.slots.set i { e with buf := some a }, cur := c } } := by
  have hi : i < T.tx.slots.length := (List.getElem?_eq_some_iff.mp he).1
  have hrel := h.txRelease he
  have hkept : btFind (btRelease T.bt e.buf) a = some r := by
    cases hb : e.buf with
    | none => exact hr
    | some b =>
      have hne : a ≠ b := fun hab => h.claimed.txBuf_ne he hr (by rw [ho]; simp) (hab ▸ hb)
      exact (btFind_erase_other _ _ _ hne).trans hr
  have hslot : (T.tx.slots.set i { e with buf := none })[i]? = some { e with buf := none } :=
    List.getElem?_set_self hi
  refine ⟨?_, ?_⟩
  · have hrec := (h.placed.release e.buf).update (r' := { r with owner := .txSlot i }) hkept rfl
      (h.placed.record a r hr).len
    exact hrec.slots (tx := { T.tx with slots := T.tx.slots.set i { e with buf := some a }, cur := c }) rfl
      (map_desc_set_tx he (some a))
  · have hinst := hrel.claimed.txInstall (c := c) hslot rfl hkept ho hs
    rwa [List.set_set] at hinst

end Tables.Owned

/-- Every table operation keeps ownership. -/
theorem TableRun.owned {o s : State} {st : Stage} (h : TableRun o st s) (ho : Tables.Owned none o.tables) :
    Tables.Owned st.looseBuf s.tables := by
  induction h with
  | start => exact ho
  | same _ ht ih => exact ht ▸ ih
  | @bufNew s _ cap a _ hcap ha ht ih =>
    refine ht ▸ ⟨ih.placed.insert ha hcap (Nat.zero_le _), ?_⟩
    exact ih.claimed.insert (ih.placed.btFind_none ha hcap) (by simp) (by simp) (.inl rfl)
  | setLen _ hr hown hlen ht ih =>
    exact ht ▸ ⟨ih.placed.update hr rfl hlen, ih.claimed.toHost hr (.inl ⟨rfl, hown⟩) hown⟩
  | bufFree _ hr hown ht ih => exact ht ▸ ⟨ih.placed.erase _, ih.claimed.eraseHost hr hown⟩
  | rxNew _ hc hmin _ ht ih =>
    exact ht ▸ ⟨ih.placed.slots (congrArg (List.map _) (ih.claimed.rxUnmade hc).symm) rfl, ih.claimed.rxNew hc hmin⟩
  | @rxBuffer s _ i b _ hc hb ht ih =>
    have hmade : 1 ≤ s.rx.bufSize := by
      refine ih.claimed.rxMade ?_
      rcases hc with hc | hne
      · exact hc
      · exact Bool.not_eq_false _ ▸ fun hf => hne (ih.claimed.rxUnmade hf)
    refine ht ▸ ⟨ih.placed.insert hb hmade (Nat.zero_le _), ?_⟩
    exact ih.claimed.insert (ih.placed.btFind_none hb hmade) (by simp) (fun _ _ => rfl) (.inr rfl)
  | rxEntry _ hc _ hd hb ht ih => exact ht ▸ ⟨ih.placed.rxAppend hd _, ih.claimed.rxAppend hc hb _⟩
  | rxSwap _ he hb ht ih =>
    exact ht ▸ ⟨ih.placed.slots (map_desc_set_rx he _) rfl, ih.claimed.rxSwap he hb⟩
  | handOut _ ht ih => exact ht ▸ ih.handOut _
  | rxAdvance _ _ ht ih => exact ht ▸ ⟨ih.placed.slots rfl rfl, { ih.claimed with }⟩
  | rxFlag _ ht ih => exact ht ▸ ⟨ih.placed.slots rfl rfl, { ih.claimed with }⟩
  | txClear _ hc ht ih => exact ht ▸ ⟨ih.placed.txClear, ih.claimed.txClear hc⟩
  | txEntry _ _ hd ht ih => exact ht ▸ ⟨ih.placed.txAppend hd none, ih.claimed.txAppend _⟩
  | txMade _ _ ht ih =>
    exact ht ▸ ⟨ih.placed.slots rfl rfl,
      { ih.claimed with txUnmade := nofun, txStarted := fun _ => rfl }⟩
  | @txRelease s _ i e b _ he hb ht ih =>
    have hrel := ih.txRelease he
    rw [hb] at hrel
    exact ht ▸ hrel
  | txHandOver _ hs he hr hown ht ih => exact ht ▸ ih.txHandOver hs he hr hown
  | txStarted _ hc ht ih => exact ht ▸ ⟨ih.placed.slots rfl rfl, { ih.claimed with txStarted := fun _ => hc }⟩
  | txStopped _ ht ih =>
    exact ht ▸ ⟨ih.placed.slots rfl rfl, { ih.claimed with txStarted := nofun }⟩

/-! ## Every step keeps ownership -/

/-- Where QM makes progress, ownership is that of the tables with no Buffer loose. -/
theorem tables_of_owned {s : State} (h : s.Owned) (hs : s.starved = false) : Tables.Owned none s.tables where
  placed :=
    { rising := h.rising
      record := fun a r hr => by
        obtain ⟨h8, h0, hcap, hlen⟩ := h.record a r hr
        exact ⟨h8, h0, hcap, hlen⟩
      rxDesc := h.rxDesc, txDesc := h.txDesc, apart := ⟨h.apart, h.inHeap⟩ }
  claimed :=
    { rxBuf := h.rxBuf, txBuf := h.txBuf, rxOwner := fun a r i hr ho => .inr (h.rxOwner hs a r i hr ho)
      txOwner := h.txOwner, loose := nofun, rxUnmade := h.rxUnmade, rxMade := h.rxMade
      txUnmade := h.txUnmade, txStarted := h.txStarted }

theorem owned_of_tables {x : Option Word} {s : State} (h : Tables.Owned x s.tables)
    (hx : x = none ∨ s.starved = true) : s.Owned := by
  obtain ⟨hp, hc⟩ := h
  exact
    { rising := hp.rising
      record := fun a r hr => ⟨(hp.record a r hr).aligned, (hp.record a r hr).nonzero, (hp.record a r hr).cap,
        (hp.record a r hr).len⟩
      rxDesc := hp.rxDesc, txDesc := hp.txDesc, rxBuf := hc.rxBuf, txBuf := hc.txBuf
      rxOwner := fun hs a r i hr ho => by
        rcases hx with rfl | hst
        · exact (hc.rxOwner a r i hr ho).resolve_left (by simp)
        · rw [hs] at hst; cases hst
      txOwner := hc.txOwner, rxUnmade := hc.rxUnmade, rxMade := hc.rxMade, txUnmade := hc.txUnmade
      txStarted := hc.txStarted, apart := hp.apart.pairwise, inHeap := hp.apart.inHeap }

theorem owned_congr {s t : State} (h : s.Owned) (ht : t.tables = s.tables)
    (hst : s.starved = true → t.starved = true) : t.Owned := by
  cases hs : s.starved with
  | false => exact owned_of_tables (ht ▸ tables_of_owned h hs) (.inl rfl)
  | true =>
    obtain ⟨epar, ebt, erx, etx⟩ := tables_eq_iff.mp ht
    have hlive : liveRegions t = liveRegions s := liveRegions_congr ht
    constructor
    case rxOwner => exact fun hf => absurd ((hst hs).symm.trans hf) (by decide)
    case apart => exact hlive ▸ h.apart
    case inHeap => rw [hlive, epar]; exact h.inHeap
    case rising => exact ebt ▸ h.rising
    case record => exact ebt ▸ h.record
    case rxDesc => exact erx ▸ h.rxDesc
    case txDesc => exact etx ▸ h.txDesc
    case rxBuf => rw [ebt, erx]; exact h.rxBuf
    case txBuf => rw [ebt, etx]; exact h.txBuf
    case txOwner => rw [ebt, etx]; exact h.txOwner
    case rxUnmade => exact erx ▸ h.rxUnmade
    case rxMade => exact erx ▸ h.rxMade
    case txUnmade => exact etx ▸ h.txUnmade
    case txStarted => exact etx ▸ h.txStarted

/-- Settles O14: the moves of the others leave the tables alone, and a command leaves a Buffer loose only where QM is
starved in its middle. -/
theorem stepKeepsOwnership : Obligations.StepKeepsOwnership := by
  intro s t hs h
  cases step_run h with
  | others hv => exact owned_congr hs (tables_of_qmView hv) fun hst => (starved_of_qmView hv).trans hst
  | faulted hq ht => exact owned_congr hs ht fun hst => absurd ((starved_of_none hq).symm.trans hst) (by decide)
  | command hns _ _ hend =>
    have htables := tables_of_owned hs hns
    cases hend with
    | @result u c r0 r1 hu => exact owned_of_tables (s := result c r0 r1 u) (hu.tables.owned htables) (.inl rfl)
    | @raise st u k hst hu => exact owned_of_tables (s := raise k u) (hu.tables.owned htables) (.inl hst)
    | starved hst hu => exact owned_of_tables (hu.tables.owned htables) (.inr hst)
    | waiting _ hu => exact owned_of_tables (hu.tables.owned htables) (.inl rfl)

end Sys2Proof.Machine
end

section
/-! PROOFS. Descriptors in memory (20_memory.md R74, R77, R83): what a write inside one live region leaves of the
descriptors in the others. -/

namespace Sys2Proof.Machine

/-! ## Writes inside a region -/

/-- The address lies in the region. -/
def Region.has (x : Region) (a : Word) : Prop := x.1 ≤ a.toNat ∧ a.toNat < x.1 + x.2

theorem region_disjoint_iff {x y : Region} :
    Region.disjoint x y = true ↔ x.1 + x.2 ≤ y.1 ∨ y.1 + y.2 ≤ x.1 := by
  rw [Region.disjoint, Bool.or_eq_true, decide_eq_true_eq, decide_eq_true_eq]

/-- The memories differ at most inside the region. -/
def ChangesIn (x : Region) (m m' : Memory) : Prop := ∀ a : Word, ¬ x.has a → m'.read a = m.read a

theorem changesIn_write {x : Region} {a : Word} (m : Memory) (v : Byte) (h : x.has a) : ChangesIn x m (m.write a v) :=
  fun b hb => read_write_other m a b v fun heq => hb (heq ▸ h)

theorem changesIn_writeBytes {a : Word} {size : Nat} {bs : List Byte} (m : Memory) (hl : bs.length ≤ size)
    (hfits : a.toNat + size ≤ 2 ^ 32) : ChangesIn (a.toNat, size) m (m.writeBytes a bs) := fun b hb => by
  refine read_writeBytes_other m a bs b fun j hj heq => hb ?_
  have hb : b.toNat = a.toNat + j := by
    rw [heq, BitVec.toNat_add, word, BitVec.toNat_ofNat]
    omega
  exact ⟨by simp only; omega, by simp only; omega⟩

/-! ## Descriptors -/

/-- The region of the descriptor at `d` (R74). -/
def descRegion (d : Word) : Region := (d.toNat, Config.descBytes)

/-- A descriptor on the 8-byte grid that does not wrap (10_state.md R63). -/
structure DescAt (d : Word) : Prop where
  aligned : aligned8 d
  fits : d.toNat + 16 ≤ 2 ^ 32

section
variable {d : Word} {j k : Nat}

theorem DescAt.toNat_byte (h : DescAt d) (hk : k < 4) (hj : j < 4) :
    (descWord d k + word j).toNat = d.toNat + 4 * k + j := by
  have := h.fits
  simp only [descWord, word, BitVec.toNat_add, BitVec.toNat_ofNat]
  omega

theorem DescAt.toNat_word (h : DescAt d) (hk : k < 4) : (descWord d k).toNat = d.toNat + 4 * k := by
  have := h.toNat_byte hk (j := 0) (by decide)
  simpa [word] using this

/-- Word `k` after word `j` of the same descriptor was written. -/
theorem DescAt.read_write (h : DescAt d) (m : Memory) (v : Word) (hj : j < 4) (hk : k < 4) :
    (m.write32 (descWord d j) v).read32 (descWord d k) = if k = j then v else m.read32 (descWord d k) := by
  split
  · next heq => subst heq; exact read32_write32_same ..
  · next hne =>
    have hd := h.aligned
    rw [aligned8] at hd
    refine read32_write32_other _ _ _ _ fun i i' hi hi' => words_apart ?_ ?_ (fun heq => hne ?_) i i' hi hi'
    · rw [h.toNat_word hj]; omega
    · rw [h.toNat_word hk]; omega
    · have := congrArg BitVec.toNat heq
      rw [h.toNat_word hj, h.toNat_word hk] at this
      omega

theorem DescAt.changesIn (h : DescAt d) (m : Memory) (v : Word) (hk : k < 4) :
    ChangesIn (descRegion d) m (m.write32 (descWord d k) v) := fun b hb => by
  have hne (j : Nat) (hj : j < 4) : b ≠ descWord d k + word j := by
    rintro rfl
    refine hb ?_
    have hbyte := h.toNat_byte hk hj
    simp only [Region.has, descRegion, Config.descBytes]
    omega
  exact read_write32_other _ _ _ _
    ⟨by simpa [word] using hne 0 (by decide), hne 1 (by decide), hne 2 (by decide), hne 3 (by decide)⟩

end

/-- The four words of the descriptor at `d` are the same in both memories. -/
def SameDesc (d : Word) (m m' : Memory) : Prop := ∀ k < 4, m'.read32 (descWord d k) = m.read32 (descWord d k)

theorem sameDesc_refl (d : Word) (m : Memory) : SameDesc d m m := fun _ _ => rfl

/-- A change in a region apart from a descriptor leaves its words. -/
theorem DescAt.sameDesc {d : Word} {x : Region} {m m' : Memory} (h : DescAt d)
    (hx : Region.disjoint x (descRegion d) = true) (hm : ChangesIn x m m') : SameDesc d m m' := fun k hk => by
  have hbyte (j : Nat) (hj : j < 4) : m'.read (descWord d k + word j) = m.read (descWord d k + word j) := by
    refine hm _ fun hin => ?_
    have := h.toNat_byte hk hj
    obtain ⟨hlow, hhigh⟩ := hin
    rw [region_disjoint_iff] at hx
    simp only [descRegion, Config.descBytes] at hx
    omega
  have h0 := hbyte 0 (by decide)
  simp only [word, BitVec.add_zero] at h0
  have h1 : m'.read (descWord d k + 1) = m.read (descWord d k + 1) := hbyte 1 (by decide)
  have h2 : m'.read (descWord d k + 2) = m.read (descWord d k + 2) := hbyte 2 (by decide)
  have h3 : m'.read (descWord d k + 3) = m.read (descWord d k + 3) := hbyte 3 (by decide)
  rw [Memory.read32, Memory.read32, h0, h1, h2, h3]

/-- A write into another descriptor leaves the words of this one. -/
theorem DescAt.sameDesc_write {d d' : Word} (h : DescAt d) (h' : DescAt d')
    (hx : Region.disjoint (descRegion d') (descRegion d) = true) (m : Memory) (v : Word) {k : Nat} (hk : k < 4) :
    SameDesc d m (m.write32 (descWord d' k) v) :=
  h.sameDesc hx (h'.changesIn m v hk)

/-! ## The descriptors of the tables -/

theorem Fresh.descAt {s : State} {d : Word} (h : Fresh s Config.descBytes d)
    (hw : s.par.heapBase + s.par.heapSize ≤ 2 ^ 32) : DescAt d := by
  have hl := h.limit
  rw [Config.descBytes] at hl
  exact ⟨h.aligned, Nat.le_trans hl hw⟩

namespace Tables.Placed

variable {T : Tables}

theorem rxDescAt (h : T.Placed) (hw : T.par.heapBase + T.par.heapSize ≤ 2 ^ 32) {e : RxSlot} (he : e ∈ T.rx.slots) :
    DescAt e.desc := by
  have hmem : descRegion e.desc ∈ T.live :=
    List.mem_append_left _ (List.mem_append_left _ (List.mem_map_of_mem (f := fun e : RxSlot => descRegion e.desc) he))
  exact ⟨h.rxDesc e he, Nat.le_trans (h.apart.inHeap _ hmem).2 hw⟩

theorem txDescAt (h : T.Placed) (hw : T.par.heapBase + T.par.heapSize ≤ 2 ^ 32) {e : TxSlot} (he : e ∈ T.tx.slots) :
    DescAt e.desc := by
  have hmem : descRegion e.desc ∈ T.live :=
    List.mem_append_left _ (List.mem_append_right _ (List.mem_map_of_mem (f := fun e : TxSlot => descRegion e.desc) he))
  exact ⟨h.txDesc e he, Nat.le_trans (h.apart.inHeap _ hmem).2 hw⟩

theorem rx_rx_apart (h : T.Placed) {i j : Nat} {e f : RxSlot} (he : T.rx.slots[i]? = some e)
    (hf : T.rx.slots[j]? = some f) (hij : i ≠ j) : Region.disjoint (descRegion e.desc) (descRegion f.desc) = true := by
  have hp := (List.pairwise_append.mp (List.pairwise_append.mp h.apart.pairwise).1).1
  rw [List.pairwise_map] at hp
  obtain ⟨hi, rfl⟩ := List.getElem?_eq_some_iff.mp he
  obtain ⟨hj, rfl⟩ := List.getElem?_eq_some_iff.mp hf
  rcases Nat.lt_or_gt_of_ne hij with hlt | hlt
  · exact List.pairwise_iff_getElem.mp hp i j hi hj hlt
  · exact (region_disjoint_comm ..).trans (List.pairwise_iff_getElem.mp hp j i hj hi hlt)

theorem tx_tx_apart (h : T.Placed) {i j : Nat} {e f : TxSlot} (he : T.tx.slots[i]? = some e)
    (hf : T.tx.slots[j]? = some f) (hij : i ≠ j) : Region.disjoint (descRegion e.desc) (descRegion f.desc) = true := by
  have hp := (List.pairwise_append.mp (List.pairwise_append.mp h.apart.pairwise).1).2.1
  rw [List.pairwise_map] at hp
  obtain ⟨hi, rfl⟩ := List.getElem?_eq_some_iff.mp he
  obtain ⟨hj, rfl⟩ := List.getElem?_eq_some_iff.mp hf
  rcases Nat.lt_or_gt_of_ne hij with hlt | hlt
  · exact List.pairwise_iff_getElem.mp hp i j hi hj hlt
  · exact (region_disjoint_comm ..).trans (List.pairwise_iff_getElem.mp hp j i hj hi hlt)

theorem rx_tx_apart (h : T.Placed) {e : RxSlot} {f : TxSlot} (he : e ∈ T.rx.slots) (hf : f ∈ T.tx.slots) :
    Region.disjoint (descRegion e.desc) (descRegion f.desc) = true :=
  (List.pairwise_append.mp (List.pairwise_append.mp h.apart.pairwise).1).2.2 _
    (List.mem_map_of_mem (f := fun e : RxSlot => descRegion e.desc) he) _
    (List.mem_map_of_mem (f := fun e : TxSlot => descRegion e.desc) hf)

theorem buf_rx_apart (h : T.Placed) {a : Word} {r : BufRec} {e : RxSlot} (hr : (a, r) ∈ T.bt)
    (he : e ∈ T.rx.slots) : Region.disjoint (a.toNat, r.cap) (descRegion e.desc) = true :=
  (region_disjoint_comm ..).trans ((List.pairwise_append.mp h.apart.pairwise).2.2 _
    (List.mem_append_left _ (List.mem_map_of_mem (f := fun e : RxSlot => descRegion e.desc) he)) _
    (List.mem_map_of_mem (f := bufRegion) hr))

theorem buf_tx_apart (h : T.Placed) {a : Word} {r : BufRec} {e : TxSlot} (hr : (a, r) ∈ T.bt)
    (he : e ∈ T.tx.slots) : Region.disjoint (a.toNat, r.cap) (descRegion e.desc) = true :=
  (region_disjoint_comm ..).trans ((List.pairwise_append.mp h.apart.pairwise).2.2 _
    (List.mem_append_right _ (List.mem_map_of_mem (f := fun e : TxSlot => descRegion e.desc) he)) _
    (List.mem_map_of_mem (f := bufRegion) hr))

theorem buf_fits (h : T.Placed) (hw : T.par.heapBase + T.par.heapSize ≤ 2 ^ 32) {a : Word} {r : BufRec}
    (hr : (a, r) ∈ T.bt) : a.toNat + r.cap ≤ 2 ^ 32 :=
  Nat.le_trans (h.apart.inHeap (a.toNat, r.cap)
    (List.mem_append_right _ (List.mem_map_of_mem (f := bufRegion) hr))).2 hw

end Tables.Placed

end Sys2Proof.Machine
end

section
/-! PROOFS. The rings in memory under the moves of the other agents (10_state.md R61, R62, R66; 44_walker.md R274,
R291): a walker stays on its ring, and stores only into Buffers and hardware-owned descriptors. -/

namespace Sys2Proof.Machine

/-! ## The words of a descriptor -/

theorem trunc8_of_aligned {a : Word} (h : aligned8 a) : trunc8 a = a := by
  have hmask : ∀ i : Fin 32, 3 ≤ i.val → (0xFFFFFFF8 : Word).getLsbD i.val = true := by decide
  refine BitVec.eq_of_getLsbD_eq fun i hi => ?_
  rw [trunc8, BitVec.getLsbD_and]
  rcases Nat.lt_or_ge i 3 with hlow | hhigh
  · have hmod : (a.toNat % 2 ^ 3).testBit i = false := by rw [show a.toNat % 2 ^ 3 = 0 from h]; simp
    rw [Nat.testBit_mod_two_pow, decide_eq_true hlow, Bool.true_and] at hmod
    rw [BitVec.getLsbD, hmod, Bool.false_and]
  · rw [hmask ⟨i, hi⟩ hhigh, Bool.and_true]

section
variable {last : Bool} {size : Nat}

theorem bufSize1_rxCtrl (h : size ≤ Config.bufSizeMax) : (bufSize1 (rxCtrl last size)).toNat = size := by
  have hch : RX_RCH.setWidth 13 = 0 := by decide
  have her : (if last then RX_RER else 0).setWidth 13 = 0 := by cases last <;> decide
  rw [bufSize1, rxCtrl, BitVec.setWidth_or, BitVec.setWidth_or, hch, her]
  rw [Config.bufSizeMax] at h
  simp [word]
  omega

theorem bit_word_of_lt {n k i : Nat} (h : n < 2 ^ k) (hi : k ≤ i) : bit (word n) i = false := by
  simp only [bit, word, BitVec.getLsbD_ofNat, Bool.and_eq_false_iff]
  exact .inr (Nat.testBit_lt_two_pow (Nat.lt_of_lt_of_le h (Nat.pow_le_pow_right (by decide) hi)))

theorem rxRer_rxCtrl (h : size ≤ Config.bufSizeMax) : rxRer (rxCtrl last size) = last := by
  have hsize : bit (word size) 15 = false := bit_word_of_lt (k := 13) (Nat.lt_succ_of_le h) (by decide)
  have hflag : bit (RX_RCH ||| (if last then RX_RER else 0)) 15 = last := by cases last <;> decide
  simp only [bit] at hsize hflag
  rw [rxRer, bit, rxCtrl, BitVec.getLsbD_or, hsize, hflag, Bool.or_false]

theorem rxRch_rxCtrl : rxRch (rxCtrl last size) = true := by
  have hflag : bit (RX_RCH ||| (if last then RX_RER else 0)) 14 = true := by cases last <;> decide
  simp only [bit] at hflag
  rw [rxRch, bit, rxCtrl, BitVec.getLsbD_or, hflag, Bool.true_or]
end

/-- The close word gives the descriptor back (44_walker.md R267). -/
theorem rxOwn_closeWord {fr : Frame} (h : fr.InRange) : rxOwn (rxCloseWord fr) = false := by
  obtain ⟨_, hmax, hpos⟩ := h
  have hfl : (word fr.pos <<< 16).getLsbD 31 = false := by
    have hbit : bit (word fr.pos) 15 = false :=
      bit_word_of_lt (k := 14) (Nat.lt_succ_of_le (Nat.le_trans hpos hmax)) (by decide)
    simpa [bit] using hbit
  unfold rxOwn rxCloseWord bit
  dsimp only
  rw [BitVec.getLsbD_or, BitVec.getLsbD_or, BitVec.getLsbD_or]
  have h1 : (if decide (fr.pos = fr.bytes.length) then word fr.pos <<< 16 else 0).getLsbD 31 = false := by
    split
    · exact hfl
    · rfl
  have h2 : (if (decide (fr.pos = fr.bytes.length) && fr.err) then RX_ES else 0).getLsbD 31 = false := by
    split <;> rfl
  have h3 : (if fr.first then RX_FS else 0).getLsbD 31 = false := by split <;> rfl
  have h4 : (if decide (fr.pos = fr.bytes.length) then RX_LS else 0).getLsbD 31 = false := by split <;> rfl
  rw [h1, h2, h3, h4]
  rfl

theorem txOwn_closeWord (w : Word) : txOwn (txCloseWord w) = false := by
  simp [txOwn, txCloseWord, bit]

theorem txTer_closeWord (w : Word) : txTer (txCloseWord w) = txTer w := by
  simp [txTer, txCloseWord, bit]

theorem txTch_closeWord (w : Word) : txTch (txCloseWord w) = txTch w := by
  simp [txTch, txCloseWord, bit]

/-! ## What the moves of the others rely on -/

/-- The tables' regions lie apart inside the address space, every receive entry has a Buffer of the ring's size, and the
walkers are in range. -/
structure Sound (s : State) : Prop where
  wide : s.par.heapBase + s.par.heapSize ≤ 2 ^ 32
  placed : s.tables.Placed
  buffer : ∀ e ∈ s.rx.slots, ∃ r, btFind s.bt e.buf = some r ∧ r.cap = s.rx.bufSize
  size : s.rx.bufSize ≤ Config.bufSizeMax
  hardware : s.HardwareInRange

/-- RXW, or HOST, stores into a Buffer or gives a receive descriptor back. -/
inductive RxStored (s : State) : Memory → Prop where
  | same : RxStored s s.mem
  | buffer {a : Word} {r : BufRec} {m : Memory} (hr : (a, r) ∈ s.bt) (hm : ChangesIn (a.toNat, r.cap) s.mem m) :
      RxStored s m
  | close {e : RxSlot} {v : Word} (he : e ∈ s.rx.slots) (ho : e.owned s.mem) (hv : rxOwn v = false) :
      RxStored s (s.mem.write32 (descWord e.desc 0) v)

/-- TXW gives a transmit descriptor back. -/
inductive TxStored (s : State) : Memory → Prop where
  | same : TxStored s s.mem
  | close {e : TxSlot} (he : e ∈ s.tx.slots) (ho : e.owned s.mem) :
      TxStored s (s.mem.write32 (descWord e.desc 0) (txCloseWord (s.mem.read32 (descWord e.desc 0))))

/-- A receive descriptor as the moves of the others leave it: at most given back. -/
structure RxKept (d : Word) (m m' : Memory) : Prop where
  words : ∀ k, 1 ≤ k → k < 4 → m'.read32 (descWord d k) = m.read32 (descWord d k)
  status : m'.read32 (descWord d 0) = m.read32 (descWord d 0) ∨
    rxOwn (m.read32 (descWord d 0)) = true ∧ rxOwn (m'.read32 (descWord d 0)) = false

/-- A transmit descriptor as the moves of the others leave it: at most given back, its flags as they were. -/
structure TxKept (d : Word) (m m' : Memory) : Prop where
  words : ∀ k, 1 ≤ k → k < 4 → m'.read32 (descWord d k) = m.read32 (descWord d k)
  status : m'.read32 (descWord d 0) = m.read32 (descWord d 0) ∨
    txOwn (m.read32 (descWord d 0)) = true ∧
      m'.read32 (descWord d 0) = txCloseWord (m.read32 (descWord d 0))

section
variable {d : Word} {m m' m'' : Memory}

theorem SameDesc.rxKept (h : SameDesc d m m') : RxKept d m m' := ⟨fun k _ hk => h k hk, .inl (h 0 (by decide))⟩

theorem SameDesc.txKept (h : SameDesc d m m') : TxKept d m m' := ⟨fun k _ hk => h k hk, .inl (h 0 (by decide))⟩

theorem RxKept.trans (h : RxKept d m m') (g : RxKept d m' m'') : RxKept d m m'' := by
  refine ⟨fun k hk hk' => (g.words k hk hk').trans (h.words k hk hk'), ?_⟩
  rcases h.status with hs | ⟨ho, hn⟩
  · rw [← hs]; exact g.status
  · rcases g.status with gs | ⟨go, _⟩
    · exact .inr ⟨ho, gs ▸ hn⟩
    · exact absurd (hn.symm.trans go) (by decide)

theorem TxKept.trans (h : TxKept d m m') (g : TxKept d m' m'') : TxKept d m m'' := by
  refine ⟨fun k hk hk' => (g.words k hk hk').trans (h.words k hk hk'), ?_⟩
  rcases h.status with hs | ⟨ho, hc⟩
  · rw [← hs]; exact g.status
  · rcases g.status with gs | ⟨go, _⟩
    · exact .inr ⟨ho, gs.trans hc⟩
    · rw [hc, txOwn_closeWord] at go
      cases go

/-- A software-owned receive descriptor keeps its status word. -/
theorem RxKept.status_of_free (h : RxKept d m m') (hf : rxOwn (m.read32 (descWord d 0)) = false) :
    m'.read32 (descWord d 0) = m.read32 (descWord d 0) :=
  h.status.resolve_right fun ⟨ho, _⟩ => absurd (hf.symm.trans ho) (by decide)

theorem TxKept.status_of_free (h : TxKept d m m') (hf : txOwn (m.read32 (descWord d 0)) = false) :
    m'.read32 (descWord d 0) = m.read32 (descWord d 0) :=
  h.status.resolve_right fun ⟨ho, _⟩ => absurd (hf.symm.trans ho) (by decide)

/-- No move hands a transmit descriptor to TXW. -/
theorem TxKept.owned (h : TxKept d m m') (ho : txOwn (m'.read32 (descWord d 0)) = true) :
    txOwn (m.read32 (descWord d 0)) = true := by
  rcases h.status with hs | ⟨hown, _⟩
  · exact hs ▸ ho
  · exact hown

theorem TxKept.ter (h : TxKept d m m') : txTer (m'.read32 (descWord d 0)) = txTer (m.read32 (descWord d 0)) := by
  rcases h.status with hs | ⟨_, hc⟩
  · rw [hs]
  · rw [hc, txTer_closeWord]

theorem TxKept.tch (h : TxKept d m m') : txTch (m'.read32 (descWord d 0)) = txTch (m.read32 (descWord d 0)) := by
  rcases h.status with hs | ⟨_, hc⟩
  · rw [hs]
  · rw [hc, txTch_closeWord]
end

theorem Fresh.apart_rx {s : State} {d : Word} (hd : Fresh s Config.descBytes d) {e : RxSlot} (he : e ∈ s.rx.slots) :
    Region.disjoint (descRegion d) (descRegion e.desc) = true :=
  hd.apart _ (mem_liveRegions.mpr (.inl ⟨e, he, rfl⟩))

theorem Fresh.apart_tx {s : State} {d : Word} (hd : Fresh s Config.descBytes d) {e : TxSlot} (he : e ∈ s.tx.slots) :
    Region.disjoint (descRegion d) (descRegion e.desc) = true :=
  hd.apart _ (mem_liveRegions.mpr (.inr (.inl ⟨e, he, rfl⟩)))

namespace Sound

variable {s : State} (h : Sound s)
include h

theorem rxDesc {e : RxSlot} (he : e ∈ s.rx.slots) : DescAt e.desc := h.placed.rxDescAt h.wide he

theorem txDesc {e : TxSlot} (he : e ∈ s.tx.slots) : DescAt e.desc := h.placed.txDescAt h.wide he

theorem freshDesc {d : Word} (hd : Fresh s Config.descBytes d) : DescAt d := hd.descAt h.wide

/-- A write into one receive descriptor, seen from another entry. -/
theorem rx_write_rx {i j : Nat} {e f : RxSlot} (he : s.rx.slots[i]? = some e) (hf : s.rx.slots[j]? = some f)
    (hij : i ≠ j) (m : Memory) (v : Word) {k : Nat} (hk : k < 4) :
    SameDesc f.desc m (m.write32 (descWord e.desc k) v) :=
  (h.rxDesc (List.mem_of_getElem? hf)).sameDesc_write (h.rxDesc (List.mem_of_getElem? he))
    (h.placed.rx_rx_apart he hf hij) m v hk

theorem tx_write_tx {i j : Nat} {e f : TxSlot} (he : s.tx.slots[i]? = some e) (hf : s.tx.slots[j]? = some f)
    (hij : i ≠ j) (m : Memory) (v : Word) {k : Nat} (hk : k < 4) :
    SameDesc f.desc m (m.write32 (descWord e.desc k) v) :=
  (h.txDesc (List.mem_of_getElem? hf)).sameDesc_write (h.txDesc (List.mem_of_getElem? he))
    (h.placed.tx_tx_apart he hf hij) m v hk

theorem rx_write_tx {e : RxSlot} {f : TxSlot} (he : e ∈ s.rx.slots) (hf : f ∈ s.tx.slots) (m : Memory) (v : Word)
    {k : Nat} (hk : k < 4) : SameDesc f.desc m (m.write32 (descWord e.desc k) v) :=
  (h.txDesc hf).sameDesc_write (h.rxDesc he) (h.placed.rx_tx_apart he hf) m v hk

theorem tx_write_rx {e : TxSlot} {f : RxSlot} (he : e ∈ s.tx.slots) (hf : f ∈ s.rx.slots) (m : Memory) (v : Word)
    {k : Nat} (hk : k < 4) : SameDesc f.desc m (m.write32 (descWord e.desc k) v) :=
  (h.rxDesc hf).sameDesc_write (h.txDesc he) ((region_disjoint_comm ..).trans (h.placed.rx_tx_apart hf he)) m v hk

theorem fresh_write_rx {d : Word} (hd : Fresh s Config.descBytes d) {e : RxSlot} (he : e ∈ s.rx.slots) (m : Memory)
    (v : Word) {k : Nat} (hk : k < 4) : SameDesc e.desc m (m.write32 (descWord d k) v) :=
  (h.rxDesc he).sameDesc_write (h.freshDesc hd) (hd.apart_rx he) m v hk

theorem fresh_write_tx {d : Word} (hd : Fresh s Config.descBytes d) {e : TxSlot} (he : e ∈ s.tx.slots) (m : Memory)
    (v : Word) {k : Nat} (hk : k < 4) : SameDesc e.desc m (m.write32 (descWord d k) v) :=
  (h.txDesc he).sameDesc_write (h.freshDesc hd) (hd.apart_tx he) m v hk

end Sound

section
variable {s : State} {m : Memory}

theorem RxStored.rx (hs : Sound s) (h : RxStored s m) {f : RxSlot} (hf : f ∈ s.rx.slots) : RxKept f.desc s.mem m := by
  cases h with
  | same => exact (sameDesc_refl _ _).rxKept
  | buffer hr hm => exact ((hs.rxDesc hf).sameDesc (hs.placed.buf_rx_apart hr hf) hm).rxKept
  | @close e v he ho hv =>
    obtain ⟨i, hi⟩ := List.getElem?_of_mem he
    obtain ⟨j, hj⟩ := List.getElem?_of_mem hf
    by_cases hij : i = j
    · obtain rfl : e = f := Option.some.inj (hi.symm.trans (hij ▸ hj))
      refine ⟨fun k hk hk' => ?_, .inr ⟨ho, ?_⟩⟩
      · rw [(hs.rxDesc he).read_write _ _ (by decide) hk', if_neg (by omega)]
      · rw [read32_write32_same]; exact hv
    · exact (hs.rx_write_rx hi hj hij s.mem v (by decide)).rxKept

theorem RxStored.tx (hs : Sound s) (h : RxStored s m) {f : TxSlot} (hf : f ∈ s.tx.slots) :
    SameDesc f.desc s.mem m := by
  cases h with
  | same => exact sameDesc_refl _ _
  | buffer hr hm => exact (hs.txDesc hf).sameDesc (hs.placed.buf_tx_apart hr hf) hm
  | close he => exact hs.rx_write_tx he hf s.mem _ (by decide)

theorem RxStored.fresh (hs : Sound s) (h : RxStored s m) {d : Word} (hd : Fresh s Config.descBytes d) :
    SameDesc d s.mem m := by
  cases h with
  | same => exact sameDesc_refl _ _
  | buffer hr hm =>
    have hlive := hd.apart _ (mem_liveRegions.mpr (.inr (.inr ⟨_, hr, rfl⟩)))
    exact (hs.freshDesc hd).sameDesc ((region_disjoint_comm ..).trans hlive) hm
  | close he =>
    exact (hs.freshDesc hd).sameDesc_write (hs.rxDesc he)
      ((region_disjoint_comm ..).trans (hd.apart_rx he)) s.mem _ (by decide)

theorem TxStored.rx (hs : Sound s) (h : TxStored s m) {f : RxSlot} (hf : f ∈ s.rx.slots) :
    SameDesc f.desc s.mem m := by
  cases h with
  | same => exact sameDesc_refl _ _
  | close he => exact hs.tx_write_rx he hf s.mem _ (by decide)

theorem TxStored.tx (hs : Sound s) (h : TxStored s m) {f : TxSlot} (hf : f ∈ s.tx.slots) : TxKept f.desc s.mem m := by
  cases h with
  | same => exact (sameDesc_refl _ _).txKept
  | @close e he ho =>
    obtain ⟨i, hi⟩ := List.getElem?_of_mem he
    obtain ⟨j, hj⟩ := List.getElem?_of_mem hf
    by_cases hij : i = j
    · obtain rfl : e = f := Option.some.inj (hi.symm.trans (hij ▸ hj))
      refine ⟨fun k hk hk' => ?_, .inr ⟨ho, read32_write32_same ..⟩⟩
      rw [(hs.txDesc he).read_write _ _ (by decide) hk', if_neg (by omega)]
    · exact (hs.tx_write_tx hi hj hij s.mem _ (by decide)).txKept

theorem TxStored.fresh (hs : Sound s) (h : TxStored s m) {d : Word} (hd : Fresh s Config.descBytes d) :
    SameDesc d s.mem m := by
  cases h with
  | same => exact sameDesc_refl _ _
  | close he =>
    exact (hs.freshDesc hd).sameDesc_write (hs.txDesc he)
      ((region_disjoint_comm ..).trans (hd.apart_tx he)) s.mem _ (by decide)
end

/-! ## The rings, by what may run on them -/

/-- What is true of the receive ring's engine at a point of a command. -/
inductive RxMode where
  /-- RXW is stopped, and stays so. -/
  | stopped
  /-- The ring is a circular chain, and RXW may run on it. -/
  | running
  /-- `RX_START` makes a started ring longer while the other agents hold still (70_reset_and_hazards.md R368). -/
  | alone

/-- What is true of the transmit ring's engine at a point of a command. -/
inductive TxMode where
  | stopped
  | running
  /-- `TX_START` is writing the descriptors anew; TXW is stopped. -/
  | starting

/-- Receive entry `i` is linked to the next (10_state.md R62). -/
structure RxLinked (s : State) (i : Nat) (e : RxSlot) : Prop where
  next : s.mem.read32 (descWord e.desc 3) = rxNext s i
  ctrl : s.mem.read32 (descWord e.desc 1) = rxCtrl (decide (i + 1 = s.rx.slots.length)) s.rx.bufSize

/-- Transmit entry `i` is linked to the next (R62). -/
structure TxLinked (s : State) (i : Nat) (e : TxSlot) : Prop where
  next : s.mem.read32 (descWord e.desc 3) = txNext s i
  ter : txTer (s.mem.read32 (descWord e.desc 0)) = decide (i + 1 = s.tx.slots.length)
  tch : txTch (s.mem.read32 (descWord e.desc 0)) = true

/-- RXW holds this entry's descriptor in its latch (44_walker.md R274). -/
structure RxHeld (s : State) (e : RxSlot) : Prop where
  desc : e.desc = s.rxw.cur
  owned : e.owned s.mem
  buf : s.rxw.lat.buf = e.buf
  size : s.rxw.lat.size.toNat = s.rx.bufSize
  next : s.rxw.lat.eor = true ∨ (s.rxw.lat.ch = true ∧ ∃ f ∈ s.rx.slots, f.desc = s.rxw.lat.next)

/-- TXW holds this entry's descriptor in its latch (R291). -/
structure TxHeld (s : State) (e : TxSlot) : Prop where
  desc : e.desc = s.txw.cur
  owned : e.owned s.mem
  buf : e.buf = some s.txw.lat.buf
  status : s.txw.lat.w0 = s.mem.read32 (descWord e.desc 0)
  next : s.txw.lat.next = s.mem.read32 (descWord e.desc 3)

/-- The receive side of the linked rings (R61, R62, R66). -/
structure RxLink (a : RxMode) (s : State) : Prop where
  head : a ≠ .stopped → s.rx.slots ≠ [] ∧ s.regs.dmardlar = rxHead s
  stopped : a = .stopped → s.rxw.ps = 0 ∧ s.regs.startRx = false
  chain : a = .running → ∀ i e, s.rx.slots[i]? = some e → RxLinked s i e
  alone : a = .alone → s.quiet = true
  word2 : ∀ e ∈ s.rx.slots, s.mem.read32 (descWord e.desc 2) = e.buf
  place : s.rxw.ps ≠ 0 → ∃ e ∈ s.rx.slots, e.desc = s.rxw.cur
  holds : s.rxw.ps = 3 ∨ s.rxw.ps = 5 ∨ s.rxw.ps = 7 → ∃ e ∈ s.rx.slots, RxHeld s e

/-- The transmit side of the linked rings (R61, R62, R66). -/
structure TxLink (b : TxMode) (s : State) : Prop where
  head : b = .running → s.tx.slots ≠ [] ∧ s.regs.dmatdlar = txHead s
  stopped : b ≠ .running → s.txw.ps = 0 ∧ s.regs.startTx = false
  chain : b = .running → ∀ i e, s.tx.slots[i]? = some e → TxLinked s i e
  queued : b ≠ .starting → ∀ e ∈ s.tx.slots, e.owned s.mem → e.buf ≠ none
  word2 : ∀ e ∈ s.tx.slots, ∀ b, e.buf = some b → s.mem.read32 (descWord e.desc 2) = b
  place : s.txw.ps ≠ 0 → ∃ e ∈ s.tx.slots, e.desc = s.txw.cur
  holds : s.txw.ps = 2 ∨ s.txw.ps = 3 ∨ s.txw.ps = 7 → ∃ e ∈ s.tx.slots, TxHeld s e

/-- Nothing the receive side of the links speaks of has changed, but that descriptors may have been handed to RXW. -/
structure RxSame (s t : State) : Prop where
  slots : t.rx.slots = s.rx.slots
  size : t.rx.bufSize = s.rx.bufSize
  rxw : t.rxw = s.rxw
  base : t.regs.dmardlar = s.regs.dmardlar
  start : t.regs.startRx = s.regs.startRx
  words : ∀ e ∈ s.rx.slots, ∀ k, 1 ≤ k → k < 4 → t.mem.read32 (descWord e.desc k) = s.mem.read32 (descWord e.desc k)
  owned : ∀ e ∈ s.rx.slots, e.owned s.mem → e.owned t.mem

/-- Nothing the transmit side of the links speaks of has changed. -/
structure TxSame (s t : State) : Prop where
  slots : t.tx.slots = s.tx.slots
  txw : t.txw = s.txw
  base : t.regs.dmatdlar = s.regs.dmatdlar
  start : t.regs.startTx = s.regs.startTx
  desc : ∀ e ∈ s.tx.slots, SameDesc e.desc s.mem t.mem

section
variable {s t : State} {a : RxMode} {b : TxMode}

theorem rxNext_congr (h : t.rx.slots = s.rx.slots) (i : Nat) : rxNext t i = rxNext s i := by
  simp only [rxNext, h]

theorem txNext_congr (h : t.tx.slots = s.tx.slots) (i : Nat) : txNext t i = txNext s i := by
  simp only [txNext, h]

theorem rxHead_congr (h : t.rx.slots = s.rx.slots) : rxHead t = rxHead s := by simp only [rxHead, h]

theorem txHead_congr (h : t.tx.slots = s.tx.slots) : txHead t = txHead s := by simp only [txHead, h]

theorem RxLinked.congr {i : Nat} {e : RxSlot} (h : RxLinked s i e) (hslots : t.rx.slots = s.rx.slots)
    (hsize : t.rx.bufSize = s.rx.bufSize)
    (hw : ∀ k, 1 ≤ k → k < 4 → t.mem.read32 (descWord e.desc k) = s.mem.read32 (descWord e.desc k)) :
    RxLinked t i e :=
  ⟨(hw 3 (by decide) (by decide)).trans (h.next.trans (rxNext_congr hslots i).symm),
    by rw [hw 1 (by decide) (by decide), h.ctrl, hslots, hsize]⟩

theorem TxLinked.congr {i : Nat} {e : TxSlot} (h : TxLinked s i e) (hslots : t.tx.slots = s.tx.slots)
    (hk : TxKept e.desc s.mem t.mem) : TxLinked t i e :=
  ⟨(hk.words 3 (by decide) (by decide)).trans (h.next.trans (txNext_congr hslots i).symm),
    by rw [hk.ter, h.ter, hslots], by rw [hk.tch, h.tch]⟩

theorem RxLink.congr (h : RxLink a s) (hs : RxSame s t) (hq : a = .alone → t.quiet = true) : RxLink a t where
  head ha := by
    obtain ⟨hne, hbase⟩ := h.head ha
    exact ⟨hs.slots ▸ hne, hs.base.trans (hbase.trans (rxHead_congr hs.slots).symm)⟩
  stopped ha := by rw [hs.rxw, hs.start]; exact h.stopped ha
  chain ha i e he := by
    rw [hs.slots] at he
    exact (h.chain ha i e he).congr hs.slots hs.size (hs.words e (List.mem_of_getElem? he))
  alone := hq
  word2 e he := by
    rw [hs.slots] at he
    exact (hs.words e he 2 (by decide) (by decide)).trans (h.word2 e he)
  place hp := by rw [hs.slots, hs.rxw]; exact h.place (hs.rxw ▸ hp)
  holds hp := by
    rw [hs.rxw] at hp
    obtain ⟨e, he, hheld⟩ := h.holds hp
    refine ⟨e, hs.slots ▸ he, hs.rxw ▸ hheld.desc, hs.owned e he hheld.owned, hs.rxw ▸ hheld.buf,
      by rw [hs.rxw, hs.size]; exact hheld.size, by rw [hs.rxw, hs.slots]; exact hheld.next⟩

theorem TxLink.congr (h : TxLink b s) (hs : TxSame s t) : TxLink b t where
  head hb := by
    obtain ⟨hne, hbase⟩ := h.head hb
    exact ⟨hs.slots ▸ hne, hs.base.trans (hbase.trans (txHead_congr hs.slots).symm)⟩
  stopped hb := by rw [hs.txw, hs.start]; exact h.stopped hb
  chain hb i e he := by
    rw [hs.slots] at he
    exact (h.chain hb i e he).congr hs.slots (hs.desc e (List.mem_of_getElem? he)).txKept
  queued hb e he ho := by
    rw [hs.slots] at he
    rw [TxSlot.owned, hs.desc e he 0 (by decide)] at ho
    exact h.queued hb e he ho
  word2 e he b hb := by
    rw [hs.slots] at he
    exact (hs.desc e he 2 (by decide)).trans (h.word2 e he b hb)
  place hp := by rw [hs.slots, hs.txw]; exact h.place (hs.txw ▸ hp)
  holds hp := by
    rw [hs.txw] at hp
    obtain ⟨e, he, hheld⟩ := h.holds hp
    have h0 := hs.desc e he 0 (by decide)
    refine ⟨e, hs.slots ▸ he, hs.txw ▸ hheld.desc, ?_, hs.txw ▸ hheld.buf, by rw [hs.txw, h0]; exact hheld.status,
      by rw [hs.txw, hs.desc e he 3 (by decide)]; exact hheld.next⟩
    rw [TxSlot.owned, h0]
    exact hheld.owned

theorem rxHead_mem (h : s.rx.slots ≠ []) : ∃ e ∈ s.rx.slots, e.desc = rxHead s := by
  unfold rxHead
  split
  · next hnil => exact absurd hnil h
  · next e es hslots => exact ⟨e, hslots ▸ List.mem_cons_self, rfl⟩

theorem txHead_mem (h : s.tx.slots ≠ []) : ∃ e ∈ s.tx.slots, e.desc = txHead s := by
  unfold txHead
  split
  · next hnil => exact absurd hnil h
  · next e es hslots => exact ⟨e, hslots ▸ List.mem_cons_self, rfl⟩

/-- The next entry of a receive ring, where there is one. -/
theorem rxNext_mem {i : Nat} {e : RxSlot} (he : s.rx.slots[i]? = some e) (hi : i + 1 ≠ s.rx.slots.length) :
    ∃ f ∈ s.rx.slots, f.desc = rxNext s i := by
  have hlt : i + 1 < s.rx.slots.length := by
    have := (List.getElem?_eq_some_iff.mp he).1
    omega
  refine ⟨s.rx.slots[i + 1], List.getElem_mem hlt, ?_⟩
  rw [rxNext, List.getElem?_eq_getElem hlt]
  rfl

theorem txNext_mem {i : Nat} {e : TxSlot} (he : s.tx.slots[i]? = some e) (hi : i + 1 ≠ s.tx.slots.length) :
    ∃ f ∈ s.tx.slots, f.desc = txNext s i := by
  have hlt : i + 1 < s.tx.slots.length := by
    have := (List.getElem?_eq_some_iff.mp he).1
    omega
  refine ⟨s.tx.slots[i + 1], List.getElem_mem hlt, ?_⟩
  rw [txNext, List.getElem?_eq_getElem hlt]
  rfl

theorem RxLink.running (h : RxLink a s) (ha : a ≠ .alone) (hp : s.rxw.ps ≠ 0 ∨ s.regs.startRx = true) : a = .running := by
  cases a with
  | stopped =>
    obtain ⟨h0, hoff⟩ := h.stopped rfl
    rcases hp with hp | hp
    · exact absurd h0 hp
    · exact absurd (hoff.symm.trans hp) (by decide)
  | running => rfl
  | alone => exact absurd rfl ha

theorem TxLink.running (h : TxLink b s) (hp : s.txw.ps ≠ 0 ∨ s.regs.startTx = true) : b = .running := by
  by_contra hb
  obtain ⟨h0, hoff⟩ := h.stopped hb
  rcases hp with hp | hp
  · exact hp h0
  · exact absurd (hoff.symm.trans hp) (by decide)
end

/-! ## A move of the others -/

/-- What the moves of the others leave, no reset being pending: the tables, the base registers, and every descriptor,
in a table or not yet, but that one may be given back. -/
structure Kept (s t : State) : Prop where
  tables : t.tables = s.tables
  rxBase : t.regs.dmardlar = s.regs.dmardlar
  txBase : t.regs.dmatdlar = s.regs.dmatdlar
  reset : t.regs.resetPending = s.regs.resetPending
  rx : ∀ e ∈ s.rx.slots, RxKept e.desc s.mem t.mem
  tx : ∀ e ∈ s.tx.slots, TxKept e.desc s.mem t.mem
  fresh : ∀ d, Fresh s Config.descBytes d → SameDesc d s.mem t.mem

theorem Kept.trans {s t u : State} (h : Kept s t) (g : Kept t u) : Kept s u := by
  obtain ⟨_, _, erx, etx⟩ := tables_eq_iff.mp h.tables
  exact ⟨g.tables.trans h.tables, g.rxBase.trans h.rxBase, g.txBase.trans h.txBase, g.reset.trans h.reset,
    fun e he => (h.rx e he).trans (g.rx e (erx ▸ he)), fun e he => (h.tx e he).trans (g.tx e (etx ▸ he)),
    fun d hd k hk => (g.fresh d (fresh_congr h.tables hd) k hk).trans (h.fresh d hd k hk)⟩

/-- Nothing of what `Kept` speaks of has changed. -/
theorem kept_of_same {s t : State} (ht : t.tables = s.tables) (hr : t.regs = s.regs) (hm : t.mem = s.mem) :
    Kept s t :=
  ⟨ht, by rw [hr], by rw [hr], by rw [hr], fun _ _ => hm ▸ (sameDesc_refl _ _).rxKept,
    fun _ _ => hm ▸ (sameDesc_refl _ _).txKept, fun _ _ => hm ▸ sameDesc_refl _ _⟩

theorem Regs.EqButPending.refl (r : Regs) : r.EqButPending r := rfl

section
variable {s t : State} {a : RxMode} {b : TxMode}

theorem kept_of_rxStored (hs : Sound s) (hm : RxStored s t.mem) (ht : t.tables = s.tables)
    (hr : s.regs.EqButPending t.regs) : Kept s t :=
  ⟨ht, by rw [hr], by rw [hr], by rw [hr]; rfl, fun _ he => hm.rx hs he, fun _ he => (hm.tx hs he).txKept,
    fun _ hd => hm.fresh hs hd⟩

theorem kept_of_txStored (hs : Sound s) (hm : TxStored s t.mem) (ht : t.tables = s.tables)
    (hr : s.regs.EqButPending t.regs) : Kept s t :=
  ⟨ht, by rw [hr], by rw [hr], by rw [hr]; rfl, fun _ he => (hm.rx hs he).rxKept, fun _ he => hm.tx hs he,
    fun _ hd => hm.fresh hs hd⟩

/-- The receive side is not touched. -/
theorem RxLink.other (h : RxLink a s) (ha : a ≠ .alone) (ht : t.tables = s.tables) (hw : t.rxw = s.rxw)
    (hr : s.regs.EqButPending t.regs) (hm : ∀ e ∈ s.rx.slots, SameDesc e.desc s.mem t.mem) : RxLink a t := by
  have erx : t.rx = s.rx := (tables_eq_iff.mp ht).2.2.1
  refine h.congr ⟨erx ▸ rfl, erx ▸ rfl, hw, by rw [hr], by rw [hr]; rfl, fun e he k _ hk => hm e he k hk,
    fun e he ho => ?_⟩ fun h => absurd h ha
  rw [RxSlot.owned, hm e he 0 (by decide)]
  exact ho

/-- The transmit side is not touched. -/
theorem TxLink.other (h : TxLink b s) (ht : t.tables = s.tables) (hw : t.txw = s.txw)
    (hr : s.regs.EqButPending t.regs) (hm : ∀ e ∈ s.tx.slots, SameDesc e.desc s.mem t.mem) : TxLink b t := by
  have etx : t.tx = s.tx := (tables_eq_iff.mp ht).2.2.2
  exact h.congr ⟨etx ▸ rfl, hw, by rw [hr], by rw [hr]; rfl, hm⟩

/-! ### RXW -/

/-- RXW on its ring: what it leaves in memory, and its new place, are all there is to check. -/
theorem RxLink.walk (h : RxLink .running s) (ht : t.tables = s.tables) (hr : s.regs.EqButPending t.regs)
    (hm : ∀ e ∈ s.rx.slots, RxKept e.desc s.mem t.mem) (hplace : ∃ e ∈ s.rx.slots, e.desc = t.rxw.cur)
    (hholds : t.rxw.ps = 3 ∨ t.rxw.ps = 5 ∨ t.rxw.ps = 7 → ∃ e ∈ s.rx.slots, RxHeld t e) : RxLink .running t := by
  have erx : t.rx = s.rx := (tables_eq_iff.mp ht).2.2.1
  refine ⟨fun _ => ?_, nofun, fun _ i e he => ?_, nofun, fun e he => ?_, fun _ => erx ▸ hplace, erx ▸ hholds⟩
  · obtain ⟨hne, hbase⟩ := h.head (by simp)
    exact ⟨erx ▸ hne, by rw [hr, rxHead_congr (congrArg RxRing.slots erx)]; exact hbase⟩
  · rw [erx] at he
    exact (h.chain rfl i e he).congr (erx ▸ rfl) (erx ▸ rfl) (hm e (List.mem_of_getElem? he)).words
  · rw [erx] at he
    exact ((hm e he).words 2 (by decide) (by decide)).trans (h.word2 e he)

theorem RxwStepTo.regs (ht : RxwStepTo s t) : s.regs.EqButPending t.regs := by
  cases ht with
  | close => exact rxwClose_regs ..
  | fetch => unfold rxwFetch; dsimp only; split <;> rfl
  | _ => rfl

theorem RxwStepTo.txw (ht : RxwStepTo s t) : t.txw = s.txw := by
  cases ht with
  | close => exact rxwClose_txw ..
  | fetch => unfold rxwFetch; dsimp only; split <;> rfl
  | _ => rfl

/-- RXW's transfer stores into the Buffer it holds (44_walker.md R266). -/
theorem RxLink.transferred (hs : Sound s) (h : RxLink a s) (hp : s.rxw.ps = 7) (fr : Frame) :
    ∃ b r, (b, r) ∈ s.bt ∧ ChangesIn (b.toNat, r.cap) s.mem (rxwTransfer fr s).mem := by
  obtain ⟨e, he, hheld⟩ := h.holds (.inr (.inr hp))
  obtain ⟨r, hr, hcap⟩ := hs.buffer e he
  have hmem := mem_of_btFind hr
  have hlen : ((fr.bytes.drop fr.pos).take (rxwChunk fr s.rxw.lat)).length ≤ r.cap := by
    rw [hcap, ← hheld.size]
    exact Nat.le_trans (List.length_take_le ..) (Nat.min_le_right ..)
  have hw := changesIn_writeBytes s.mem hlen (hs.placed.buf_fits hs.wide hmem)
  refine ⟨e.buf, r, hmem, ?_⟩
  show ChangesIn _ s.mem (s.mem.writeBytes (trunc8 s.rxw.lat.buf) _)
  rwa [hheld.buf, trunc8_of_aligned (hs.placed.record _ _ hr).aligned]

/-- RXW stores into the Buffer it holds, or gives back the descriptor it holds. -/
theorem RxLink.stored (hs : Sound s) (h : RxLink a s) (ht : RxwStepTo s t) : RxStored s t.mem := by
  cases ht with
  | none => exact .same
  | start => exact .same
  | fetch => rw [rxwFetch_mem]; exact .same
  | refetch => exact .same
  | close _ hp hf =>
    obtain ⟨e, he, hheld⟩ := h.holds (.inr (.inl hp))
    rw [rxwClose_mem, ← hheld.desc]
    exact .close he hheld.owned (rxOwn_closeWord (hs.hardware.rxw.frame _ hf))
  | @transfer fr _ hp =>
    obtain ⟨a, r, hr, hm⟩ := h.transferred hs hp fr
    exact .buffer hr hm

/-- The descriptor RXW comes to after the one it holds is one of its ring (44_walker.md R261). -/
theorem RxLink.next_place {e : RxSlot} (hs : Sound s) (h : RxLink .running s) (hheld : RxHeld s e) :
    ∃ f ∈ s.rx.slots, f.desc = nextDesc s.rxw.lat.eor s.rxw.lat.ch s.rxw.lat.next s.regs.dmardlar s.rxw.cur := by
  unfold nextDesc
  split
  · obtain ⟨hne, hbase⟩ := h.head (by simp)
    obtain ⟨f, hf, hdesc⟩ := rxHead_mem hne
    exact ⟨f, hf, by rw [hbase, ← hdesc, trunc8_of_aligned (hs.placed.rxDesc f hf)]⟩
  · next heor =>
    obtain ⟨hch, f, hf, hdesc⟩ := hheld.next.resolve_left heor
    rw [if_pos hch]
    exact ⟨f, hf, by rw [← hdesc, trunc8_of_aligned (hs.placed.rxDesc f hf)]⟩

/-- What RXW's fetch of a hardware-owned descriptor brings into its latch (44_walker.md R264). -/
theorem RxLink.fetched (hs : Sound s) (h : RxLink .running s) (hp : s.rxw.ps = 1) (ho : rxOwn (s.mem.read32 (descWord s.rxw.cur 0)) = true)
    {ps : BitVec 3} : ∃ e ∈ s.rx.slots, RxHeld (s.setRxw { s.rxw with
      lat := { buf := s.mem.read32 (descWord s.rxw.cur 2), size := bufSize1 (s.mem.read32 (descWord s.rxw.cur 1))
               eor := rxRer (s.mem.read32 (descWord s.rxw.cur 1)), ch := rxRch (s.mem.read32 (descWord s.rxw.cur 1))
               next := s.mem.read32 (descWord s.rxw.cur 3) }
      ps := ps }) e := by
  obtain ⟨e, he, hcur⟩ := h.place (by rw [hp]; decide)
  obtain ⟨i, hi⟩ := List.getElem?_of_mem he
  have hlink := h.chain rfl i e hi
  rw [← hcur] at ho
  refine ⟨e, he, hcur, ho, ?_, ?_, ?_⟩
  · rw [State.setRxw_rxw, ← hcur]; exact h.word2 e he
  · rw [State.setRxw_rxw, ← hcur, hlink.ctrl]; exact bufSize1_rxCtrl hs.size
  · rw [State.setRxw_rxw, ← hcur, hlink.ctrl, hlink.next, rxRer_rxCtrl hs.size, rxRch_rxCtrl]
    by_cases hlast : i + 1 = s.rx.slots.length
    · exact .inl (decide_eq_true hlast)
    · exact .inr ⟨rfl, rxNext_mem hi hlast⟩

theorem RxLink.rxwStep (hs : Sound s) (h : RxLink a s) (ha : a ≠ .alone) (ht : RxwStepTo s t)
    (htab : t.tables = s.tables) : RxLink a t := by
  have hstored := h.stored hs ht
  have hregs := ht.regs
  have hmem (e : RxSlot) (he : e ∈ s.rx.slots) := hstored.rx hs he
  cases ht with
  | none => exact h
  | start _ hp hst =>
    obtain rfl := h.running ha (.inr hst)
    refine h.walk htab hregs hmem ?_ (by simp [rxwStart])
    obtain ⟨hne, hbase⟩ := h.head (by simp)
    obtain ⟨f, hf, hdesc⟩ := rxHead_mem hne
    refine ⟨f, hf, ?_⟩
    show f.desc = trunc8 s.regs.dmardlar
    rw [hbase, ← hdesc, trunc8_of_aligned (hs.placed.rxDesc f hf)]
  | fetch _ hp =>
    obtain rfl := h.running ha (.inl (by rw [hp]; decide))
    have hplace := h.place (by rw [hp]; decide)
    unfold rxwFetch at htab hregs hmem ⊢
    dsimp only at htab hregs hmem ⊢
    split at htab
    · next ho =>
      rw [if_pos ho] at hregs hmem ⊢
      exact h.walk htab hregs hmem hplace fun _ => h.fetched hs hp ho
    · next ho =>
      rw [if_neg ho] at hregs hmem ⊢
      exact h.walk htab hregs hmem hplace (by simp)
  | refetch _ hp =>
    obtain rfl := h.running ha (.inl (by rw [hp]; decide))
    exact h.walk htab hregs hmem (h.place (by rw [hp]; decide)) (by simp)
  | close _ hp hf =>
    obtain rfl := h.running ha (.inl (by rw [hp]; decide))
    obtain ⟨e, he, hheld⟩ := h.holds (.inr (.inl hp))
    refine h.walk htab hregs hmem ?_ (by simp [rxwClose_rxw])
    rw [rxwClose_rxw]
    exact h.next_place hs hheld
  | @transfer fr _ hp hf =>
    obtain rfl := h.running ha (.inl (by rw [hp]; decide))
    obtain ⟨e, he, hheld⟩ := h.holds (.inr (.inr hp))
    obtain ⟨b, r, hr, hm⟩ := h.transferred hs hp fr
    refine h.walk htab hregs hmem ⟨e, he, hheld.desc⟩ fun _ =>
      ⟨e, he, hheld.desc, ?_, hheld.buf, hheld.size, hheld.next⟩
    rw [RxSlot.owned, (hs.rxDesc he).sameDesc (hs.placed.buf_rx_apart hr he) hm 0 (by decide)]
    exact hheld.owned

/-- MAC-RX's offer is stored into nothing yet: RXW holds on to its descriptor (R265). -/
theorem RxLink.macRxOffer (h : RxLink a s) (ha : a ≠ .alone) (bytes : List Byte) (err : Bool) :
    RxLink a (macRxOffer bytes err s) := by
  unfold Machine.macRxOffer
  split
  · next hc =>
    obtain ⟨_, hp, _⟩ := hc
    obtain rfl := h.running ha (.inl (by rw [hp]; decide))
    obtain ⟨e, he, hheld⟩ := h.holds (.inl hp)
    exact h.walk (t := rxwAccept bytes err s) rfl (.refl _) (fun _ _ => (sameDesc_refl _ _).rxKept)
      ⟨e, he, hheld.desc⟩ fun _ => ⟨e, he, ⟨hheld.desc, hheld.owned, hheld.buf, hheld.size, hheld.next⟩⟩
  · exact h

/-! ### TXW -/

/-- TXW on its ring: what it leaves in memory, and its new place, are all there is to check. -/
theorem TxLink.walk (h : TxLink .running s) (ht : t.tables = s.tables) (hr : s.regs.EqButPending t.regs)
    (hm : ∀ e ∈ s.tx.slots, TxKept e.desc s.mem t.mem) (hplace : ∃ e ∈ s.tx.slots, e.desc = t.txw.cur)
    (hholds : t.txw.ps = 2 ∨ t.txw.ps = 3 ∨ t.txw.ps = 7 → ∃ e ∈ s.tx.slots, TxHeld t e) : TxLink .running t := by
  have etx : t.tx = s.tx := (tables_eq_iff.mp ht).2.2.2
  refine ⟨fun _ => ?_, fun h => absurd rfl h, fun _ i e he => ?_, fun _ e he ho => ?_, fun e he => ?_,
    fun _ => etx ▸ hplace, etx ▸ hholds⟩
  · obtain ⟨hne, hbase⟩ := h.head rfl
    exact ⟨etx ▸ hne, by rw [hr, txHead_congr (congrArg TxRing.slots etx)]; exact hbase⟩
  · rw [etx] at he
    exact (h.chain rfl i e he).congr (etx ▸ rfl) (hm e (List.mem_of_getElem? he))
  · rw [etx] at he
    exact h.queued (by simp) e he ((hm e he).owned ho)
  · rw [etx] at he
    exact fun b hb => ((hm e he).words 2 (by decide) (by decide)).trans (h.word2 e he b hb)

theorem TxwStepTo.regs (ht : TxwStepTo s t) : s.regs.EqButPending t.regs := by
  cases ht with
  | close => exact txwClose_regs ..
  | fetch => unfold txwFetch; dsimp only; split <;> rfl
  | _ => rfl

theorem TxwStepTo.rxw (ht : TxwStepTo s t) : t.rxw = s.rxw := by
  cases ht with
  | close => exact txwClose_rxw ..
  | fetch => unfold txwFetch; dsimp only; split <;> rfl
  | _ => rfl

/-- TXW gives back the descriptor it holds, its flags as they were. -/
theorem TxLink.stored (h : TxLink b s) (ht : TxwStepTo s t) : TxStored s t.mem := by
  cases ht with
  | none => exact .same
  | start => exact .same
  | fetch => rw [txwFetch_mem]; exact .same
  | emit => exact .same
  | read => exact .same
  | close _ hp =>
    obtain ⟨e, he, hheld⟩ := h.holds (.inr (.inr hp))
    rw [txwClose_mem, hheld.status, ← hheld.desc]
    exact .close he hheld.owned

/-- The descriptor TXW comes to after the one it holds is one of its ring (44_walker.md R289). -/
theorem TxLink.next_place {e : TxSlot} (hs : Sound s) (h : TxLink .running s) (he : e ∈ s.tx.slots)
    (hheld : TxHeld s e) : ∃ f ∈ s.tx.slots, f.desc =
      nextDesc (txTer s.txw.lat.w0) (txTch s.txw.lat.w0) s.txw.lat.next s.regs.dmatdlar s.txw.cur := by
  obtain ⟨i, hi⟩ := List.getElem?_of_mem he
  obtain ⟨hnext, hter, htch⟩ := h.chain rfl i e hi
  rw [hheld.status, hheld.next, hter, htch, hnext, nextDesc, if_pos rfl]
  split
  · obtain ⟨hne, hbase⟩ := h.head rfl
    obtain ⟨f, hf, hdesc⟩ := txHead_mem hne
    exact ⟨f, hf, by rw [hbase, ← hdesc, trunc8_of_aligned (hs.placed.txDesc f hf)]⟩
  · next hlast =>
    obtain ⟨f, hf, hdesc⟩ := txNext_mem hi (by simpa using hlast)
    exact ⟨f, hf, by rw [← hdesc, trunc8_of_aligned (hs.placed.txDesc f hf)]⟩

theorem TxLink.txwStep (hs : Sound s) (h : TxLink b s) (ht : TxwStepTo s t) (htab : t.tables = s.tables) :
    TxLink b t := by
  have hstored := h.stored ht
  have hregs := ht.regs
  have hmem (e : TxSlot) (he : e ∈ s.tx.slots) := hstored.tx hs he
  cases ht with
  | none => exact h
  | start _ hp hst =>
    obtain rfl := h.running (.inr hst)
    refine h.walk htab hregs hmem ?_ (by simp [txwStart])
    obtain ⟨hne, hbase⟩ := h.head rfl
    obtain ⟨f, hf, hdesc⟩ := txHead_mem hne
    refine ⟨f, hf, ?_⟩
    show f.desc = trunc8 s.regs.dmatdlar
    rw [hbase, ← hdesc, trunc8_of_aligned (hs.placed.txDesc f hf)]
  | fetch _ hp =>
    obtain rfl := h.running (.inl (by rw [hp]; decide))
    obtain ⟨e, he, hcur⟩ := h.place (by rw [hp]; decide)
    unfold txwFetch at htab hregs hmem ⊢
    dsimp only at htab hregs hmem ⊢
    split at htab
    · next ho =>
      rw [if_pos ho] at hregs hmem ⊢
      refine h.walk htab hregs hmem ⟨e, he, hcur⟩ fun _ => ?_
      rw [← hcur] at ho ⊢
      obtain ⟨buf, hbuf⟩ := Option.ne_none_iff_exists'.mp (h.queued (by simp) e he ho)
      exact ⟨e, he, rfl, ho, by rw [hbuf, State.setTxw_txw, h.word2 e he buf hbuf], rfl, rfl⟩
    · next ho =>
      rw [if_neg ho] at hregs hmem ⊢
      exact h.walk htab hregs hmem ⟨e, he, hcur⟩ (by simp)
  | emit _ hp =>
    obtain rfl := h.running (.inl (by rw [hp]; decide))
    obtain ⟨e, he, hheld⟩ := h.holds (.inl hp)
    exact h.walk htab hregs hmem ⟨e, he, hheld.desc⟩ fun _ => ⟨e, he, ⟨hheld.desc, hheld.owned, hheld.buf, hheld.status, hheld.next⟩⟩
  | read _ hp =>
    obtain rfl := h.running (.inl (by rw [hp]; decide))
    obtain ⟨e, he, hheld⟩ := h.holds (.inr (.inl hp))
    exact h.walk htab hregs hmem ⟨e, he, hheld.desc⟩ fun _ => ⟨e, he, ⟨hheld.desc, hheld.owned, hheld.buf, hheld.status, hheld.next⟩⟩
  | close _ hp =>
    obtain rfl := h.running (.inl (by rw [hp]; decide))
    obtain ⟨e, he, hheld⟩ := h.holds (.inr (.inr hp))
    refine h.walk htab hregs hmem ?_ (by simp [txwClose_txw])
    rw [txwClose_txw]
    exact h.next_place hs he hheld

/-! ### Every move -/

/-- HOST's own byte is in a Buffer (40_buffer.md R162). -/
theorem hostPoke_mem (addr : Word) (v : Byte) (s : State) :
    (hostPoke addr v s).mem = s.mem ∨
      ∃ b r, (b, r) ∈ s.bt ∧ ChangesIn (b.toNat, r.cap) s.mem (hostPoke addr v s).mem := by
  unfold hostPoke
  split
  · next hmay =>
    obtain ⟨⟨a, r⟩, hr, hin⟩ := List.any_eq_true.mp hmay
    simp only [Bool.and_eq_true, decide_eq_true_eq] at hin
    obtain ⟨⟨_, hlow⟩, hhigh⟩ := hin
    exact .inr ⟨a, r, hr, changesIn_write s.mem v ⟨hlow, hhigh⟩⟩
  · exact .inl rfl

/-- HOST's own byte is in no descriptor. -/
theorem hostPoke_sameDesc (hs : Sound s) (addr : Word) (v : Byte) :
    (∀ e ∈ s.rx.slots, SameDesc e.desc s.mem (hostPoke addr v s).mem) ∧
      (∀ e ∈ s.tx.slots, SameDesc e.desc s.mem (hostPoke addr v s).mem) ∧
      ∀ d, Fresh s Config.descBytes d → SameDesc d s.mem (hostPoke addr v s).mem := by
  rcases hostPoke_mem addr v s with hm | ⟨b, r, hr, hm⟩
  · rw [hm]
    exact ⟨fun _ _ => sameDesc_refl _ _, fun _ _ => sameDesc_refl _ _, fun _ _ => sameDesc_refl _ _⟩
  · exact ⟨fun e he => (hs.rxDesc he).sameDesc (hs.placed.buf_rx_apart hr he) hm,
      fun e he => (hs.txDesc he).sameDesc (hs.placed.buf_tx_apart hr he) hm,
      fun d hd => (RxStored.buffer hr hm).fresh hs hd⟩

theorem hostPoke_hardware (addr : Word) (v : Byte) (s : State) :
    (hostPoke addr v s).rxw = s.rxw ∧ (hostPoke addr v s).txw = s.txw ∧ (hostPoke addr v s).regs = s.regs := by
  unfold hostPoke
  split <;> exact ⟨rfl, rfl, rfl⟩

theorem links_hostPoke (hs : Sound s) (ha : a ≠ .alone) (hrx : RxLink a s) (htx : TxLink b s) (addr : Word) (v : Byte) :
    RxLink a (hostPoke addr v s) ∧ TxLink b (hostPoke addr v s) ∧ Kept s (hostPoke addr v s) := by
  have htab : (hostPoke addr v s).tables = s.tables := tables_applyMove (.poke addr v) s
  obtain ⟨erxw, etxw, eregs⟩ := hostPoke_hardware addr v s
  obtain ⟨hrxm, htxm, hfresh⟩ := hostPoke_sameDesc hs addr v
  have hregs : s.regs.EqButPending (hostPoke addr v s).regs := eregs ▸ .refl _
  exact ⟨hrx.other ha htab erxw hregs hrxm, htx.other htab etxw hregs htxm,
    ⟨htab, by rw [eregs], by rw [eregs], by rw [eregs], fun e he => (hrxm e he).rxKept,
      fun e he => (htxm e he).txKept, hfresh⟩⟩

theorem links_portWriteBusy (ha : a ≠ .alone) (hrx : RxLink a s) (htx : TxLink b s) (addr v : Word) :
    RxLink a (portWriteBusy addr v s) ∧ TxLink b (portWriteBusy addr v s) ∧ Kept s (portWriteBusy addr v s) := by
  unfold portWriteBusy
  split
  · exact ⟨hrx.other ha rfl rfl (.refl _) fun _ _ => sameDesc_refl _ _,
      htx.other rfl rfl (.refl _) fun _ _ => sameDesc_refl _ _, kept_of_same rfl rfl rfl⟩
  · exact ⟨hrx, htx, kept_of_same rfl rfl rfl⟩

/-- The links of both rings, and what a move of the others leaves, no reset being pending. -/
theorem links_applyMove (hs : Sound s) (hr : s.regs.resetPending = false) (ha : a ≠ .alone) (hrx : RxLink a s)
    (htx : TxLink b s) (m : Move) :
    RxLink a (applyMove m s) ∧ TxLink b (applyMove m s) ∧ Kept s (applyMove m s) := by
  have htab := tables_applyMove m s
  have hidle : RxLink a s ∧ TxLink b s ∧ Kept s s := ⟨hrx, htx, kept_of_same rfl rfl rfl⟩
  cases m with
  | qm => exact hidle
  | untilIdle => exact hidle
  | starve => exact hidle
  | rxw =>
    have hstep := rxwStep_to s
    have hm := hrx.stored hs hstep
    exact ⟨hrx.rxwStep hs ha hstep htab, htx.other htab hstep.txw hstep.regs fun e he => hm.tx hs he,
      kept_of_rxStored hs hm htab hstep.regs⟩
  | macRx bytes err =>
    refine ⟨hrx.macRxOffer ha bytes err, ?_⟩
    simp only [applyMove, macRxOffer] at htab ⊢
    split
    · exact ⟨htx.other rfl rfl (.refl _) fun _ _ => sameDesc_refl _ _, kept_of_same rfl rfl rfl⟩
    · exact hidle.2
  | txw =>
    have hstep := txwStep_to s
    have hm := htx.stored hstep
    exact ⟨hrx.other ha htab hstep.rxw hstep.regs fun e he => hm.rx hs he, htx.txwStep hs hstep htab,
      kept_of_txStored hs hm htab hstep.regs⟩
  | rst =>
    have hoff : applyMove .rst s = s := by rw [applyMove, rstStep, hr]; rfl
    rwa [hoff]
  | portWrite addr v => exact links_portWriteBusy ha hrx htx addr v
  | poke addr v => exact links_hostPoke hs ha hrx htx addr v

/-- RST clears both walkers and their start bits (70_reset_and_hazards.md R357); no ring is touched. -/
theorem links_rstStep (hr : s.regs.resetPending = true) (hb : b ≠ .starting) (hrx : RxLink a s) (htx : TxLink b s) :
    (rstStep s).regs.resetPending = false ∧ RxLink .stopped (rstStep s) ∧ TxLink .stopped (rstStep s) := by
  have hview := qmView_rstStep s
  have erx : (rstStep s).rx = s.rx := congrArg QmView.rx hview
  have etx : (rstStep s).tx = s.tx := congrArg QmView.tx hview
  have emem := rstStep_mem s
  have eregs : (rstStep s).regs = zeroRegs := by rw [rstStep, if_pos hr, withIrq_regs]; rfl
  have erxw : (rstStep s).rxw.ps = 0 := by rw [rstStep, if_pos hr, withIrq_rxw]; rfl
  have etxw : (rstStep s).txw.ps = 0 := by rw [rstStep, if_pos hr, withIrq_txw]; rfl
  refine ⟨by rw [eregs]; rfl, ?_, ?_⟩
  · exact ⟨fun h => absurd rfl h, fun _ => ⟨erxw, by rw [eregs]; rfl⟩, nofun, nofun, by rw [erx, emem]; exact hrx.word2,
      fun h => absurd erxw h, by rw [erxw]; simp⟩
  · exact ⟨nofun, fun _ => ⟨etxw, by rw [eregs]; rfl⟩, nofun, fun _ => by rw [etx, emem]; exact htx.queued hb,
      by rw [etx, emem]; exact htx.word2, fun h => absurd etxw h, by rw [etxw]; simp⟩

/-- While a reset is pending the walkers stand still, and RST alone ends it (R356). -/
theorem links_applyMove_pending (hs : Sound s) (hr : s.regs.resetPending = true) (ha : a ≠ .alone)
    (hb : b ≠ .starting) (hrx : RxLink a s) (htx : TxLink b s) (m : Move) :
    ((applyMove m s).regs.resetPending = true ∧ RxLink a (applyMove m s) ∧ TxLink b (applyMove m s)) ∨
      ((applyMove m s).regs.resetPending = false ∧ RxLink .stopped (applyMove m s) ∧
        TxLink .stopped (applyMove m s)) := by
  have hidle : s.regs.resetPending = true ∧ RxLink a s ∧ TxLink b s := ⟨hr, hrx, htx⟩
  cases m with
  | qm => exact .inl hidle
  | untilIdle => exact .inl hidle
  | starve => exact .inl hidle
  | rxw =>
    have hoff : applyMove .rxw s = s := by rw [applyMove, rxwStep, if_pos hr]
    rw [hoff]
    exact .inl hidle
  | macRx bytes err =>
    have hoff : applyMove (.macRx bytes err) s = s := by rw [applyMove, macRxOffer, hr, if_neg (by simp)]
    rw [hoff]
    exact .inl hidle
  | txw =>
    have hoff : applyMove .txw s = s := by rw [applyMove, txwStep, if_pos hr]
    rw [hoff]
    exact .inl hidle
  | rst => exact .inr (links_rstStep hr hb hrx htx)
  | portWrite addr v =>
    obtain ⟨hrx', htx', hkept⟩ := links_portWriteBusy ha hrx htx addr v
    exact .inl ⟨hkept.reset.trans hr, hrx', htx'⟩
  | poke addr v =>
    obtain ⟨hrx', htx', hkept⟩ := links_hostPoke hs ha hrx htx addr v
    exact .inl ⟨hkept.reset.trans hr, hrx', htx'⟩
end

end Sys2Proof.Machine
end

section
/-! PROOFS. The links at the points of a command (10_state.md R61, R62, R66): what QM relies on between its accesses, and
how a body may end. -/

namespace Sys2Proof.Machine

/-! ## The points of a command -/

/-- The tables of the state a command is issued in, or taken up again in. -/
structure Origin (o : State) : Prop where
  ranges : Tables.InRange o.tables .closed o.tables
  owned : Tables.Owned none o.tables
  hardware : o.HardwareInRange

theorem heap_fits {p : Config.Params} (h : p.wf = true) : p.heapBase + p.heapSize ≤ 2 ^ 32 := by
  simp only [Config.Params.wf, Bool.and_eq_true, decide_eq_true_eq] at h
  exact h.2

theorem txRingLen_pos {p : Config.Params} (h : p.wf = true) : 1 ≤ p.txRingLen := by
  simp only [Config.Params.wf, Bool.and_eq_true, decide_eq_true_eq] at h
  obtain ⟨⟨⟨⟨⟨⟨⟨_, hmin⟩, _⟩, _⟩, _⟩, _⟩, _⟩, _⟩ := h
  exact hmin

section
variable {o s t : State} {w : Word} {st st' : Stage}

theorem Run.ranges (h : Run o w st s) (ho : Origin o) : Tables.InRange o.tables st s.tables := h.tables.inRange ho.ranges

theorem Run.owned (h : Run o w st s) (ho : Origin o) : Tables.Owned st.looseBuf s.tables := h.tables.owned ho.owned

theorem Run.sound (h : Run o w st s) (ho : Origin o) : Sound s where
  wide := heap_fits (h.ranges ho).par
  placed := (h.owned ho).placed
  buffer e he := by
    obtain ⟨i, hi⟩ := List.getElem?_of_mem he
    obtain ⟨r, hr, _, hcap⟩ := (h.owned ho).claimed.rxBuf i e hi
    exact ⟨r, hr, hcap⟩
  size := (h.ranges ho).rx.size
  hardware := h.hardware ho.hardware

/-- A started ring is a running one. -/
def rxFlag (r : RxRing) : RxMode := if r.started then .running else .stopped

@[inherit_doc rxFlag] def txFlag (r : TxRing) : TxMode := if r.started then .running else .stopped

theorem rxFlag_ne_alone (r : RxRing) : rxFlag r ≠ .alone := by unfold rxFlag; split <;> simp

theorem txFlag_ne_starting (r : TxRing) : txFlag r ≠ .starting := by unfold txFlag; split <;> simp

/-- A point of a command's run at which both rings are linked as far as `a` and `b` say of them. -/
structure Linking (o : State) (w : Word) (st : Stage) (a : RxRing → RxMode) (b : TxRing → TxMode) (s : State) :
    Prop where
  origin : Origin o
  run : Run o w st s
  clear : s.regs.resetPending = false
  rx : RxLink (a s.rx) s
  tx : TxLink (b s.tx) s

/-- A point at which a command may end. -/
abbrev Settled (o : State) (w : Word) (s : State) : Prop := Linking o w .closed rxFlag txFlag s

/-- A point of the reset wait at which the reset is still pending. -/
structure Waiting (o : State) (w : Word) (s : State) : Prop where
  origin : Origin o
  run : Run o w .closed s
  pending : s.regs.resetPending = true
  rx : RxLink (rxFlag s.rx) s
  tx : TxLink (txFlag s.tx) s

/-- The run of a body that keeps the rings linked, answering where `ok` holds: wherever the command ends without a fatal
fault they are linked, and so they are in a reset wait. -/
abbrev Flow.Links (o : State) (w : Word) (ok : State → Prop) (f : Flow) : Prop :=
  f.Ends ok (Settled o w) (fun t => t.qm.isSome = true) fun t => t.starved = true ∨ Waiting o w t

theorem RxSame.of_eq (hslots : t.rx.slots = s.rx.slots) (hsize : t.rx.bufSize = s.rx.bufSize) (hrxw : t.rxw = s.rxw)
    (hbase : t.regs.dmardlar = s.regs.dmardlar) (hstart : t.regs.startRx = s.regs.startRx) (hm : t.mem = s.mem) :
    RxSame s t :=
  ⟨hslots, hsize, hrxw, hbase, hstart, fun _ _ _ _ _ => by rw [hm], fun _ _ h => by rwa [RxSlot.owned, hm]⟩

theorem TxSame.of_eq (hslots : t.tx.slots = s.tx.slots) (htxw : t.txw = s.txw)
    (hbase : t.regs.dmatdlar = s.regs.dmatdlar) (hstart : t.regs.startTx = s.regs.startTx) (hm : t.mem = s.mem) :
    TxSame s t :=
  ⟨hslots, htxw, hbase, hstart, fun _ _ => hm ▸ sameDesc_refl _ _⟩

/-- What the links speak of, but the rings' cursors and flags, is the same. -/
structure SameLinks (s t : State) : Prop where
  rxSlots : t.rx.slots = s.rx.slots
  rxSize : t.rx.bufSize = s.rx.bufSize
  txSlots : t.tx.slots = s.tx.slots
  rxw : t.rxw = s.rxw
  txw : t.txw = s.txw
  regs : t.regs = s.regs
  mem : t.mem = s.mem

theorem SameLinks.rx (h : SameLinks s t) : RxSame s t :=
  .of_eq h.rxSlots h.rxSize h.rxw (by rw [h.regs]) (by rw [h.regs]) h.mem

theorem SameLinks.tx (h : SameLinks s t) : TxSame s t :=
  .of_eq h.txSlots h.txw (by rw [h.regs]) (by rw [h.regs]) h.mem

namespace Linking

variable {a a' : RxRing → RxMode} {b b' : TxRing → TxMode}

theorem sound (h : Linking o w st a b s) : Sound s := h.run.sound h.origin

/-- An operation of QM that touches neither ring's descriptors, walker or base. -/
theorem same (h : Linking o w st a b s) (hrun : Run o w st' t) (hs : SameLinks s t) (ha : a' t.rx = a s.rx)
    (hb : b' t.tx = b s.tx) (hm : t.moves = s.moves) : Linking o w st' a' b' t :=
  ⟨h.origin, hrun, by rw [hs.regs]; exact h.clear,
    ha ▸ h.rx.congr hs.rx fun hq => quiet_of_moves (h.rx.alone hq) hm, hb ▸ h.tx.congr hs.tx⟩

/-- The modes are a matter of the rings, which the moves of the others leave. -/
theorem modes (h : Linking o w st a b s) (ha : a' s.rx = a s.rx) (hb : b' s.tx = b s.tx) : Linking o w st a' b' s :=
  ⟨h.origin, h.run, h.clear, ha ▸ h.rx, hb ▸ h.tx⟩

/-- The bookkeeping of the input and of QM's own record. -/
theorem besides (h : Linking o w st a b s) (hrun : Run o w st t) (ht : t.tables = s.tables) (hs : SameLinks s t)
    (hq : a s.rx = .alone → t.quiet = true) : Linking o w st a b t := by
  obtain ⟨_, _, erx, etx⟩ := tables_eq_iff.mp ht
  exact ⟨h.origin, hrun, by rw [hs.regs]; exact h.clear, by rw [erx]; exact h.rx.congr hs.rx hq,
    by rw [etx]; exact h.tx.congr hs.tx⟩

/-- From one point of a command to another, the other agents have moved, and QM has not. -/
theorem stable (ha : a s.rx ≠ .alone) : Stable fun t => Linking o w st a b t ∧ Kept s t where
  applyMove m t := fun ⟨h, hk⟩ => by
    obtain ⟨_, _, erx, _⟩ := tables_eq_iff.mp hk.tables
    obtain ⟨hrx, htx, hkept⟩ := links_applyMove h.sound h.clear (by rw [erx]; exact ha) h.rx h.tx m
    obtain ⟨_, _, erx', etx'⟩ := tables_eq_iff.mp hkept.tables
    exact ⟨⟨h.origin, h.run.applyMove m, hkept.reset.trans h.clear, by rw [erx']; exact hrx, by rw [etx']; exact htx⟩,
      hk.trans hkept⟩
  setMoves ms t := fun ⟨h, hk⟩ =>
    ⟨h.besides ((Run.stable o w st).setMoves ms t h.run) rfl ⟨rfl, rfl, rfl, rfl, rfl, rfl, rfl⟩ fun hq =>
        absurd ((congrArg a (tables_eq_iff.mp hk.tables).2.2.1.symm).trans hq) ha,
      hk.trans (kept_of_same rfl rfl rfl)⟩
  starve t := fun ⟨h, hk⟩ =>
    ⟨h.besides ((Run.stable o w st).starve t h.run) rfl ⟨rfl, rfl, rfl, rfl, rfl, rfl, rfl⟩ h.rx.alone,
      hk.trans (kept_of_same rfl rfl rfl)⟩
  countAccess t := fun ⟨h, hk⟩ =>
    ⟨h.besides ((Run.stable o w st).countAccess t h.run) rfl ⟨rfl, rfl, rfl, rfl, rfl, rfl, rfl⟩ h.rx.alone,
      hk.trans (kept_of_same rfl rfl rfl)⟩
  countPoll t := fun ⟨h, hk⟩ =>
    ⟨h.besides ((Run.stable o w st).countPoll t h.run) rfl ⟨rfl, rfl, rfl, rfl, rfl, rfl, rfl⟩ h.rx.alone,
      hk.trans (kept_of_same rfl rfl rfl)⟩

variable {ok : State → Prop} {next : State → Flow}

/-- QM's next access, the others having moved. -/
theorem access (h : Linking o w st a b s)
    (hn : ∀ t, Linking o w st a b t → Kept s t → (next t).Links o w ok) : (access s next).Links o w ok := by
  by_cases ha : a s.rx = .alone
  · rw [access_quiet next (h.rx.alone ha)]
    exact hn _ (h.besides ((Run.stable o w st).countAccess s h.run) rfl ⟨rfl, rfl, rfl, rfl, rfl, rfl, rfl⟩ h.rx.alone)
      (kept_of_same rfl rfl rfl)
  · exact (stable ha).access_ends ⟨h, kept_of_same rfl rfl rfl⟩
      (fun t ht => .inl (starve_starved ht.1.run.isSome)) fun t ht => hn t ht.1 ht.2

end Linking
end

/-! ## Registers -/

/-- A register whose writes touch no base register, no start bit and no reset. -/
def Reg.plain : Reg → Bool
  | .dmabmr | .dmardlar | .dmatdlar | .dmaomr => false
  | _ => true

section
variable {s : State} {m : RxMode} {m' : TxMode}

/-- A suspended walker that goes back to fetching keeps its place (44_walker.md R270). -/
theorem RxLink.poll (h : RxLink m s) : RxLink m (rxDemandPoll s) := by
  unfold rxDemandPoll
  split
  · next hp =>
    have hps : s.rxw.ps ≠ 0 := by rw [hp.2]; decide
    exact ⟨h.head, fun hm => absurd (h.stopped hm).1 hps, fun hm i e he => ⟨(h.chain hm i e he).next, (h.chain hm i e he).ctrl⟩,
      h.alone, h.word2, fun _ => h.place hps, by simp⟩
  · exact h

theorem TxLink.poll (h : TxLink m' s) : TxLink m' (txDemandPoll s) := by
  unfold txDemandPoll
  split
  · next hp =>
    have hps : s.txw.ps ≠ 0 := by rw [hp.2]; decide
    exact ⟨h.head, fun hm => absurd (h.stopped hm).1 hps,
      fun hm i e he => ⟨(h.chain hm i e he).next, (h.chain hm i e he).ter, (h.chain hm i e he).tch⟩,
      h.queued, h.word2, fun _ => h.place hps, by simp⟩
  · exact h

/-- The registers the links speak of are the same, and so is the pending reset. -/
structure Regs.SameBases (r r' : Regs) : Prop where
  rx : r'.dmardlar = r.dmardlar
  tx : r'.dmatdlar = r.dmatdlar
  reset : r'.resetPending = r.resetPending
  startRx : r'.startRx = r.startRx
  startTx : r'.startTx = r.startTx

theorem Regs.SameBases.of_eq {r r' : Regs} (h : r' = r) : r.SameBases r' := by
  subst h; exact ⟨rfl, rfl, rfl, rfl, rfl⟩

theorem rxDemandPoll_other (s : State) : (rxDemandPoll s).regs = s.regs ∧ (rxDemandPoll s).txw = s.txw := by
  unfold rxDemandPoll
  split <;> exact ⟨rfl, rfl⟩

theorem txDemandPoll_other (s : State) : (txDemandPoll s).regs = s.regs ∧ (txDemandPoll s).rxw = s.rxw := by
  unfold txDemandPoll
  split <;> exact ⟨rfl, rfl⟩

theorem regWrite_sameBases {r : Reg} (hr : r.plain = true) (v : Word) (s : State) :
    s.regs.SameBases (regWrite r v s).regs := by
  cases r with
  | maccr => exact ⟨rfl, rfl, rfl, rfl, rfl⟩
  | macffr => exact ⟨rfl, rfl, rfl, rfl, rfl⟩
  | macmiiar => exact ⟨rfl, rfl, rfl, rfl, rfl⟩
  | macfcr => exact ⟨rfl, rfl, rfl, rfl, rfl⟩
  | dmatpdr => exact .of_eq (txDemandPoll_other s).1
  | dmarpdr => exact .of_eq (rxDemandPoll_other s).1
  | dmasr => rw [regWrite, withIrq_regs]; exact ⟨rfl, rfl, rfl, rfl, rfl⟩
  | dmaier => rw [regWrite, withIrq_regs]; exact ⟨rfl, rfl, rfl, rfl, rfl⟩
  | dmabmr | dmardlar | dmatdlar | dmaomr => cases hr

theorem regWrite_dmardlar (v : Word) (s : State) :
    regWrite .dmardlar v s = s.setRegs { s.regs with dmardlar := v } := by
  have hv : v &&& Reg.fields .dmardlar = v := BitVec.and_allOnes
  rw [regWrite, hv]

theorem regWrite_dmatdlar (v : Word) (s : State) :
    regWrite .dmatdlar v s = s.setRegs { s.regs with dmatdlar := v } := by
  have hv : v &&& Reg.fields .dmatdlar = v := BitVec.and_allOnes
  rw [regWrite, hv]

theorem regWrite_rxw {r : Reg} (hr : r ≠ .dmarpdr) (v : Word) (s : State) : (regWrite r v s).rxw = s.rxw := by
  cases r with
  | dmarpdr => exact absurd rfl hr
  | dmatpdr => exact (txDemandPoll_other s).2
  | dmasr => rw [regWrite, withIrq_rxw]; rfl
  | dmaier => rw [regWrite, withIrq_rxw]; rfl
  | _ => rfl

theorem regWrite_txw {r : Reg} (hr : r ≠ .dmatpdr) (v : Word) (s : State) : (regWrite r v s).txw = s.txw := by
  cases r with
  | dmatpdr => exact absurd rfl hr
  | dmarpdr => exact (rxDemandPoll_other s).2
  | dmasr => rw [regWrite, withIrq_txw]; rfl
  | dmaier => rw [regWrite, withIrq_txw]; rfl
  | _ => rfl

section
variable {r : Reg} (v : Word)

/-- A register write that leaves the receive base and start bit leaves the receive side, but for the demand poll. -/
theorem RxLink.regWrite (h : RxLink m s) (hr : s.regs.SameBases (regWrite r v s).regs) : RxLink m (regWrite r v s) := by
  by_cases hp : r = .dmarpdr
  · subst hp; exact h.poll
  · obtain ⟨_, _, erx, _⟩ := tables_eq_iff.mp (tables_regWrite r v s)
    exact h.congr (.of_eq (by rw [erx]) (by rw [erx]) (regWrite_rxw hp v s) hr.rx hr.startRx (regWrite_mem ..))
      fun hm => quiet_of_moves (h.alone hm) (regWrite_moves ..)

theorem TxLink.regWrite (h : TxLink m' s) (hr : s.regs.SameBases (regWrite r v s).regs) : TxLink m' (regWrite r v s) := by
  by_cases hp : r = .dmatpdr
  · subst hp; exact h.poll
  · obtain ⟨_, _, _, etx⟩ := tables_eq_iff.mp (tables_regWrite r v s)
    exact h.congr (.of_eq (by rw [etx]) (regWrite_txw hp v s) hr.tx hr.startTx (regWrite_mem ..))
end
end

/-! ## The accesses of QM that keep the links -/

namespace Linking

variable {o s : State} {w : Word} {st : Stage} {a : RxRing → RxMode} {b : TxRing → TxMode} {ok : State → Prop}
  {next : State → Flow}

theorem regWrite (h : Linking o w st a b s) {r : Reg} {v : Word} (hr : s.regs.SameBases (regWrite r v s).regs) :
    Linking o w st a b (Machine.regWrite r v s) := by
  obtain ⟨_, _, erx, etx⟩ := tables_eq_iff.mp (tables_regWrite r v s)
  exact ⟨h.origin, h.run.regWrite r v, hr.reset.trans h.clear, by rw [erx]; exact h.rx.regWrite v hr,
    by rw [etx]; exact h.tx.regWrite v hr⟩

theorem qmRegWrite (h : Linking o w st a b s) {r : Reg} {v : Word} (hr : r.plain = true)
    (hn : ∀ t, Linking o w st a b t → (next t).Links o w ok) : (qmRegWrite r v s next).Links o w ok :=
  h.access fun t ht _ => hn _ (ht.regWrite (regWrite_sameBases hr v t))

theorem qmRegField (h : Linking o w st a b s) {r : Reg} {mask v : Word}
    (hr : ∀ t : State, t.regs.SameBases (regField r mask v t).regs)
    (hn : ∀ t, Linking o w st a b t → (next t).Links o w ok) : (qmRegField r mask v s next).Links o w ok :=
  h.access fun t ht _ => hn _ (ht.regWrite (hr t))

theorem qmEmit (h : Linking o w st a b s) {e : Event}
    (hn : ∀ t, Linking o w st a b t → Kept s t → (next t).Links o w ok) : (qmEmit e s next).Links o w ok :=
  h.access fun t ht hk => hn _
    (ht.same (t := emit e t) (ht.run.same rfl ⟨rfl, rfl, rfl, rfl, rfl⟩) ⟨rfl, rfl, rfl, rfl, rfl, rfl, rfl⟩ rfl rfl rfl)
    (hk.trans (kept_of_same rfl rfl rfl))

/-! ## Commands that touch no ring -/

theorem withHostBuffer {k : BufRec → State → Flow} (h : Settled o w s)
    (hk : ∀ r, btFind s.bt (operandA s) = some r → r.owner = .host → (k r s).Links o w ok) :
    (withHostBuffer s k).Links o w ok := by
  unfold Machine.withHostBuffer
  split
  · next r hr =>
    unfold hostBuffer at hr
    split at hr
    · next r' hf =>
      split at hr
      · next ho => cases hr; exact hk _ hf ho
      · cases hr
    · cases hr
  · exact h

/-- Where a body has changed the Buffer table and the oracle alone. -/
def Unrung (s t : State) : Prop := t = (s.setBt t.bt).setHeap t.heap

theorem unrung (h : Settled o w s) {t : State} (hrun : Run o w .closed t) (ht : Unrung s t) : Settled o w t := by
  rw [ht] at hrun ⊢
  exact h.same hrun ⟨rfl, rfl, rfl, rfl, rfl, rfl, rfl⟩ rfl rfl rfl

/-- A body without accesses that keeps off the rings. -/
theorem of_unrung (h : Settled o w s) {f : Flow} (hrun : f.Runs o w false (Run o w .closed))
    (hf : f.Ends (Unrung s) (Unrung s) (Unrung s) fun _ => False) : f.Links o w (Settled o w) := by
  cases f with
  | ok r0 r1 t => exact h.unrung hrun hf
  | stop c t => exact h.unrung hrun hf
  | fatal k t =>
    obtain ⟨_, _, hrun⟩ := hrun
    exact hrun.isSome
  | wait t => exact hf.elim

theorem unrung_alloc {held : List Region} {size : Nat} {x : Option Word} {t : State}
    (ha : alloc held size s = (x, t)) : Unrung s t := by
  cases x with
  | none => rw [alloc_none ha]; rfl
  | some d => rw [(alloc_some ha).2]; rfl

theorem bufNewBody (h : Settled o w s) (cap : Nat) : (bufNewBody cap s).Links o w (Settled o w) := by
  refine h.of_unrung (h.run.bufNewBody cap) ?_
  unfold Machine.bufNewBody
  split
  · rfl
  split
  · next ha => exact unrung_alloc ha
  · next ha =>
    have ht := unrung_alloc ha
    unfold Unrung at ht
    show _ = _
    rw [ht]
    rfl

theorem bufSetlenBody (h : Settled o w s) (len : Nat) : (bufSetlenBody len s).Links o w (Settled o w) := by
  refine h.of_unrung (h.run.bufSetlenBody len) ?_
  unfold Machine.bufSetlenBody Machine.withHostBuffer
  split
  · dsimp only
    split <;> rfl
  · rfl

theorem bufInfoBody (h : Settled o w s) : (bufInfoBody s).Links o w (Settled o w) :=
  h.withHostBuffer fun _ _ _ => h

theorem bufFreeBody (h : Settled o w s) : (bufFreeBody s).Links o w (Settled o w) := by
  refine h.of_unrung h.run.bufFreeBody ?_
  unfold Machine.bufFreeBody Machine.withHostBuffer
  split <;> rfl

theorem rxPollBody (h : Settled o w s) : (rxPollBody s).Links o w (Settled o w) := h.qmRegWrite rfl fun _ h => h

theorem rxStateBody (h : Settled o w s) : (rxStateBody s).Links o w (Settled o w) := h.access fun _ h _ => h

theorem txStateBody (h : Settled o w s) : (txStateBody s).Links o w (Settled o w) := h.access fun _ h _ => h

theorem txPollBody (h : Settled o w s) : (txPollBody s).Links o w (Settled o w) := h.qmRegWrite rfl fun _ h => h

theorem txQlenScan (h : Settled o w s) (es : List TxSlot) (n : Nat) : (txQlenScan es n s).Links o w (Settled o w) := by
  induction es generalizing s n with
  | nil => exact h
  | cons e es ih => exact h.access fun _ ht _ => ih ht _

theorem irqEnableBody (h : Settled o w s) : (irqEnableBody s).Links o w (Settled o w) :=
  h.qmRegField (fun t => regWrite_sameBases rfl _ t) fun _ h => h.access fun t ht _ => by
    have hirq : Settled o w (t.setNvic true) :=
      ht.same (ht.run.same rfl ⟨rfl, rfl, rfl, rfl, rfl⟩) ⟨rfl, rfl, rfl, rfl, rfl, rfl, rfl⟩ rfl rfl rfl
    show Settled o w (withIrq (fun t => t.setNvic true) t)
    unfold withIrq
    split
    · exact hirq
    · exact hirq.same (t := emit _ _) (hirq.run.same rfl ⟨rfl, rfl, rfl, rfl, rfl⟩) ⟨rfl, rfl, rfl, rfl, rfl, rfl, rfl⟩
        rfl rfl rfl

theorem irqAckBody (h : Settled o w s) : (irqAckBody s).Links o w (Settled o w) := h.qmRegWrite rfl fun _ h => h

theorem phyStatusBody (h : Settled o w s) : (phyStatusBody s).Links o w (Settled o w) :=
  have hdraw : Settled o w (s.setDraws (s.draws + 1)) :=
    h.same (h.run.same rfl ⟨rfl, rfl, rfl, rfl, rfl⟩) ⟨rfl, rfl, rfl, rfl, rfl, rfl, rfl⟩ rfl rfl rfl
  hdraw.qmEmit fun _ h _ => h

end Linking

end Sys2Proof.Machine
end

section
/-! PROOFS. The receive ring commands keep the rings linked (10_state.md R61, R62, R66; 41_rx_ring.md R171 to R191):
`RX_START` lays the chain before it starts RXW, and `RX_RECV` touches software-owned descriptors alone. -/

namespace Sys2Proof.Machine

section
variable {s t : State} {m : RxMode}

/-! ## The descriptors' addresses in the table -/

theorem rxHead_eq (s : State) : rxHead s = (s.rx.slots.map (·.desc)).head?.getD 0 := by
  unfold rxHead
  split
  · next h => rw [h]; rfl
  · next h => rw [h]; rfl

theorem rxNext_eq (s : State) (i : Nat) : rxNext s i = ((s.rx.slots.map (·.desc))[i + 1]?).getD 0 := by
  rw [rxNext, List.getElem?_map]

theorem rxHead_of_descs (h : t.rx.slots.map (·.desc) = s.rx.slots.map (·.desc)) : rxHead t = rxHead s := by
  rw [rxHead_eq, rxHead_eq, h]

theorem rxNext_of_descs (h : t.rx.slots.map (·.desc) = s.rx.slots.map (·.desc)) (i : Nat) :
    rxNext t i = rxNext s i := by
  rw [rxNext_eq, rxNext_eq, h]

theorem rxDesc_of_descs {l l' : List RxSlot} (h : l'.map (·.desc) = l.map (·.desc)) {c : Word}
    (hc : ∃ e ∈ l, e.desc = c) : ∃ e ∈ l', e.desc = c := by
  have hmem : c ∈ l.map (·.desc) := List.mem_map.mpr hc
  rw [← h] at hmem
  exact List.mem_map.mp hmem

/-! ## Stores of QM -/

theorem RxSame.of_desc {m' : Memory} (h : ∀ e ∈ s.rx.slots, SameDesc e.desc s.mem m') : RxSame s (s.setMem m') :=
  ⟨rfl, rfl, rfl, rfl, rfl, fun e he k _ hk => h e he k hk, fun e he ho => by
    rw [RxSlot.owned, State.setMem_mem, h e he 0 (by decide)]; exact ho⟩

theorem TxSame.of_desc {m' : Memory} (h : ∀ e ∈ s.tx.slots, SameDesc e.desc s.mem m') : TxSame s (s.setMem m') :=
  ⟨rfl, rfl, rfl, rfl, h⟩

namespace Linking

variable {o : State} {w : Word} {st : Stage} {a : RxRing → RxMode} {b : TxRing → TxMode} {ok : State → Prop}
  {next : State → Flow}

theorem store {m' : Memory} (h : Linking o w st a b s) (hrx : RxSame s (s.setMem m')) (htx : TxSame s (s.setMem m')) :
    Linking o w st a b (s.setMem m') :=
  ⟨h.origin, h.run.same rfl ⟨rfl, rfl, rfl, rfl, rfl⟩, h.clear,
    h.rx.congr hrx fun hq => quiet_of_moves (h.rx.alone hq) rfl, h.tx.congr htx⟩

theorem allocSome {held : List Region} {size : Nat} {d : Word} (h : Linking o w st a b s)
    (ha : alloc held size s = (some d, t)) : Linking o w st a b t := by
  have hrun := h.run.allocSome ha
  rw [(alloc_some ha).2] at hrun ⊢
  exact h.same hrun ⟨rfl, rfl, rfl, rfl, rfl, rfl, rfl⟩ rfl rfl rfl

/-- A store into a descriptor that is in no table yet. -/
theorem qmWriteFresh {d v : Word} {k : Nat} (h : Linking o w st a b s) (hd : Fresh s Config.descBytes d) (hk : k < 4)
    (hn : ∀ t, Linking o w st a b t → t.tables = s.tables →
      (∀ j < 4, t.mem.read32 (descWord d j) = if j = k then v else s.mem.read32 (descWord d j)) →
      (next t).Links o w ok) : (qmWrite (descWord d k) v s next).Links o w ok :=
  h.access fun t ht hkept => by
    have hdt := fresh_congr hkept.tables hd
    have hs := ht.sound
    refine hn _ (ht.store (.of_desc fun e he => hs.fresh_write_rx hdt he _ v hk)
      (.of_desc fun e he => hs.fresh_write_tx hdt he _ v hk)) hkept.tables fun j hj => ?_
    rw [State.setMem_mem, (hs.freshDesc hdt).read_write _ _ hk hj, hkept.fresh d hd j hj]

end Linking

/-! ## RX_NEW -/

theorem RxLink.not_started (h : RxLink (rxFlag s.rx) s) (hnil : s.rx.slots = []) : s.rx.started = false := by
  by_contra hs
  rw [Bool.not_eq_false] at hs
  exact (h.head (by rw [rxFlag, hs]; simp)).1 hnil

theorem RxLink.emptied (h : RxLink .stopped s) (r : RxRing) (hr : r.slots = []) : RxLink .stopped (s.setRx r) := by
  obtain ⟨hps, hoff⟩ := h.stopped rfl
  exact ⟨fun h => absurd rfl h, fun _ => ⟨hps, hoff⟩, nofun, nofun, by simp [hr], fun hp => absurd hps hp,
    by simp [hps]⟩

theorem rxFlag_of_not_started {r : RxRing} (h : r.started = false) : rxFlag r = .stopped := by rw [rxFlag, h]; rfl

theorem rxFlag_of_started {r : RxRing} (h : r.started = true) : rxFlag r = .running := by rw [rxFlag, h]; rfl

namespace Linking

variable {o : State} {w : Word}

theorem rxNewBody (h : Settled o w s) (size : Nat) : (rxNewBody size s).Links o w (Settled o w) := by
  have hrun := h.run.rxNewBody (resets := false) size
  unfold Machine.rxNewBody at hrun ⊢
  split
  · exact h
  next hc =>
  rw [if_neg hc] at hrun
  split
  · exact h
  next hsize =>
  rw [if_neg hsize] at hrun
  have hnil := (h.run.owned h.origin).claimed.rxUnmade (Bool.eq_false_iff.mpr hc)
  have hstopped := rxFlag_of_not_started (h.rx.not_started hnil)
  exact ⟨h.origin, hrun, h.clear, (hstopped ▸ h.rx).emptied _ rfl, h.tx.congr (.of_eq rfl rfl rfl rfl rfl)⟩

end Linking

/-! ## RX_START -/

/-- A new entry whose word 2 names its Buffer (41_rx_ring.md R174). -/
theorem RxLink.append {d b : Word} (h : RxLink m s) (hm : m ≠ .running) (hw : s.mem.read32 (descWord d 2) = b) :
    RxLink m (s.setRx { s.rx with slots := s.rx.slots ++ [{ desc := d, buf := b }] }) where
  head hne := by
    obtain ⟨hnil, hbase⟩ := h.head hne
    refine ⟨List.append_ne_nil_of_left_ne_nil hnil _, ?_⟩
    show s.regs.dmardlar = _
    rw [hbase, rxHead_eq, rxHead_eq, State.setRx_rx, List.map_append, List.head?_append_of_ne_nil _ (by simpa using hnil)]
  stopped := h.stopped
  chain hr := absurd hr hm
  alone := h.alone
  word2 e he := by
    rcases List.mem_append.mp he with he | he
    · exact h.word2 e he
    · obtain rfl := List.mem_singleton.mp he; exact hw
  place hp := by
    obtain ⟨e, he, hdesc⟩ := h.place hp
    exact ⟨e, List.mem_append_left _ he, hdesc⟩
  holds hp := by
    obtain ⟨e, he, hheld⟩ := h.holds hp
    refine ⟨e, List.mem_append_left _ he, hheld.desc, hheld.owned, hheld.buf, hheld.size, ?_⟩
    exact hheld.next.imp_right (And.imp_right fun ⟨f, hf, hdesc⟩ => ⟨f, List.mem_append_left _ hf, hdesc⟩)

/-- What is linked stays so when an entry is given its link (R176). -/
theorem RxLinked.write_next {i j : Nat} {e f : RxSlot} (hs : Sound s) (he : s.rx.slots[i]? = some e)
    (hf : s.rx.slots[j]? = some f) (h : RxLinked s j f) :
    RxLinked (s.setMem (s.mem.write32 (descWord e.desc 3) (rxNext s i))) j f := by
  by_cases hij : i = j
  · subst hij
    obtain rfl : e = f := Option.some.inj (he.symm.trans hf)
    have hd := hs.rxDesc (List.mem_of_getElem? he)
    refine ⟨read32_write32_same .., ?_⟩
    show (s.mem.write32 _ _).read32 _ = _
    rw [hd.read_write _ _ (by decide) (by decide), if_neg (by decide)]
    exact h.ctrl
  · exact h.congr rfl rfl fun k _ hk => hs.rx_write_rx he hf hij _ _ (by decide) k hk

theorem RxLinked.write_ctrl {i j : Nat} {e f : RxSlot} (hs : Sound s) (he : s.rx.slots[i]? = some e)
    (hf : s.rx.slots[j]? = some f) (h : RxLinked s j f) :
    RxLinked (s.setMem (s.mem.write32 (descWord e.desc 1)
      (rxCtrl (decide (i + 1 = s.rx.slots.length)) s.rx.bufSize))) j f := by
  by_cases hij : i = j
  · subst hij
    obtain rfl : e = f := Option.some.inj (he.symm.trans hf)
    have hd := hs.rxDesc (List.mem_of_getElem? he)
    refine ⟨?_, read32_write32_same ..⟩
    show (s.mem.write32 _ _).read32 _ = _
    rw [hd.read_write _ _ (by decide) (by decide), if_neg (by decide)]
    exact h.next
  · exact h.congr rfl rfl fun k _ hk => hs.rx_write_rx he hf hij _ _ (by decide) k hk

/-- A store into word 1 or 3 of a receive entry that leaves a running ring a chain. -/
theorem RxLink.relink {i k : Nat} {e : RxSlot} {v : Word} (hs : Sound s) (h : RxLink m s)
    (he : s.rx.slots[i]? = some e) (hk : k = 1 ∨ k = 3)
    (hlink : m = .running → ∀ j f, s.rx.slots[j]? = some f → RxLinked s j f →
      RxLinked (s.setMem (s.mem.write32 (descWord e.desc k) v)) j f) :
    RxLink m (s.setMem (s.mem.write32 (descWord e.desc k) v)) := by
  have hk4 : k < 4 := by omega
  have hkeep (f : RxSlot) (hf : f ∈ s.rx.slots) (n : Nat) (hn : n < 4) (hkn : n ≠ k) :
      (s.mem.write32 (descWord e.desc k) v).read32 (descWord f.desc n) = s.mem.read32 (descWord f.desc n) := by
    obtain ⟨j, hj⟩ := List.getElem?_of_mem hf
    by_cases hij : i = j
    · obtain rfl : e = f := Option.some.inj (he.symm.trans (hij ▸ hj))
      rw [(hs.rxDesc hf).read_write _ _ hk4 hn, if_neg hkn]
    · exact hs.rx_write_rx he hj hij _ _ hk4 n hn
  refine ⟨h.head, h.stopped, fun hr j f hf => hlink hr j f hf (h.chain hr j f hf), h.alone,
    fun f hf => (hkeep f hf 2 (by decide) (by omega)).trans (h.word2 f hf), h.place, fun hp => ?_⟩
  obtain ⟨f, hf, hheld⟩ := h.holds hp
  refine ⟨f, hf, hheld.desc, ?_, hheld.buf, hheld.size, hheld.next⟩
  rw [RxSlot.owned, State.setMem_mem, hkeep f hf 0 (by decide) (by omega)]
  exact hheld.owned

/-- The base register written with the head of the ring (R177). -/
theorem RxLink.setBase (h : RxLink m s) (hne : s.rx.slots ≠ []) :
    RxLink m (s.setRegs { s.regs with dmardlar := rxHead s }) :=
  ⟨fun _ => ⟨hne, rfl⟩, h.stopped, fun hr i e he => ⟨(h.chain hr i e he).next, (h.chain hr i e he).ctrl⟩, h.alone, h.word2, h.place,
    fun hp => by
      obtain ⟨e, he, hheld⟩ := h.holds hp
      exact ⟨e, he, hheld.desc, hheld.owned, hheld.buf, hheld.size, hheld.next⟩⟩

/-- RXW may start on a ring that is a chain from its base register on (R177). -/
theorem RxLink.launch {r : Regs} (h : RxLink m s) (hne : s.rx.slots ≠ []) (hbase : r.dmardlar = rxHead s)
    (hchain : ∀ i e, s.rx.slots[i]? = some e → RxLinked s i e) : RxLink .running (s.setRegs r) :=
  ⟨fun _ => ⟨hne, hbase⟩, nofun, fun _ i e he => ⟨(hchain i e he).next, (hchain i e he).ctrl⟩, nofun, h.word2, h.place,
    fun hp => by
      obtain ⟨e, he, hheld⟩ := h.holds hp
      exact ⟨e, he, hheld.desc, hheld.owned, hheld.buf, hheld.size, hheld.next⟩⟩

theorem startTx_of_startRx (r : Regs) :
    Regs.startTx { r with dmaomr := ((r.dmaomr &&& ~~~OMR_SR) ||| (OMR_SR &&& OMR_SR)) &&& Reg.fields .dmaomr } =
      r.startTx := by
  simp [Regs.startTx, bit, OMR_SR, Reg.fields]

/-- A point of `RX_START` before the ring is registered (R174). -/
structure Growing (o : State) (w : Word) (m : RxMode) (N n : Nat) (s : State) : Prop where
  grow : Run.Growable o w N n s
  link : Linking o w .closed (fun _ => m) txFlag s

namespace Linking

variable {o : State} {w : Word}

theorem rxGrowOne {N n : Nat} (hm : m ≠ .running) (h : Growing o w m N (n + 1) s) :
    (rxGrowOne s).Links o w (Growing o w m N n) := by
  unfold Machine.rxGrowOne
  dsimp only
  split
  · next ha => exact (h.link.run.allocNone ha).isSome
  next d s1 hd =>
  obtain ⟨hfresh, _, e1⟩ := fresh_of_alloc hd
  have hfresh1 := fresh_congr e1 hfresh
  refine (h.link.allocSome hd).qmWriteFresh hfresh1 (by decide) fun s2 h2 e2 _ => ?_
  have hfresh2 := fresh_congr e2 hfresh1
  refine h2.qmWriteFresh hfresh2 (by decide) fun s3 h3 e3 _ => ?_
  have hfresh3 := fresh_congr e3 hfresh2
  refine h3.qmWriteFresh hfresh3 (by decide) fun s4 h4 e4 _ => ?_
  have hfresh4 := fresh_congr e4 hfresh3
  refine h4.qmWriteFresh hfresh4 (by decide) fun s5 h5 e5 _ => ?_
  replace e5 : s5.tables = s.tables := e5.trans (e4.trans (e3.trans (e2.trans e1)))
  split
  · next ha => exact (h5.run.allocNone ha).isSome
  next b s6 hb =>
  have hgraft := (h.grow.same h5.run e5).graft (fresh_congr e5 hfresh) hb
  have h6 := (h5.allocSome hb).same (a' := fun _ => m) (b' := txFlag) hgraft.run ⟨rfl, rfl, rfl, rfl, rfl, rfl, rfl⟩
    rfl rfl rfl
  rw [(tables_eq_iff.mp e5).2.2.1] at hgraft h6
  refine h6.qmWriteFresh hgraft.fresh (by decide) fun s7 h7 e7 w7 => ?_
  have hgraft7 := hgraft.same h7.run e7
  refine h7.qmWriteFresh hgraft7.fresh (by decide) fun s8 h8 e8 w8 => ?_
  have hgraft8 := hgraft7.same h8.run e8
  refine h8.qmWriteFresh hgraft8.fresh (by decide) fun s9 h9 e9 w9 => ?_
  have hword : s9.mem.read32 (descWord d 2) = b := by
    rw [w9 2 (by decide), if_neg (by decide), w8 2 (by decide), if_neg (by decide), w7 2 (by decide), if_pos rfl]
  have happ := (hgraft8.same h9.run e9).append
  exact ⟨happ, h9.origin, happ.run, h9.clear, h9.rx.append hm hword, h9.tx.congr (.of_eq rfl rfl rfl rfl rfl)⟩

theorem rxGrow {N n : Nat} (hm : n = 0 ∨ m ≠ .running) (h : Growing o w m N n s) :
    (rxGrow n s).Links o w (Growing o w m N 0) := by
  induction n generalizing s with
  | zero => exact h
  | succ n ih =>
    have hm : m ≠ .running := hm.resolve_left (by simp)
    exact (rxGrowOne hm h).andThen fun _ _ _ ht => ih (.inr hm) ht

theorem relink {i k : Nat} {e : RxSlot} {v : Word} (h : Linking o w .closed (fun _ => m) txFlag s)
    (he : s.rx.slots[i]? = some e) (hk : k = 1 ∨ k = 3)
    (hlink : ∀ j f, s.rx.slots[j]? = some f → RxLinked s j f →
      RxLinked (s.setMem (s.mem.write32 (descWord e.desc k) v)) j f) :
    Linking o w .closed (fun _ => m) txFlag (s.setMem (s.mem.write32 (descWord e.desc k) v)) := by
  have hs := h.sound
  have hk4 : k < 4 := by omega
  exact ⟨h.origin, h.run.same rfl ⟨rfl, rfl, rfl, rfl, rfl⟩, h.clear, h.rx.relink hs he hk fun _ => hlink,
    h.tx.congr (.of_desc fun f hf => hs.rx_write_tx (List.mem_of_getElem? he) hf _ _ hk4)⟩

/-- What phase 2 of `RX_START` has done when it comes to entry `i` (R176). -/
structure Relinking (o : State) (w : Word) (m : RxMode) (l : List RxSlot) (i : Nat) (s : State) : Prop where
  link : Linking o w .closed (fun _ => m) txFlag s
  table : s.rx.slots = l
  linked : ∀ j e, j < i → l[j]? = some e → RxLinked s j e

/-- Half way through entry `i`: word 3 is written, word 1 not yet. -/
structure Relinking.Half (o : State) (w : Word) (m : RxMode) (l : List RxSlot) (i : Nat) (e : RxSlot) (s : State) :
    Prop extends Relinking o w m l i s where
  entry : l[i]? = some e
  next : s.mem.read32 (descWord e.desc 3) = rxNext s i

theorem Relinking.kept {l : List RxSlot} {i : Nat} (h : Relinking o w m l i s)
    (ht : Linking o w .closed (fun _ => m) txFlag t) (hk : Kept s t) : Relinking o w m l i t := by
  have erx : t.rx = s.rx := (tables_eq_iff.mp hk.tables).2.2.1
  refine ⟨ht, erx ▸ h.table, fun j e hj he => (h.linked j e hj he).congr (erx ▸ rfl) (erx ▸ rfl) ?_⟩
  exact (hk.rx e (h.table ▸ List.mem_of_getElem? he)).words

theorem Relinking.half {l : List RxSlot} {i : Nat} {e : RxSlot} (h : Relinking o w m l i s) (he : l[i]? = some e) :
    Relinking.Half o w m l i e (s.setMem (s.mem.write32 (descWord e.desc 3) (rxNext s i))) := by
  have hes : s.rx.slots[i]? = some e := by rw [h.table]; exact he
  refine ⟨⟨h.link.relink hes (.inr rfl) fun j f hf hl => hl.write_next h.link.sound hes hf, h.table,
    fun j f hj hf => ?_⟩, he, ?_⟩
  · exact (h.linked j f hj hf).write_next h.link.sound hes (by rw [h.table]; exact hf)
  · rw [State.setMem_mem, read32_write32_same]
    rfl

theorem Relinking.Half.whole {l : List RxSlot} {i : Nat} {e : RxSlot} (h : Relinking.Half o w m l i e s) :
    Relinking o w m l (i + 1)
      (s.setMem (s.mem.write32 (descWord e.desc 1) (rxCtrl (decide (i + 1 = l.length)) s.rx.bufSize))) := by
  have hes : s.rx.slots[i]? = some e := by rw [h.table]; exact h.entry
  have hlen : l.length = s.rx.slots.length := by rw [h.table]
  rw [hlen]
  refine ⟨h.link.relink hes (.inl rfl) fun j f hf hl => hl.write_ctrl h.link.sound hes hf, h.table,
    fun j f hj hf => ?_⟩
  rcases Nat.lt_succ_iff_lt_or_eq.mp hj with hlt | rfl
  · exact (h.linked j f hlt hf).write_ctrl h.link.sound hes (by rw [h.table]; exact hf)
  · obtain rfl : e = f := Option.some.inj (h.entry.symm.trans hf)
    refine ⟨?_, ?_⟩
    · rw [State.setMem_mem, (h.link.sound.rxDesc (List.mem_of_getElem? hes)).read_write _ _ (by decide) (by decide),
        if_neg (by decide)]
      exact h.next
    · rw [State.setMem_mem, read32_write32_same]
      rfl

theorem rxRelink_cons (e : RxSlot) (es : List RxSlot) (s : State) :
    Machine.rxRelink (e :: es) s =
      qmWrite (descWord e.desc 3) ((es.head?.map (·.desc)).getD 0) s fun s =>
      qmWrite (descWord e.desc 1) (rxCtrl es.isEmpty s.rx.bufSize) s fun s => Machine.rxRelink es s := by
  cases es <;> rfl

theorem rxRelink {l es : List RxSlot} {i : Nat} (h : Relinking o w m l i s) (hes : l.drop i = es) :
    (rxRelink es s).Links o w (Relinking o w m l l.length) := by
  induction es generalizing s i with
  | nil =>
    have hlen := List.drop_eq_nil_iff.mp hes
    exact ⟨h.link, h.table, fun j e hj => h.linked j e (Nat.lt_of_lt_of_le hj hlen)⟩
  | cons e es ih =>
    have he : l[i]? = some e := by rw [← List.head?_drop, hes]; rfl
    have hrest : l.drop (i + 1) = es := by rw [← List.tail_drop, hes]; rfl
    have hlast : es.isEmpty = decide (i + 1 = l.length) := by
      have hi := (List.getElem?_eq_some_iff.mp he).1
      rw [← hrest, Bool.eq_iff_iff, List.isEmpty_iff, List.drop_eq_nil_iff, decide_eq_true_eq]
      omega
    rw [rxRelink_cons, hlast]
    refine h.link.access fun t ht hk => ?_
    have htr := h.kept ht hk
    have hnext : (es.head?.map (·.desc)).getD 0 = rxNext t i := by
      rw [rxNext, htr.table, ← List.head?_drop, hrest]
    rw [hnext]
    refine (htr.half he).link.access fun u hu hk' => ?_
    have hur := (htr.half he).toRelinking.kept hu hk'
    have hhalf : Relinking.Half o w m l i e u := by
      refine ⟨hur, he, ?_⟩
      have hmem : e ∈ t.rx.slots := htr.table ▸ List.mem_of_getElem? he
      rw [(hk'.rx e hmem).words 3 (by decide) (by decide), (htr.half he).next]
      exact (rxNext_congr (hur.table.trans htr.table.symm) i).symm
    have hsize : (t.setMem (t.mem.write32 (descWord e.desc 3) (rxNext t i))).rx.bufSize = u.rx.bufSize := by
      rw [(tables_eq_iff.mp hk'.tables).2.2.1]
    rw [hsize]
    exact ih hhalf.whole hrest

/-- The ring is a chain, whatever its flag says (R176). -/
structure Chained (o : State) (w : Word) (m : RxMode) (s : State) : Prop where
  link : Linking o w .closed (fun _ => m) txFlag s
  nonempty : s.rx.slots ≠ []
  linked : ∀ i e, s.rx.slots[i]? = some e → RxLinked s i e

theorem Chained.kept (h : Chained o w m s) (ht : Linking o w .closed (fun _ => m) txFlag t) (hk : Kept s t) :
    Chained o w m t := by
  have erx : t.rx = s.rx := (tables_eq_iff.mp hk.tables).2.2.1
  refine ⟨ht, erx ▸ h.nonempty, fun i e he => ?_⟩
  rw [erx] at he
  exact (h.linked i e he).congr (erx ▸ rfl) (erx ▸ rfl) (hk.rx e (List.mem_of_getElem? he)).words

theorem rxRegister (h : Linking o w .closed (fun _ => m) txFlag s) (hne : s.rx.slots ≠ []) :
    (rxRegister s).Links o w (Settled o w) := by
  have hstart : Relinking o w m s.rx.slots 0 s := ⟨h, rfl, fun j e hj => absurd hj (Nat.not_lt_zero j)⟩
  refine (rxRelink hstart rfl).andThen fun _ _ t ht => ?_
  have htc : Chained o w m t := ⟨ht.link, ht.table ▸ hne, fun i e he => by
    rw [ht.table] at he
    exact ht.linked i e (List.getElem?_eq_some_iff.mp he).1 he⟩
  refine htc.link.access fun u hu hk => ?_
  have huc := htc.kept hu hk
  have hhead : rxHead t = rxHead u := (rxHead_congr (by rw [(tables_eq_iff.mp hk.tables).2.2.1])).symm
  have hbase : Machine.regWrite .dmardlar (rxHead t) u = u.setRegs { u.regs with dmardlar := rxHead u } := by
    rw [hhead, regWrite_dmardlar]
  have hub : Chained o w m (u.setRegs { u.regs with dmardlar := rxHead u }) :=
    ⟨⟨hu.origin, hbase ▸ hu.run.regWrite .dmardlar (rxHead t), hu.clear, hu.rx.setBase huc.nonempty,
      hu.tx.congr (.of_eq rfl rfl rfl rfl rfl)⟩, huc.nonempty, fun i e he =>
      ⟨(huc.linked i e he).next, (huc.linked i e he).ctrl⟩⟩
  rw [hbase]
  refine hub.link.access fun v hv hk' => ?_
  have hvc := hub.kept hv hk'
  have hvbase : v.regs.dmardlar = rxHead v :=
    hk'.rxBase.trans (rxHead_congr (t := v) (s := u) (by rw [(tables_eq_iff.mp hk'.tables).2.2.1]; rfl)).symm
  have hrun : Linking o w .closed (fun _ => .running) txFlag (regField .dmaomr OMR_SR OMR_SR v) :=
    ⟨hv.origin, hv.run.regWrite .dmaomr _, hv.clear, hv.rx.launch hvc.nonempty hvbase hvc.linked,
      hv.tx.congr (.of_eq rfl rfl rfl (startTx_of_startRx v.regs) rfl)⟩
  refine hrun.qmRegWrite rfl fun x hx => ?_
  exact hx.same (t := x.setRx _) (hx.run.reach (.rxFlag hx.run.tables rfl) ⟨rfl, rfl, rfl, rfl, rfl⟩)
    ⟨rfl, rfl, rfl, rfl, rfl, rfl, rfl⟩ rfl rfl rfl

/-- `RX_START` from a point at which `m` is true of the receive engine. -/
theorem rxStart_of_mode {n : Nat} (h : Linking o w .closed (fun _ => m) txFlag s)
    (hm : n - s.rx.slots.length = 0 ∨ m ≠ .running) (hc : s.rx.constructed = true) (hmax : n ≤ s.par.maxRing)
    (hpos : max n s.rx.slots.length ≠ 0) :
    ((Machine.rxGrow (n - s.rx.slots.length) s).andThen fun _ _ s => Machine.rxRegister s).Links o w (Settled o w) := by
  by_cases hn : s.rx.slots.length ≤ n
  · have hgrow : Growing o w m n (n - s.rx.slots.length) s := ⟨⟨h.run, hc, Nat.add_sub_cancel' hn, hmax⟩, h⟩
    refine (rxGrow hm hgrow).andThen fun _ _ t ht => ht.link.rxRegister fun hnil => ?_
    have hlen := ht.grow.length
    rw [hnil, List.length_nil] at hlen
    omega
  · rw [Nat.sub_eq_zero_of_le (Nat.le_of_not_le hn)]
    refine h.rxRegister fun hnil => ?_
    rw [hnil, List.length_nil] at hn
    exact hn (Nat.zero_le n)

theorem rxStartBody (h : Settled o w s) (n : Nat)
    (hq : s.rx.started = true → n ≤ s.rx.slots.length ∨ s.quiet = true) :
    (rxStartBody n s).Links o w (Settled o w) := by
  unfold Machine.rxStartBody
  split
  · exact h
  next hc =>
  split
  · exact h
  next hmax =>
  split
  · exact h
  next hpos =>
  rw [not_not] at hc
  rw [Nat.not_lt] at hmax
  cases hs : s.rx.started with
  | false =>
    exact (h.modes (a' := fun _ => .stopped) (b' := txFlag) (rxFlag_of_not_started hs).symm rfl).rxStart_of_mode
      (.inr (by simp)) hc hmax hpos
  | true =>
    have hrun : Linking o w .closed (fun _ => .running) txFlag s := h.modes (rxFlag_of_started hs).symm rfl
    rcases hq hs with hle | hquiet
    · exact hrun.rxStart_of_mode (.inl (Nat.sub_eq_zero_of_le hle)) hc hmax hpos
    · have halone : Linking o w .closed (fun _ => .alone) txFlag s :=
        ⟨h.origin, h.run, h.clear, ⟨fun _ => hrun.rx.head (by simp), nofun, nofun, fun _ => hquiet, hrun.rx.word2,
          hrun.rx.place, hrun.rx.holds⟩, h.tx⟩
      exact halone.rxStart_of_mode (.inr (by simp)) hc hmax hpos

end Linking
end

end Sys2Proof.Machine
end

section
/-! PROOFS. `RX_RECV` keeps the rings linked (41_rx_ring.md R182 to R191): it touches a software-owned descriptor alone,
and hands it back to RXW by its last store. -/

namespace Sys2Proof.Machine

section
variable {s t : State} {m : RxMode}

/-! ## A software-owned entry -/

/-- Entry `i` is software-owned: no walker touches it. -/
structure RxFree (s : State) (i : Nat) (e : RxSlot) : Prop where
  entry : s.rx.slots[i]? = some e
  free : rxOwn (s.mem.read32 (descWord e.desc 0)) = false

theorem RxFree.mem {i : Nat} {e : RxSlot} (h : RxFree s i e) : e ∈ s.rx.slots := List.mem_of_getElem? h.entry

theorem RxFree.kept {i : Nat} {e : RxSlot} (h : RxFree s i e) (hk : Kept s t) : RxFree t i e :=
  ⟨by rw [(tables_eq_iff.mp hk.tables).2.2.1]; exact h.entry,
    by rw [(hk.rx e h.mem).status_of_free h.free]; exact h.free⟩

/-- A hardware-owned entry is another one. -/
theorem RxFree.ne_of_owned {i j : Nat} {e f : RxSlot} (h : RxFree s i e) (hf : s.rx.slots[j]? = some f)
    (ho : f.owned s.mem) : i ≠ j := by
  rintro rfl
  obtain rfl : e = f := Option.some.inj (h.entry.symm.trans hf)
  exact absurd (h.free.symm.trans ho) (by decide)

/-- The status word of a software-owned entry may be written: nobody relies on it. -/
theorem RxFree.writeStatus {i : Nat} {e : RxSlot} (h : RxFree s i e) (hs : Sound s) (v : Word) :
    RxSame s (s.setMem (s.mem.write32 (descWord e.desc 0) v)) := by
  refine ⟨rfl, rfl, rfl, rfl, rfl, fun f hf k hk hk' => ?_, fun f hf ho => ?_⟩
  · obtain ⟨j, hj⟩ := List.getElem?_of_mem hf
    by_cases hij : i = j
    · obtain rfl : e = f := Option.some.inj (h.entry.symm.trans (hij ▸ hj))
      rw [State.setMem_mem, (hs.rxDesc hf).read_write _ _ (by decide) hk', if_neg (by omega)]
    · exact hs.rx_write_rx h.entry hj hij _ _ (by decide) k hk'
  · obtain ⟨j, hj⟩ := List.getElem?_of_mem hf
    rw [RxSlot.owned, State.setMem_mem,
      hs.rx_write_rx h.entry hj (h.ne_of_owned hj ho) _ _ (by decide) 0 (by decide)]
    exact ho

/-- The state after a received frame's Buffer is replaced in entry `i` (R187). -/
def rxSwapped (i : Nat) (e : RxSlot) (nb : Word) (s : State) : State :=
  (s.setMem (s.mem.write32 (descWord e.desc 2) nb)).setRx
    { s.rx with slots := s.rx.slots.set i { e with buf := nb } }

theorem RxFree.read_swapped {i : Nat} {e : RxSlot} (h : RxFree s i e) (hs : Sound s) (nb : Word) {j k : Nat}
    {f : RxSlot} (hf : s.rx.slots[j]? = some f) (hk : k < 4) (hne : i ≠ j ∨ k ≠ 2) :
    (rxSwapped i e nb s).mem.read32 (descWord f.desc k) = s.mem.read32 (descWord f.desc k) := by
  show (s.mem.write32 (descWord e.desc 2) nb).read32 _ = _
  by_cases hij : i = j
  · obtain rfl : e = f := Option.some.inj (h.entry.symm.trans (hij ▸ hf))
    rw [(hs.rxDesc h.mem).read_write _ _ (by decide) hk, if_neg (hne.resolve_left (not_not.mpr hij))]
  · exact hs.rx_write_rx h.entry hf hij _ _ (by decide) k hk

theorem RxFree.swapped {i : Nat} {e : RxSlot} (h : RxFree s i e) (hs : Sound s) (nb : Word) :
    RxFree (rxSwapped i e nb s) i { e with buf := nb } :=
  ⟨List.getElem?_set_self (List.getElem?_eq_some_iff.mp h.entry).1,
    by rw [h.read_swapped hs nb h.entry (by decide) (.inr (by decide))]; exact h.free⟩

/-- An entry after the swap comes from the one that was there. -/
theorem getElem?_rxSwapped {i j : Nat} {e f : RxSlot} {nb : Word} (he : s.rx.slots[i]? = some e)
    (hf : (rxSwapped i e nb s).rx.slots[j]? = some f) :
    (i = j ∧ f = { e with buf := nb }) ∨ (i ≠ j ∧ s.rx.slots[j]? = some f) := by
  have hi := (List.getElem?_eq_some_iff.mp he).1
  have hf : (s.rx.slots.set i { e with buf := nb })[j]? = some f := hf
  by_cases hij : i = j
  · subst hij
    rw [List.getElem?_set_self hi] at hf
    exact .inl ⟨rfl, (Option.some.inj hf).symm⟩
  · rw [List.getElem?_set_ne hij] at hf
    exact .inr ⟨hij, hf⟩

theorem RxLink.swap {i : Nat} {e : RxSlot} (h : RxLink m s) (hs : Sound s) (hfree : RxFree s i e) (nb : Word) :
    RxLink m (rxSwapped i e nb s) := by
  have hdescs : (rxSwapped i e nb s).rx.slots.map (·.desc) = s.rx.slots.map (·.desc) :=
    map_desc_set_rx hfree.entry nb
  have hlen : (rxSwapped i e nb s).rx.slots.length = s.rx.slots.length := List.length_set
  refine ⟨fun hm => ?_, h.stopped, fun hm j f hf => ?_, h.alone, fun f hf => ?_, fun hp => ?_, fun hp => ?_⟩
  · obtain ⟨hne, hbase⟩ := h.head hm
    exact ⟨fun hnil => hne (by simpa [rxSwapped] using hnil), hbase.trans (rxHead_of_descs hdescs).symm⟩
  · have hlink : ∀ f', s.rx.slots[j]? = some f' → RxLinked (rxSwapped i e nb s) j f' := fun f' hf' => by
      obtain ⟨hnext, hctrl⟩ := h.chain hm j f' hf'
      exact ⟨(hfree.read_swapped hs nb hf' (by decide) (.inr (by decide))).trans
          (hnext.trans (rxNext_of_descs hdescs j).symm),
        (hfree.read_swapped hs nb hf' (by decide) (.inr (by decide))).trans (by rw [hctrl, hlen]; rfl)⟩
    rcases getElem?_rxSwapped hfree.entry hf with ⟨rfl, rfl⟩ | ⟨_, hf'⟩
    · exact ⟨(hlink e hfree.entry).next, (hlink e hfree.entry).ctrl⟩
    · exact hlink f hf'
  · obtain ⟨j, hj⟩ := List.getElem?_of_mem hf
    rcases getElem?_rxSwapped hfree.entry hj with ⟨rfl, rfl⟩ | ⟨hij, hf'⟩
    · exact read32_write32_same ..
    · rw [hfree.read_swapped hs nb hf' (by decide) (.inl hij)]
      exact h.word2 f (List.mem_of_getElem? hf')
  · exact rxDesc_of_descs hdescs (h.place hp)
  · obtain ⟨f, hf, hheld⟩ := h.holds hp
    obtain ⟨j, hj⟩ := List.getElem?_of_mem hf
    have hij := hfree.ne_of_owned hj hheld.owned
    have hf' : (rxSwapped i e nb s).rx.slots[j]? = some f := (List.getElem?_set_ne hij).trans hj
    refine ⟨f, List.mem_of_getElem? hf', hheld.desc, ?_, hheld.buf, hheld.size,
      hheld.next.imp_right (And.imp_right (rxDesc_of_descs hdescs))⟩
    rw [RxSlot.owned, hfree.read_swapped hs nb hj (by decide) (.inl hij)]
    exact hheld.owned

/-! ## The command -/

namespace Linking

variable {o : State} {w : Word} {st : Stage} {a : RxRing → RxMode} {b : TxRing → TxMode} {ok : State → Prop}
  {next : State → Flow}

/-- QM gives a software-owned descriptor back to RXW (R186, R187, R189). -/
theorem qmWriteStatus {i : Nat} {e : RxSlot} {v : Word} (h : Linking o w st a b s) (hfree : RxFree s i e)
    (hn : ∀ t, Linking o w st a b t → t.tables = s.tables → (next t).Links o w ok) :
    (qmWrite (descWord e.desc 0) v s next).Links o w ok :=
  h.access fun t ht hk => by
    have hf := hfree.kept hk
    exact hn _ (ht.store (hf.writeStatus ht.sound v)
      (.of_desc fun f hf' => ht.sound.rx_write_tx hf.mem hf' _ _ (by decide))) hk.tables

theorem rxPostConsume (h : Settled o w s) (hn : ∀ t, Settled o w t → (next t).Links o w ok) :
    (rxPostConsume s next).Links o w ok :=
  h.access fun t ht _ => by
    split
    · exact ht.qmRegWrite rfl hn
    · exact hn t ht

theorem rxAdvance (h : Settled o w s) (hn : s.rx.slots ≠ []) : Settled o w (rxAdvance s) :=
  h.same (h.run.rxAdvance hn) ⟨rfl, rfl, rfl, rfl, rfl, rfl, rfl⟩ rfl rfl rfl

theorem rxSlots_ne_nil {i : Nat} {e : RxSlot} (he : s.rx.slots[i]? = some e) : s.rx.slots ≠ [] := fun hnil => by
  rw [hnil] at he
  cases he

theorem rxRecvError {i : Nat} {e : RxSlot} {w0 : Word} (h : Settled o w s) (hfree : RxFree s i e) :
    (rxRecvError i e w0 s).Links o w (Settled o w) :=
  h.qmEmit fun t ht hk => ht.qmWriteStatus (hfree.kept hk) fun u hu eu => by
    have hne : u.rx.slots ≠ [] := by
      rw [(tables_eq_iff.mp eu).2.2.1]
      exact rxSlots_ne_nil (hfree.kept hk).entry
    refine rxPostConsume ?_ fun _ h => h
    split
    · exact hu.rxAdvance hne
    · exact hu

theorem rxRecvFragment {i : Nat} {e : RxSlot} {w0 : Word} (h : Settled o w s) (hfree : RxFree s i e) :
    (rxRecvFragment i e w0 s).Links o w (Settled o w) :=
  h.qmEmit fun t ht hk => ht.qmWriteStatus (hfree.kept hk) fun u hu eu => by
    have hne : u.rx.slots ≠ [] := by
      rw [(tables_eq_iff.mp eu).2.2.1]
      exact rxSlots_ne_nil (hfree.kept hk).entry
    exact (hu.rxAdvance hne).rxPostConsume fun _ h => h

theorem rxRecvFrame {i : Nat} {e : RxSlot} {w0 : Word} (h : Settled o w s) (hfree : RxFree s i e) :
    (rxRecvFrame i e w0 s).Links o w (Settled o w) := by
  unfold Machine.rxRecvFrame
  split
  · next ha => exact (h.run.allocNone ha).isSome
  next nb s1 hb =>
  have e1 : s1 = s.setHeap s1.heap := by rw [(alloc_some hb).2]; rfl
  have hloose := h.run.replacement hfree.entry hb
  rw [e1] at hloose ⊢
  have h1 : Linking o w (.loose nb) rxFlag txFlag _ :=
    h.same hloose ⟨rfl, rfl, rfl, rfl, rfl, rfl, rfl⟩ rfl rfl rfl
  refine h1.access fun t ht hk => ?_
  have hfree1 : RxFree t i e := RxFree.kept (s := (s.setHeap s1.heap).setBt _) ⟨hfree.entry, hfree.free⟩ hk
  have hswap : Run o w (.loose e.buf) (rxSwapped i e nb t) :=
    (ht.run.same (t := t.setMem (t.mem.write32 (descWord e.desc 2) nb)) rfl ⟨rfl, rfl, rfl, rfl, rfl⟩).swap hfree.entry
      hk.tables
  have h2 : Linking o w (.loose e.buf) rxFlag txFlag (rxSwapped i e nb t) :=
    ⟨ht.origin, hswap, ht.clear, ht.rx.swap ht.sound hfree1 nb,
      (ht.tx.congr (.of_desc fun f hf => ht.sound.rx_write_tx hfree1.mem hf _ _ (by decide))).congr
        (.of_eq rfl rfl rfl rfl rfl)⟩
  refine h2.qmWriteStatus (e := { e with buf := nb }) (hfree1.swapped ht.sound nb) fun u hu eu => ?_
  have hne : u.rx.slots ≠ [] := by
    rw [(tables_eq_iff.mp eu).2.2.1]
    exact rxSlots_ne_nil (hfree1.swapped ht.sound nb).entry
  have hout : Settled o w (Machine.rxAdvance (rxHandOut e.buf (rxFl w0) u)) := by
    have hrun := hu.run.handOut (len := rxFl w0) hne
    have hsame : rxHandOut e.buf (rxFl w0) u = u.setBt (rxHandOut e.buf (rxFl w0) u).bt := by
      unfold rxHandOut; split <;> rfl
    rw [hsame] at hrun ⊢
    exact hu.same hrun ⟨rfl, rfl, rfl, rfl, rfl, rfl, rfl⟩ rfl rfl rfl
  exact hout.rxPostConsume fun _ h => h

theorem rxRecvBody (h : Settled o w s) : (rxRecvBody s).Links o w (Settled o w) := by
  unfold Machine.rxRecvBody
  split
  · exact h
  next e he =>
  refine h.access fun t ht hk => ?_
  have het : t.rx.slots[s.rx.cur]? = some e := (tables_eq_iff.mp hk.tables).2.2.1 ▸ he
  dsimp only
  split
  · exact ht
  next hown =>
  have hfree : RxFree t s.rx.cur e := ⟨het, Bool.eq_false_iff.mpr hown⟩
  split
  · exact ht.rxRecvError hfree
  split
  · exact ht.rxRecvFrame hfree
  · exact ht.rxRecvFragment hfree

end Linking
end

end Sys2Proof.Machine
end

section
/-! PROOFS. The transmit ring commands keep the rings linked (10_state.md R61, R62, R66; 42_tx_ring.md R201 to R221):
`TX_START` lays the chain while TXW is stopped, and `TX_SEND` and `TX_REAP` touch software-owned descriptors alone. -/

namespace Sys2Proof.Machine

section
variable {s t : State} {m : TxMode}

/-! ## The descriptors' addresses in the table -/

theorem txHead_eq (s : State) : txHead s = (s.tx.slots.map (·.desc)).head?.getD 0 := by
  unfold txHead
  split
  · next h => rw [h]; rfl
  · next h => rw [h]; rfl

theorem txNext_eq (s : State) (i : Nat) : txNext s i = ((s.tx.slots.map (·.desc))[i + 1]?).getD 0 := by
  rw [txNext, List.getElem?_map]

theorem txNext_of_descs (h : t.tx.slots.map (·.desc) = s.tx.slots.map (·.desc)) (i : Nat) :
    txNext t i = txNext s i := by
  rw [txNext_eq, txNext_eq, h]

theorem map_desc_set {l : List TxSlot} {i : Nat} {e e' : TxSlot} (he : l[i]? = some e) (hd : e'.desc = e.desc) :
    (l.set i e').map (·.desc) = l.map (·.desc) := by
  have hsame : e' = { e with buf := e'.buf } := by cases e'; cases hd; rfl
  rw [hsame]
  exact map_desc_set_tx he _

theorem set_same {α : Type} {l : List α} {i : Nat} {e : α} (he : l[i]? = some e) : l.set i e = l := by
  obtain ⟨hi, rfl⟩ := List.getElem?_eq_some_iff.mp he
  exact List.set_getElem_self hi

/-! ## One entry changes -/

/-- Entry `i` is software-owned: no walker touches it. -/
structure TxFree (s : State) (i : Nat) (e : TxSlot) : Prop where
  entry : s.tx.slots[i]? = some e
  free : txOwn (s.mem.read32 (descWord e.desc 0)) = false

theorem TxFree.mem {i : Nat} {e : TxSlot} (h : TxFree s i e) : e ∈ s.tx.slots := List.mem_of_getElem? h.entry

theorem TxFree.kept {i : Nat} {e : TxSlot} (h : TxFree s i e) (hk : Kept s t) : TxFree t i e :=
  ⟨by rw [(tables_eq_iff.mp hk.tables).2.2.2]; exact h.entry,
    by rw [(hk.tx e h.mem).status_of_free h.free]; exact h.free⟩

/-- A change at entry `i` alone: what stands there now, and what it leaves. -/
structure TxEdit (s : State) (i : Nat) (e e' : TxSlot) (t : State) : Prop where
  entry : s.tx.slots[i]? = some e
  desc : e'.desc = e.desc
  slots : t.tx.slots = s.tx.slots.set i e'
  txw : t.txw = s.txw
  base : t.regs.dmatdlar = s.regs.dmatdlar
  start : t.regs.startTx = s.regs.startTx
  other : ∀ j f, i ≠ j → s.tx.slots[j]? = some f → SameDesc f.desc s.mem t.mem

namespace TxEdit

variable {i : Nat} {e e' : TxSlot} (h : TxEdit s i e e' t)
include h

theorem descs : t.tx.slots.map (·.desc) = s.tx.slots.map (·.desc) := h.slots ▸ map_desc_set h.entry h.desc

theorem length : t.tx.slots.length = s.tx.slots.length := by rw [h.slots, List.length_set]

theorem entry_after : t.tx.slots[i]? = some e' := by
  rw [h.slots]
  exact List.getElem?_set_self (List.getElem?_eq_some_iff.mp h.entry).1

theorem other_after {j : Nat} (hij : i ≠ j) : t.tx.slots[j]? = s.tx.slots[j]? := by
  rw [h.slots, List.getElem?_set_ne hij]

theorem cases {j : Nat} {f : TxSlot} (hf : t.tx.slots[j]? = some f) :
    (i = j ∧ f = e') ∨ (i ≠ j ∧ s.tx.slots[j]? = some f) := by
  by_cases hij : i = j
  · exact .inl ⟨hij, Option.some.inj ((hij ▸ hf).symm.trans h.entry_after)⟩
  · exact .inr ⟨hij, (h.other_after hij).symm.trans hf⟩

theorem linked_other {j : Nat} {f : TxSlot} (hij : i ≠ j) (hf : s.tx.slots[j]? = some f) (hl : TxLinked s j f) :
    TxLinked t j f := by
  have hd := h.other j f hij hf
  exact ⟨by rw [hd 3 (by decide), txNext_of_descs h.descs, hl.next], by rw [hd 0 (by decide), h.length, hl.ter],
    by rw [hd 0 (by decide), hl.tch]⟩

/-- The links hold where they did, if they hold at the changed entry, which no walker holds. -/
theorem link (hl : TxLink m s) (hfree : m ≠ .starting → txOwn (s.mem.read32 (descWord e.desc 0)) = false)
    (hlink : m = .running → TxLinked s i e → TxLinked t i e')
    (hqueue : m ≠ .starting → e'.owned t.mem → e'.buf ≠ none)
    (hword : ∀ b, e'.buf = some b → t.mem.read32 (descWord e'.desc 2) = b) : TxLink m t := by
  refine ⟨fun hm => ?_, fun hm => by rw [h.txw, h.start]; exact hl.stopped hm, fun hm j f hf => ?_,
    fun hm f hf ho => ?_, fun f hf b hb => ?_, fun hp => ?_, fun hp => ?_⟩
  · obtain ⟨hne, hbase⟩ := hl.head hm
    refine ⟨fun hnil => hne ?_, ?_⟩
    · have := h.length
      rw [hnil, List.length_nil] at this
      exact List.length_eq_zero_iff.mp this.symm
    · rw [h.base, hbase, txHead_eq, txHead_eq, h.descs]
  · rcases h.cases hf with ⟨rfl, rfl⟩ | ⟨hij, hf'⟩
    · exact hlink hm (hl.chain hm _ _ h.entry)
    · exact h.linked_other hij hf' (hl.chain hm j f hf')
  · obtain ⟨j, hj⟩ := List.getElem?_of_mem hf
    rcases h.cases hj with ⟨rfl, rfl⟩ | ⟨hij, hf'⟩
    · exact hqueue hm ho
    · rw [TxSlot.owned, h.other j f hij hf' 0 (by decide)] at ho
      exact hl.queued hm f (List.mem_of_getElem? hf') ho
  · obtain ⟨j, hj⟩ := List.getElem?_of_mem hf
    rcases h.cases hj with ⟨rfl, rfl⟩ | ⟨hij, hf'⟩
    · exact hword b hb
    · rw [h.other j f hij hf' 2 (by decide)]
      exact hl.word2 f (List.mem_of_getElem? hf') b hb
  · rw [h.txw] at hp ⊢
    have hmem := List.mem_map.mpr (hl.place hp)
    rw [← h.descs] at hmem
    exact List.mem_map.mp hmem
  · rw [h.txw] at hp
    obtain ⟨f, hf, hheld⟩ := hl.holds hp
    obtain ⟨j, hj⟩ := List.getElem?_of_mem hf
    have hrun : m = .running := hl.running (.inl fun h0 => by rw [h0] at hp; simp at hp)
    have hij : i ≠ j := by
      rintro rfl
      obtain rfl : e = f := Option.some.inj (h.entry.symm.trans hj)
      exact absurd ((hfree (by rw [hrun]; simp)).symm.trans hheld.owned) (by decide)
    have hd := h.other j f hij hj
    refine ⟨f, List.mem_of_getElem? ((h.other_after hij).trans hj), h.txw ▸ hheld.desc, ?_, h.txw ▸ hheld.buf,
      by rw [h.txw, hd 0 (by decide)]; exact hheld.status, by rw [h.txw, hd 3 (by decide)]; exact hheld.next⟩
    rw [TxSlot.owned, hd 0 (by decide)]
    exact hheld.owned

end TxEdit

theorem txEdit_write {i k : Nat} {e : TxSlot} (hs : Sound s) (he : s.tx.slots[i]? = some e) (hk : k < 4) (v : Word) :
    TxEdit s i e e (s.setMem (s.mem.write32 (descWord e.desc k) v)) :=
  ⟨he, rfl, (set_same he).symm, rfl, rfl, rfl, fun _ _ hij hf => hs.tx_write_tx he hf hij _ _ hk⟩

/-! ## Release (R206) -/

/-- A release touches the tables alone. -/
theorem txReleaseIf_eq (i : Nat) (e : TxSlot) (s : State) :
    txReleaseIf i e s = (s.setBt (txReleaseIf i e s).bt).setTx (txReleaseIf i e s).tx := by
  unfold txReleaseIf
  split <;> rfl

theorem txReleaseIf_tx {i : Nat} {e : TxSlot} (he : s.tx.slots[i]? = some e) :
    (txReleaseIf i e s).tx = { s.tx with slots := s.tx.slots.set i { e with buf := none } } :=
  congrArg Tables.tx (Run.tables_txReleaseIf he)

theorem txEdit_release {i : Nat} {e : TxSlot} (he : s.tx.slots[i]? = some e) :
    TxEdit s i e { e with buf := none } (txReleaseIf i e s) := by
  have htx := txReleaseIf_tx he
  rw [txReleaseIf_eq] at htx ⊢
  exact ⟨he, rfl, by rw [htx], rfl, rfl, rfl, fun _ _ _ _ => sameDesc_refl _ _⟩

namespace Linking

variable {o : State} {w : Word} {st : Stage} {a : RxRing → RxMode} {b : TxRing → TxMode} {ok : State → Prop}
  {next : State → Flow}

/-- QM stores into a transmit entry, or changes it in the table, the receive side untouched. -/
theorem txChange (h : Linking o w st a b s) (hrun : Run o w st t)
    (hrx : RxSame s t) (hmoves : t.moves = s.moves) (hreset : t.regs.resetPending = s.regs.resetPending)
    (ha : a t.rx = a s.rx) (hlink : TxLink (b t.tx) t) : Linking o w st a b t :=
  ⟨h.origin, hrun, hreset.trans h.clear, ha ▸ h.rx.congr hrx fun hq => quiet_of_moves (h.rx.alone hq) hmoves, hlink⟩

theorem txReleaseIf {i : Nat} {e : TxSlot} (h : Linking o w .closed a b s) (he : s.tx.slots[i]? = some e)
    (hfree : b s.tx ≠ .starting → txOwn (s.mem.read32 (descWord e.desc 0)) = false)
    (hb : b (Machine.txReleaseIf i e s).tx = b s.tx) : Linking o w .closed a b (Machine.txReleaseIf i e s) := by
  have hedit := txEdit_release he
  have hrun := h.run.txReleaseIf he
  have hlink : TxLink (b (Machine.txReleaseIf i e s).tx) (Machine.txReleaseIf i e s) := by
    rw [hb]
    have hmem : (Machine.txReleaseIf i e s).mem = s.mem := by rw [txReleaseIf_eq]; rfl
    refine hedit.link h.tx hfree (fun hm hl => ?_) (fun hm ho => ?_) nofun
    · exact ⟨by rw [hmem, txNext_of_descs hedit.descs]; exact hl.next, by rw [hmem, hedit.length]; exact hl.ter,
        by rw [hmem]; exact hl.tch⟩
    · rw [TxSlot.owned, hmem] at ho
      exact absurd ((hfree hm).symm.trans ho) (by decide)
  rw [txReleaseIf_eq] at hedit hrun hlink ⊢
  exact h.txChange hrun (.of_eq rfl rfl rfl rfl rfl rfl) rfl rfl rfl hlink

end Linking

/-! ## TX_NEW -/

theorem txFlag_of_not_started {r : TxRing} (h : r.started = false) : txFlag r = .stopped := by rw [txFlag, h]; rfl

theorem txFlag_of_started {r : TxRing} (h : r.started = true) : txFlag r = .running := by rw [txFlag, h]; rfl

theorem TxLink.emptied (h : TxLink .stopped s) (r : TxRing) (hr : r.slots = []) : TxLink .stopped (s.setTx r) := by
  obtain ⟨hps, hoff⟩ := h.stopped (by simp)
  exact ⟨nofun, fun _ => ⟨hps, hoff⟩, nofun, by simp [hr], by simp [hr], fun hp => absurd hps hp, by simp [hps]⟩

/-- A new entry, software-owned and empty (42_tx_ring.md R201). -/
theorem TxLink.append {d : Word} (h : TxLink .stopped s) (hw : s.mem.read32 (descWord d 0) = 0) :
    TxLink .stopped (s.setTx { s.tx with slots := s.tx.slots ++ [{ desc := d, buf := none }] }) := by
  obtain ⟨hps, hoff⟩ := h.stopped (by simp)
  refine ⟨nofun, fun _ => ⟨hps, hoff⟩, nofun, fun hm e he ho => ?_, fun e he => ?_, fun hp => absurd hps hp, by simp [hps]⟩
  · rcases List.mem_append.mp he with he | he
    · exact h.queued hm e he ho
    · obtain rfl := List.mem_singleton.mp he
      rw [TxSlot.owned, State.setTx_mem, hw] at ho
      cases ho
  · rcases List.mem_append.mp he with he | he
    · exact h.word2 e he
    · obtain rfl := List.mem_singleton.mp he
      exact nofun

/-- A point of `TX_NEW` at which so many entries are still missing (R201). -/
structure Laying (o : State) (w : Word) (n : Nat) (s : State) : Prop where
  build : Run.Building o w n s
  link : Linking o w .building rxFlag (fun _ => .stopped) s

namespace Linking

variable {o : State} {w : Word}

theorem txNewOne {n : Nat} (h : Laying o w (n + 1) s) : (txNewOne s).Links o w (Laying o w n) := by
  unfold Machine.txNewOne
  split
  · next ha => exact (h.link.run.allocNone ha).isSome
  next d s1 hd =>
  obtain ⟨hfresh, _, e1⟩ := fresh_of_alloc hd
  have hfresh1 := fresh_congr e1 hfresh
  refine (h.link.allocSome hd).qmWriteFresh hfresh1 (by decide) fun s2 h2 e2 w2 => ?_
  have hfresh2 := fresh_congr e2 hfresh1
  refine h2.qmWriteFresh hfresh2 (by decide) fun s3 h3 e3 w3 => ?_
  have hfresh3 := fresh_congr e3 hfresh2
  refine h3.qmWriteFresh hfresh3 (by decide) fun s4 h4 e4 w4 => ?_
  have hfresh4 := fresh_congr e4 hfresh3
  refine h4.qmWriteFresh hfresh4 (by decide) fun s5 h5 e5 w5 => ?_
  have hword : s5.mem.read32 (descWord d 0) = 0 := by
    rw [w5 0 (by decide), if_neg (by decide), w4 0 (by decide), if_neg (by decide), w3 0 (by decide),
      if_neg (by decide), w2 0 (by decide), if_pos rfl]
  have happ := h.build.append h5.run (e5.trans (e4.trans (e3.trans (e2.trans e1)))) (fresh_congr e5 hfresh4)
  exact ⟨happ, h5.origin, happ.run, h5.clear,
    h5.rx.congr (.of_eq rfl rfl rfl rfl rfl rfl) fun hq => quiet_of_moves (h5.rx.alone hq) rfl, h5.tx.append hword⟩

theorem txNewSlots {n : Nat} (h : Laying o w n s) : (txNewSlots n s).Links o w (Laying o w 0) := by
  induction n generalizing s with
  | zero => exact h
  | succ n ih => exact (txNewOne h).andThen fun _ _ _ ht => ih ht

theorem txNewBody (h : Settled o w s) : (txNewBody s).Links o w (Settled o w) := by
  unfold Machine.txNewBody
  split
  · exact h
  next hc =>
  have hc : s.tx.constructed = false := Bool.eq_false_iff.mpr hc
  have hoff : s.tx.started = false := by
    by_contra hs
    rw [Bool.not_eq_false] at hs
    exact absurd (hc.symm.trans ((h.run.owned h.origin).claimed.txStarted hs)) (by decide)
  have hstopped : TxLink .stopped s := txFlag_of_not_started hoff ▸ h.tx
  have hclear : Run o w .building (s.setTx { s.tx with slots := [] }) :=
    h.run.reach (.txClear h.run.tables hc rfl) ⟨rfl, rfl, rfl, rfl, rfl⟩
  have hstart : Laying o w s.par.txRingLen (s.setTx { s.tx with slots := [] }) :=
    ⟨⟨hclear, Nat.zero_add _⟩, h.origin, hclear, h.clear,
      h.rx.congr (.of_eq rfl rfl rfl rfl rfl rfl) fun hq => absurd hq (rxFlag_ne_alone _), hstopped.emptied _ rfl⟩
  exact (txNewSlots hstart).andThen fun _ _ t ht =>
    ht.link.same (t := t.setTx _)
      (ht.build.run.reach (.txMade ht.build.run.tables ht.build.length rfl) ⟨rfl, rfl, rfl, rfl, rfl⟩)
      ⟨rfl, rfl, rfl, rfl, rfl, rfl, rfl⟩ rfl rfl rfl

/-! ## TX_SEND and TX_REAP -/

/-- QM stores into a software-owned entry, not its status word (R213). -/
theorem qmWriteFree {i k : Nat} {e : TxSlot} {v : Word} {st : Stage} {ok : State → Prop} {next : State → Flow}
    (h : Linking o w st rxFlag txFlag s) (hfree : TxFree s i e) (hnone : e.buf = none) (hk : k = 1 ∨ k = 2)
    (hn : ∀ t, Linking o w st rxFlag txFlag t → TxFree t i e → t.tables = s.tables →
      t.mem.read32 (descWord e.desc k) = v →
      (∀ j, j ≠ k → 1 ≤ j → j < 4 → t.mem.read32 (descWord e.desc j) = s.mem.read32 (descWord e.desc j)) →
      (next t).Links o w ok) : (qmWrite (descWord e.desc k) v s next).Links o w ok :=
  h.access fun t ht hkept => by
    have hf := hfree.kept hkept
    have hk4 : k < 4 := by omega
    have hd := ht.sound.txDesc hf.mem
    have hword (j : Nat) (hj : j < 4) (hjk : j ≠ k) :
        (t.mem.write32 (descWord e.desc k) v).read32 (descWord e.desc j) = t.mem.read32 (descWord e.desc j) := by
      rw [hd.read_write _ _ hk4 hj, if_neg hjk]
    have hedit := txEdit_write ht.sound hf.entry hk4 v
    refine hn _ (ht.txChange (ht.run.same rfl ⟨rfl, rfl, rfl, rfl, rfl⟩)
      (.of_desc fun f hf' => ht.sound.tx_write_rx hf.mem hf' _ _ hk4) rfl rfl rfl
      (hedit.link ht.tx (fun _ => hf.free) (fun _ hl => ?_) (fun _ ho => ?_) (by rw [hnone]; exact nofun))) ⟨hf.entry, ?_⟩
      hkept.tables (read32_write32_same ..) fun j hj h1 h4 => ?_
    · exact ⟨(hword 3 (by decide) (by omega)).trans hl.next, by rw [State.setMem_mem, hword 0 (by decide) (by omega)]; exact hl.ter,
        by rw [State.setMem_mem, hword 0 (by decide) (by omega)]; exact hl.tch⟩
    · rw [TxSlot.owned, State.setMem_mem, hword 0 (by decide) (by omega)] at ho
      exact absurd (hf.free.symm.trans ho) (by decide)
    · rw [State.setMem_mem, hword 0 (by decide) (by omega)]; exact hf.free
    · rw [State.setMem_mem, hword j h4 hj]
      exact (hkept.tx e hfree.mem).words j h1 h4

theorem txSendWord_flags (last : Bool) : txTer (txSendWord last) = last ∧ txTch (txSendWord last) = true := by
  cases last <;> exact ⟨rfl, rfl⟩

/-- The last action of `TX_SEND`: the entry goes to TXW with its Buffer (R214, R215). -/
theorem txHandOver {i : Nat} {last : Bool} {e : TxSlot} {a' : Word} {bt : List (Word × BufRec)} {tx : TxRing}
    (h : Settled o w s) (hfree : TxFree s i e) (hword : s.mem.read32 (descWord e.desc 2) = a')
    (htx : tx.slots = s.tx.slots.set i { e with buf := some a' }) (hflag : tx.started = s.tx.started)
    (hlast : last = decide (i + 1 = s.tx.slots.length))
    (hrun : Run o w .closed (((s.setMem (s.mem.write32 (descWord e.desc 0) (txSendWord last))).setTx tx).setBt bt)) :
    Settled o w (((s.setMem (s.mem.write32 (descWord e.desc 0) (txSendWord last))).setTx tx).setBt bt) := by
  have hs := h.sound
  have hd := hs.txDesc hfree.mem
  obtain ⟨hter, htch⟩ := txSendWord_flags last
  have hkept (j : Nat) (hj : j < 4) (hj0 : j ≠ 0) (v : Word) :
      (s.mem.write32 (descWord e.desc 0) v).read32 (descWord e.desc j) = s.mem.read32 (descWord e.desc j) := by
    rw [hd.read_write _ _ (by decide) hj, if_neg hj0]
  have hedit : TxEdit s i e { e with buf := some a' } (((s.setMem (s.mem.write32 (descWord e.desc 0) (txSendWord last))).setTx tx).setBt bt) :=
    ⟨hfree.entry, rfl, htx, rfl, rfl, rfl, fun j f hij hf => hs.tx_write_tx hfree.entry hf hij _ _ (by decide)⟩
  have hmode : txFlag tx = txFlag s.tx := by rw [txFlag, txFlag, hflag]
  refine h.txChange hrun ?_ rfl rfl rfl (hmode ▸ hedit.link h.tx (fun _ => hfree.free) (fun _ hl => ⟨?_, ?_, ?_⟩)
    (fun _ _ => by simp) fun b hb => ?_)
  · have hrx := RxSame.of_desc (s := s) fun f hf => hs.tx_write_rx hfree.mem hf s.mem (txSendWord last)
      (k := 0) (by decide)
    exact ⟨rfl, rfl, rfl, rfl, rfl, hrx.words, hrx.owned⟩
  · exact (hkept 3 (by decide) (by decide) _).trans (hl.next.trans (txNext_of_descs hedit.descs i).symm)
  · rw [hedit.length, ← hlast]
    exact (congrArg txTer (read32_write32_same ..)).trans hter
  · exact (congrArg txTch (read32_write32_same ..)).trans htch
  · cases hb
    exact (hkept 2 (by decide) (by decide) _).trans hword

theorem txInstall {i : Nat} {e : TxSlot} {a' : Word} {r : BufRec} (h : Settled o w s) (hs : s.tx.started = true)
    (hfree : TxFree s i e) (hr : btFind s.bt a' = some r) (ho : r.owner = .host) :
    (txInstall i e a' r s).Links o w (Settled o w) := by
  have htx := txReleaseIf_tx hfree.entry
  have hrel : Settled o w (Machine.txReleaseIf i e s) :=
    h.txReleaseIf hfree.entry (fun _ => hfree.free) (by rw [htx]; rfl)
  have hfree1 : TxFree (Machine.txReleaseIf i e s) i { e with buf := none } :=
    ⟨(txEdit_release hfree.entry).entry_after, by rw [txReleaseIf_eq]; exact hfree.free⟩
  refine hrel.qmWriteFree (e := { e with buf := none }) hfree1 rfl (.inr rfl) fun t2 h2 f2 e2 w2 _ => ?_
  refine h2.qmWriteFree (e := { e with buf := none }) f2 rfl (.inl rfl) fun t1 h1 f1 e1 _ k1 => ?_
  refine h1.access fun t ht hk => ?_
  have hf := f1.kept hk
  have hword : t.mem.read32 (descWord e.desc 2) = a' := by
    rw [(hk.tx _ f1.mem).words 2 (by decide) (by decide), k1 2 (by decide) (by decide) (by decide), w2]
  have hlast : decide (i + 1 = t1.tx.slots.length) = decide (i + 1 = t.tx.slots.length) := by
    rw [(tables_eq_iff.mp hk.tables).2.2.2]
  exact ht.txHandOver (e := { e with buf := none }) hf hword rfl rfl hlast
    (h.run.handOver hs hfree.entry hr ho (ht.run.same rfl ⟨rfl, rfl, rfl, rfl, rfl⟩)
      (hk.tables.trans (e1.trans e2)))

theorem txSendBody (h : Settled o w s) : (txSendBody s).Links o w (Settled o w) := by
  unfold Machine.txSendBody
  split
  · exact h
  next hs =>
  refine h.withHostBuffer fun r hr ho => ?_
  split
  · exact h
  split
  · exact h
  next e he =>
  refine h.access fun t ht hk => ?_
  obtain ⟨_, ebt, _, etx⟩ := tables_eq_iff.mp hk.tables
  split
  · exact ht
  · next hown =>
    exact ht.txInstall (etx ▸ not_not.mp hs) ⟨etx ▸ he, Bool.eq_false_iff.mpr hown⟩ (ebt ▸ hr) ho

theorem txReapScan {i : Nat} {es : List TxSlot} {n : Nat} (h : Settled o w s)
    (hes : ∀ j e, es[j]? = some e → s.tx.slots[i + j]? = some e) : (txReapScan i es n s).Links o w (Settled o w) := by
  induction es generalizing s i n with
  | nil => exact h
  | cons e es ih =>
    have hrest (t : State) (ht : ∀ j, i ≠ j → t.tx.slots[j]? = s.tx.slots[j]?) (j : Nat) (e' : TxSlot)
        (he' : es[j]? = some e') : t.tx.slots[i + 1 + j]? = some e' := by
      rw [ht _ (by omega), Nat.add_assoc, Nat.add_comm 1 j]
      exact hes (j + 1) e' he'
    unfold Machine.txReapScan
    split
    · exact ih h (hrest s fun _ _ => rfl)
    next b hb =>
    refine h.access fun t ht hk => ?_
    have etx : t.tx = s.tx := (tables_eq_iff.mp hk.tables).2.2.2
    split
    · exact ih ht (hrest t fun _ _ => by rw [etx])
    · next hown =>
      have he : t.tx.slots[i]? = some e := etx ▸ hes 0 e rfl
      have hrel := ht.txReleaseIf he (fun _ => Bool.eq_false_iff.mpr hown) (by rw [txReleaseIf_tx he]; rfl)
      have hedit := txEdit_release he
      have hsome : Machine.txReleaseIf i e t = txRelease i e b t := by rw [Machine.txReleaseIf, hb]
      rw [hsome] at hrel hedit
      exact ih hrel (hrest _ fun j hij => by rw [hedit.other_after hij, etx])

end Linking

/-! ## TX_START -/

/-- Entry `i` as `TX_START` leaves it: linked, and software-owned (R204). -/
structure TxIdle (s : State) (i : Nat) (e : TxSlot) : Prop where
  linked : TxLinked s i e
  free : txOwn (s.mem.read32 (descWord e.desc 0)) = false

theorem TxIdle.kept {i : Nat} {e : TxSlot} (h : TxIdle s i e) (he : s.tx.slots[i]? = some e) (hk : Kept s t) :
    TxIdle t i e := by
  have hkept := hk.tx e (List.mem_of_getElem? he)
  exact ⟨h.linked.congr (by rw [(tables_eq_iff.mp hk.tables).2.2.2]) hkept, by rw [hkept.status_of_free h.free]; exact h.free⟩

theorem TxEdit.idle_other {i j : Nat} {e e' f : TxSlot} (h : TxEdit s i e e' t) (hij : i ≠ j)
    (hf : s.tx.slots[j]? = some f) (hi : TxIdle s j f) : TxIdle t j f :=
  ⟨h.linked_other hij hf hi.linked, by rw [h.other j f hij hf 0 (by decide)]; exact hi.free⟩

theorem txIdleWord_flags (last : Bool) :
    txTer (txIdleWord last) = last ∧ txTch (txIdleWord last) = true ∧ txOwn (txIdleWord last) = false := by
  cases last <;> exact ⟨rfl, rfl, rfl⟩

/-- A point of `TX_START` with table `l`: the entries before `i` are laid, those from `n` on not yet touched (R204). -/
structure Starting (o : State) (w : Word) (l : List TxSlot) (i n : Nat) (s : State) : Prop where
  link : Linking o w .closed rxFlag (fun _ => .starting) s
  made : s.tx.constructed = true
  descs : s.tx.slots.map (·.desc) = l.map (·.desc)
  rest : ∀ j, n ≤ j → s.tx.slots[j]? = l[j]?
  idle : ∀ j e, j < i → s.tx.slots[j]? = some e → TxIdle s j e

/-- The middle of entry `i`: its Buffer is released and its status word laid. -/
structure Clearing (o : State) (w : Word) (l : List TxSlot) (i : Nat) (e : TxSlot) (s : State) : Prop
    extends Starting o w l i (i + 1) s where
  entry : s.tx.slots[i]? = some e
  empty : e.buf = none
  status : s.mem.read32 (descWord e.desc 0) = txIdleWord (decide (i + 1 = l.length))

namespace Starting

variable {o : State} {w : Word} {l : List TxSlot} {i n : Nat} {e : TxSlot}

theorem length (h : Starting o w l i n s) : s.tx.slots.length = l.length := by
  simpa using congrArg List.length h.descs

theorem kept (h : Starting o w l i n s) (ht : Linking o w .closed rxFlag (fun _ => .starting) t) (hk : Kept s t) :
    Starting o w l i n t := by
  have etx : t.tx = s.tx := (tables_eq_iff.mp hk.tables).2.2.2
  refine ⟨ht, etx ▸ h.made, etx ▸ h.descs, etx ▸ h.rest, fun j e hj he => ?_⟩
  rw [etx] at he
  exact (h.idle j e hj he).kept he hk

theorem release (h : Starting o w l i i s) (he : l[i]? = some e) :
    Starting o w l i (i + 1) (txReleaseIf i e s) := by
  have hes : s.tx.slots[i]? = some e := (h.rest i (Nat.le_refl i)).trans he
  have hedit := txEdit_release hes
  refine ⟨h.link.txReleaseIf hes (fun hne => absurd rfl hne) rfl, by rw [txReleaseIf_tx hes]; exact h.made,
    hedit.descs.trans h.descs, fun j hj => ?_, fun j f hj hf => ?_⟩
  · rw [hedit.other_after (by omega)]
    exact h.rest j (by omega)
  · have hij : i ≠ j := by omega
    rw [hedit.other_after hij] at hf
    exact hedit.idle_other hij hf (h.idle j f hj hf)

theorem write {k : Nat} (h : Starting o w l i n s) (he : s.tx.slots[i]? = some e) (hnone : e.buf = none) (hk : k < 4)
    (v : Word) : Starting o w l i n (s.setMem (s.mem.write32 (descWord e.desc k) v)) := by
  have hs := h.link.sound
  have hedit := txEdit_write hs he hk v
  have hlink := hedit.link h.link.tx (fun hne => absurd rfl hne) nofun (fun hne => absurd rfl hne)
    (by rw [hnone]; exact nofun)
  exact ⟨h.link.txChange (h.link.run.same rfl ⟨rfl, rfl, rfl, rfl, rfl⟩)
      (.of_desc fun f hf => hs.tx_write_rx (List.mem_of_getElem? he) hf _ _ hk) rfl rfl rfl hlink,
    h.made, h.descs, h.rest, fun j f hj hf => hedit.idle_other (by omega) hf (h.idle j f hj hf)⟩

/-- The status word of the entry, its Buffer being released (R204). -/
theorem clear (h : Starting o w l i (i + 1) s) (he : s.tx.slots[i]? = some e) (hnone : e.buf = none) :
    Clearing o w l i e (s.setMem (s.mem.write32 (descWord e.desc 0) (txIdleWord (decide (i + 1 = l.length))))) :=
  ⟨h.write he hnone (by decide) _, he, hnone, read32_write32_same ..⟩

end Starting

namespace Clearing

variable {o : State} {w : Word} {l : List TxSlot} {i : Nat} {e : TxSlot}

theorem kept (h : Clearing o w l i e s) (ht : Linking o w .closed rxFlag (fun _ => .starting) t) (hk : Kept s t) :
    Clearing o w l i e t := by
  have hfree : txOwn (s.mem.read32 (descWord e.desc 0)) = false := h.status ▸ (txIdleWord_flags _).2.2
  have hmem := List.mem_of_getElem? h.entry
  exact ⟨h.toStarting.kept ht hk, by rw [(tables_eq_iff.mp hk.tables).2.2.2]; exact h.entry, h.empty,
    ((hk.tx e hmem).status_of_free hfree).trans h.status⟩

theorem write {k : Nat} (h : Clearing o w l i e s) (hk : k < 4) (hk0 : k ≠ 0) (v : Word) :
    Clearing o w l i e (s.setMem (s.mem.write32 (descWord e.desc k) v)) := by
  have hd := h.link.sound.txDesc (List.mem_of_getElem? h.entry)
  refine ⟨h.toStarting.write h.entry h.empty hk v, h.entry, h.empty, ?_⟩
  rw [State.setMem_mem, hd.read_write _ _ hk (by decide), if_neg (Ne.symm hk0)]
  exact h.status

/-- The link of the entry, its last word to be written (R204). -/
theorem finish (h : Clearing o w l i e s) :
    Starting o w l (i + 1) (i + 1) (s.setMem (s.mem.write32 (descWord e.desc 3) (txNext s i))) := by
  obtain ⟨hter, htch, hfree⟩ := txIdleWord_flags (decide (i + 1 = l.length))
  have hdone := h.write (k := 3) (by decide) (by decide) (txNext s i)
  refine ⟨hdone.link, hdone.made, hdone.descs, hdone.rest, fun j f hj hf => ?_⟩
  rcases Nat.lt_succ_iff_lt_or_eq.mp hj with hlt | rfl
  · exact hdone.idle j f hlt hf
  · obtain rfl : e = f := Option.some.inj (h.entry.symm.trans hf)
    have hlen := hdone.length
    refine ⟨⟨read32_write32_same .., ?_, by rw [hdone.status, htch]⟩, by rw [hdone.status, hfree]⟩
    rw [hdone.status, hter, hlen]

end Clearing

theorem txInit_cons (i : Nat) (e : TxSlot) (es : List TxSlot) (s : State) :
    txInit i (e :: es) s =
      qmWrite (descWord e.desc 0) (txIdleWord es.isEmpty) (txReleaseIf i e s) fun s =>
      qmWrite (descWord e.desc 1) 0 s fun s => qmWrite (descWord e.desc 2) 0 s fun s =>
      qmWrite (descWord e.desc 3) ((es.head?.map (·.desc)).getD 0) s fun s => txInit (i + 1) es s := by
  cases es <;> rfl

/-- TXW may start on a ring that is a chain of software-owned descriptors from its base register on (R205). -/
theorem TxLink.launch {g : Regs} {r : TxRing} (h : TxLink .starting s) (hne : s.tx.slots ≠ [])
    (hbase : g.dmatdlar = txHead s) (hidle : ∀ i e, s.tx.slots[i]? = some e → TxIdle s i e)
    (hr : r.slots = s.tx.slots) : TxLink .running ((s.setRegs g).setTx r) := by
  obtain ⟨hps, _⟩ := h.stopped (by simp)
  refine ⟨fun _ => ⟨hr ▸ hne, hbase.trans (txHead_congr hr).symm⟩, fun hm => absurd rfl hm, fun _ i e he => ?_,
    fun _ e he ho => ?_, fun e he => h.word2 e (hr ▸ he), fun hp => absurd hps hp, by simp [hps]⟩
  · exact (hidle i e (hr ▸ he)).linked.congr hr (sameDesc_refl _ _).txKept
  · have he : e ∈ s.tx.slots := hr ▸ he
    obtain ⟨i, hi⟩ := List.getElem?_of_mem he
    exact absurd ((hidle i e hi).free.symm.trans ho) (by decide)

/-- The base register is written while TXW is stopped (R205). -/
theorem TxLink.setBase (h : TxLink .starting s) (a : Word) :
    TxLink .starting (s.setRegs { s.regs with dmatdlar := a }) := by
  obtain ⟨hps, hoff⟩ := h.stopped (by simp)
  exact ⟨nofun, fun _ => ⟨hps, hoff⟩, nofun, fun hm => absurd rfl hm, h.word2, fun hp => absurd hps hp, by simp [hps]⟩

theorem startRx_of_startTx (r : Regs) :
    Regs.startRx { r with dmaomr := ((r.dmaomr &&& ~~~OMR_ST) ||| (OMR_ST &&& OMR_ST)) &&& Reg.fields .dmaomr } =
      r.startRx := by
  simp [Regs.startRx, bit, OMR_ST, Reg.fields]

namespace Linking

variable {o : State} {w : Word}

theorem txInit {l es : List TxSlot} {i : Nat} (h : Starting o w l i i s) (hes : l.drop i = es) :
    (txInit i es s).Links o w (Starting o w l l.length l.length) := by
  induction es generalizing s i with
  | nil =>
    have hlen := List.drop_eq_nil_iff.mp hes
    refine ⟨h.link, h.made, h.descs, fun j hj => ?_, fun j e hj => h.idle j e (Nat.lt_of_lt_of_le hj hlen)⟩
    rw [List.getElem?_eq_none hj, List.getElem?_eq_none (h.length ▸ hj)]
  | cons e es ih =>
    have he : l[i]? = some e := by rw [← List.head?_drop, hes]; rfl
    have hrest : l.drop (i + 1) = es := by rw [← List.tail_drop, hes]; rfl
    have hlast : es.isEmpty = decide (i + 1 = l.length) := by
      have hi := (List.getElem?_eq_some_iff.mp he).1
      rw [← hrest, Bool.eq_iff_iff, List.isEmpty_iff, List.drop_eq_nil_iff, decide_eq_true_eq]
      omega
    have hrel := h.release he
    have hentry := (txEdit_release ((h.rest i (Nat.le_refl i)).trans he)).entry_after
    rw [txInit_cons, hlast]
    refine hrel.link.access fun t0 h0 k0 => ?_
    have hc0 := (hrel.kept h0 k0).clear (e := { e with buf := none })
      (by rw [(tables_eq_iff.mp k0.tables).2.2.2]; exact hentry) rfl
    refine hc0.link.access fun t1 h1 k1 => ?_
    have hc1 := (hc0.kept h1 k1).write (k := 1) (by decide) (by decide) 0
    refine hc1.link.access fun t2 h2 k2 => ?_
    have hc2 := (hc1.kept h2 k2).write (k := 2) (by decide) (by decide) 0
    refine hc2.link.access fun t3 h3 k3 => ?_
    have hc3 := hc2.kept h3 k3
    have hnext : (es.head?.map (·.desc)).getD 0 = txNext t3 i := by
      rw [txNext_eq, hc3.descs, List.getElem?_map, ← List.head?_drop, hrest]
    rw [hnext]
    exact ih hc3.finish hrest

theorem txStartBody (h : Settled o w s) : (txStartBody s).Links o w (Settled o w) := by
  unfold Machine.txStartBody
  split
  · exact h
  next hc =>
  split
  · exact h
  next hoff =>
  have hstopped := txFlag_of_not_started (Bool.eq_false_iff.mpr hoff) ▸ h.tx
  have hlink : Linking o w .closed rxFlag (fun _ => .starting) s :=
    ⟨h.origin, h.run, h.clear, h.rx, nofun, fun _ => hstopped.stopped (by simp), nofun, fun hm => absurd rfl hm,
      hstopped.word2, hstopped.place, hstopped.holds⟩
  have hstart : Starting o w s.tx.slots 0 0 s :=
    ⟨hlink, not_not.mp hc, rfl, fun _ _ => rfl, fun j e hj => absurd hj (Nat.not_lt_zero j)⟩
  refine (txInit hstart rfl).andThen fun _ _ t ht => ?_
  refine ht.link.access fun u hu hk => ?_
  have hut := ht.kept hu hk
  have hhead : txHead t = txHead u := (txHead_congr (by rw [(tables_eq_iff.mp hk.tables).2.2.2])).symm
  rw [hhead, regWrite_dmatdlar]
  have hu1 : Starting o w s.tx.slots s.tx.slots.length s.tx.slots.length
      (u.setRegs { u.regs with dmatdlar := txHead u }) :=
    ⟨⟨hu.origin, regWrite_dmatdlar (txHead u) u ▸ hu.run.regWrite .dmatdlar (txHead u), hu.clear,
        hu.rx.congr (.of_eq rfl rfl rfl rfl rfl rfl) fun hq => absurd hq (rxFlag_ne_alone _), hu.tx.setBase _⟩,
      hut.made, hut.descs, hut.rest, fun i e hi he => ⟨(hut.idle i e hi he).linked.congr rfl (sameDesc_refl _ _).txKept,
        (hut.idle i e hi he).free⟩⟩
  refine hu1.link.access fun v hv hk' => ?_
  have hvt := hu1.kept hv hk'
  have hbase : v.regs.dmatdlar = txHead v :=
    hk'.txBase.trans (txHead_congr (t := v) (s := u) (by rw [(tables_eq_iff.mp hk'.tables).2.2.2]; rfl)).symm
  have hne : v.tx.slots ≠ [] := fun hnil => by
    have hmade := (hv.run.ranges hv.origin).tx.made hvt.made
    have hpos := txRingLen_pos (hv.run.ranges hv.origin).par
    have hlen : v.tx.slots.length = v.par.txRingLen := hmade
    rw [hnil, List.length_nil] at hlen
    have hpos : 1 ≤ v.par.txRingLen := hpos
    omega
  have hrun := hv.run.regWrite .dmaomr ((v.regs.dmaomr &&& ~~~OMR_ST) ||| (OMR_ST &&& OMR_ST))
  exact ⟨hv.origin, hrun.reach (.txStarted hrun.tables hvt.made rfl) ⟨rfl, rfl, rfl, rfl, rfl⟩, hv.clear,
    hv.rx.congr (.of_eq rfl rfl rfl rfl (startRx_of_startTx v.regs) rfl) fun hq => absurd hq (rxFlag_ne_alone _),
    hv.tx.launch hne hbase (fun i e he => hvt.idle i e
      (hvt.length ▸ (List.getElem?_eq_some_iff.mp he).1) he) rfl⟩

end Linking

end

end Sys2Proof.Machine
end

section
/-! PROOFS. The reset wait and the orchestrator commands keep the rings linked (43_eth.md R230 to R242), and with them
every step does (10_state.md section 13). -/

namespace Sys2Proof.Machine

/-! ## The reset wait -/

/-- What a reset wait comes to, by its three ends. -/
def WaitEnd.Ends (done hang pending : State → Prop) : WaitEnd → Prop
  | .done s => done s
  | .hang s => hang s
  | .pending s => pending s

section
variable {P : State → Prop} {s : State}

/-- The wait ends only on a read of `SR` = 0, and is left only on a read of `SR` = 1 or by a starved QM (R232). -/
abbrev WaitEnd.Reads (P : State → Prop) (e : WaitEnd) : Prop :=
  e.Ends (fun t => P t ∧ t.regs.resetPending = false) P
    fun t => P t ∧ (t.regs.resetPending = true ∨ t.starved = true)

theorem Stable.poll_reads (hP : Stable P) (hs : P s) : (Machine.poll s).Reads P := by
  have hread := hP.countAccess s hs
  have hcounted := hP.countPoll _ hread
  unfold Machine.poll
  dsimp only
  split
  · next hbit =>
    split
    · split
      · exact hcounted
      · exact ⟨hcounted, .inl hbit⟩
    · exact ⟨hcounted, .inl hbit⟩
  · next hbit => exact ⟨hread, Bool.eq_false_iff.mpr hbit⟩

theorem Stable.resetWait_reads (hP : Stable P) (hbusy : ∀ t, P t → t.qm.isSome = true) (ms : List Move) (hs : P s) :
    (Machine.resetWait ms s).Reads P := by
  induction ms generalizing s with
  | nil => exact hP.poll_reads (hP.setMoves _ _ hs)
  | cons m ms ih =>
    cases m with
    | qm =>
      have hp := hP.poll_reads (hP.setMoves ms s hs)
      unfold Machine.resetWait
      split
      · next t ht => rw [ht] at hp; exact ih hp.1
      · exact hp
    | untilIdle => exact hP.poll_reads (hP.setMoves _ _ hs)
    | starve =>
      have hmoved := hP.setMoves ms s hs
      exact ⟨hP.starve _ hmoved, .inr (starve_starved (hbusy _ hmoved))⟩
    | _ => exact ih (hP.applyMove _ _ hs)
end

/-! ## The rings in a reset wait -/

section
variable {o s t : State} {w : Word}

/-- A point of the reset wait: the reset is pending, or RST has stopped both walkers (70_reset_and_hazards.md R357). -/
def Resetting (o : State) (w : Word) (s : State) : Prop :=
  Waiting o w s ∨ Linking o w .closed (fun _ => .stopped) (fun _ => .stopped) s

theorem Waiting.besides (h : Waiting o w s) (hrun : Run o w .closed t) (ht : t.tables = s.tables)
    (hs : SameLinks s t) : Waiting o w t := by
  obtain ⟨_, _, erx, etx⟩ := tables_eq_iff.mp ht
  exact ⟨h.origin, hrun, by rw [hs.regs]; exact h.pending,
    erx ▸ h.rx.congr hs.rx fun hq => absurd hq (rxFlag_ne_alone _), etx ▸ h.tx.congr hs.tx⟩

theorem Waiting.applyMove (h : Waiting o w s) (m : Move) : Resetting o w (applyMove m s) := by
  obtain ⟨_, _, erx, etx⟩ := tables_eq_iff.mp (tables_applyMove m s)
  have hrun := h.run.applyMove m
  rcases links_applyMove_pending (h.run.sound h.origin) h.pending (rxFlag_ne_alone _) (txFlag_ne_starting _) h.rx h.tx m
    with ⟨hp, hrx, htx⟩ | ⟨hp, hrx, htx⟩
  · exact .inl ⟨h.origin, hrun, hp, by rw [erx]; exact hrx, by rw [etx]; exact htx⟩
  · exact .inr ⟨h.origin, hrun, hp, hrx, htx⟩

theorem resetting_stable (o : State) (w : Word) : Stable (Resetting o w) := by
  have hst (s : State) : Stable fun t =>
      Linking o w .closed (fun _ => .stopped) (fun _ => .stopped) t ∧ Kept s t := Linking.stable (by simp)
  have hrun := Run.stable o w .closed
  exact
    { applyMove := fun m s h => h.elim (fun h => h.applyMove m)
        fun h => .inr ((hst s).applyMove m s ⟨h, kept_of_same rfl rfl rfl⟩).1
      setMoves := fun ms s h => h.imp
        (fun h => h.besides (hrun.setMoves ms s h.run) rfl ⟨rfl, rfl, rfl, rfl, rfl, rfl, rfl⟩)
        fun h => ((hst s).setMoves ms s ⟨h, kept_of_same rfl rfl rfl⟩).1
      starve := fun s h => h.imp
        (fun h => h.besides (hrun.starve s h.run) rfl ⟨rfl, rfl, rfl, rfl, rfl, rfl, rfl⟩)
        fun h => ((hst s).starve s ⟨h, kept_of_same rfl rfl rfl⟩).1
      countAccess := fun s h => h.imp
        (fun h => h.besides (hrun.countAccess s h.run) rfl ⟨rfl, rfl, rfl, rfl, rfl, rfl, rfl⟩)
        fun h => ((hst s).countAccess s ⟨h, kept_of_same rfl rfl rfl⟩).1
      countPoll := fun s h => h.imp
        (fun h => h.besides (hrun.countPoll s h.run) rfl ⟨rfl, rfl, rfl, rfl, rfl, rfl, rfl⟩)
        fun h => ((hst s).countPoll s ⟨h, kept_of_same rfl rfl rfl⟩).1 }

theorem Resetting.isSome (h : Resetting o w s) : s.qm.isSome = true := h.elim (·.run.isSome) (·.run.isSome)

/-- The rings after `SR` has read 0, whatever their flags still say. -/
abbrev Cleared (o : State) (w : Word) (s : State) : Prop :=
  Linking o w .closed (fun _ => .stopped) (fun _ => .stopped) s

variable {ok : State → Prop} {rest : State → Flow}

theorem Resetting.waitThen (h : Resetting o w s) (hn : ∀ t, Cleared o w t → (rest t).Links o w ok) :
    (waitThen rest s).Links o w ok := by
  have hw := (resetting_stable o w).resetWait_reads (fun _ ht => ht.isSome) s.moves h
  unfold Machine.waitThen
  split
  · next t ht =>
    rw [ht] at hw
    obtain ⟨hr, hoff⟩ := hw
    refine hn t (hr.resolve_left fun hwait => ?_)
    exact absurd (hoff.symm.trans hwait.pending) (by decide)
  · next t ht =>
    rw [ht] at hw
    exact Resetting.isSome hw
  · next t ht =>
    rw [ht] at hw
    obtain ⟨hr, hon | hstarved⟩ := hw
    · refine .inr (hr.resolve_right fun hlink => ?_)
      exact absurd (hlink.clear.symm.trans hon) (by decide)
    · exact .inl hstarved

/-- A write of `DMABMR.SR` makes a reset pending and touches nothing else of the links (70_reset_and_hazards.md R355). -/
theorem pending_of_resetBit (r : Regs) :
    Regs.resetPending { r with dmabmr := ((((r.dmabmr &&& ~~~BMR_SR) ||| (BMR_SR &&& BMR_SR)) &&& Reg.fields .dmabmr) |||
      (r.dmabmr &&& BMR_SR)) } = true := by
  simp [Regs.resetPending, bit, BMR_SR, Reg.fields]

/-- What follows a reset: the flags fall (43_eth.md R232). -/
theorem Cleared.afterReset (h : Cleared o w s) :
    Settled o w ((s.setRx { s.rx with started := false }).setTx { s.tx with started := false }) :=
  h.same (h.run.afterReset (resets := false)) ⟨rfl, rfl, rfl, rfl, rfl, rfl, rfl⟩ rfl rfl rfl

namespace Linking

theorem resetBody (h : Settled o w s)
    (hn : ∀ t, Settled o w t → t.rx.started = false → (rest t).Links o w ok) : (resetBody rest s).Links o w ok :=
  h.access fun t ht _ => by
    have hwait : Waiting o w (regField .dmabmr BMR_SR BMR_SR t) :=
      ⟨ht.origin, ht.run.regWrite .dmabmr _, pending_of_resetBit t.regs,
        ht.rx.congr (.of_eq rfl rfl rfl rfl rfl rfl) fun hq => absurd hq (rxFlag_ne_alone _),
        ht.tx.congr (.of_eq rfl rfl rfl rfl rfl)⟩
    exact Resetting.waitThen (.inl hwait) fun u hu => hn _ hu.afterReset rfl

theorem sameBases_initDmaomr (t : State) :
    t.regs.SameBases (regField .dmaomr INIT_DMAOMR INIT_DMAOMR t).regs :=
  ⟨rfl, rfl, rfl, by simp [regField, Machine.regWrite, regRead, Regs.startRx, bit, INIT_DMAOMR, Reg.fields],
    by simp [regField, Machine.regWrite, regRead, Regs.startTx, bit, INIT_DMAOMR, Reg.fields]⟩

theorem sameBases_initDmabmr (v : Word) (t : State) :
    t.regs.SameBases (regField .dmabmr INIT_DMABMR_MASK v t).regs :=
  ⟨rfl, rfl, by simp [regField, Machine.regWrite, regRead, Regs.resetPending, bit, INIT_DMABMR_MASK, BMR_SR, Reg.fields],
    rfl, rfl⟩

theorem afterResetInit (h : Settled o w s) : (afterResetInit s).Links o w (Settled o w) :=
  have hplain {r : Reg} (hr : r.plain = true) (mask v : Word) (t : State) :
      t.regs.SameBases (regField r mask v t).regs := regWrite_sameBases hr _ t
  h.qmRegField (hplain rfl _ _) fun _ h => h.qmEmit fun _ h _ => h.qmEmit fun _ h _ =>
    h.qmRegField (hplain rfl _ _) fun _ h => h.qmRegField (hplain rfl _ _) fun _ h =>
    h.qmRegField (hplain rfl _ _) fun _ h => h.qmRegField sameBases_initDmaomr fun _ h =>
    h.qmRegField (sameBases_initDmabmr _) fun _ h => h

theorem ethSendBody (h : Settled o w s) : (ethSendBody s).Links o w (Settled o w) :=
  h.txSendBody.andThen fun _ _ _ h => h.access fun t ht _ => by
    split
    · exact ht
    · exact ht.qmRegWrite rfl fun _ h => h

end Linking

/-! ## ETH_NEW: the receive ring stays as the reset left it until `RX_START` -/

/-- What a body has come to, however it ends, may be added to what its answer says. -/
theorem Flow.Ends.with_state {ok stop fatal wait P : State → Prop} {f : Flow} (h : f.Ends ok stop fatal wait)
    (hP : P f.state) : f.Ends (fun t => ok t ∧ P t) stop fatal wait := by
  cases f with
  | ok r0 r1 t => exact ⟨h, hP⟩
  | stop c t => exact h
  | fatal k t => exact h
  | wait t => exact h

theorem rx_stable (r : RxRing) : Stable fun s => s.rx = r where
  applyMove m s h := (congrArg QmView.rx (qmView_applyMove m s)).trans h
  setMoves _ _ h := h
  starve _ h := h
  countAccess _ h := h
  countPoll _ h := h

section
variable {r : RxRing} {next : State → Flow}

theorem rx_qmRegWrite {g : Reg} {v : Word} (h : s.rx = r) (hn : ∀ t, t.rx = r → (next t).state.rx = r) :
    (qmRegWrite g v s next).state.rx = r :=
  (rx_stable r).access h fun t ht => hn _ ((congrArg QmView.rx (qmView_regWrite g v t)).trans ht)

theorem rx_qmRegField {g : Reg} {mask v : Word} (h : s.rx = r) (hn : ∀ t, t.rx = r → (next t).state.rx = r) :
    (qmRegField g mask v s next).state.rx = r :=
  (rx_stable r).access h fun t ht => hn _ ((congrArg QmView.rx (qmView_regField g mask v t)).trans ht)

theorem rx_qmEmit {e : Event} (h : s.rx = r) (hn : ∀ t, t.rx = r → (next t).state.rx = r) :
    (qmEmit e s next).state.rx = r :=
  (rx_stable r).access h fun _ ht => hn _ ht

theorem rx_qmWrite {a v : Word} (h : s.rx = r) (hn : ∀ t, t.rx = r → (next t).state.rx = r) :
    (qmWrite a v s next).state.rx = r :=
  (rx_stable r).access h fun _ ht => hn _ ht

theorem rx_afterResetInit (h : s.rx = r) : (afterResetInit s).state.rx = r :=
  rx_qmRegField h fun _ h => rx_qmEmit h fun _ h => rx_qmEmit h fun _ h => rx_qmRegField h fun _ h =>
    rx_qmRegField h fun _ h => rx_qmRegField h fun _ h => rx_qmRegField h fun _ h => rx_qmRegField h fun _ h => h

theorem rx_txInit (es : List TxSlot) (i : Nat) (h : s.rx = r) : (txInit i es s).state.rx = r := by
  induction es generalizing s i with
  | nil => exact h
  | cons e es ih =>
    have hrel : (txReleaseIf i e s).rx = r := by rw [txReleaseIf_eq]; exact h
    exact rx_qmWrite hrel fun _ h => rx_qmWrite h fun _ h => rx_qmWrite h fun _ h => rx_qmWrite h fun _ h => ih _ h

theorem rx_txStartBody (h : s.rx = r) : (txStartBody s).state.rx = r := by
  unfold txStartBody
  split
  · exact h
  split
  · exact h
  exact Flow.andThen_keeps (P := fun t => t.rx = r) (rx_txInit _ _ h) fun _ _ _ ht =>
    rx_qmRegWrite ht fun _ h => rx_qmRegField h fun _ h => h
end

namespace Linking

theorem afterResetNew (h : Settled o w s) (hoff : s.rx.started = false) (n : Nat) :
    (afterResetNew n s).Links o w (Settled o w) :=
  (h.afterResetInit.with_state (P := fun t => t.rx = s.rx) (rx_afterResetInit rfl)).andThen fun _ _ t ht =>
    (ht.1.txStartBody.with_state (P := fun u => u.rx = s.rx) (rx_txStartBody ht.2)).andThen fun _ _ u hu => by
      have hrx : (if 0 < n then Machine.rxStartBody n u else .ok 0 0 u).Links o w (Settled o w) := by
        split
        · exact hu.1.rxStartBody n fun hon => absurd (hon.symm.trans ((congrArg _ hu.2).trans hoff)) (by decide)
        · exact hu.1
      exact hrx.andThen fun _ _ _ h => h

theorem ethNewBody (h : Settled o w s) (n : Nat) : (ethNewBody n s).Links o w (Settled o w) := by
  unfold Machine.ethNewBody
  split
  · exact h
  · exact (h.rxNewBody _).andThen fun _ _ _ h => h.txNewBody.andThen fun _ _ _ h =>
      h.resetBody fun _ h hoff => h.afterResetNew hoff n

/-! ## Every body -/

/-- Every body keeps the rings linked, the regrowing of a started receive ring left out (70_reset_and_hazards.md
R368). -/
theorem body (h : Settled o w s) (i : Instr)
    (hq : ∀ n, i = .rxStart n → s.rx.started = true → n ≤ s.rx.slots.length ∨ s.quiet = true) :
    (commandBody i s).Links o w (Settled o w) := by
  cases i with
  | bufNew cap => exact h.bufNewBody cap
  | bufSetlen len => exact h.bufSetlenBody len
  | bufInfo => exact h.bufInfoBody
  | bufFree => exact h.bufFreeBody
  | rxNew size => exact h.rxNewBody size
  | rxStart n => exact h.rxStartBody n (hq n rfl)
  | rxPoll => exact h.rxPollBody
  | rxState => exact h.rxStateBody
  | rxRecv => exact h.rxRecvBody
  | txNew => exact h.txNewBody
  | txStart => exact h.txStartBody
  | txSend => exact h.txSendBody
  | txState => exact h.txStateBody
  | txPoll => exact h.txPollBody
  | txQlen => exact h.txQlenScan _ _
  | txReap => exact h.txReapScan fun j e he => by rwa [Nat.zero_add]
  | ethNew n => exact h.ethNewBody n
  | dmaReset => exact h.resetBody fun _ h _ => h
  | ethInit => exact h.resetBody fun _ h _ => h.afterResetInit
  | irqEnable => exact h.irqEnableBody
  | irqAck => exact h.irqAckBody
  | phyStatus => exact h.phyStatusBody
  | ethSend => exact h.ethSendBody

end Linking

theorem Waiting.resumeBody (h : Waiting o w s) {i : Instr} (hr : Machine.resumeBody i = some rest) :
    (rest s).Links o w (Settled o w) := by
  have hwait : Resetting o w s := .inl h
  cases i <;> cases hr
  case dmaReset => exact hwait.waitThen fun _ h => h.afterReset
  case ethInit => exact hwait.waitThen fun _ h => h.afterReset.afterResetInit
  case ethNew n => exact hwait.waitThen fun _ h => h.afterReset.afterResetNew rfl n

/-! ## Every step -/

theorem ringLinks_of_links (hr : s.regs.resetPending = s.qm.isSome) (hrx : RxLink (rxFlag s.rx) s)
    (htx : TxLink (txFlag s.tx) s) : s.RingLinks := by
  have rxOn (h : s.rx.started = true) : rxFlag s.rx = .running := rxFlag_of_started h
  have rxOff (h : s.rx.started = false) : rxFlag s.rx = .stopped := rxFlag_of_not_started h
  have txOn (h : s.tx.started = true) : txFlag s.tx = .running := txFlag_of_started h
  have txOff (h : s.tx.started = false) : txFlag s.tx = .stopped := txFlag_of_not_started h
  exact
    { reset := hr
      rxStarted := fun h => hrx.head (by rw [rxOn h]; simp)
      txStarted := fun h => htx.head (txOn h)
      rxStopped := fun h => hrx.stopped (rxOff h)
      txStopped := fun h => htx.stopped (by rw [txOff h]; simp)
      rxChain := fun h i e he => ⟨(hrx.chain (rxOn h) i e he).next, (hrx.chain (rxOn h) i e he).ctrl⟩
      txChain := fun h i e he =>
        ⟨(htx.chain (txOn h) i e he).next, (htx.chain (txOn h) i e he).ter, (htx.chain (txOn h) i e he).tch⟩
      rxWord2 := hrx.word2
      txWord2 := htx.word2
      txQueued := htx.queued (txFlag_ne_starting _)
      rxAt := hrx.place
      txAt := htx.place
      rxHolds := fun hp => by
        obtain ⟨e, he, hheld⟩ := hrx.holds hp
        exact ⟨e, he, hheld.desc, hheld.owned, hheld.buf, hheld.size, hheld.next⟩
      txHolds := fun hp => by
        obtain ⟨e, he, hheld⟩ := htx.holds hp
        exact ⟨e, he, hheld.desc, hheld.owned, hheld.buf, hheld.status, hheld.next⟩ }

theorem rxLink_of_ringLinks (h : s.RingLinks) : RxLink (rxFlag s.rx) s := by
  have on (hm : rxFlag s.rx ≠ .stopped) : s.rx.started = true := by
    by_contra hs
    exact hm (rxFlag_of_not_started (Bool.eq_false_iff.mpr hs))
  have off (hm : rxFlag s.rx = .stopped) : s.rx.started = false := by
    by_contra hs
    rw [Bool.not_eq_false] at hs
    rw [rxFlag_of_started hs] at hm
    cases hm
  refine ⟨fun hm => h.rxStarted (on hm), fun hm => h.rxStopped (off hm), fun hm i e he => ?_,
    fun hm => absurd hm (rxFlag_ne_alone _), h.rxWord2, h.rxAt, fun hp => ?_⟩
  · obtain ⟨hnext, hctrl⟩ := h.rxChain (on (by rw [hm]; simp)) i e he
    exact ⟨hnext, hctrl⟩
  · obtain ⟨e, he, hdesc, hown, hbuf, hsize, hnext⟩ := h.rxHolds hp
    exact ⟨e, he, hdesc, hown, hbuf, hsize, hnext⟩

theorem txLink_of_ringLinks (h : s.RingLinks) : TxLink (txFlag s.tx) s := by
  have on (hm : txFlag s.tx = .running) : s.tx.started = true := by
    by_contra hs
    rw [txFlag_of_not_started (Bool.eq_false_iff.mpr hs)] at hm
    cases hm
  have off (hm : txFlag s.tx ≠ .running) : s.tx.started = false := by
    by_contra hs
    exact hm (txFlag_of_started (Bool.not_eq_false _ ▸ hs))
  refine ⟨fun hm => h.txStarted (on hm), fun hm => h.txStopped (off hm), fun hm i e he => ?_, fun _ => h.txQueued,
    h.txWord2, h.txAt, fun hp => ?_⟩
  · obtain ⟨hnext, hter, htch⟩ := h.txChain (on hm) i e he
    exact ⟨hnext, hter, htch⟩
  · obtain ⟨e, he, hdesc, hown, hbuf, hstatus, hnext⟩ := h.txHolds hp
    exact ⟨e, he, hdesc, hown, hbuf, hstatus, hnext⟩

theorem origin_of_invariants (hr : s.InRange) (ho : s.Owned) (hf : s.port.fault = 0) (hs : s.starved = false) : Origin s :=
  ⟨tables_of_inRange hr hf hs, tables_of_owned ho hs, hardware_of_inRange hr⟩

theorem linked_of_starved (h : t.starved = true) : t.Linked := fun _ hs => absurd (h.symm.trans hs) (by decide)

theorem busy_stable : Stable fun s => s.qm.isSome = true where
  applyMove m s h := by
    have hqm : (applyMove m s).qm = s.qm := congrArg QmView.qm (qmView_applyMove m s)
    rw [hqm]
    exact h
  setMoves _ _ h := h
  starve s h := by rw [starve, State.setQm_qm, Option.isSome_map]; exact h
  countAccess s h := by rw [countAccess, State.setQm_qm, Option.isSome_map]; exact h
  countPoll s h := by rw [countPoll, State.setQm_qm, Option.isSome_map]; exact h

/-- The last action of a command at a point where it may end. -/
theorem Linking.finish (h : Settled o w s) (c : Code) (r0 r1 : Word) : (finish (result c r0 r1) s).Linked := by
  rcases (Linking.stable (rxFlag_ne_alone s.rx)).finish_cases ⟨h, kept_of_same rfl rfl rfl⟩ (result c r0 r1) with
    ⟨t, ⟨ht, _⟩, heq⟩ | ⟨t, ⟨ht, _⟩, heq⟩
  · rw [heq]
    exact fun _ _ => ringLinks_of_links ht.clear
      (ht.rx.congr (t := result c r0 r1 t) (.of_eq rfl rfl rfl rfl rfl rfl) fun hq => absurd hq (rxFlag_ne_alone _))
      (ht.tx.congr (t := result c r0 r1 t) (.of_eq rfl rfl rfl rfl rfl))
  · rw [heq]
    exact linked_of_starved (starve_starved ht.run.isSome)

theorem linked_conclude {f : Flow} (h : f.Links o w (Settled o w)) : f.conclude.Linked := by
  cases f with
  | ok r0 r1 t => exact Linking.finish h _ _ _
  | stop c t => exact Linking.finish h _ _ _
  | fatal k t =>
    rcases busy_stable.finish_cases h (raise k) with ⟨u, _, heq⟩ | ⟨u, hu, heq⟩
    · exact fun hf _ => absurd ((congrArg (·.port.fault) heq).symm.trans hf) (fatalCode_ne_zero k)
    · exact (show Flow.conclude (.fatal k t) = _ from heq) ▸ linked_of_starved (starve_starved hu)
  | wait t =>
    rcases h with hs | hw
    · exact linked_of_starved hs
    · exact fun _ _ => ringLinks_of_links (hw.pending.trans hw.run.isSome.symm) hw.rx hw.tx

/-- The start of a command on linked rings. -/
theorem settled_startCommand (ho : Origin s) (h : s.RingLinks) (hq : s.qm = none) (w : Word) (ms : List Move) :
    Settled s w (startCommand w (s.setMoves ms)) :=
  ⟨ho, Run.startCommand s ms w, h.reset.trans (by rw [hq]; rfl),
    (rxLink_of_ringLinks h).congr (.of_eq rfl rfl rfl rfl rfl rfl) fun hm => absurd hm (rxFlag_ne_alone _),
    (txLink_of_ringLinks h).congr (.of_eq rfl rfl rfl rfl rfl)⟩

theorem waiting_of_ringLinks (ho : Origin s) (h : s.RingLinks) {q : Qm} (hq : s.qm = some q) : Waiting s q.cmd s :=
  ⟨ho, ⟨.start, ⟨q, hq, rfl⟩, rfl, id⟩, h.reset.trans (by rw [hq]; rfl), rxLink_of_ringLinks h, txLink_of_ringLinks h⟩

/-- A move of another agent while no command runs. -/
theorem ringLinks_move (ho : Origin s) (h : s.RingLinks) (hq : s.qm = none) (m : Move) (ms : List Move) :
    (applyMove m (s.setMoves ms)).RingLinks := by
  have hclear : s.regs.resetPending = false := h.reset.trans (by rw [hq]; rfl)
  have hrun : Settled s 0 (startCommand 0 (s.setMoves ms)) := settled_startCommand ho h hq 0 ms
  have hs : Sound (s.setMoves ms) :=
    ⟨hrun.sound.wide, hrun.sound.placed, hrun.sound.buffer, hrun.sound.size,
      hardwareInRange_congr (s := s) rfl rfl rfl ho.hardware⟩
  obtain ⟨hrx, htx, hk⟩ := links_applyMove hs hclear (rxFlag_ne_alone _)
    ((rxLink_of_ringLinks h).congr (.of_eq rfl rfl rfl rfl rfl rfl) fun hm => absurd hm (rxFlag_ne_alone _))
    ((txLink_of_ringLinks h).congr (.of_eq rfl rfl rfl rfl rfl)) m
  obtain ⟨_, _, erx, etx⟩ := tables_eq_iff.mp hk.tables
  have hqm : (applyMove m (s.setMoves ms)).qm = s.qm := congrArg QmView.qm (qmView_applyMove m (s.setMoves ms))
  exact ringLinks_of_links (by rw [hk.reset, hqm, hq]; exact hclear) (by rw [erx]; exact hrx) (by rw [etx]; exact htx)

theorem starved_moveOn (h : s.starved = true) : (moveOn s).starved = true := by
  unfold moveOn
  split
  · exact h
  · exact (starved_of_qmView (qmView_applyMove ..)).trans h

/-- A step from linked rings, QM making progress and no fatal cause set. -/
theorem linked_of_stepTo (ho : Origin s) (hf : s.port.fault = 0) (hlinks : s.RingLinks) (hg : s.regrowsAlone)
    (h : StepTo s t) : t.Linked := by
  cases h with
  | idle => exact fun _ _ => hlinks
  | move hq => exact fun _ _ => ringLinks_move ho hlinks hq _ _
  | @issue m ms w i hq hm hc hd =>
    rw [runCommand_of_ready (s := s.setMoves ms) hf]
    refine linked_conclude ((settled_startCommand ho hlinks hq _ ms).body i fun n hn hs => ?_)
    subst hn
    have hfetch : fetch s = .issue (.rxStart n) (s.setMoves ms) := by simp only [fetch, hm, hc, hd]
    exact (hg n _ hq hfetch hs).imp_right fun hquiet => quiet_of_moves hquiet rfl
  | @illegal m ms w e hq =>
    rw [illegalCommand, runCommand_of_ready (s := s.setMoves ms) hf]
    exact linked_conclude (settled_startCommand ho hlinks hq w ms)
  | starved hq hs => exact linked_of_starved (starved_moveOn ((starved_eq hq).trans hs))
  | resumed hq hs hd hr => exact linked_conclude ((waiting_of_ringLinks ho hlinks hq).resumeBody hr)
end

/-- Settles O15: the moves of the others keep to the linked rings, and QM gives a walker nothing it has not linked. -/
theorem stepKeepsRingLinks : Obligations.StepKeepsRingLinks := by
  intro s t hr ho hl hg h
  by_cases hf : s.port.fault = 0
  · cases hs : s.starved with
    | false => exact linked_of_stepTo (origin_of_invariants hr ho hf hs) hf (hl hf hs) hg (step_eq_next_iff.mp h)
    | true =>
      obtain ⟨q, hq⟩ : ∃ q, s.qm = some q := by
        cases hq : s.qm with
        | none => rw [starved_of_none hq] at hs; cases hs
        | some q => exact ⟨q, rfl⟩
      rw [step_busy hq, resume, if_pos ((starved_eq hq).symm.trans hs)] at h
      cases h
      exact linked_of_starved (starved_moveOn hs)
  · exact fun hft => absurd ((fatalCauseIsSticky s t hr hf h).symm.trans hft) hf

end Sys2Proof.Machine
end

section
/-! PROOFS. `RX_START` undisturbed, with the reference allocator and room (41_rx_ring.md R173 to R177, 20_memory.md
R86): the state it leaves, word by word. -/

namespace Sys2Proof.Machine

/-! ## The reference allocator with room -/

theorem le_heapStep (size : Nat) : size ≤ heapStep size := by unfold heapStep; omega

section
variable {s t : State} {bytes size : Nat}

theorem toNat_brk (h : s.HasRoom bytes) (hb : 0 < bytes) : (word s.heap.brk).toNat = s.heap.brk := by
  have hfits := h.fits
  have hwide := h.wide
  rw [word, BitVec.toNat_ofNat]
  omega

theorem proposal_of_room (h : s.HasRoom bytes) (hb : heapStep size ≤ bytes) :
    proposal size s = (some (word s.heap.brk), { s.heap with brk := s.heap.brk + heapStep size }) := by
  have hfits := h.fits
  have hle := le_heapStep size
  have hroom : ¬ s.par.heapBase + s.par.heapSize < s.heap.brk + size := by omega
  simp only [proposal, h.reference, referenceAlloc, if_neg hroom, heapStep]

theorem admissible_of_room {held : List Region} (h : s.HasRoom bytes) (hb : heapStep size ≤ bytes) (hpos : 0 < bytes)
    (hheld : ∀ r ∈ held, r.1 + r.2 ≤ s.heap.brk) : admissible s held size (word s.heap.brk) = true := by
  have hfits := h.fits
  have hle := le_heapStep size
  have hbelow : ∀ r ∈ held ++ liveRegions s, Region.disjoint (s.heap.brk, size) r = true := fun r hr =>
    region_disjoint_iff.mpr (.inr ((List.mem_append.mp hr).elim (hheld r) (h.below r)))
  have hlimit : s.heap.brk + size ≤ s.par.heapBase + s.par.heapSize := by omega
  simp only [admissible, toNat_brk h hpos, Bool.and_eq_true, decide_eq_true_eq, List.all_eq_true]
  exact ⟨⟨⟨⟨h.aligned, h.positive.ne'⟩, h.base⟩, hlimit⟩, hbelow⟩

theorem alloc_of_room {held : List Region} (h : s.HasRoom bytes) (hb : heapStep size ≤ bytes) (hpos : 0 < bytes)
    (hheld : ∀ r ∈ held, r.1 + r.2 ≤ s.heap.brk) :
    alloc held size s = (some (word s.heap.brk), s.setHeap { s.heap with brk := s.heap.brk + heapStep size }) :=
  alloc_of_proposal (proposal_of_room h hb) (admissible_of_room h hb hpos hheld)

/-- The room that is left after the oracle has answered, everything live still below it. -/
theorem State.HasRoom.after {step : Nat} (h : s.HasRoom bytes) (hstep : step ≤ bytes) (h8 : step % 8 = 0)
    (hpar : t.par = s.par) (hheap : t.heap = { s.heap with brk := s.heap.brk + step })
    (hbelow : ∀ r ∈ liveRegions t, r.1 + r.2 ≤ s.heap.brk + step) : t.HasRoom (bytes - step) := by
  have hfits := h.fits
  have hbase := h.base
  have haligned := h.aligned
  have hpositive := h.positive
  refine ⟨by rw [hheap]; exact h.reference, ?_, ?_, ?_, ?_, by rw [hpar]; exact h.wide, by rw [hheap]; exact hbelow⟩
  · rw [hpar, hheap]; dsimp only; omega
  · rw [hheap]; dsimp only; omega
  · rw [hheap]; dsimp only; omega
  · rw [hpar, hheap]; dsimp only; omega

theorem State.HasRoom.congr (h : s.HasRoom bytes) (ht : t.tables = s.tables) (hheap : t.heap = s.heap) :
    t.HasRoom bytes := by
  have hpar := (tables_eq_iff.mp ht).1
  refine ⟨by rw [hheap]; exact h.reference, ?_, by rw [hheap]; exact h.aligned, by rw [hheap]; exact h.positive, ?_,
    by rw [hpar]; exact h.wide, ?_⟩
  · rw [hpar, hheap]; exact h.base
  · rw [hpar, hheap]; exact h.fits
  · rw [liveRegions_congr ht, hheap]; exact h.below
end

/-! ## One new entry -/

/-- The state with another record of QM's and another memory: what a run of stores of QM's changes. -/
def State.within (s : State) (q : Option Qm) (m : Memory) : State := (s.setQm q).setMem m

theorem qmWrite_quiet {s : State} (h : s.quiet = true) :
    ∃ q, ∀ a v next, qmWrite a v s next = next (s.within q (s.mem.write32 a v)) :=
  ⟨_, fun _ _ _ => access_quiet _ h⟩

theorem qmWrite_within {s : State} (h : s.quiet = true) (q : Option Qm) :
    ∃ q', ∀ m a v next, qmWrite a v (s.within q m) next = next (s.within q' (m.write32 a v)) :=
  have hquiet (m : Memory) : (s.within q m).quiet = true := quiet_of_moves h rfl
  ⟨q.map fun r : Qm => { r with pc := r.pc + 1 }, fun m _ _ _ => access_quiet (s := s.within q m) _ (hquiet m)⟩

/-- The stores of `RX_START` into a new descriptor before its Buffer is allocated, in their order (R174). -/
def layBlank (m : Memory) (d : Word) : Memory :=
  (((m.write32 (descWord d 0) 0).write32 (descWord d 1) RX_RCH).write32 (descWord d 2) 0).write32 (descWord d 3) 0

/-- The stores of `RX_START` into a new entry's descriptor, in their order (R174). -/
def layEntry (m : Memory) (d b : Word) (size : Nat) : Memory :=
  (((layBlank m d).write32 (descWord d 2) b).write32 (descWord d 1) (rxCtrl false size)).write32 (descWord d 0) RX_OWN

theorem qmWrite_blank {s : State} (h : s.quiet = true) (d : Word) :
    ∃ q, ∀ next, (qmWrite (descWord d 0) 0 s fun s => qmWrite (descWord d 1) RX_RCH s fun s =>
      qmWrite (descWord d 2) 0 s fun s => qmWrite (descWord d 3) 0 s next) = next (s.within q (layBlank s.mem d)) := by
  obtain ⟨q0, h0⟩ := qmWrite_quiet h
  obtain ⟨q1, h1⟩ := qmWrite_within h q0
  obtain ⟨q2, h2⟩ := qmWrite_within h q1
  obtain ⟨q3, h3⟩ := qmWrite_within h q2
  exact ⟨q3, fun next => by rw [h0, h1, h2, h3]; rfl⟩

theorem ChangesIn.trans {x : Region} {m m' m'' : Memory} (h : ChangesIn x m m') (g : ChangesIn x m' m'') :
    ChangesIn x m m'' := fun a ha => (g a ha).trans (h a ha)

theorem layEntry_changesIn {d : Word} (hd : DescAt d) (m : Memory) (b : Word) (size : Nat) :
    ChangesIn (descRegion d) m (layEntry m d b size) :=
  have hw (m : Memory) (v : Word) {k : Nat} (hk : k < 4) := hd.changesIn m v hk
  have hblank : ChangesIn (descRegion d) m (layBlank m d) :=
    (((hw _ _ (by decide)).trans (hw _ _ (by decide))).trans (hw _ _ (by decide))).trans (hw _ _ (by decide))
  ((hblank.trans (hw _ _ (by decide))).trans (hw _ _ (by decide))).trans (hw _ _ (by decide))

theorem layEntry_words {d : Word} (hd : DescAt d) (m : Memory) (b : Word) (size : Nat) :
    (layEntry m d b size).read32 (descWord d 0) = RX_OWN ∧ (layEntry m d b size).read32 (descWord d 2) = b := by
  refine ⟨read32_write32_same .., ?_⟩
  rw [layEntry, hd.read_write _ _ (by decide) (by decide), if_neg (by decide),
    hd.read_write _ _ (by decide) (by decide), if_neg (by decide), read32_write32_same]

/-- What `RX_START` does for a new entry once its descriptor is laid (R174). -/
def rxGraft (i : Nat) (d : Word) (s : State) : Flow :=
  match alloc [(d.toNat, Config.descBytes)] s.rx.bufSize s with
  | (none, s) => .fatal .allocationFailure s
  | (some b, s) =>
    qmWrite (descWord d 2) b (s.setBt (btInsert s.bt b { cap := s.rx.bufSize, len := 0, owner := .rxSlot i })) fun s =>
    qmWrite (descWord d 1) (rxCtrl false s.rx.bufSize) s fun s =>
    qmWrite (descWord d 0) RX_OWN s fun s =>
    .ok 0 0 (s.setRx { s.rx with slots := s.rx.slots ++ [{ desc := d, buf := b }] })

theorem rxGrowOne_of_alloc {s t : State} {d : Word} (h : alloc [] Config.descBytes s = (some d, t)) :
    rxGrowOne s = qmWrite (descWord d 0) 0 t fun u => qmWrite (descWord d 1) RX_RCH u fun u =>
      qmWrite (descWord d 2) 0 u fun u => qmWrite (descWord d 3) 0 u (rxGraft s.rx.slots.length d) := by
  unfold rxGrowOne
  dsimp only
  rw [h]
  rfl

/-- The state after a Buffer is made for an entry whose descriptor is laid (R174). -/
def rxGrafted (q : Option Qm) (i : Nat) (d : Word) (s : State) : State :=
  let b := word s.heap.brk
  let m := ((s.mem.write32 (descWord d 2) b).write32 (descWord d 1) (rxCtrl false s.rx.bufSize)).write32
    (descWord d 0) RX_OWN
  let t := (s.setHeap { s.heap with brk := s.heap.brk + heapStep s.rx.bufSize }).setBt
    (btInsert s.bt b { cap := s.rx.bufSize, len := 0, owner := .rxSlot i })
  (t.within q m).setRx { s.rx with slots := s.rx.slots ++ [{ desc := d, buf := b }] }

theorem rxGraft_of_room {s : State} {bytes i : Nat} {d : Word} (hq : s.quiet = true) (hroom : s.HasRoom bytes)
    (hb : heapStep s.rx.bufSize ≤ bytes) (hpos : 0 < bytes) (hd : d.toNat + 16 ≤ s.heap.brk) :
    ∃ q, rxGraft i d s = .ok 0 0 (rxGrafted q i d s) := by
  have hheld : ∀ r ∈ [(d.toNat, Config.descBytes)], r.1 + r.2 ≤ s.heap.brk := fun r hr => by
    rw [List.mem_singleton.mp hr]; exact hd
  have hquiet : ((s.setHeap { s.heap with brk := s.heap.brk + heapStep s.rx.bufSize }).setBt
      (btInsert s.bt (word s.heap.brk) { cap := s.rx.bufSize, len := 0, owner := .rxSlot i })).quiet = true :=
    quiet_of_moves hq rfl
  obtain ⟨q0, h0⟩ := qmWrite_quiet hquiet
  obtain ⟨q1, h1⟩ := qmWrite_within hquiet q0
  obtain ⟨q2, h2⟩ := qmWrite_within hquiet q1
  refine ⟨q2, ?_⟩
  rw [rxGraft, alloc_of_room hroom hb hpos hheld]
  dsimp only [State.setHeap_bt, State.setHeap_rx]
  rw [h0, h1, h2]
  rfl

/-- The state after `RX_START` has made one entry (R174). -/
def rxGrown (q q' : Option Qm) (s : State) : State :=
  rxGrafted q' s.rx.slots.length (word s.heap.brk)
    ((s.setHeap { s.heap with brk := s.heap.brk + 16 }).within q (layBlank s.mem (word s.heap.brk)))

theorem rxGrowOne_of_room {s : State} {bytes : Nat} (hq : s.quiet = true) (hroom : s.HasRoom bytes)
    (hb : 16 + heapStep s.rx.bufSize ≤ bytes) (hpos : 0 < heapStep s.rx.bufSize) :
    ∃ q q', rxGrowOne s = .ok 0 0 (rxGrown q q' s) := by
  have hdesc : alloc [] Config.descBytes s = (some (word s.heap.brk), s.setHeap { s.heap with brk := s.heap.brk + 16 }) :=
    alloc_of_room hroom (size := 16) (by unfold heapStep; omega) (by omega) (by simp)
  have hleft : (s.setHeap { s.heap with brk := s.heap.brk + 16 }).HasRoom (bytes - 16) :=
    hroom.after (by omega) rfl rfl rfl fun r hr => Nat.le_add_right_of_le (hroom.below r hr)
  obtain ⟨q, hblank⟩ := qmWrite_blank (s := s.setHeap { s.heap with brk := s.heap.brk + 16 }) (quiet_of_moves hq rfl)
    (word s.heap.brk)
  obtain ⟨q', hgraft⟩ := rxGraft_of_room (bytes := bytes - 16) (i := s.rx.slots.length) (d := word s.heap.brk)
    (s := (s.setHeap { s.heap with brk := s.heap.brk + 16 }).within q (layBlank s.mem (word s.heap.brk)))
    (quiet_of_moves hq rfl) (hleft.congr rfl rfl) (Nat.le_sub_of_add_le' hb) (by omega)
    (by rw [toNat_brk hroom (by omega)]; exact Nat.le_refl _)
  refine ⟨q, q', ?_⟩
  rw [rxGrowOne_of_alloc hdesc, hblank]
  exact hgraft

/-! ## All new entries -/

/-- The `j`-th new entry of `RX_START` with the reference allocator (R174, 20_memory.md R86). -/
def freshSlot (s : State) (j : Nat) : RxSlot :=
  { desc := word (s.heap.brk + j * (16 + heapStep s.rx.bufSize))
    buf := word (s.heap.brk + j * (16 + heapStep s.rx.bufSize) + 16) }

/-- The table after `j` new entries. -/
def grownSlots (s : State) (j : Nat) : List RxSlot := s.rx.slots ++ (List.range j).map (freshSlot s)

theorem grownSlots_succ (s : State) (j : Nat) : grownSlots s (j + 1) = grownSlots s j ++ [freshSlot s j] := by
  simp [grownSlots, List.range_succ]

theorem grownSlots_length (s : State) (j : Nat) : (grownSlots s j).length = s.rx.slots.length + j := by
  simp [grownSlots]

/-- The state after `j` new entries, but for QM's own record, the Buffer table and the memory. -/
def regrown (s : State) (j : Nat) (q : Option Qm) (bt : List (Word × BufRec)) (m : Memory) : State :=
  ((((s.setQm q).setBt bt).setHeap { s.heap with brk := s.heap.brk + j * (16 + heapStep s.rx.bufSize) }).setRx
    { s.rx with slots := grownSlots s j }).setMem m

theorem regrown_zero (s : State) : regrown s 0 s.qm s.bt s.mem = s := by
  have hslots : grownSlots s 0 = s.rx.slots := List.append_nil _
  rw [regrown, hslots, Nat.zero_mul]
  rfl

theorem regrown_succ (s : State) (j : Nat) (q : Option Qm) (bt : List (Word × BufRec)) (m : Memory) :
    regrown s (j + 1) q bt m =
      ((((s.setQm q).setBt bt).setHeap
        { s.heap with brk := s.heap.brk + j * (16 + heapStep s.rx.bufSize) + 16 + heapStep s.rx.bufSize }).setRx
        { s.rx with slots := grownSlots s j ++ [freshSlot s j] }).setMem m := by
  have hbrk : s.heap.brk + (j + 1) * (16 + heapStep s.rx.bufSize) =
      s.heap.brk + j * (16 + heapStep s.rx.bufSize) + 16 + heapStep s.rx.bufSize := by ring
  rw [regrown, hbrk, grownSlots_succ]

theorem rxGrown_regrown {s : State} {j : Nat} {q : Option Qm} {bt : List (Word × BufRec)} {m : Memory}
    (p p' : Option Qm) : ∃ q' bt' m', rxGrown p p' (regrown s j q bt m) = regrown s (j + 1) q' bt' m' := by
  refine ⟨p', (rxGrown p p' (regrown s j q bt m)).bt, (rxGrown p p' (regrown s j q bt m)).mem, ?_⟩
  rw [regrown_succ]
  rfl

/-- What a Buffer of a new entry is recorded as (R174). -/
def freshRec (s : State) (j : Nat) : BufRec :=
  { cap := s.rx.bufSize, len := 0, owner := .rxSlot (s.rx.slots.length + j) }

/-- The point of `RX_START` at which `j` new entries are made and `n` are missing, seen from its start `s`. -/
structure Regrown (o : State) (w : Word) (N : Nat) (s : State) (n j : Nat) (u : State) : Prop where
  grow : Run.Growable o w N n u
  room : 0 < n → u.HasRoom (n * (16 + heapStep s.rx.bufSize))
  form : ∃ q bt m, u = regrown s j q bt m
  bufs : ∀ i < j, btFind u.bt (freshSlot s i).buf = some (freshRec s i)
  bufOther : ∀ a, (∀ i < j, (freshSlot s i).buf ≠ a) → btFind u.bt a = btFind s.bt a
  old : ∀ e ∈ s.rx.slots, ∀ k, k = 0 ∨ k = 2 → u.mem.read32 (descWord e.desc k) = s.mem.read32 (descWord e.desc k)
  new : ∀ i < j, u.mem.read32 (descWord (freshSlot s i).desc 0) = RX_OWN ∧
    u.mem.read32 (descWord (freshSlot s i).desc 2) = (freshSlot s i).buf
  frame : ∀ x : Word, (∀ e ∈ grownSlots s j, ¬ inDesc e.desc x) → u.mem.read x = s.mem.read x

theorem DescAt.inDesc_of_has {d x : Word} (h : DescAt d) (hx : (descRegion d).has x) : inDesc d x := by
  obtain ⟨hlow, hhigh⟩ := hx
  have hfits := h.fits
  simp only [descRegion, Config.descBytes] at hlow hhigh
  refine ⟨x.toNat - d.toNat, by rw [Config.descBytes]; omega, BitVec.eq_of_toNat_eq ?_⟩
  rw [BitVec.toNat_add, word, BitVec.toNat_ofNat]
  omega

theorem getElem?_grownSlots {s : State} {i j : Nat} {e : RxSlot} (he : (grownSlots s j)[i]? = some e) :
    (i < s.rx.slots.length ∧ e ∈ s.rx.slots) ∨
      (s.rx.slots.length ≤ i ∧ i - s.rx.slots.length < j ∧ e = freshSlot s (i - s.rx.slots.length)) := by
  unfold grownSlots at he
  rcases Nat.lt_or_ge i s.rx.slots.length with hi | hi
  · rw [List.getElem?_append_left hi] at he
    exact .inl ⟨hi, List.mem_of_getElem? he⟩
  · rw [List.getElem?_append_right hi, List.getElem?_map, Option.map_eq_some_iff] at he
    obtain ⟨k, hk, rfl⟩ := he
    obtain ⟨hlt, hk⟩ := List.getElem?_eq_some_iff.mp hk
    rw [List.getElem_range] at hk
    rw [List.length_range] at hlt
    subst hk
    exact .inr ⟨hi, hlt, rfl⟩

theorem getElem?_grownSlots_new {s : State} {i j : Nat} (hi : i < j) :
    (grownSlots s j)[s.rx.slots.length + i]? = some (freshSlot s i) := by
  rw [grownSlots, List.getElem?_append_right (Nat.le_add_right ..), Nat.add_sub_cancel_left, List.getElem?_map,
    List.getElem?_range hi]
  rfl

namespace Regrown

variable {o s u : State} {w : Word} {N n j : Nat}

theorem slots (h : Regrown o w N s n j u) : u.rx.slots = grownSlots s j := by
  obtain ⟨q, bt, m, rfl⟩ := h.form; rfl

theorem brk (h : Regrown o w N s n j u) : u.heap.brk = s.heap.brk + j * (16 + heapStep s.rx.bufSize) := by
  obtain ⟨q, bt, m, rfl⟩ := h.form; rfl

theorem size (h : Regrown o w N s n j u) : u.rx.bufSize = s.rx.bufSize := by
  obtain ⟨q, bt, m, rfl⟩ := h.form; rfl

/-- The entry about to be made. -/
theorem entry (h : Regrown o w N s n j u) :
    ({ desc := word u.heap.brk, buf := word (u.heap.brk + 16) } : RxSlot) = freshSlot s j := by
  rw [h.brk]; rfl

theorem quiet (h : Regrown o w N s n j u) (hq : s.quiet = true) : u.quiet = true := by
  obtain ⟨q, bt, m, rfl⟩ := h.form
  exact quiet_of_moves hq rfl

theorem size_pos (ho : Origin o) (h : Regrown o w N s n j u) : 0 < heapStep s.rx.bufSize := by
  have hmade : 1 ≤ u.rx.bufSize := (h.grow.run.ranges ho).rx.made h.grow.constructed
  have hle := le_heapStep s.rx.bufSize
  rw [h.size] at hmade
  omega

/-- Room for one more entry, in numbers. -/
theorem fits (h : Regrown o w N s (n + 1) j u) :
    u.heap.brk + (16 + heapStep s.rx.bufSize) ≤ 2 ^ 32 := by
  have hroom := h.room (Nat.succ_pos n)
  have hfits := hroom.fits
  have hwide := hroom.wide
  have hstep : 16 + heapStep s.rx.bufSize ≤ (n + 1) * (16 + heapStep s.rx.bufSize) :=
    Nat.le_mul_of_pos_left _ (Nat.succ_pos n)
  omega

/-- The new Buffer's address lies above everything that is recorded. -/
theorem btFind_new (ho : Origin o) (h : Regrown o w N s (n + 1) j u) : btFind u.bt (freshSlot s j).buf = none := by
  have hfits := h.fits
  have hsize := h.size_pos ho
  rw [Option.eq_none_iff_forall_ne_some]
  intro r hr
  have hlive := (h.room (Nat.succ_pos n)).below _ (mem_liveRegions.mpr (.inr (.inr ⟨_, mem_of_btFind hr, rfl⟩)))
  rw [← h.entry] at hlive
  simp only [word, BitVec.toNat_ofNat] at hlive
  omega

/-- Everything live after one more entry lies below the oracle's pointer. -/
theorem below_grown (ho : Origin o) (h : Regrown o w N s (n + 1) j u) (q q' : Option Qm) :
    ∀ r ∈ liveRegions (rxGrown q q' u), r.1 + r.2 ≤ u.heap.brk + (16 + heapStep s.rx.bufSize) := by
  have hfits := h.fits
  have hsize := h.size_pos ho
  have hle := le_heapStep s.rx.bufSize
  have hbelow := (h.room (Nat.succ_pos n)).below
  intro r hr
  rcases mem_liveRegions.mp hr with ⟨e, he, rfl⟩ | ⟨e, he, rfl⟩ | ⟨e, he, rfl⟩
  · rcases List.mem_append.mp he with he | he
    · have := hbelow _ (mem_liveRegions.mpr (.inl ⟨e, he, rfl⟩))
      omega
    · obtain rfl := List.mem_singleton.mp he
      simp only [word, BitVec.toNat_ofNat, Config.descBytes]
      omega
  · have := hbelow _ (mem_liveRegions.mpr (.inr (.inl ⟨e, he, rfl⟩)))
    omega
  · rcases mem_btInsert he with rfl | he
    · show (word (u.heap.brk + 16)).toNat + u.rx.bufSize ≤ _
      rw [h.size]
      simp only [word, BitVec.toNat_ofNat]
      omega
    · have := hbelow _ (mem_liveRegions.mpr (.inr (.inr ⟨e, he, rfl⟩)))
      omega

/-- One more entry (R174). -/
theorem step (ho : Origin o) (h : Regrown o w N s (n + 1) j u) {q q' : Option Qm}
    (heq : rxGrowOne u = .ok 0 0 (rxGrown q q' u)) : Regrown o w N s n (j + 1) (rxGrown q q' u) := by
  have hgrow : Run.Growable o w N n (rxGrown q q' u) := by
    have hruns := Run.rxGrowOne (resets := false) h.grow
    rw [heq] at hruns
    exact hruns
  have hform : ∃ p bt m, rxGrown q q' u = regrown s (j + 1) p bt m := by
    obtain ⟨p, bt, m, rfl⟩ := h.form
    exact rxGrown_regrown q q'
  have hslots : (rxGrown q q' u).rx.slots = grownSlots s (j + 1) := by obtain ⟨p, bt, m, hf⟩ := hform; rw [hf]; rfl
  have hs := hgrow.run.sound ho
  have hlast : (grownSlots s (j + 1))[s.rx.slots.length + j]? = some (freshSlot s j) :=
    getElem?_grownSlots_new (Nat.lt_succ_self j)
  have hd : DescAt (freshSlot s j).desc := hs.rxDesc (by rw [hslots]; exact List.mem_of_getElem? hlast)
  have hmem : (rxGrown q q' u).mem = layEntry u.mem (freshSlot s j).desc (freshSlot s j).buf s.rx.bufSize := by
    rw [← h.entry, ← h.size]; rfl
  have hbt : (rxGrown q q' u).bt = btInsert u.bt (freshSlot s j).buf (freshRec s j) := by
    have hlen : u.rx.slots.length = s.rx.slots.length + j := by rw [h.slots, grownSlots_length]
    rw [← h.entry, freshRec, ← h.size, ← hlen]; rfl
  have hother {i : Nat} {e : RxSlot} (hi : i < s.rx.slots.length + j) (he : (grownSlots s (j + 1))[i]? = some e) :
      SameDesc e.desc u.mem (rxGrown q q' u).mem := by
    rw [hmem]
    exact (hs.rxDesc (by rw [hslots]; exact List.mem_of_getElem? he)).sameDesc
      (hs.placed.rx_rx_apart (i := s.rx.slots.length + j) (j := i) (by rw [← hlast, ← hslots]; rfl)
        (by rw [← he, ← hslots]; rfl) (by omega)) (layEntry_changesIn hd _ _ _)
  refine ⟨hgrow, fun hn => ?_, hform, fun i hi => ?_, fun a ha => ?_, fun e he k hk => ?_, fun i hi => ?_, fun x hx => ?_⟩
  · have hstep : 16 + heapStep s.rx.bufSize ≤ (n + 1) * (16 + heapStep s.rx.bufSize) :=
      Nat.le_mul_of_pos_left _ (Nat.succ_pos n)
    have hleft := (h.room (Nat.succ_pos n)).after (t := rxGrown q q' u) hstep (by unfold heapStep; omega) rfl
      (by rw [← h.size, ← Nat.add_assoc]; rfl) (h.below_grown ho q q')
    rwa [Nat.succ_mul, Nat.add_sub_cancel] at hleft
  · rw [hbt]
    rcases Nat.lt_succ_iff_lt_or_eq.mp hi with hlt | rfl
    · have hne : (freshSlot s i).buf ≠ (freshSlot s j).buf := fun heq => by
        have := h.bufs i hlt
        rw [heq, h.btFind_new ho] at this
        cases this
      rw [btFind_insert_other _ _ _ _ hne]
      exact h.bufs i hlt
    · exact btFind_insert_same ..
  · rw [hbt, btFind_insert_other _ _ _ _ (ha j (Nat.lt_succ_self j)).symm]
    exact h.bufOther a fun i hi => ha i (Nat.lt_succ_of_lt hi)
  · obtain ⟨i, hi⟩ := List.getElem?_of_mem he
    have hlt := (List.getElem?_eq_some_iff.mp hi).1
    have hget : (grownSlots s (j + 1))[i]? = some e := (List.getElem?_append_left hlt).trans hi
    rw [hother (by omega) hget k (by omega)]
    exact h.old e he k hk
  · rcases Nat.lt_succ_iff_lt_or_eq.mp hi with hlt | rfl
    · have hget := hother (by omega) (getElem?_grownSlots_new (s := s) (Nat.lt_succ_of_lt hlt))
      rw [hget 0 (by decide), hget 2 (by decide)]
      exact h.new i hlt
    · rw [hmem]
      exact layEntry_words hd _ _ _
  · rw [grownSlots_succ] at hx
    rw [hmem, layEntry_changesIn hd _ _ _ x fun hin => hx _ (List.mem_append_right _ List.mem_cons_self)
      (hd.inDesc_of_has hin)]
    exact h.frame x fun e he => hx e (List.mem_append_left _ he)

/-- All missing entries (R174). -/
theorem rxGrow (ho : Origin o) (hq : s.quiet = true) (h : Regrown o w N s n j u) :
    ∃ t, rxGrow n u = .ok 0 0 t ∧ Regrown o w N s 0 (j + n) t := by
  induction n generalizing j u with
  | zero => exact ⟨u, rfl, h⟩
  | succ n ih =>
    have hstep : 16 + heapStep u.rx.bufSize ≤ (n + 1) * (16 + heapStep s.rx.bufSize) := by
      rw [h.size]
      exact Nat.le_mul_of_pos_left _ (Nat.succ_pos n)
    obtain ⟨q, q', heq⟩ := rxGrowOne_of_room (h.quiet hq) (h.room (Nat.succ_pos n)) hstep
      (by rw [h.size]; exact h.size_pos ho)
    obtain ⟨t, hgrow, ht⟩ := ih (h.step ho heq)
    refine ⟨t, ?_, by rwa [Nat.add_right_comm] at ht⟩
    rw [Machine.rxGrow, heq]
    exact hgrow

/-- The start of `RX_START`. -/
theorem start (hgrow : Run.Growable o w N n s) (hroom : 0 < n → s.HasRoom (n * (16 + heapStep s.rx.bufSize))) :
    Regrown o w N s n 0 s :=
  ⟨hgrow, hroom, ⟨s.qm, s.bt, s.mem, (regrown_zero s).symm⟩, nofun, fun _ _ => rfl, fun _ _ _ _ => rfl, nofun,
    fun _ _ => rfl⟩

end Regrown

end Sys2Proof.Machine
end

section
/-! PROOFS. `RX_START` undisturbed: the links of the chain, and the registration of the ring (41_rx_ring.md R176,
R177). -/

namespace Sys2Proof.Machine

/-! ## The links -/

theorem Sound.setMem {s : State} (h : Sound s) (m : Memory) : Sound (s.setMem m) :=
  ⟨h.wide, h.placed, h.buffer, h.size, hardwareInRange_congr (s := s) rfl rfl rfl h.hardware⟩

/-- The memory `m` after phase 2 of `RX_START` has linked the first `i` entries, seen from its start `s` (R176). -/
structure Relinked (s : State) (i : Nat) (m : Memory) : Prop where
  linked : ∀ j e, j < i → s.rx.slots[j]? = some e → RxLinked (s.setMem m) j e
  kept : ∀ e ∈ s.rx.slots, ∀ k, k = 0 ∨ k = 2 → m.read32 (descWord e.desc k) = s.mem.read32 (descWord e.desc k)
  frame : ∀ x : Word, (∀ e ∈ s.rx.slots, ¬ inDesc e.desc x) → m.read x = s.mem.read x

/-- The two stores that link an entry, in their order (R176). -/
def layLink (s : State) (i : Nat) (e : RxSlot) (m : Memory) : Memory :=
  (m.write32 (descWord e.desc 3) (rxNext s i)).write32 (descWord e.desc 1)
    (rxCtrl (decide (i + 1 = s.rx.slots.length)) s.rx.bufSize)

theorem layLink_changesIn {d : RxSlot} (hd : DescAt d.desc) (s : State) (i : Nat) (m : Memory) :
    ChangesIn (descRegion d.desc) m (layLink s i d m) :=
  (hd.changesIn _ _ (by decide)).trans (hd.changesIn _ _ (by decide))

/-- The stores of a link leave words 0 and 2 of every entry. -/
theorem layLink_other {s : State} {i k : Nat} {e f : RxSlot} {m : Memory} (hs : Sound s)
    (he : s.rx.slots[i]? = some e) (hf : f ∈ s.rx.slots) (hk : k = 0 ∨ k = 2) :
    (layLink s i e m).read32 (descWord f.desc k) = m.read32 (descWord f.desc k) := by
  have hd := hs.rxDesc (List.mem_of_getElem? he)
  obtain ⟨j, hj⟩ := List.getElem?_of_mem hf
  by_cases hij : i = j
  · obtain rfl : e = f := Option.some.inj (he.symm.trans (hij ▸ hj))
    rw [layLink, hd.read_write _ _ (by decide) (by omega), if_neg (by omega),
      hd.read_write _ _ (by decide) (by omega), if_neg (by omega)]
  · exact (hs.rxDesc hf).sameDesc (hs.placed.rx_rx_apart he hj hij) (layLink_changesIn hd s i m) k (by omega)

theorem RxLinked.layLink {s : State} {i j : Nat} {e f : RxSlot} {m : Memory} (hs : Sound s)
    (he : s.rx.slots[i]? = some e) (hf : s.rx.slots[j]? = some f) (h : RxLinked (s.setMem m) j f) :
    RxLinked (s.setMem (layLink s i e m)) j f :=
  have hnext : RxLinked (s.setMem (m.write32 (descWord e.desc 3) (rxNext s i))) j f :=
    RxLinked.write_next (s := s.setMem m) (hs.setMem m) he hf h
  RxLinked.write_ctrl (s := s.setMem (m.write32 (descWord e.desc 3) (rxNext s i))) (hs.setMem _) he hf hnext

theorem Relinked.link {s : State} {i : Nat} {e : RxSlot} {m : Memory} (hs : Sound s) (h : Relinked s i m)
    (he : s.rx.slots[i]? = some e) : Relinked s (i + 1) (layLink s i e m) := by
  have hd := hs.rxDesc (List.mem_of_getElem? he)
  refine ⟨fun j f hj hf => ?_, fun f hf k hk => ?_, fun x hx => ?_⟩
  · rcases Nat.lt_succ_iff_lt_or_eq.mp hj with hlt | rfl
    · exact (h.linked j f hlt hf).layLink hs he hf
    · obtain rfl : e = f := Option.some.inj (he.symm.trans hf)
      refine ⟨?_, read32_write32_same ..⟩
      show (layLink s j e m).read32 _ = rxNext s j
      rw [layLink, hd.read_write _ _ (by decide) (by decide), if_neg (by decide), read32_write32_same]
  · rw [layLink_other hs he hf hk]
    exact h.kept f hf k hk
  · rw [layLink_changesIn hd s i m x fun hin => hx e (List.mem_of_getElem? he) (hd.inDesc_of_has hin)]
    exact h.frame x hx

theorem rxRelink_quiet {s : State} {es : List RxSlot} {i : Nat} {m : Memory} (hs : Sound s) (hq : s.quiet = true)
    (h : Relinked s i m) (hes : s.rx.slots.drop i = es) (q : Option Qm) :
    ∃ q' m', rxRelink es (s.within q m) = .ok 0 0 (s.within q' m') ∧ Relinked s s.rx.slots.length m' := by
  induction es generalizing i m q with
  | nil =>
    have hlen := List.drop_eq_nil_iff.mp hes
    exact ⟨q, m, rfl, fun j e hj => h.linked j e (Nat.lt_of_lt_of_le hj hlen), h.kept, h.frame⟩
  | cons e es ih =>
    have he : s.rx.slots[i]? = some e := by rw [← List.head?_drop, hes]; rfl
    have hrest : s.rx.slots.drop (i + 1) = es := by rw [← List.tail_drop, hes]; rfl
    have hlast : es.isEmpty = decide (i + 1 = s.rx.slots.length) := by
      have hi := (List.getElem?_eq_some_iff.mp he).1
      rw [← hrest, Bool.eq_iff_iff, List.isEmpty_iff, List.drop_eq_nil_iff, decide_eq_true_eq]
      omega
    have hnext : (es.head?.map (·.desc)).getD 0 = rxNext s i := by rw [rxNext, ← List.head?_drop, hrest]
    obtain ⟨q1, h1⟩ := qmWrite_within hq q
    obtain ⟨q2, h2⟩ := qmWrite_within hq q1
    obtain ⟨q', m', heq, hm'⟩ := ih (h.link hs he) hrest q2
    refine ⟨q', m', ?_, hm'⟩
    rw [Linking.rxRelink_cons, hlast, hnext, h1, h2]
    exact heq

/-! ## The registration -/

/-- The state after the three register accesses of `RX_START`, with base register `b` (R177). -/
def rxLaunched (q : Option Qm) (b : Word) (s : State) : State :=
  ((s.setQm q).setRegs { s.regs with dmardlar := b, dmaomr := s.regs.dmaomr ||| 0x00000002 }).setRxw (polledRx s)

/-- The state after `RX_START` has registered its ring and started RXW (R177, R173). -/
def rxRegistered (q : Option Qm) (m : Memory) (s : State) : State :=
  (((s.within q m).setRegs { s.regs with dmardlar := rxHead s, dmaomr := s.regs.dmaomr ||| 0x00000002 }).setRxw
    (polledRx s)).setRx { s.rx with started := true }

theorem setSr_dmaomr {v : Word} (h : onlyFields .dmaomr v) :
    ((v &&& ~~~OMR_SR) ||| (OMR_SR &&& OMR_SR)) &&& Reg.fields .dmaomr = v ||| 0x00000002 := by
  have hset : (v &&& ~~~OMR_SR) ||| (OMR_SR &&& OMR_SR) = v ||| OMR_SR := by
    ext i hi
    simp only [BitVec.getElem_or, BitVec.getElem_and, BitVec.getElem_not]
    cases v[i] <;> cases OMR_SR[i] <;> rfl
  have hsr : onlyFields .dmaomr OMR_SR := rfl
  rw [hset]
  exact onlyFields_or h hsr

theorem rxDemandPoll_eq (s : State) : rxDemandPoll s = s.setRxw (polledRx s) := by
  unfold rxDemandPoll polledRx
  simp only [Bool.not_eq_true]
  split <;> rfl

theorem qmRegWrite_quiet {s : State} (h : s.quiet = true) (r : Reg) (v : Word) (next : State → Flow) :
    qmRegWrite r v s next = next (regWrite r v (countAccess s)) := access_quiet _ h

theorem qmRegField_quiet {s : State} (h : s.quiet = true) (r : Reg) (mask v : Word) (next : State → Flow) :
    qmRegField r mask v s next = next (regField r mask v (countAccess s)) := access_quiet _ h

theorem regField_sr {s : State} (h : onlyFields .dmaomr s.regs.dmaomr) :
    regField .dmaomr OMR_SR OMR_SR s = s.setRegs { s.regs with dmaomr := s.regs.dmaomr ||| 0x00000002 } := by
  rw [← setSr_dmaomr h]
  rfl

theorem rxLaunch_quiet {s : State} (hq : s.quiet = true) (hreg : onlyFields .dmaomr s.regs.dmaomr) (b : Word) :
    ∃ q, ∀ next, (qmRegWrite .dmardlar b s fun s => qmRegField .dmaomr OMR_SR OMR_SR s fun s =>
      qmRegWrite .dmarpdr 1 s next) = next (rxLaunched q b s) := by
  have hpoll (t : State) : regWrite .dmarpdr 1 t = t.setRxw (polledRx t) := rxDemandPoll_eq t
  have hquiet {t : State} (ht : t.quiet = true) (r : Regs) : ((countAccess t).setRegs r).quiet = true :=
    quiet_of_moves ht rfl
  refine ⟨(countAccess (countAccess (countAccess s))).qm, fun next => ?_⟩
  rw [qmRegWrite_quiet hq, regWrite_dmardlar, qmRegField_quiet (hquiet hq _), regField_sr (by exact hreg),
    qmRegWrite_quiet (hquiet (hquiet hq _) _), hpoll]
  rfl

theorem rxRegister_quiet {s : State} (hs : Sound s) (hq : s.quiet = true) :
    ∃ q m, rxRegister s = .ok (word s.rx.slots.length) 0 (rxRegistered q m s) ∧ Relinked s s.rx.slots.length m := by
  have hstart : Relinked s 0 s.mem := ⟨fun j e hj => absurd hj (Nat.not_lt_zero j), fun _ _ _ _ => rfl, fun _ _ => rfl⟩
  obtain ⟨q, m, heq, hm⟩ := rxRelink_quiet hs hq hstart rfl s.qm
  obtain ⟨q', hlaunch⟩ := rxLaunch_quiet (s := s.within q m) (quiet_of_moves hq rfl) hs.hardware.regs.dmaomr (rxHead s)
  refine ⟨q', m, ?_, hm⟩
  have heq : rxRelink s.rx.slots s = .ok 0 0 (s.within q m) := heq
  rw [rxRegister, heq]
  exact hlaunch _

end Sys2Proof.Machine
end

section
/-! PROOFS. `RX_START` undisturbed: its answer and the chain it leaves (41_rx_ring.md R173 to R177, 44_walker.md
R261). -/

namespace Sys2Proof.Machine

section
variable {s : State} {i : Nat} {e : RxSlot}

/-- Word 1 of a linked entry (R176). -/
theorem rxCtrl_eq (c : Prop) [Decidable c] (size : Nat) :
    rxCtrl (decide c) size = if c then 0x0000C000 ||| word size else 0x00004000 ||| word size := by
  by_cases h : c
  · rw [decide_eq_true h, if_pos h]; rfl
  · rw [decide_eq_false h, if_neg h]; rfl

/-- The next-descriptor function goes round a linked ring (R62, 44_walker.md R261). -/
theorem rxHop_of_linked (hs : Sound s) (he : s.rx.slots[i]? = some e) (h : RxLinked s i e) :
    some (rxHop s.mem (rxHead s) e.desc) = s.rx.slots[(i + 1) % s.rx.slots.length]?.map (·.desc) := by
  have hi : i < s.rx.slots.length := (List.getElem?_eq_some_iff.mp he).1
  unfold rxHop nextDesc
  dsimp only
  rw [h.ctrl, h.next, rxRer_rxCtrl hs.size, rxRch_rxCtrl]
  by_cases hlast : i + 1 = s.rx.slots.length
  · obtain ⟨f, hf⟩ : ∃ f, s.rx.slots[0]? = some f := ⟨_, List.getElem?_eq_getElem (by omega)⟩
    have hhead : rxHead s = f.desc := by rw [rxHead_eq, List.head?_map, List.head?_eq_getElem?, hf]; rfl
    rw [if_pos (decide_eq_true hlast), hlast, Nat.mod_self, hf, hhead,
      trunc8_of_aligned (hs.rxDesc (List.mem_of_getElem? hf)).aligned]
    rfl
  · obtain ⟨f, hf⟩ : ∃ f, s.rx.slots[i + 1]? = some f := ⟨_, List.getElem?_eq_getElem (by omega)⟩
    have hnext : rxNext s i = f.desc := by rw [rxNext, hf]; rfl
    rw [if_neg (by simpa using hlast), if_pos rfl, Nat.mod_eq_of_lt (by omega), hf, hnext,
      trunc8_of_aligned (hs.rxDesc (List.mem_of_getElem? hf)).aligned]
    rfl
end

/-- The body of `RX_START`, from a point at which it is not refused (R173). -/
theorem rxStartBody_grows {s : State} {n : Nat} (hc : s.rx.constructed = true) (hmax : n ≤ s.par.maxRing)
    (hpos : 0 < max n s.rx.slots.length) :
    rxStartBody n s = (rxGrow (n - s.rx.slots.length) s).andThen fun _ _ s => rxRegister s := by
  rw [rxStartBody, if_neg (by simpa using hc), if_neg (Nat.not_lt.mpr hmax), if_neg hpos.ne']

/-- The table of `RX_START n` never holds more than `P_MAX_RING` entries (R64). -/
theorem growable_of_start {o s : State} {w : Word} {n : Nat} (ho : Origin o) (h : Run o w .closed s)
    (hc : s.rx.constructed = true) (hmax : n ≤ s.par.maxRing) :
    Run.Growable o w (max n s.rx.slots.length) (n - s.rx.slots.length) s :=
  ⟨h, hc, by omega, Nat.max_le.mpr ⟨hmax, (h.ranges ho).rx.length⟩⟩

/-- Undisturbed, with room, the body of `RX_START` builds all missing entries, links all entries, and registers the
ring. -/
theorem rxStartBody_quiet {o s : State} {w : Word} {n : Nat} (ho : Origin o) (hrun : Run o w .closed s)
    (hq : s.quiet = true) (hc : s.rx.constructed = true) (hmax : n ≤ s.par.maxRing) (hpos : 0 < max n s.rx.slots.length)
    (hroom : 0 < n - s.rx.slots.length → s.HasRoom ((n - s.rx.slots.length) * (16 + heapStep s.rx.bufSize))) :
    ∃ q m u N, rxStartBody n s = .ok (word u.rx.slots.length) 0 (rxRegistered q m u) ∧
      Regrown o w N s 0 (n - s.rx.slots.length) u ∧ Relinked u u.rx.slots.length m := by
  obtain ⟨u, hgrow, hu⟩ := (Regrown.start (growable_of_start ho hrun hc hmax) hroom).rxGrow ho hq
  rw [Nat.zero_add] at hu
  obtain ⟨q, m, hreg, hm⟩ := rxRegister_quiet (hu.grow.run.sound ho) (hu.quiet hq)
  refine ⟨q, m, u, _, ?_, hu, hm⟩
  rw [rxStartBody_grows hc hmax hpos, hgrow]
  exact hreg

/-- The words of every entry once the ring is linked (R62, R174, R176). -/
theorem Regrown.words {o s u : State} {w : Word} {N k i : Nat} {m : Memory} {e : RxSlot} (ho : Origin o)
    (h : Regrown o w N s 0 k u) (hm : Relinked u u.rx.slots.length m) (he : (grownSlots s k)[i]? = some e) :
    m.read32 (descWord e.desc 3) = (((grownSlots s k)[i + 1]?.map (·.desc)).getD 0) ∧
      m.read32 (descWord e.desc 1) =
        (if i + 1 = (grownSlots s k).length then 0x0000C000 ||| word s.rx.bufSize
         else 0x00004000 ||| word s.rx.bufSize) ∧
      (i < s.rx.slots.length → m.read32 (descWord e.desc 0) = s.mem.read32 (descWord e.desc 0) ∧
        m.read32 (descWord e.desc 2) = s.mem.read32 (descWord e.desc 2)) ∧
      (s.rx.slots.length ≤ i → m.read32 (descWord e.desc 0) = 0x80000000 ∧ m.read32 (descWord e.desc 2) = e.buf) ∧
      some (rxHop m (rxHead u) e.desc) =
        ((grownSlots s k)[(i + 1) % (grownSlots s k).length]?.map (·.desc)) := by
  rw [← h.slots] at he ⊢
  have hlinked : RxLinked (u.setMem m) i e := hm.linked i e (List.getElem?_eq_some_iff.mp he).1 he
  have hmem := List.mem_of_getElem? he
  have h0 := hm.kept e hmem 0 (.inl rfl)
  have h2 := hm.kept e hmem 2 (.inr rfl)
  refine ⟨hlinked.next, ?_, fun hold => ?_, fun hnew => ?_,
    rxHop_of_linked (s := u.setMem m) ((h.grow.run.sound ho).setMem m) he hlinked⟩
  · rw [← h.size, ← rxCtrl_eq]
    exact hlinked.ctrl
  · rw [h.slots, grownSlots, List.getElem?_append_left hold] at he
    have hin := List.mem_of_getElem? he
    exact ⟨h0.trans (h.old e hin 0 (.inl rfl)), h2.trans (h.old e hin 2 (.inr rfl))⟩
  · rw [h.slots] at he
    rcases getElem?_grownSlots he with ⟨hold, _⟩ | ⟨_, hlt, rfl⟩
    · exact absurd hold (Nat.not_lt.mpr hnew)
    · obtain ⟨hown, hbuf⟩ := h.new _ hlt
      exact ⟨h0.trans hown, h2.trans hbuf⟩

/-- The state in which the ring stands registered, after the end of the command. -/
theorem answered_rxRegistered {s : State} {w : Word} {r0 : Word} {k : Nat} (q p : Option Qm) (m b : Memory)
    (bt : List (Word × BufRec)) :
    result .ok r0 0 (rxRegistered q m (regrown (startCommand w s) k p bt b)) =
      ((((((s.setRx { s.rx with started := true, slots := grownSlots s k }).setRegs
        { s.regs with dmardlar := (((grownSlots s k).head?.map (·.desc)).getD 0),
                      dmaomr := s.regs.dmaomr ||| 0x00000002 }).setRxw (polledRx s)).setBt bt).setHeap
        { s.heap with brk := s.heap.brk + k * (16 + heapStep s.rx.bufSize) }).setMem m).answered w .ok r0 0 [] := by
  have hhead : rxHead (regrown (startCommand w s) k p bt b) = ((grownSlots s k).head?.map (·.desc)).getD 0 := by
    rw [rxHead_eq, List.head?_map]; rfl
  have hpolled : polledRx (regrown (startCommand w s) k p bt b) = polledRx s := rfl
  have hslots : (regrown (startCommand w s) k p bt b).rx = { s.rx with slots := grownSlots s k } := rfl
  rw [rxRegistered, hhead, hpolled, hslots, State.answered, List.append_nil]
  simp only [result, emit, State.within, regrown, startCommand, State.setQm, State.setMem, State.setRx, State.setRegs,
    State.setRxw, State.setBt, State.setHeap, State.setPort, State.setHist]

theorem getElem?_fresh {s : State} {k j : Nat} {e : RxSlot} (he : ((List.range k).map (freshSlot s))[j]? = some e) :
    j < k ∧ e = freshSlot s j := by
  have hj := (List.getElem?_eq_some_iff.mp he).1
  rw [List.length_map, List.length_range] at hj
  rw [List.getElem?_map, List.getElem?_range hj] at he
  exact ⟨hj, (Option.some.inj he).symm⟩

/-- Settles O41: all missing entries are built, then all are linked, then the ring is registered; each of the three
carries what it keeps of the words of the others. -/
theorem rxStartBuildsCircularChain : Obligations.RxStartBuildsCircularChain := by
  intro n s hs hq hr hown hc hmax hpos size old k stride hroom fresh slots
  have ho : Origin s := origin_of_invariants hr hown hs.2 (starved_of_none hs.1)
  have hrun : Run s (encode (.rxStart n)) .closed (startCommand (encode (.rxStart n)) s) :=
    Run.startCommand s s.moves (encode (.rxStart n))
  obtain ⟨q, m, u, N, hbody, hu, hm⟩ := rxStartBody_quiet (n := n) ho hrun
    (quiet_of_moves hq rfl) hc hmax hpos fun hk => (hroom hk).congr rfl rfl
  have hslots : u.rx.slots = slots := hu.slots
  have hquiet : (rxRegistered q m u).quiet = true := quiet_of_moves (hu.quiet (quiet_of_moves hq rfl)) rfl
  refine ⟨result .ok (word u.rx.slots.length) 0 (rxRegistered q m u), ?_, ?_, fun j e he => ?_, fun a ha => ?_,
    fun i e he => ?_, fun x hx => ?_⟩
  · rw [exec_idle hs.1, runCommand_of_ready hs.2]
    show Host.Outcome.next (rxStartBody n _).conclude = _
    rw [hbody, conclude_ok_quiet hquiet]
  · obtain ⟨p, bt, b, rfl⟩ := hu.form
    exact answered_rxRegistered q p m b bt
  · obtain ⟨hj, rfl⟩ := getElem?_fresh he
    exact hu.bufs j hj
  · exact hu.bufOther a fun i hi => ha _ (List.mem_map_of_mem (List.mem_range.mpr hi))
  · have hwords := hu.words ho hm (i := i) (e := e) he
    exact hwords
  · exact (hm.frame x fun e he => hx e (hslots ▸ he)).trans (hu.frame x hx)

end Sys2Proof.Machine
end

section
/-! PROOFS. Memory (20_memory.md): every step keeps the canonical form (log entry 4), because it only stores bytes; and the
four bytes of a word, at any address (R72, R75, log entry 12). -/

namespace Sys2Proof.Machine

/-! ## The canonical form -/

/-- Storing bytes keeps the canonical form. -/
theorem written_wf {m m' : Memory} (h : Written m m') (hm : m.wf = true) : m'.wf = true := by
  induction h with
  | refl => exact hm
  | tail _ hstep ih => obtain ⟨a, v, rfl⟩ := hstep; exact write_wf a v ih

/-- Settles O11: a step does no more to memory than store bytes. -/
theorem stepKeepsMemoryCanonical : Obligations.StepKeepsMemoryCanonical := fun _ _ hwf h =>
  have ⟨_, hmem⟩ := step_onlyStored h
  written_wf hmem hwf

/-! ## The bytes of a word -/

/-- The bytes before a last one count in multiples of its range. -/
theorem toNat_append_byte {n : Nat} (x : BitVec n) (b : Byte) : (x ++ b).toNat = x.toNat * 2 ^ 8 + b.toNat := by
  rw [BitVec.toNat_append, ← Nat.shiftLeft_add_eq_or_of_lt b.isLt, Nat.shiftLeft_eq]

/-- A word read is the little-endian sum of its bytes (R72). -/
theorem read32_toNat (m : Memory) (a : Word) :
    (m.read32 a).toNat = (m.read a).toNat + 2 ^ 8 * (m.read (a + 1)).toNat + 2 ^ 16 * (m.read (a + 2)).toNat +
      2 ^ 24 * (m.read (a + 3)).toNat := by
  rw [Memory.read32, toNat_append_byte, toNat_append_byte, toNat_append_byte]
  omega

theorem setWidth_ushiftRight_byte (v : Word) (k : Nat) : (v >>> k).setWidth 8 = v.extractLsb' k 8 := rfl

/-- Byte `k` of a word written is at `a + k` (R75), also where that sum wraps past the top (log entry 12). -/
theorem read_write32_byte (m : Memory) (a v : Word) {k : Nat} (hk : k < 4) :
    (m.write32 a v).read (a + word k) = v.extractLsb' (8 * k) 8 := by
  have hbyte0 : v.setWidth 8 = v.extractLsb' 0 8 := setWidth_ushiftRight_byte v 0
  interval_cases k <;> simp [word, Memory.write32, read_write, setWidth_ushiftRight_byte, hbyte0]

/-- Settles O10: the four bytes are stored one after another, at four different addresses. -/
theorem wordsAreLittleEndian : Obligations.WordsAreLittleEndian := by
  intro m a v
  have hbyte {k : Nat} (hk : k < 4) := read_write32_byte m a v hk
  refine ⟨read32_toNat m a, read32_write32_same m a v, ?_, hbyte (k := 1) (by decide), hbyte (k := 2) (by decide),
    hbyte (k := 3) (by decide), fun b hb => ?_⟩
  · have hbyte0 := hbyte (k := 0) (by decide)
    rwa [word, BitVec.add_zero] at hbyte0
  · have hfirst : b ≠ a := by simpa [word] using hb 0 (by decide)
    exact read_write32_other m a v b ⟨hfirst, hb 1 (by decide), hb 2 (by decide), hb 3 (by decide)⟩

end Sys2Proof.Machine
end

section
/-! PROOFS. The command word (30_encoding.md): the fields of a well-formed command's word are the command's own fields
(R110 to R113), decoding gives a command of exactly these fields or names why there is none (R118, R133), and an illegal
word only completes with `ILLEGAL`. -/

namespace Sys2Proof.Machine

/-! ## The fields of a command -/

/-- Well-formed is: the immediate fits `w[23:0]` (R110). A row without immediate has the immediate 0. -/
theorem wf_iff_imm_lt (i : Instr) : i.wf = true ↔ i.fields.2 < 2 ^ 24 := by
  cases i <;> simp [Instr.wf, Instr.fields, immFits]

theorem immField_encode {i : Instr} (h : i.wf = true) : immField (encode i) = i.fields.2 := by
  have himm : i.fields.2 < 2 ^ 24 := (wf_iff_imm_lt i).mp h
  rw [immField, encode, word, BitVec.toNat_ofNat]
  omega

/-- The fields of a word put together again are the word. -/
theorem encode_of_fields {i : Instr} {w : Word} (h : i.fields = (opField w, immField w)) : encode i = w := by
  apply BitVec.eq_of_toNat_eq
  rw [encode, h, word, BitVec.toNat_ofNat, opField, immField]
  omega

theorem wf_of_fields {i : Instr} {w : Word} (h : i.fields = (opField w, immField w)) : i.wf = true := by
  rw [wf_iff_imm_lt, h]
  exact Nat.mod_lt _ (by decide)

/-! ## Decoding -/

theorem fixedRow_eq_ok {op imm : Nat} {i j : Instr} (h : fixedRow op imm i = .ok j) : imm = 0 ∧ i = j := by
  by_cases h0 : imm = 0
  · rw [fixedRow, if_pos h0] at h
    exact ⟨h0, Except.ok.inj h⟩
  · rw [fixedRow_of_ne_zero i h0] at h
    cases h

theorem ne_zero_of_fixedRow_error {op imm : Nat} {i : Instr} {e : DecodeError}
    (h : fixedRow op imm i = .error e) : imm ≠ 0 := by
  rintro rfl
  cases h

/-- The row of `op` is the row of the command that has this `op` (R112). -/
theorem decodeFields_fields (i : Instr) : decodeFields i.fields.1 i.fields.2 = .ok i := by
  cases i <;> rfl

/-- A row decodes to a command of just these fields: a row with an immediate keeps it, any other checks that it is 0. -/
theorem fields_of_decodeFields {op imm : Nat} {i : Instr} (h : decodeFields op imm = .ok i) : i.fields = (op, imm) := by
  unfold decodeFields at h
  split at h
  case h_1 | h_2 | h_5 | h_6 | h_17 => cases h; rfl
  case h_24 => cases h
  all_goals
    obtain ⟨rfl, rfl⟩ := fixedRow_eq_ok h
    rfl

theorem decode_of_encode {i : Instr} {w : Word} (hi : i.wf = true) (hw : encode i = w) : decode w = .ok i := by
  rw [← hw, decode, opField_encode, immField_encode hi, decodeFields_fields]

/-- Settles O1: the word's fields are the command's, and the command's row is that of its `op`. -/
theorem decodeInvertsEncode : Obligations.DecodeInvertsEncode := fun _ hi => decode_of_encode hi rfl

/-! ## Illegal words -/

/-- Decoding refuses only what R118 lists: no row has this `op`, or the row's check of the immediate failed. -/
theorem illegalWord_of_decode_error {w : Word} {e : DecodeError} (h : decode w = .error e) : illegalWord w := by
  unfold decode at h
  unfold illegalWord
  generalize opField w = op at h
  unfold decodeFields at h
  split at h
  case h_1 | h_2 | h_5 | h_6 | h_17 => cases h
  case h_24 =>
    left
    simp only [List.mem_cons, List.not_mem_nil, or_false, not_or]
    and_intros <;> assumption
  all_goals exact .inr ⟨by decide, ne_zero_of_fixedRow_error h⟩

/-- Settles O2: a word that decodes is the word of its command, and of no other since decoding inverts encoding; a word
that does not decode is listed in R118. -/
theorem everyWordIsOneCommandOrIllegal : Obligations.EveryWordIsOneCommandOrIllegal := by
  refine fun w => ⟨fun hlegal => ?_, fun hillegal => ?_⟩
  · cases hd : decode w with
    | error e => exact absurd (illegalWord_of_decode_error hd) hlegal
    | ok i =>
      have hfields := fields_of_decodeFields hd
      refine ⟨i, rfl, wf_of_fields hfields, encode_of_fields hfields, fun j hj hw => ?_⟩
      exact Except.ok.inj ((decode_of_encode hj hw).symm.trans hd)
  · obtain ⟨e, he⟩ := decode_illegalWord hillegal
    refine ⟨⟨e, he⟩, fun j hj hw => ?_⟩
    cases (decode_of_encode hj hw).symm.trans he

/-- Settles O3: seven words are those of their commands; of the others, one fails its row's check and one has no row. -/
theorem specWordsDecode : Obligations.SpecWordsDecode :=
  ⟨decode_of_encode rfl rfl, decode_of_encode rfl rfl, decode_of_encode rfl rfl, decode_of_encode rfl rfl,
    decode_of_encode rfl rfl, decode_of_encode rfl rfl, decode_of_encode rfl rfl,
    fixedRow_of_ne_zero (op := 0x12) (imm := 1) .rxPoll Nat.one_ne_zero, rfl⟩

/-- Settles O6: the word is issued, does not decode, and its body stops at once. -/
theorem illegalWordAnswersIllegal : Obligations.IllegalWordAnswersIllegal := by
  intro s addr w ms ⟨hidle, hfault⟩ hmoves hport hquiet hw
  obtain ⟨e, hd⟩ := decode_illegalWord hw
  have hstop : illegalCommand w (s.setMoves ms) = (s.setMoves ms).answered w .illegal 0 0 [] :=
    runCommand_stop hquiet hfault rfl
  rw [step_illegal hidle hmoves (cmdWord_portWrite hport w) hd, hstop]

end Sys2Proof.Machine
end

section
/-! PROOFS. The Buffer commands undisturbed, each with its refusals (40_buffer.md R151, R154, R157, R160), and HOST's
right to payload bytes (R162). -/

namespace Sys2Proof.Machine

/-! ## HOST's access to payload bytes -/

/-- The right's test is what R162 says: the byte lies within the capacity of a Buffer HOST owns. -/
theorem hostMay_iff (s : State) (a : Word) :
    hostMay s a = true ↔
      ∃ k r, (k, r) ∈ s.bt ∧ r.owner = .host ∧ k.toNat ≤ a.toNat ∧ a.toNat < k.toNat + r.cap := by
  simp [hostMay, and_assoc]

theorem hostPoke_of_may {s : State} {a : Word} (h : hostMay s a = true) (v : Byte) :
    hostPoke a v s = s.setMem (s.mem.write a v) := if_pos h

theorem hostPoke_of_not_may {s : State} {a : Word} (h : ¬ hostMay s a = true) (v : Byte) : hostPoke a v s = s :=
  if_neg h

/-- Settles O35: a read and a write of HOST make the same test. -/
theorem hostTouchesOnlyItsBuffers : Obligations.HostTouchesOnlyItsBuffers := by
  intro s a v may
  have hmay : hostMay s a = true ↔ may := hostMay_iff s a
  exact ⟨fun h => ⟨hostPoke_of_may (hmay.mpr h) v, if_pos (hmay.mpr h)⟩,
    fun h => ⟨hostPoke_of_not_may (mt hmay.mp h) v, if_neg (mt hmay.mp h)⟩⟩

/-! ## A command without accesses, undisturbed -/

/-- Where a body does its work in one go, what it did may as well have been done before the command started. -/
theorem result_startCommand (w : Word) (c : Code) (r0 r1 : Word) (t : State) :
    result c r0 r1 (startCommand w t) = t.answered w c r0 r1 [] := by
  simp [result, startCommand, emit, State.answered, State.setHist, State.setPort, State.setQm]

section
variable {i : Instr} {s t : State}

theorem exec_of_body_ok_quiet {r0 r1 : Word} (hs : s.ready) (hq : s.quiet = true)
    (hb : commandBody i (startCommand (encode i) s) = .ok r0 r1 (startCommand (encode i) t)) (ht : t.moves = s.moves) :
    exec i s = .next (t.answered (encode i) .ok r0 r1 []) := by
  have hquiet : (startCommand (encode i) t).quiet = true := quiet_of_moves hq ht
  rw [exec_idle hs.1, runCommand_of_ready hs.2, hb, conclude_ok_quiet hquiet, result_startCommand]

theorem exec_of_body_stop_quiet {c : Code} (hs : s.ready) (hq : s.quiet = true)
    (hb : commandBody i (startCommand (encode i) s) = .stop c (startCommand (encode i) t)) (ht : t.moves = s.moves) :
    exec i s = .next (t.refused i c) := by
  have hquiet : (startCommand (encode i) t).quiet = true := quiet_of_moves hq ht
  rw [exec_idle hs.1, runCommand_of_ready hs.2, hb, conclude_stop_quiet hquiet, result_startCommand, State.refused]
end

/-! ## `BUF_NEW` -/

/-- A draw that is a failure, or that breaks the laws of R84, is spent (log entry 5). -/
theorem alloc_of_no_admissible {s : State} {size : Nat} {o : Option Word} {h : Heap} {held : List Region}
    (hp : proposal size s = (o, h)) (ho : ∀ a, o = some a → admissible s held size a = false) :
    alloc held size s = (none, s.setHeap h) := by
  cases o with
  | none => simp [alloc, hp]
  | some a => simp [alloc, hp, ho a rfl]

theorem bufNewBody_allocFailure {cap : Nat} {s : State} {o : Option Word} {h : Heap} (hcap : 0 < cap)
    (hp : proposal cap s = (o, h)) (ho : ∀ a, o = some a → admissible s [] cap a = false) :
    bufNewBody cap s = .stop .allocFailure (s.setHeap h) := by
  rw [bufNewBody, if_neg hcap.ne', alloc_of_no_admissible hp ho]

/-- Settles O36: by the capacity, then by the oracle's answer. -/
theorem bufNewCreatesBuffer : Obligations.BufNewCreatesBuffer := by
  intro cap s hs hq
  refine ⟨fun hcap => ?_, fun hcap a h hp ha => ?_, fun hcap o h hp ho => ?_⟩
  · exact exec_of_body_stop_quiet (i := .bufNew cap) hs hq (if_pos hcap) rfl
  · exact exec_of_body_ok_quiet (i := .bufNew cap)
      (t := (s.setBt (btInsert s.bt a { cap := cap, len := 0, owner := .host })).setHeap h) hs hq
      (bufNewBody_ok hcap hp ha) rfl
  · exact exec_of_body_stop_quiet (i := .bufNew cap) (t := s.setHeap h) hs hq
      (bufNewBody_allocFailure hcap hp ho) rfl

/-! ## The commands on a Buffer HOST owns -/

/-- An operand that names no Buffer of HOST's (R114). -/
theorem withHostBuffer_badBuffer {s : State} (k : BufRec → State → Flow)
    (h : ∀ r, btFind s.bt (operandA s) = some r → r.owner ≠ .host) : withHostBuffer s k = .stop .badBuffer s := by
  unfold withHostBuffer hostBuffer
  cases hr : btFind s.bt (operandA s) with
  | none => rfl
  | some r => simp [h r hr]

section
variable {s : State}

theorem bufSetlenBody_badBuffer (len : Nat) (h : ∀ r, btFind s.bt (operandA s) = some r → r.owner ≠ .host) :
    bufSetlenBody len s = .stop .badBuffer s := withHostBuffer_badBuffer _ h

theorem bufInfoBody_badBuffer (h : ∀ r, btFind s.bt (operandA s) = some r → r.owner ≠ .host) :
    bufInfoBody s = .stop .badBuffer s := withHostBuffer_badBuffer _ h

theorem bufFreeBody_badBuffer (h : ∀ r, btFind s.bt (operandA s) = some r → r.owner ≠ .host) :
    bufFreeBody s = .stop .badBuffer s := withHostBuffer_badBuffer _ h

theorem bufSetlenBody_badLength {r : BufRec} {len : Nat} (hr : btFind s.bt (operandA s) = some r)
    (ho : r.owner = .host) (hlen : r.cap < len) : bufSetlenBody len s = .stop .badLength s := by
  rw [bufSetlenBody, withHostBuffer_host _ hr ho, if_pos hlen]
end

/-- Settles O37: by the record in `BT`, then by the capacity. -/
theorem bufSetlenSetsLength : Obligations.BufSetlenSetsLength := by
  intro len s hs hq
  refine ⟨fun r hr ho hlen => ?_, fun r hr ho hlen => ?_, fun hno => ?_⟩
  · exact exec_of_body_ok_quiet (i := .bufSetlen len)
      (t := s.setBt (btInsert s.bt s.port.a0 { r with len := len })) hs hq (bufSetlenBody_ok hr ho hlen) rfl
  · exact exec_of_body_stop_quiet (i := .bufSetlen len) hs hq (bufSetlenBody_badLength hr ho hlen) rfl
  · exact exec_of_body_stop_quiet (i := .bufSetlen len) hs hq (bufSetlenBody_badBuffer len hno) rfl

/-- Settles O38: by the record in `BT`. -/
theorem bufInfoAnswersCapacityAndLength : Obligations.BufInfoAnswersCapacityAndLength := by
  intro s hs hq
  refine ⟨fun r hr ho => ?_, fun hno => ?_⟩
  · exact exec_of_body_ok_quiet (i := .bufInfo) hs hq (bufInfoBody_ok hr ho) rfl
  · exact exec_of_body_stop_quiet (i := .bufInfo) hs hq (bufInfoBody_badBuffer hno) rfl

/-- Settles O39: by the record in `BT`. -/
theorem bufFreeEndsBuffer : Obligations.BufFreeEndsBuffer := by
  intro s hs hq
  refine ⟨fun r hr ho => ?_, fun hno => ?_⟩
  · exact exec_of_body_ok_quiet (i := .bufFree) (t := s.setBt (btErase s.bt s.port.a0)) hs hq
      (bufFreeBody_ok hr ho) rfl
  · exact exec_of_body_stop_quiet (i := .bufFree) hs hq (bufFreeBody_badBuffer hno) rfl

end Sys2Proof.Machine
end

section
/-! PROOFS. A command undisturbed, access by access: the state between two accesses, and how the command ends from there
(10_state.md R22, R26; 60_exceptions.md R316). -/

namespace Sys2Proof.Machine

/-! ## The state in the middle of a command -/

/-- The state in the middle of a command of word `w` with QM's record `q` and the events `mid` so far, where `t` is all
that the command has changed besides (10_state.md R22, R23). -/
def State.midway (t : State) (w : Word) (q : Option Qm) (mid : List Event) : State :=
  (t.setQm q).setHist (t.hist ++ .cmd w t.port.a0 :: mid)

/-- QM's record after one more access (R23). -/
def countQm (q : Option Qm) : Option Qm := q.map fun r => { r with pc := r.pc + 1 }

section
variable {t : State} {w : Word} {q : Option Qm} {mid : List Event}

theorem startCommand_eq_midway (w : Word) (s : State) :
    startCommand w s = s.midway w (startCommand w s).qm [] := rfl

theorem emit_midway (e : Event) : emit e (t.midway w q mid) = t.midway w q (mid ++ [e]) := by
  simp [emit, State.midway, State.setHist, State.setQm]

theorem access_midway (hq : t.quiet = true) (act : State → Flow) :
    access (t.midway w q mid) act = act (t.midway w (countQm q) mid) :=
  access_quiet act (quiet_of_moves hq rfl)

theorem qmWrite_midway (hq : t.quiet = true) (a v : Word) (next : State → Flow) :
    qmWrite a v (t.midway w q mid) next = next ((t.setMem (t.mem.write32 a v)).midway w (countQm q) mid) :=
  access_midway hq _

theorem qmEmit_midway (hq : t.quiet = true) (e : Event) (next : State → Flow) :
    qmEmit e (t.midway w q mid) next = next (t.midway w (countQm q) (mid ++ [e])) := by
  rw [qmEmit, access_midway hq, emit_midway]

/-! ## The end of the command -/

theorem result_midway (c : Code) (r0 r1 : Word) :
    result c r0 r1 (t.midway w q mid) = t.answered w c r0 r1 mid := by
  simp [result, emit, State.midway, State.answered, State.setHist, State.setPort, State.setQm]

/-- A fatal fault sets `FAULT`, and its event is the last before the `Res` (60_exceptions.md R316). -/
theorem raise_midway (k : FatalKind) :
    raise k (t.midway w q mid) =
      (t.setPort { t.port with fault := k.code.byte }).answered w k.code 0 0 (mid ++ [.fatal k.code.byte]) := by
  simp [raise, result, emit, State.midway, State.answered, State.setHist, State.setPort, State.setQm]
end

section
variable {i : Instr} {s t : State} {q : Option Qm} {mid : List Event}

theorem exec_of_ok_midway {r0 r1 : Word} (hs : s.ready) (ht : t.quiet = true)
    (hb : commandBody i (startCommand (encode i) s) = .ok r0 r1 (t.midway (encode i) q mid)) :
    exec i s = .next (t.answered (encode i) .ok r0 r1 mid) := by
  have hquiet : (t.midway (encode i) q mid).quiet = true := quiet_of_moves ht rfl
  rw [exec_idle hs.1, runCommand_of_ready hs.2, hb, conclude_ok_quiet hquiet, result_midway]

theorem exec_of_stop_midway {c : Code} (hs : s.ready) (ht : t.quiet = true)
    (hb : commandBody i (startCommand (encode i) s) = .stop c (t.midway (encode i) q mid)) :
    exec i s = .next (t.answered (encode i) c 0 0 mid) := by
  have hquiet : (t.midway (encode i) q mid).quiet = true := quiet_of_moves ht rfl
  rw [exec_idle hs.1, runCommand_of_ready hs.2, hb, conclude_stop_quiet hquiet, result_midway]

theorem conclude_fatal_quiet {k : FatalKind} (h : t.quiet = true) : (Flow.fatal k t).conclude = raise k t := by
  rw [Flow.conclude, finish_quiet _ h]
  rfl

theorem exec_of_fatal_midway {k : FatalKind} (hs : s.ready) (ht : t.quiet = true)
    (hb : commandBody i (startCommand (encode i) s) = .fatal k (t.midway (encode i) q mid)) :
    exec i s = .next ((t.setPort { t.port with fault := k.code.byte }).answered (encode i) k.code 0 0
      (mid ++ [.fatal k.code.byte])) := by
  have hquiet : (t.midway (encode i) q mid).quiet = true := quiet_of_moves ht rfl
  rw [exec_idle hs.1, runCommand_of_ready hs.2, hb, conclude_fatal_quiet hquiet, raise_midway]
end

/-! ## Words of one descriptor, wherever it lies -/

theorem descWord_zero (d : Word) : descWord d 0 = d := BitVec.add_zero d

theorem read32_write32_descWord {d : Word} {j k : Nat} (hj : j < 4) (hk : k < 4) (hne : k ≠ j) (m : Memory)
    (v : Word) : (m.write32 (descWord d j) v).read32 (descWord d k) = m.read32 (descWord d k) := by
  refine read32_write32_other _ _ _ _ fun i i' hi hi' heq => ?_
  have hbytes := congrArg BitVec.toNat heq
  simp only [descWord, word, BitVec.toNat_add, BitVec.toNat_ofNat] at hbytes
  omega

theorem read_write32_outside {d x : Word} {k : Nat} (hx : ¬ inDescWord d k x) (m : Memory) (v : Word) :
    (m.write32 (descWord d k) v).read x = m.read x := by
  have hne {j : Nat} (hj : j < 4) : x ≠ descWord d k + word j := fun heq => hx ⟨j, hj, heq⟩
  have hfirst : x ≠ descWord d k := by simpa [word] using hne (j := 0) (by decide)
  exact read_write32_other _ _ _ _
    ⟨hfirst, hne (j := 1) (by decide), hne (j := 2) (by decide), hne (j := 3) (by decide)⟩

end Sys2Proof.Machine
end

section
/-! PROOFS. `RX_NEW`, the polls and the process-state queries undisturbed (41_rx_ring.md R171, R179 to R181;
42_tx_ring.md R217, R219). -/

namespace Sys2Proof.Machine

/-! ## `RX_NEW` -/

section
variable {s : State} {size : Nat}

theorem rxNewBody_badState (hc : s.rx.constructed = true) : rxNewBody size s = .stop .badState s := if_pos hc

theorem rxNewBody_badRange (hc : s.rx.constructed = false) (hsize : size = 0 ∨ Config.bufSizeMax < size) :
    rxNewBody size s = .stop .badRange s := by
  rw [rxNewBody, if_neg (by simp [hc]), if_pos hsize]

theorem rxNewBody_ok (hc : s.rx.constructed = false) (hpos : 1 ≤ size) (hmax : size ≤ Config.bufSizeMax) :
    rxNewBody size s =
      .ok 0 0 (s.setRx { constructed := true, started := false, bufSize := size, slots := [], cur := 0 }) := by
  rw [rxNewBody, if_neg (by simp [hc]), if_neg (by omega)]
end

/-- Settles O40: by whether a ring stands, then by the size. -/
theorem rxNewCreatesEmptyRing : Obligations.RxNewCreatesEmptyRing := by
  intro size s hs hq
  refine ⟨fun hc hpos hmax => ?_, fun hc => ?_, fun hc hsize => ?_⟩
  · exact exec_of_body_ok_quiet (i := .rxNew size)
      (t := s.setRx { constructed := true, started := false, bufSize := size, slots := [], cur := 0 }) hs hq
      (rxNewBody_ok hc hpos hmax) rfl
  · exact exec_of_body_stop_quiet (i := .rxNew size) hs hq (rxNewBody_badState hc) rfl
  · exact exec_of_body_stop_quiet (i := .rxNew size) hs hq (rxNewBody_badRange hc hsize) rfl

/-! ## The process states in `DMASR` -/

theorem getElem_bitWord (b : Bool) {i : Nat} (hi : i < 32) : (bitWord b)[i] = (b && decide (i = 0)) := by
  cases b <;> simp [bitWord]

theorem rpsField_dmasr (s : State) : rpsField (dmasr s) = s.rxw.ps := by
  ext i hi
  interval_cases i <;> simp [rpsField, dmasr, getElem_bitWord]

theorem tpsField_dmasr (s : State) : tpsField (dmasr s) = s.txw.ps := by
  ext i hi
  interval_cases i <;> simp [tpsField, dmasr, getElem_bitWord]

theorem code_decodeRx (c : BitVec 3) :
    (decodeRx c).code = if c = 0 ∨ c = 4 then 0 else if c = 2 ∨ c = 6 then 2 else 1 := by
  revert c; decide

theorem code_decodeTx (c : BitVec 3) :
    (decodeTx c).code = if c = 0 ∨ c = 6 then 0 else if c = 4 ∨ c = 5 then 2 else 1 := by
  revert c; decide

/-- The walkers' suspended states are among those decoded as stopped (R181, R191). -/
theorem decodeRx_eq_stopped {c : BitVec 3} : decodeRx c = .stopped ↔ c = 0 ∨ c = 4 := by
  revert c; decide

/-! ## The polls and the queries -/

section
variable {t : State} {w : Word} {q : Option Qm} {mid : List Event}

theorem txDemandPoll_eq (s : State) : txDemandPoll s = s.setTxw (polledTx s) := by
  unfold txDemandPoll polledTx
  simp only [Bool.not_eq_true]
  split <;> rfl

theorem qmRegWrite_dmarpdr_midway (hq : t.quiet = true) (next : State → Flow) :
    qmRegWrite .dmarpdr 1 (t.midway w q mid) next = next ((t.setRxw (polledRx t)).midway w (countQm q) mid) := by
  have hpoll (u : State) : regWrite .dmarpdr 1 u = u.setRxw (polledRx u) := rxDemandPoll_eq u
  rw [qmRegWrite, access_midway hq, hpoll]
  rfl

theorem qmRegWrite_dmatpdr_midway (hq : t.quiet = true) (next : State → Flow) :
    qmRegWrite .dmatpdr 1 (t.midway w q mid) next = next ((t.setTxw (polledTx t)).midway w (countQm q) mid) := by
  have hpoll (u : State) : regWrite .dmatpdr 1 u = u.setTxw (polledTx u) := txDemandPoll_eq u
  rw [qmRegWrite, access_midway hq, hpoll]
  rfl

theorem rxStateBody_midway (hq : t.quiet = true) :
    rxStateBody (t.midway w q mid) =
      .ok (decodeRx t.rxw.ps).code (t.rxw.ps.setWidth 32) (t.midway w (countQm q) mid) := by
  rw [rxStateBody, access_midway hq]
  dsimp only [stateAnswer, regRead]
  rw [rpsField_dmasr]
  rfl

theorem txStateBody_midway (hq : t.quiet = true) :
    txStateBody (t.midway w q mid) =
      .ok (decodeTx t.txw.ps).code (t.txw.ps.setWidth 32) (t.midway w (countQm q) mid) := by
  rw [txStateBody, access_midway hq]
  dsimp only [stateAnswer, regRead]
  rw [tpsField_dmasr]
  rfl
end

/-- Settles O42: each of the four commands makes one access. -/
theorem pollsAndStateQueries : Obligations.PollsAndStateQueries := by
  intro s hs hq
  rw [← code_decodeRx, ← code_decodeTx]
  refine ⟨?_, ?_, ?_, ?_⟩
  · exact exec_of_ok_midway (i := .rxPoll) (t := s.setRxw (polledRx s)) hs hq (qmRegWrite_dmarpdr_midway hq _)
  · exact exec_of_ok_midway (i := .txPoll) (t := s.setTxw (polledTx s)) hs hq (qmRegWrite_dmatpdr_midway hq _)
  · exact exec_of_ok_midway (i := .rxState) hs hq (rxStateBody_midway hq)
  · exact exec_of_ok_midway (i := .txState) hs hq (txStateBody_midway hq)

end Sys2Proof.Machine
end

section
/-! PROOFS. `RX_RECV` undisturbed (41_rx_ring.md R182 to R191): the case word 0 decides, the memory it leaves, and the
poll after it. -/

namespace Sys2Proof.Machine

section
variable {t : State} {w : Word} {q : Option Qm} {mid : List Event}

/-- A demand poll does nothing to a walker that is not suspended, and a suspended one is observed stopped (R191). -/
theorem rxPostConsume_midway (hq : t.quiet = true) :
    ∃ q', ∀ next, rxPostConsume (t.midway w q mid) next = next ((t.setRxw (polledRx t)).midway w q' mid) := by
  have hps (u : State) : rpsField (regRead .dmasr u) = u.rxw.ps := rpsField_dmasr u
  by_cases hstopped : decodeRx t.rxw.ps = .stopped
  · refine ⟨countQm (countQm q), fun next => ?_⟩
    rw [rxPostConsume, access_midway hq, hps, if_pos (by exact hstopped), qmRegWrite_dmarpdr_midway hq]
  · have hawake : polledRx t = t.rxw :=
      if_neg fun hpoll => hstopped (decodeRx_eq_stopped.mpr (.inr hpoll.2))
    refine ⟨countQm q, fun next => ?_⟩
    rw [rxPostConsume, access_midway hq, hps, if_neg (by exact hstopped), hawake, State.setRxw_self]

/-- `RX_RECV` reads word 0 of the entry at the cursor once, and by it decides the case (R182, R185). -/
theorem rxRecvBody_midway {e : RxSlot} (hq : t.quiet = true) (he : t.rx.slots[t.rx.cur]? = some e) :
    rxRecvBody (t.midway w q mid) =
      (let w0 := t.mem.read32 e.desc
       let u := t.midway w (countQm q) mid
       if rxOwn w0 then .stop .nothingReady u
       else if rxEs w0 then rxRecvError t.rx.cur e w0 u
       else if rxFs w0 && rxLs w0 then rxRecvFrame t.rx.cur e w0 u
       else rxRecvFragment t.rx.cur e w0 u) := by
  have he' : (t.midway w q mid).rx.slots[(t.midway w q mid).rx.cur]? = some e := he
  rw [rxRecvBody, he']
  dsimp only
  rw [access_midway hq, descWord_zero]
  rfl

/-- The state after `RX_RECV` has given the descriptor of `e` back with status `w0`, left the ring as `r` and polled
(R186, R189 to R191). -/
def rxDropped (r : RxRing) (e : RxSlot) (w0 : Word) (s : State) : State :=
  ((s.setRx r).setRxw (polledRx s)).setMem (s.mem.write32 e.desc (w0 ||| RX_OWN))

/-- What the two cases that drop a frame have in common, where `adv` is what each does to the cursor (R186, R189). -/
theorem rxDrop_midway {kind : DiagKind} {c : Code} {i : Nat} {e : RxSlot} {w0 : Word} {adv : State → State} {r : RxRing}
    (hq : t.quiet = true) (hadv : ∀ m q mid, adv ((t.setMem m).midway w q mid) = ((t.setMem m).setRx r).midway w q mid) :
    ∃ q', (qmEmit (.diag kind i) (t.midway w q mid) fun s => qmWrite (descWord e.desc 0) (w0 ||| RX_OWN) s fun s =>
        rxPostConsume (adv s) fun s => .stop c s) =
      .stop c ((rxDropped r e w0 t).midway w q' (mid ++ [.diag kind i])) := by
  obtain ⟨q', hpost⟩ := rxPostConsume_midway (t := (t.setMem (t.mem.write32 e.desc (w0 ||| RX_OWN))).setRx r) (w := w)
    (q := countQm (countQm q)) (mid := mid ++ [.diag kind i]) hq
  refine ⟨q', ?_⟩
  rw [qmEmit_midway hq, qmWrite_midway hq, hadv, descWord_zero, hpost]
  rfl

theorem rxRecvError_midway {i : Nat} {e : RxSlot} {w0 : Word} (hq : t.quiet = true) :
    ∃ q', rxRecvError i e w0 (t.midway w q mid) =
      .stop .dropFrameError ((rxDropped
        (if t.par.rxErrAdvance then { t.rx with cur := (t.rx.cur + 1) % t.rx.slots.length } else t.rx) e w0 t).midway
        w q' (mid ++ [.diag .frameError i])) :=
  rxDrop_midway (adv := fun s => if s.par.rxErrAdvance then rxAdvance s else s) hq fun m q mid => by
    cases hadv : t.par.rxErrAdvance with
    | true => exact if_pos hadv
    | false => exact if_neg (by exact Bool.eq_false_iff.mp hadv)

theorem rxRecvFragment_midway {i : Nat} {e : RxSlot} {w0 : Word} (hq : t.quiet = true) :
    ∃ q', rxRecvFragment i e w0 (t.midway w q mid) =
      .stop .dropFragment ((rxDropped { t.rx with cur := (t.rx.cur + 1) % t.rx.slots.length } e w0 t).midway
        w q' (mid ++ [.diag .fragment i])) :=
  rxDrop_midway hq fun _ _ _ => rfl
end

/-! ## The cases of word 0 -/

section
variable {s : State} {e : RxSlot} {w : Word} {q : Option Qm}

theorem rxRecvBody_nothingReady (hq : s.quiet = true) (he : s.rx.slots[s.rx.cur]? = some e)
    (hown : (s.mem.read32 e.desc).getLsbD 31 = true) :
    rxRecvBody (s.midway w q []) = .stop .nothingReady (s.midway w (countQm q) []) := by
  rw [rxRecvBody_midway hq he]
  exact if_pos hown

theorem rxRecvBody_error (hq : s.quiet = true) (he : s.rx.slots[s.rx.cur]? = some e)
    (hown : (s.mem.read32 e.desc).getLsbD 31 = false) (herr : (s.mem.read32 e.desc).getLsbD 15 = true) :
    rxRecvBody (s.midway w q []) = rxRecvError s.rx.cur e (s.mem.read32 e.desc) (s.midway w (countQm q) []) := by
  have hown : rxOwn (s.mem.read32 e.desc) = false := hown
  have herr : rxEs (s.mem.read32 e.desc) = true := herr
  simp only [rxRecvBody_midway hq he, hown, herr, Bool.false_eq_true, if_false, if_true]

theorem rxRecvBody_fragment (hq : s.quiet = true) (he : s.rx.slots[s.rx.cur]? = some e)
    (hown : (s.mem.read32 e.desc).getLsbD 31 = false) (herr : (s.mem.read32 e.desc).getLsbD 15 = false)
    (hpart : (s.mem.read32 e.desc).getLsbD 9 = false ∨ (s.mem.read32 e.desc).getLsbD 8 = false) :
    rxRecvBody (s.midway w q []) = rxRecvFragment s.rx.cur e (s.mem.read32 e.desc) (s.midway w (countQm q) []) := by
  have hown : rxOwn (s.mem.read32 e.desc) = false := hown
  have herr : rxEs (s.mem.read32 e.desc) = false := herr
  have hpart : (rxFs (s.mem.read32 e.desc) && rxLs (s.mem.read32 e.desc)) = false := Bool.and_eq_false_iff.mpr hpart
  simp only [rxRecvBody_midway hq he, hown, herr, hpart, Bool.false_eq_true, if_false]

theorem rxRecvBody_frame (hq : s.quiet = true) (he : s.rx.slots[s.rx.cur]? = some e)
    (hown : (s.mem.read32 e.desc).getLsbD 31 = false) (herr : (s.mem.read32 e.desc).getLsbD 15 = false)
    (hfirst : (s.mem.read32 e.desc).getLsbD 9 = true) (hlast : (s.mem.read32 e.desc).getLsbD 8 = true) :
    rxRecvBody (s.midway w q []) = rxRecvFrame s.rx.cur e (s.mem.read32 e.desc) (s.midway w (countQm q) []) := by
  have hown : rxOwn (s.mem.read32 e.desc) = false := hown
  have herr : rxEs (s.mem.read32 e.desc) = false := herr
  have hfirst : rxFs (s.mem.read32 e.desc) = true := hfirst
  have hlast : rxLs (s.mem.read32 e.desc) = true := hlast
  simp only [rxRecvBody_midway hq he, hown, herr, hfirst, hlast, Bool.false_eq_true, if_false, Bool.and_self, if_true]
end

/-! ## Dropped frames -/

/-- A frame is dropped: word 0 gets OWN back, and no other byte changes. -/
theorem exec_rxRecv_dropped {s : State} {e : RxSlot} {w0 : Word} {r : RxRing} {c : Code} {kind : DiagKind}
    (hs : s.ready) (hq : s.quiet = true)
    (hb : ∃ q, rxRecvBody (startCommand (encode .rxRecv) s) =
      .stop c ((rxDropped r e w0 s).midway (encode .rxRecv) q [.diag kind s.rx.cur])) :
    ∃ t, exec .rxRecv s = .next t ∧
      t = (((s.setRx r).setRxw (polledRx s)).setMem t.mem).answered (encode .rxRecv) c 0 0 [.diag kind s.rx.cur] ∧
      t.mem.read32 e.desc = w0 ||| 0x80000000 ∧
      (∀ x : Word, ¬ inDescWord e.desc 0 x → t.mem.read x = s.mem.read x) := by
  obtain ⟨q, hb⟩ := hb
  have hanswer := exec_of_stop_midway (i := .rxRecv) (t := rxDropped r e w0 s) hs (quiet_of_moves hq rfl) hb
  refine ⟨_, hanswer, rfl, read32_write32_same s.mem e.desc _, fun x hx => ?_⟩
  have hframe := read_write32_outside hx s.mem (w0 ||| RX_OWN)
  rwa [descWord_zero] at hframe

/-- Settles O44: by word 0 of the entry at the cursor, in the order of R185. -/
theorem rxRecvDropsAndRefuses : Obligations.RxRecvDropsAndRefuses := by
  intro s hs hq
  refine ⟨fun hnil => ?_, fun e he => ⟨fun hown => ?_, fun hown herr => ?_, fun hown herr hpart => ?_⟩⟩
  · have hbody : rxRecvBody (startCommand (encode .rxRecv) s) = .stop .badState (startCommand (encode .rxRecv) s) := by
      have hnone : (startCommand (encode .rxRecv) s).rx.slots[(startCommand (encode .rxRecv) s).rx.cur]? = none := by
        rw [show (startCommand (encode .rxRecv) s).rx.slots = [] from hnil, List.getElem?_nil]
      rw [rxRecvBody, hnone]
    exact exec_of_body_stop_quiet (i := .rxRecv) hs hq hbody rfl
  · exact exec_of_stop_midway (i := .rxRecv) hs hq (rxRecvBody_nothingReady hq he hown)
  · obtain ⟨q, hdrop⟩ := rxRecvError_midway (i := s.rx.cur) (e := e) (w0 := s.mem.read32 e.desc) hq
    exact exec_rxRecv_dropped hs hq ⟨q, (rxRecvBody_error hq he hown herr).trans hdrop⟩
  · obtain ⟨q, hdrop⟩ := rxRecvFragment_midway (i := s.rx.cur) (e := e) (w0 := s.mem.read32 e.desc) hq
    exact exec_rxRecv_dropped hs hq ⟨q, (rxRecvBody_fragment hq he hown herr hpart).trans hdrop⟩

/-! ## A complete frame -/

theorem rxFl_eq (w0 : Word) : rxFl w0 = (w0.extractLsb' 16 14).toNat := by
  simp [rxFl, field, BitVec.extractLsb'_toNat, Nat.shiftRight_eq_div_pow]

section
variable {s : State} {ob : Word} {r : BufRec}

theorem rxHandOut_of_find (len : Nat) (h : btFind s.bt ob = some r) :
    rxHandOut ob len s = s.setBt (btInsert s.bt ob { r with len := min len r.cap, owner := .host }) := by
  rw [rxHandOut, h]

theorem rxReported_of_find (len : Nat) (h : btFind s.bt ob = some r) : rxReported ob len s = min len r.cap := by
  rw [rxReported, h]
end

/-- The memory after a frame's Buffer is replaced by `nb` and its descriptor given back, word 2 before word 0 (R187,
R188). -/
def swapDesc (m : Memory) (d nb w0 : Word) : Memory :=
  (m.write32 (descWord d 2) nb).write32 (descWord d 0) (w0 ||| RX_OWN)

/-- The state after `RX_RECV` has put the Buffer `nb` into the entry `e` at the cursor, the oracle left as `h`, and before
it hands the old one out (R187). -/
def rxReplaced (e : RxSlot) (nb : Word) (h : Heap) (s : State) : State :=
  (((s.setRx { s.rx with slots := s.rx.slots.set s.rx.cur { e with buf := nb } }).setBt
    (btInsert s.bt nb { cap := s.rx.bufSize, len := 0, owner := .rxSlot s.rx.cur })).setHeap h).setMem
    (swapDesc s.mem e.desc nb (s.mem.read32 e.desc))

/-- The state after `RX_RECV` has handed the Buffer of `e`, of record `r`, to HOST with `len` bytes (R187, R190, R191). -/
def rxReceived (e : RxSlot) (r : BufRec) (nb : Word) (h : Heap) (len : Nat) (s : State) : State :=
  ((((s.setRx { s.rx with slots := s.rx.slots.set s.rx.cur { e with buf := nb }
                          cur := (s.rx.cur + 1) % s.rx.slots.length }).setBt
    (btInsert (btInsert s.bt nb { cap := s.rx.bufSize, len := 0, owner := .rxSlot s.rx.cur }) e.buf
      { r with len := len, owner := .host })).setHeap h).setRxw (polledRx s)).setMem
    (swapDesc s.mem e.desc nb (s.mem.read32 e.desc))

section
variable {s : State} {e : RxSlot} {r : BufRec} {nb w : Word} {h : Heap} {q : Option Qm} {mid : List Event}

theorem rxRecvFrame_replaced (hq : s.quiet = true) (hp : proposal s.rx.bufSize s = (some nb, h))
    (ha : admissible s [] s.rx.bufSize nb = true) :
    rxRecvFrame s.rx.cur e (s.mem.read32 e.desc) (s.midway w q mid) =
      (let u := (rxReplaced e nb h s).midway w (countQm (countQm q)) mid
       let len := rxFl (s.mem.read32 e.desc)
       rxPostConsume (rxAdvance (rxHandOut e.buf len u)) (.ok e.buf (word (rxReported e.buf len u)))) := by
  have halloc : alloc [] (s.midway w q mid).rx.bufSize (s.midway w q mid) = (some nb, (s.setHeap h).midway w q mid) :=
    alloc_of_proposal hp ha
  have hword2 (next : State → Flow) := qmWrite_midway (w := w) (q := q) (mid := mid) (t := (s.setHeap h).setBt
    (btInsert s.bt nb { cap := s.rx.bufSize, len := 0, owner := .rxSlot s.rx.cur })) (quiet_of_moves hq rfl)
    (descWord e.desc 2) nb next
  have hword0 (next : State → Flow) := qmWrite_midway (w := w) (q := countQm q) (mid := mid) (t := rxSwapped s.rx.cur e nb
    ((s.setHeap h).setBt (btInsert s.bt nb { cap := s.rx.bufSize, len := 0, owner := .rxSlot s.rx.cur })))
    (quiet_of_moves hq rfl) (descWord e.desc 0) (s.mem.read32 e.desc ||| RX_OWN) next
  rw [rxRecvFrame, halloc]
  exact (hword2 _).trans (hword0 _)

theorem rxRecvFrame_midway (hq : s.quiet = true) (hr : btFind s.bt e.buf = some r) (hne : nb ≠ e.buf)
    (hp : proposal s.rx.bufSize s = (some nb, h)) (ha : admissible s [] s.rx.bufSize nb = true) :
    let len := min (rxFl (s.mem.read32 e.desc)) r.cap
    ∃ q', rxRecvFrame s.rx.cur e (s.mem.read32 e.desc) (s.midway w q mid) =
      .ok e.buf (word len) ((rxReceived e r nb h len s).midway w q' mid) := by
  intro len
  have hfind : btFind (rxReplaced e nb h s).bt e.buf = some r := (btFind_insert_other _ _ _ _ hne.symm).trans hr
  have hlength : (rxReplaced e nb h s).rx.slots.length = s.rx.slots.length := List.length_set
  obtain ⟨q', hpost⟩ := rxPostConsume_midway (w := w) (q := countQm (countQm q)) (mid := mid)
    (t := rxAdvance (rxHandOut e.buf (rxFl (s.mem.read32 e.desc)) (rxReplaced e nb h s)))
    (by rw [rxHandOut_of_find _ hfind]; exact quiet_of_moves hq rfl)
  refine ⟨q', ?_⟩
  rw [rxHandOut_of_find _ hfind] at hpost
  rw [rxRecvFrame_replaced hq hp ha]
  dsimp only
  rw [rxHandOut_of_find _ (by exact hfind), rxReported_of_find _ (by exact hfind)]
  refine (hpost (.ok e.buf (word len))).trans ?_
  rw [rxReceived, ← hlength]
  rfl
end

/-- A fresh Buffer has an address of its own (R187, 20_memory.md R84). -/
theorem ne_buf_of_admissible {s : State} {e : RxSlot} {i : Nat} {nb : Word} {h : Heap} (hown : s.Owned)
    (he : s.rx.slots[i]? = some e) (hp : proposal s.rx.bufSize s = (some nb, h))
    (ha : admissible s [] s.rx.bufSize nb = true) : nb ≠ e.buf := by
  obtain ⟨r, hr, _, hcap⟩ := hown.rxBuf i e he
  have hrecord (a : Word) (r : BufRec) (h : btFind s.bt a = some r) : 1 ≤ r.cap := (hown.record a r h).2.2.1
  have hnone : btFind s.bt nb = none :=
    (fresh_of_alloc (alloc_of_proposal hp ha)).1.btFind_none (hcap ▸ hrecord _ _ hr) hrecord
  rintro rfl
  cases hr.symm.trans hnone

/-- Settles O43: the entry's Buffer is another than the fresh one, and word 2 is written before word 0. -/
theorem rxRecvSwapsBuffer : Obligations.RxRecvSwapsBuffer := by
  intro s e r nb h hs hq hown he hr d w0 size hsw herr hfirst hlast hp ha len
  have hne : nb ≠ e.buf := ne_buf_of_admissible hown he hp ha
  have hlen : min (rxFl w0) r.cap = len := by rw [rxFl_eq]
  obtain ⟨q, hframe⟩ := rxRecvFrame_midway (w := encode .rxRecv) (mid := [])
    (q := countQm (startCommand (encode .rxRecv) s).qm) hq hr hne hp ha
  have hanswer := exec_of_ok_midway (i := .rxRecv) (t := rxReceived e r nb h (min (rxFl w0) r.cap) s) hs
    (quiet_of_moves hq rfl) ((rxRecvBody_frame hq he hsw herr hfirst hlast).trans hframe)
  rw [hlen] at hanswer
  refine ⟨_, hanswer, hne, rfl, ?_, ?_, fun x h0 h2 => ?_⟩
  · show (swapDesc s.mem d nb w0).read32 d = _
    rw [swapDesc, descWord_zero]
    exact read32_write32_same ..
  · show (swapDesc s.mem d nb w0).read32 (descWord d 2) = nb
    rw [swapDesc, read32_write32_descWord (by decide) (by decide) (by decide), read32_write32_same]
  · show (swapDesc s.mem d nb w0).read x = _
    rw [swapDesc, read_write32_outside h0, read_write32_outside h2]

end Sys2Proof.Machine
end
section
/-! PROOFS. The refusals of the ring commands (41_rx_ring.md R173; 42_tx_ring.md R201, R203, R210, R211, R216;
43_eth.md R230, R231, R242; 60_exceptions.md R317). -/

namespace Sys2Proof.Machine

/-! ## The rings' making and starting -/

section
variable {s : State} {n : Nat}

theorem rxStartBody_badState (hc : s.rx.constructed = false) : rxStartBody n s = .stop .badState s :=
  if_pos (by simp [hc])

theorem rxStartBody_badRange (hc : s.rx.constructed = true) (h : s.par.maxRing < n ∨ max n s.rx.slots.length = 0) :
    rxStartBody n s = .stop .badRange s := by
  rw [rxStartBody, if_neg (by simp [hc])]
  split
  · rfl
  · next hmax => rw [if_pos (h.resolve_left hmax)]

theorem txNewBody_badState (hc : s.tx.constructed = true) : txNewBody s = .stop .badState s := if_pos hc

theorem txStartBody_badState (h : s.tx.constructed = false ∨ s.tx.started = true) :
    txStartBody s = .stop .badState s := by
  rw [txStartBody]
  split
  · rfl
  · next hc => rw [if_pos (h.resolve_left fun hf => hc (by simp [hf]))]

/-! ## `ETH_NEW` -/

theorem ethNewBody_badRange (hmax : s.par.maxRing < n) : ethNewBody n s = .stop .badRange s := if_pos hmax

theorem ethNewBody_rx_badState (hmax : n ≤ s.par.maxRing) (hc : s.rx.constructed = true) :
    ethNewBody n s = .stop .badState s := by
  rw [ethNewBody, if_neg hmax.not_gt, rxNewBody_badState hc]
  rfl

/-- The receive ring is made before the transmit ring is looked at (R230). -/
theorem ethNewBody_tx_badState (hmax : n ≤ s.par.maxRing) (hrx : s.rx.constructed = false)
    (htx : s.tx.constructed = true) (hpos : 1 ≤ s.par.mtu) (hmtu : s.par.mtu ≤ Config.bufSizeMax) :
    ethNewBody n s = .stop .badState
      (s.setRx { constructed := true, started := false, bufSize := s.par.mtu, slots := [], cur := 0 }) := by
  rw [ethNewBody, if_neg hmax.not_gt, rxNewBody_ok hrx hpos hmtu]
  dsimp only [Flow.andThen]
  rw [txNewBody_badState (by exact htx)]
end

/-! ## `TX_SEND`, alone and inside `ETH_SEND` -/

section
variable {s : State} {r : BufRec}

theorem txSendBody_badState (hs : s.tx.started = false) : txSendBody s = .stop .badState s := if_pos (by simp [hs])

theorem txSendBody_badBuffer (hs : s.tx.started = true)
    (hno : ∀ r, btFind s.bt (operandA s) = some r → r.owner ≠ .host) : txSendBody s = .stop .badBuffer s := by
  rw [txSendBody, if_neg (by simp [hs]), withHostBuffer_badBuffer _ hno]

theorem txSendBody_badLength (hs : s.tx.started = true) (hr : btFind s.bt (operandA s) = some r) (ho : r.owner = .host)
    (hlen : r.len = 0 ∨ Config.bufSizeMax < r.len) : txSendBody s = .stop .badLength s := by
  rw [txSendBody, if_neg (by simp [hs]), withHostBuffer_host _ hr ho, if_pos hlen]

theorem txSendBody_ringFull {e : TxSlot} (hq : s.quiet = true) (hs : s.tx.started = true)
    (hr : btFind s.bt (operandA s) = some r) (ho : r.owner = .host) (hpos : 1 ≤ r.len) (hlen : r.len ≤ Config.bufSizeMax)
    (he : s.tx.slots[s.tx.cur]? = some e) (hown : txOwn (s.mem.read32 e.desc) = true) :
    txSendBody s = .stop .ringFull (countAccess s) := by
  rw [txSendBody, if_neg (by simp [hs]), withHostBuffer_host _ hr ho, if_neg (by omega), he]
  dsimp only
  rw [access_quiet _ hq, descWord_zero]
  exact if_pos hown
end

/-- Where the body of `TX_SEND` refuses, both commands that run it do (R242). -/
theorem exec_send_refused {i : Instr} {s : State} {c : Code} {q : Option Qm} (hi : i = .txSend ∨ i = .ethSend)
    (hs : s.ready) (hq : s.quiet = true)
    (hb : txSendBody (startCommand (encode i) s) = .stop c (s.midway (encode i) q [])) :
    exec i s = .next (s.refused i c) := by
  refine exec_of_stop_midway (q := q) hs hq ?_
  rcases hi with rfl | rfl
  · exact hb
  · show ethSendBody _ = _
    rw [ethSendBody, hb]
    rfl

/-- Settles O50: each body stops at its first check that fails; only `ETH_NEW` has done anything before. -/
theorem ringCommandRefusals : Obligations.RingCommandRefusals := by
  intro s hs hq
  refine ⟨fun n hc => ?_, fun n hc hmax => ?_, fun hc hnil => ?_, fun hc => ?_, fun h => ?_, fun n hmax => ?_,
    fun n hmax hc => ?_, fun n hmax hrx htx hpos hmtu => ?_, fun i hi => ⟨fun hoff => ?_, fun hon hno => ?_,
    fun r hon hr ho => ⟨fun hlen => ?_, fun e hpos hlen he hown => ?_⟩⟩⟩
  · exact exec_of_body_stop_quiet (i := .rxStart n) hs hq (rxStartBody_badState hc) rfl
  · exact exec_of_body_stop_quiet (i := .rxStart n) hs hq (rxStartBody_badRange hc (.inl hmax)) rfl
  · have hempty : max 0 s.rx.slots.length = 0 := by rw [hnil]; rfl
    exact exec_of_body_stop_quiet (i := .rxStart 0) hs hq (rxStartBody_badRange hc (.inr hempty)) rfl
  · exact exec_of_body_stop_quiet (i := .txNew) hs hq (txNewBody_badState hc) rfl
  · exact exec_of_body_stop_quiet (i := .txStart) hs hq (txStartBody_badState h) rfl
  · exact exec_of_body_stop_quiet (i := .ethNew n) hs hq (ethNewBody_badRange hmax) rfl
  · exact exec_of_body_stop_quiet (i := .ethNew n) hs hq (ethNewBody_rx_badState hmax hc) rfl
  · exact exec_of_body_stop_quiet (i := .ethNew n)
      (t := s.setRx { constructed := true, started := false, bufSize := s.par.mtu, slots := [], cur := 0 }) hs hq
      (ethNewBody_tx_badState hmax hrx htx hpos hmtu) rfl
  · exact exec_send_refused hi hs hq (txSendBody_badState hoff)
  · exact exec_send_refused hi hs hq (txSendBody_badBuffer hon hno)
  · exact exec_send_refused hi hs hq (txSendBody_badLength hon hr ho hlen)
  · exact exec_send_refused hi hs hq (txSendBody_ringFull (quiet_of_moves hq rfl) hon hr ho hpos hlen he hown)

end Sys2Proof.Machine
end
section
/-! PROOFS. A failed allocation of a ring command, undisturbed (60_exceptions.md R315, R316): how the command ends, the
commands whose first allocation fails (41_rx_ring.md R174, R187; 42_tx_ring.md R201), and the allocator without room
(20_memory.md R86). -/

namespace Sys2Proof.Machine

/-! ## The end of the command -/

/-- The state after command `i`, issued in `s`, has ended with the fatal fault of a failed allocation, where `t` is what
was built before it (R315, R316). -/
def State.outOfHeap (s : State) (i : Instr) (t : State) : State :=
  (t.setPort { s.port with fault := 5 }).answered (encode i) .allocFailure 0 0 [.fatal 5]

theorem exec_of_alloc_fatal {i : Instr} {s t : State} {q : Option Qm} (hs : s.ready) (hq : s.quiet = true)
    (hport : t.port = s.port) (hmoves : t.moves = s.moves)
    (hb : commandBody i (startCommand (encode i) s) = .fatal .allocationFailure (t.midway (encode i) q [])) :
    exec i s = .next (s.outOfHeap i t) := by
  rw [State.outOfHeap, ← hport]
  exact exec_of_fatal_midway hs (quiet_of_moves hq hmoves) hb

theorem alloc_of_proposal_none {s : State} {size : Nat} {h : Heap} {held : List Region}
    (hp : proposal size s = (none, h)) : alloc held size s = (none, s.setHeap h) :=
  alloc_of_no_admissible hp nofun

/-- The reference allocator without room: it fails, and stays as it is (20_memory.md R86). -/
theorem alloc_of_no_room {s : State} {size : Nat} {held : List Region} (href : s.heap.draws = [])
    (hfull : s.par.heapBase + s.par.heapSize < s.heap.brk + size) : alloc held size s = (none, s) := by
  have hp : proposal size s = (none, s.heap) := by
    simp only [proposal, href, referenceAlloc, if_pos hfull]
    rw [← href]
  exact alloc_of_proposal_none hp

/-! ## The commands up to the allocation that fails -/

theorem Flow.andThen_assoc (f : Flow) (g h : Word → Word → State → Flow) :
    (f.andThen g).andThen h = f.andThen fun r0 r1 s => (g r0 r1 s).andThen h := by
  cases f <;> rfl

section
variable {s t u v : State} {m n : Nat} {k : FatalKind}

theorem rxRecvFrame_fatal {i : Nat} {e : RxSlot} {w0 : Word} (h : alloc [] s.rx.bufSize s = (none, t)) :
    rxRecvFrame i e w0 s = .fatal .allocationFailure t := by
  rw [rxRecvFrame, h]

theorem txNewOne_fatal (h : alloc [] Config.descBytes s = (none, t)) : txNewOne s = .fatal .allocationFailure t := by
  rw [txNewOne, h]

theorem rxGrowOne_fatal (h : alloc [] Config.descBytes s = (none, t)) : rxGrowOne s = .fatal .allocationFailure t := by
  unfold rxGrowOne
  dsimp only
  rw [h]

theorem txNewSlots_add (m n : Nat) (s : State) :
    txNewSlots (m + n) s = (txNewSlots m s).andThen fun _ _ s => txNewSlots n s := by
  induction m generalizing s with
  | zero => rw [Nat.zero_add]; rfl
  | succ m ih => simp only [Nat.succ_add, txNewSlots, Flow.andThen_assoc, ih]

theorem rxGrow_add (m n : Nat) (s : State) : rxGrow (m + n) s = (rxGrow m s).andThen fun _ _ s => rxGrow n s := by
  induction m generalizing s with
  | zero => rw [Nat.zero_add]; rfl
  | succ m ih => simp only [Nat.succ_add, rxGrow, Flow.andThen_assoc, ih]

/-- `TX_NEW` has made `m` descriptors and fails at the next (R201). -/
theorem txNewBody_fatal (hc : s.tx.constructed = false) (hnil : s.tx.slots = []) (hm : m < s.par.txRingLen)
    (hmade : txNewSlots m s = .ok 0 0 u) (hone : txNewOne u = .fatal k v) : txNewBody s = .fatal k v := by
  have hempty : s.setTx { s.tx with slots := [] } = s := by rw [← hnil]; rfl
  obtain ⟨j, hlen⟩ : ∃ j, s.par.txRingLen = m + (j + 1) := ⟨s.par.txRingLen - m - 1, by omega⟩
  rw [txNewBody, if_neg (by simp [hc]), hempty, hlen, txNewSlots_add, hmade]
  dsimp only [Flow.andThen]
  rw [txNewSlots, hone]
  rfl

/-- `RX_START` has made `m` entries and fails at the next (R174). -/
theorem rxStartBody_fatal (hc : s.rx.constructed = true) (hn : s.rx.slots.length + m < n) (hmax : n ≤ s.par.maxRing)
    (hmade : rxGrow m s = .ok 0 0 u) (hone : rxGrowOne u = .fatal k v) : rxStartBody n s = .fatal k v := by
  obtain ⟨j, hlen⟩ : ∃ j, n - s.rx.slots.length = m + (j + 1) := ⟨n - s.rx.slots.length - m - 1, by omega⟩
  rw [rxStartBody_grows hc hmax (by omega), hlen, rxGrow_add, hmade]
  dsimp only [Flow.andThen]
  rw [rxGrow, hone]
  rfl
end

/-! ## The first allocation fails -/

section
variable {s : State} {h : Heap}

theorem exec_rxRecv_alloc_fails {e : RxSlot} (hs : s.ready) (hq : s.quiet = true)
    (he : s.rx.slots[s.rx.cur]? = some e) (hown : (s.mem.read32 e.desc).getLsbD 31 = false)
    (herr : (s.mem.read32 e.desc).getLsbD 15 = false) (hfirst : (s.mem.read32 e.desc).getLsbD 9 = true)
    (hlast : (s.mem.read32 e.desc).getLsbD 8 = true) (hp : proposal s.rx.bufSize s = (none, h)) :
    exec .rxRecv s = .next (s.outOfHeap .rxRecv (s.setHeap h)) :=
  exec_of_alloc_fatal hs hq rfl rfl ((rxRecvBody_frame hq he hown herr hfirst hlast).trans
    (rxRecvFrame_fatal (alloc_of_proposal_none hp)))

theorem exec_txNew_alloc_fails (hs : s.ready) (hq : s.quiet = true) (hc : s.tx.constructed = false)
    (hnil : s.tx.slots = []) (hlen : 0 < s.par.txRingLen) (hp : proposal 16 s = (none, h)) :
    exec .txNew s = .next (s.outOfHeap .txNew (s.setHeap h)) :=
  exec_of_alloc_fatal (i := .txNew) hs hq rfl rfl
    (txNewBody_fatal hc hnil hlen rfl (txNewOne_fatal (alloc_of_proposal_none hp)))

theorem exec_rxStart_alloc_fails {n : Nat} (hs : s.ready) (hq : s.quiet = true) (hc : s.rx.constructed = true)
    (hn : s.rx.slots.length < n) (hmax : n ≤ s.par.maxRing) (hp : proposal 16 s = (none, h)) :
    exec (.rxStart n) s = .next (s.outOfHeap (.rxStart n) (s.setHeap h)) :=
  exec_of_alloc_fatal (i := .rxStart n) hs hq rfl rfl
    (rxStartBody_fatal (m := 0) hc hn hmax rfl (rxGrowOne_fatal (alloc_of_proposal_none hp)))
end

end Sys2Proof.Machine
end

section
/-! PROOFS. `TX_NEW` undisturbed, with the reference allocator (42_tx_ring.md R201, 20_memory.md R86): the descriptors it
makes one after another, and its end where the room ends before them. -/

namespace Sys2Proof.Machine

/-! ## A descriptor of zeros -/

theorem inDesc_iff {d x : Word} : inDesc d x ↔ ∃ k < 4, inDescWord d k x := by
  have hsum (k j : Nat) : descWord d k + word j = d + word (4 * k + j) := by
    rw [descWord, word, word, word, BitVec.add_assoc, BitVec.ofNat_add]
  constructor
  · rintro ⟨k, hk, rfl⟩
    have hk : k < 16 := hk
    exact ⟨k / 4, by omega, k % 4, by omega, by rw [hsum]; congr 2; omega⟩
  · rintro ⟨k, hk, j, hj, rfl⟩
    exact ⟨4 * k + j, by rw [Config.descBytes]; omega, hsum k j⟩

/-- The stores of `TX_NEW` into a new descriptor, in their order (R201). -/
def layZero (m : Memory) (d : Word) : Memory :=
  (((m.write32 (descWord d 0) 0).write32 (descWord d 1) 0).write32 (descWord d 2) 0).write32 (descWord d 3) 0

theorem read_write32_zero {m : Memory} {a x : Word} (h : m.read x = 0) : (m.write32 a 0).read x = 0 := by
  simp [Memory.write32, read_write, h]

theorem read_layZero_inside {d x : Word} (h : inDesc d x) (m : Memory) : (layZero m d).read x = 0 := by
  obtain ⟨k, hk, j, hj, rfl⟩ := inDesc_iff.mp h
  have hword (m : Memory) : (m.write32 (descWord d k) 0).read (descWord d k + word j) = 0 :=
    (read_write32_byte m _ 0 hj).trans (by simp)
  rw [layZero]
  interval_cases k
  · exact read_write32_zero (read_write32_zero (read_write32_zero (hword _)))
  · exact read_write32_zero (read_write32_zero (hword _))
  · exact read_write32_zero (hword _)
  · exact hword _

theorem read_layZero_outside {d x : Word} (h : ¬ inDesc d x) (m : Memory) : (layZero m d).read x = m.read x := by
  have hword {k : Nat} (hk : k < 4) : ¬ inDescWord d k x := fun hx => h (inDesc_iff.mpr ⟨k, hk, hx⟩)
  rw [layZero, read_write32_outside (hword (by decide)), read_write32_outside (hword (by decide)),
    read_write32_outside (hword (by decide)), read_write32_outside (hword (by decide))]

/-! ## The descriptors one after another -/

theorem State.HasRoom.mono {s : State} {bytes less : Nat} (h : s.HasRoom bytes) (hle : less ≤ bytes) : s.HasRoom less :=
  { h with fits := Nat.le_trans (Nat.add_le_add_left hle _) h.fits }

/-- The `i`-th descriptor of `TX_NEW` with the reference allocator (R201, 20_memory.md R86). -/
def txFresh (s : State) (i : Nat) : TxSlot := { desc := word (s.heap.brk + 16 * i), buf := none }

/-- The state after `j` descriptors of `TX_NEW`, issued in `s`, with the memory `m`. -/
def txLaid (s : State) (j : Nat) (m : Memory) : State :=
  ((s.setTx { s.tx with slots := (List.range j).map (txFresh s) }).setHeap
    { s.heap with brk := s.heap.brk + 16 * j }).setMem m

/-- The memory `m` after `j` descriptors of `TX_NEW`, seen from its start `s`, with room for so many bytes more. -/
structure TxLaid (s : State) (bytes j : Nat) (m : Memory) : Prop where
  room : (txLaid s j m).HasRoom bytes
  zero : ∀ i < j, ∀ x, inDesc (txFresh s i).desc x → m.read x = 0
  frame : ∀ x, (∀ i < j, ¬ inDesc (txFresh s i).desc x) → m.read x = s.mem.read x

section
variable {s : State} {bytes j n : Nat} {m : Memory} {w : Word} {q : Option Qm} {mid : List Event}

theorem TxLaid.start (hnil : s.tx.slots = []) (h : s.HasRoom bytes) : TxLaid s bytes 0 s.mem := by
  refine ⟨h.congr (tables_eq_iff.mpr ⟨rfl, rfl, rfl, ?_⟩) rfl, nofun, fun _ _ => rfl⟩
  rw [← show ({ s.tx with slots := [] } : TxRing) = s.tx by rw [← hnil]]
  rfl

theorem TxLaid.step (h : TxLaid s (16 + bytes) j m) : TxLaid s bytes (j + 1) (layZero m (txFresh s j).desc) := by
  refine ⟨?_, fun i hi x hx => ?_, fun x hx => ?_⟩
  · have hbelow : ∀ r ∈ liveRegions (txLaid s (j + 1) (layZero m (txFresh s j).desc)),
        r.1 + r.2 ≤ (txLaid s j m).heap.brk + 16 := fun r hr => by
      rcases mem_liveRegions.mp hr with ⟨e, he, rfl⟩ | ⟨e, he, rfl⟩ | ⟨e, he, rfl⟩
      · exact Nat.le_add_right_of_le (h.room.below _ (mem_liveRegions.mpr (.inl ⟨e, he, rfl⟩)))
      · have he : e ∈ (List.range (j + 1)).map (txFresh s) := he
        rw [List.range_succ, List.map_append, List.mem_append] at he
        rcases he with he | he
        · exact Nat.le_add_right_of_le (h.room.below _ (mem_liveRegions.mpr (.inr (.inl ⟨e, he, rfl⟩))))
        · obtain rfl := List.mem_singleton.mp he
          exact Nat.add_le_add_right (Nat.le_of_eq (toNat_brk h.room (by omega))) 16
      · exact Nat.le_add_right_of_le (h.room.below _ (mem_liveRegions.mpr (.inr (.inr ⟨e, he, rfl⟩))))
    have hroom := h.room.after (t := txLaid s (j + 1) (layZero m (txFresh s j).desc)) (step := 16) (by omega) (by decide)
      rfl rfl hbelow
    rwa [Nat.add_sub_cancel_left] at hroom
  · by_cases hnew : inDesc (txFresh s j).desc x
    · exact read_layZero_inside hnew m
    · have hlt : i < j := Nat.lt_of_le_of_ne (Nat.le_of_lt_succ hi) fun heq => hnew (heq ▸ hx)
      rw [read_layZero_outside hnew]
      exact h.zero i hlt x hx
  · rw [read_layZero_outside (hx j (Nat.lt_succ_self j))]
    exact h.frame x fun i hi => hx i (Nat.lt_succ_of_lt hi)

theorem qmWrite_zeros (hq : s.quiet = true) (d : Word) (next : State → Flow) :
    (qmWrite (descWord d 0) 0 (s.midway w q mid) fun s => qmWrite (descWord d 1) 0 s fun s =>
      qmWrite (descWord d 2) 0 s fun s => qmWrite (descWord d 3) 0 s next) =
      next ((s.setMem (layZero s.mem d)).midway w (countQm (countQm (countQm (countQm q)))) mid) := by
  have hwrite (m : Memory) (q : Option Qm) (a v : Word) (next : State → Flow) :
      qmWrite a v ((s.setMem m).midway w q mid) next = next ((s.setMem (m.write32 a v)).midway w (countQm q) mid) :=
    qmWrite_midway (t := s.setMem m) (quiet_of_moves hq rfl) a v next
  rw [qmWrite_midway hq, hwrite, hwrite, hwrite]
  rfl

theorem txNewOne_of_room (hq : s.quiet = true) (h : TxLaid s (16 + bytes) j m) :
    ∃ q', txNewOne ((txLaid s j m).midway w q mid) =
      .ok 0 0 ((txLaid s (j + 1) (layZero m (txFresh s j).desc)).midway w q' mid) := by
  have halloc : alloc [] Config.descBytes ((txLaid s j m).midway w q mid) =
      (some (txFresh s j).desc, ((txLaid s j m).setHeap
        { s.heap with brk := s.heap.brk + 16 * (j + 1) }).midway w q mid) :=
    alloc_of_room (size := 16) (h.room.congr rfl rfl) (by unfold heapStep; omega) (by omega) (by simp)
  have hslots : (List.range (j + 1)).map (txFresh s) = (List.range j).map (txFresh s) ++ [txFresh s j] := by
    rw [List.range_succ, List.map_append]
    rfl
  refine ⟨countQm (countQm (countQm (countQm q))), ?_⟩
  rw [txNewOne, halloc]
  dsimp only
  rw [qmWrite_zeros (by exact quiet_of_moves hq rfl), txLaid, txLaid, hslots]
  rfl

/-- So many descriptors, where there is room for them (R201). -/
theorem txNewSlots_of_room (hq : s.quiet = true) (h : TxLaid s (16 * n + bytes) j m) :
    ∃ q' m', txNewSlots n ((txLaid s j m).midway w q mid) = .ok 0 0 ((txLaid s (j + n) m').midway w q' mid) ∧
      TxLaid s bytes (j + n) m' := by
  induction n generalizing j m q with
  | zero =>
    rw [Nat.mul_zero, Nat.zero_add] at h
    exact ⟨q, m, rfl, h⟩
  | succ n ih =>
    rw [Nat.mul_succ, Nat.add_comm (16 * n), Nat.add_assoc] at h
    obtain ⟨q1, hone⟩ := txNewOne_of_room (w := w) (q := q) (mid := mid) hq h
    obtain ⟨q', m', hrest, hlaid⟩ := ih (q := q1) h.step
    rw [Nat.add_right_comm, Nat.add_assoc] at hrest hlaid
    refine ⟨q', m', ?_, hlaid⟩
    rw [txNewSlots, hone]
    exact hrest
end

/-- `TX_NEW` where the heap has room for only `m` of its descriptors (R201, R315). -/
theorem exec_txNew_heap_ends {s : State} {m : Nat} (hs : s.ready) (hq : s.quiet = true) (hc : s.tx.constructed = false)
    (hnil : s.tx.slots = []) (hm : m < s.par.txRingLen) (hroom : s.HasRoom (16 * m))
    (hfull : s.par.heapBase + s.par.heapSize < s.heap.brk + 16 * m + 16) :
    ∃ m', exec .txNew s = .next (s.outOfHeap .txNew (txLaid s m m')) ∧ TxLaid s 0 m m' := by
  have hstart : txLaid s 0 s.mem = s := by
    rw [txLaid, List.range_zero, List.map_nil, ← hnil]
    rfl
  obtain ⟨q, m', hmade, hlaid⟩ := txNewSlots_of_room (w := encode .txNew) (q := (startCommand (encode .txNew) s).qm)
    (mid := []) (n := m) (bytes := 0) hq (TxLaid.start hnil hroom)
  rw [Nat.zero_add] at hmade hlaid
  rw [hstart] at hmade
  have hone : txNewOne ((txLaid s m m').midway (encode .txNew) q []) =
      .fatal .allocationFailure ((txLaid s m m').midway (encode .txNew) q []) :=
    txNewOne_fatal (alloc_of_no_room hlaid.room.reference hfull)
  exact ⟨m', exec_of_alloc_fatal (i := .txNew) (t := txLaid s m m') hs hq rfl rfl
    (txNewBody_fatal hc hnil hm hmade hone), hlaid⟩

end Sys2Proof.Machine
end

section
/-! PROOFS. `RX_START` undisturbed, with the reference allocator, where the room ends before its new entries do
(41_rx_ring.md R174, R178; 60_exceptions.md R315, R316; 20_memory.md R86). -/

namespace Sys2Proof.Machine

/-! ## The new entries before they are linked -/

/-- The four words of a new entry's descriptor before phase 2 of `RX_START` (R174). -/
structure RxUnlinked (m : Memory) (size : Nat) (e : RxSlot) : Prop where
  status : m.read32 (descWord e.desc 0) = RX_OWN
  ctrl : m.read32 (descWord e.desc 1) = rxCtrl false size
  buf : m.read32 (descWord e.desc 2) = e.buf
  next : m.read32 (descWord e.desc 3) = 0

theorem RxUnlinked.same {m m' : Memory} {size : Nat} {e : RxSlot} (h : RxUnlinked m size e)
    (hsame : SameDesc e.desc m m') : RxUnlinked m' size e :=
  ⟨(hsame 0 (by decide)).trans h.status, (hsame 1 (by decide)).trans h.ctrl, (hsame 2 (by decide)).trans h.buf,
    (hsame 3 (by decide)).trans h.next⟩

theorem layEntry_unlinked {d : Word} (hd : DescAt d) (m : Memory) (b : Word) (size : Nat) :
    RxUnlinked (layEntry m d b size) size { desc := d, buf := b } := by
  obtain ⟨hstatus, hbuf⟩ := layEntry_words hd m b size
  refine ⟨hstatus, ?_, hbuf, ?_⟩
  · rw [layEntry, hd.read_write _ _ (by decide) (by decide), if_neg (by decide), read32_write32_same]
  · rw [layEntry, hd.read_write _ _ (by decide) (by decide), if_neg (by decide),
      hd.read_write _ _ (by decide) (by decide), if_neg (by decide), hd.read_write _ _ (by decide) (by decide),
      if_neg (by decide), layBlank, read32_write32_same]

section
variable {o s u : State} {w : Word} {N n i j : Nat}

theorem Regrown.entry_new (h : Regrown o w N s n j u) (hi : i < j) :
    u.rx.slots[s.rx.slots.length + i]? = some (freshSlot s i) := by
  rw [h.slots]
  exact getElem?_grownSlots_new hi

theorem Regrown.desc_new (ho : Origin o) (h : Regrown o w N s n j u) (hi : i < j) : DescAt (freshSlot s i).desc :=
  (h.grow.run.sound ho).rxDesc (List.mem_of_getElem? (h.entry_new hi))

/-- The memory after one more entry. -/
theorem Regrown.mem_rxGrown (h : Regrown o w N s n j u) (q q' : Option Qm) :
    (rxGrown q q' u).mem = layEntry u.mem (freshSlot s j).desc (freshSlot s j).buf s.rx.bufSize := by
  rw [← h.entry, ← h.size]
  rfl
end

/-- The point of `RX_START` at which `j` new entries are made and `n` are to be made, with room for so many bytes more
than these take, seen from its start `s`. -/
structure Unlinked (o : State) (w : Word) (N : Nat) (s : State) (bytes n j : Nat) (u : State) : Prop where
  grown : Regrown o w N s n j u
  room : u.HasRoom (n * (16 + heapStep s.rx.bufSize) + bytes)
  words : ∀ i < j, RxUnlinked u.mem s.rx.bufSize (freshSlot s i)
  frame : ∀ x, (∀ i < j, ¬ inDesc (freshSlot s i).desc x) → u.mem.read x = s.mem.read x

namespace Unlinked

variable {o s u : State} {w : Word} {N bytes n j : Nat}

theorem start (hgrow : Run.Growable o w N n s) (hroom : s.HasRoom (n * (16 + heapStep s.rx.bufSize) + bytes)) :
    Unlinked o w N s bytes n 0 s :=
  ⟨.start hgrow fun _ => hroom.mono (Nat.le_add_right ..), hroom, nofun, fun _ _ => rfl⟩

theorem step (ho : Origin o) (h : Unlinked o w N s bytes (n + 1) j u) {q q' : Option Qm}
    (heq : rxGrowOne u = .ok 0 0 (rxGrown q q' u)) : Unlinked o w N s bytes n (j + 1) (rxGrown q q' u) := by
  have ht := h.grown.step ho heq
  have hnew := ht.desc_new ho (Nat.lt_succ_self j)
  refine ⟨ht, ?_, fun i hi => ?_, fun x hx => ?_⟩
  · have hleft := h.room.after (t := rxGrown q q' u) (step := 16 + heapStep s.rx.bufSize)
      (by rw [Nat.succ_mul]; omega) (by unfold heapStep; omega) rfl (by rw [← h.grown.size, ← Nat.add_assoc]; rfl)
      (h.grown.below_grown ho q q')
    rwa [Nat.succ_mul, Nat.add_right_comm, Nat.add_sub_cancel] at hleft
  · rw [h.grown.mem_rxGrown]
    rcases Nat.lt_succ_iff_lt_or_eq.mp hi with hlt | rfl
    · have hapart := (ht.grow.run.sound ho).placed.rx_rx_apart (ht.entry_new (Nat.lt_succ_self j)) (ht.entry_new hi)
        (by omega)
      exact (h.words i hlt).same ((ht.desc_new ho hi).sameDesc hapart (layEntry_changesIn hnew _ _ _))
    · exact layEntry_unlinked hnew _ _ _
  · rw [h.grown.mem_rxGrown,
      layEntry_changesIn hnew _ _ _ x fun hin => hx j (Nat.lt_succ_self j) (hnew.inDesc_of_has hin)]
    exact h.frame x fun i hi => hx i (Nat.lt_succ_of_lt hi)

/-- All entries for which there is room (R174). -/
theorem rxGrow (ho : Origin o) (hq : s.quiet = true) (h : Unlinked o w N s bytes n j u) :
    ∃ t, Machine.rxGrow n u = .ok 0 0 t ∧ Unlinked o w N s bytes 0 (j + n) t := by
  induction n generalizing j u with
  | zero => exact ⟨u, rfl, h⟩
  | succ n ih =>
    have hstep : 16 + heapStep u.rx.bufSize ≤ (n + 1) * (16 + heapStep s.rx.bufSize) + bytes := by
      rw [h.grown.size]
      exact Nat.le_add_right_of_le (Nat.le_mul_of_pos_left _ (Nat.succ_pos n))
    obtain ⟨q, q', heq⟩ := rxGrowOne_of_room (h.grown.quiet hq) h.room hstep
      (by rw [h.grown.size]; exact h.grown.size_pos ho)
    obtain ⟨t, hgrow, ht⟩ := ih (h.step ho heq)
    refine ⟨t, ?_, by rwa [Nat.add_right_comm] at ht⟩
    rw [Machine.rxGrow, heq]
    exact hgrow

end Unlinked

/-! ## The entry that fails -/

/-- The state after `RX_START` has laid a descriptor for which there is no Buffer (R174, R178). -/
def rxOrphaned (q : Option Qm) (s : State) : State :=
  (s.setHeap { s.heap with brk := s.heap.brk + 16 }).within q (layBlank s.mem (word s.heap.brk))

theorem rxGrowOne_orphan {s : State} (hq : s.quiet = true) (hroom : s.HasRoom 16)
    (hfull : s.par.heapBase + s.par.heapSize < s.heap.brk + 16 + s.rx.bufSize) :
    Fresh s 16 (word s.heap.brk) ∧ ∃ q, rxGrowOne s = .fatal .allocationFailure (rxOrphaned q s) := by
  have hdesc : alloc [] Config.descBytes s = (some (word s.heap.brk), s.setHeap { s.heap with brk := s.heap.brk + 16 }) :=
    alloc_of_room hroom (size := 16) (by decide) (by decide) (by simp)
  obtain ⟨q, hblank⟩ := qmWrite_blank (s := s.setHeap { s.heap with brk := s.heap.brk + 16 }) (quiet_of_moves hq rfl)
    (word s.heap.brk)
  have hbuf : rxGraft s.rx.slots.length (word s.heap.brk) (rxOrphaned q s) =
      .fatal .allocationFailure (rxOrphaned q s) := by
    rw [rxGraft, alloc_of_no_room (by exact hroom.reference) (by exact hfull)]
  refine ⟨(fresh_of_alloc hdesc).1, q, ?_⟩
  rw [rxGrowOne_of_alloc hdesc, hblank]
  exact hbuf

/-- The four words of a descriptor that has no Buffer yet (R174). -/
structure RxBlank (m : Memory) (d : Word) : Prop where
  status : m.read32 (descWord d 0) = 0
  ctrl : m.read32 (descWord d 1) = RX_RCH
  buf : m.read32 (descWord d 2) = 0
  next : m.read32 (descWord d 3) = 0

theorem layBlank_blank (m : Memory) (d : Word) : RxBlank (layBlank m d) d := by
  have hword {j k : Nat} (m : Memory) (v : Word) (hj : j < 4) (hk : k < 4) :
      (m.write32 (descWord d j) v).read32 (descWord d k) = if k = j then v else m.read32 (descWord d k) := by
    split
    · next heq => rw [heq, read32_write32_same]
    · next hne => exact read32_write32_descWord hj hk hne m v
  constructor <;> simp [layBlank, hword]

/-- The stores into a new descriptor leave what is apart from it. -/
theorem layBlank_changesIn {d : Word} (hd : DescAt d) (m : Memory) : ChangesIn (descRegion d) m (layBlank m d) :=
  (((hd.changesIn _ _ (by decide)).trans (hd.changesIn _ _ (by decide))).trans (hd.changesIn _ _ (by decide))).trans
    (hd.changesIn _ _ (by decide))

/-! ## What was built stays -/

/-- The state after `RX_START`, issued in `s`, has made `j` entries and taken so many bytes of heap, with this Buffer
table and memory (R174). -/
def rxHalted (s : State) (j taken : Nat) (bt : List (Word × BufRec)) (m : Memory) : State :=
  (((s.setRx { s.rx with slots := grownSlots s j }).setBt bt).setHeap
    { s.heap with brk := s.heap.brk + taken }).setMem m

/-- The records and the words of the `j` entries that stay where `RX_START`, issued in `s`, fails (R174, R316). -/
structure RxBuilt (s : State) (j : Nat) (bt : List (Word × BufRec)) (m : Memory) : Prop where
  record : ∀ i < j, btFind bt (freshSlot s i).buf = some (freshRec s i)
  other : ∀ a, (∀ i < j, (freshSlot s i).buf ≠ a) → btFind bt a = btFind s.bt a
  words : ∀ i < j, RxUnlinked m s.rx.bufSize (freshSlot s i)

section
variable {o s u : State} {w : Word} {N bytes j : Nat}

theorem Unlinked.built (h : Unlinked o w N (startCommand w s) bytes 0 j u) {m : Memory}
    (hm : ∀ i < j, SameDesc (freshSlot s i).desc u.mem m) : RxBuilt s j u.bt m :=
  ⟨h.grown.bufs, h.grown.bufOther, fun i hi => (h.words i hi).same (hm i hi)⟩

theorem Unlinked.halted (h : Unlinked o w N (startCommand w s) bytes 0 j u) :
    ∃ q, u = (rxHalted s j (j * (16 + heapStep s.rx.bufSize)) u.bt u.mem).midway w q [] := by
  obtain ⟨q, bt, m, rfl⟩ := h.grown.form
  exact ⟨q, rfl⟩

theorem Unlinked.orphaned (h : Unlinked o w N (startCommand w s) bytes 0 j u) (q : Option Qm) :
    rxOrphaned q u = (rxHalted s j (j * (16 + heapStep s.rx.bufSize) + 16) u.bt
      (layBlank u.mem (word (s.heap.brk + j * (16 + heapStep s.rx.bufSize))))).midway w q [] := by
  obtain ⟨p, bt, m, rfl⟩ := h.grown.form
  rfl
end

section
variable {s : State} {n m bytes : Nat}

/-- `RX_START` makes the entries for which there is room. -/
theorem rxGrow_startCommand (hs : s.ready) (hq : s.quiet = true) (hr : s.InRange) (hown : s.Owned)
    (hc : s.rx.constructed = true) (hn : s.rx.slots.length + m < n) (hmax : n ≤ s.par.maxRing)
    (hroom : s.HasRoom (m * (16 + heapStep s.rx.bufSize) + bytes)) (w : Word) :
    Origin s ∧ ∃ u N, rxGrow m (startCommand w s) = .ok 0 0 u ∧ Unlinked s w N (startCommand w s) bytes 0 m u := by
  have ho : Origin s := origin_of_invariants hr hown hs.2 (starved_of_none hs.1)
  have hgrow : Run.Growable s w (s.rx.slots.length + m) m (startCommand w s) :=
    ⟨Run.startCommand s s.moves w, hc, rfl, Nat.le_trans (Nat.le_of_lt hn) hmax⟩
  have hquiet : (startCommand w s).quiet = true := quiet_of_moves hq rfl
  obtain ⟨u, hu, hunlinked⟩ := (Unlinked.start hgrow (hroom.congr rfl rfl)).rxGrow ho hquiet
  rw [Nat.zero_add] at hunlinked
  exact ⟨ho, u, _, hu, hunlinked⟩

/-- There is no room for the next descriptor (R174, R178). -/
theorem exec_rxStart_heap_ends (hs : s.ready) (hq : s.quiet = true) (hr : s.InRange) (hown : s.Owned)
    (hc : s.rx.constructed = true) (hn : s.rx.slots.length + m < n) (hmax : n ≤ s.par.maxRing)
    (hroom : s.HasRoom (m * (16 + heapStep s.rx.bufSize)))
    (hfull : s.par.heapBase + s.par.heapSize < s.heap.brk + m * (16 + heapStep s.rx.bufSize) + 16) :
    ∃ bt mem, exec (.rxStart n) s = .next (s.outOfHeap (.rxStart n)
        (rxHalted s m (m * (16 + heapStep s.rx.bufSize)) bt mem)) ∧ RxBuilt s m bt mem ∧
      ∀ x, (∀ i < m, ¬ inDesc (freshSlot s i).desc x) → mem.read x = s.mem.read x := by
  obtain ⟨-, u, N, hgrow, hu⟩ := rxGrow_startCommand (bytes := 0) hs hq hr hown hc hn hmax hroom (encode (.rxStart n))
  obtain ⟨q, hform⟩ := hu.halted
  have hone : rxGrowOne u = .fatal .allocationFailure u :=
    rxGrowOne_fatal (alloc_of_no_room hu.room.reference (by rw [hform]; exact hfull))
  have hbody := rxStartBody_fatal (s := startCommand _ s) hc hn hmax hgrow hone
  rw [hform] at hbody
  exact ⟨u.bt, u.mem, exec_of_alloc_fatal (i := .rxStart n) hs hq rfl rfl hbody, hu.built fun _ _ => sameDesc_refl _ _,
    hu.frame⟩

/-- There is room for the next descriptor and none for its Buffer: the descriptor is left without an entry (R174,
R178). -/
theorem exec_rxStart_buffer_fails (hs : s.ready) (hq : s.quiet = true) (hr : s.InRange) (hown : s.Owned)
    (hc : s.rx.constructed = true) (hn : s.rx.slots.length + m < n) (hmax : n ≤ s.par.maxRing)
    (hroom : s.HasRoom (m * (16 + heapStep s.rx.bufSize) + 16))
    (hfull : s.par.heapBase + s.par.heapSize < s.heap.brk + m * (16 + heapStep s.rx.bufSize) + 16 + s.rx.bufSize) :
    let orphan := word (s.heap.brk + m * (16 + heapStep s.rx.bufSize))
    ∃ bt mem, exec (.rxStart n) s = .next (s.outOfHeap (.rxStart n)
        (rxHalted s m (m * (16 + heapStep s.rx.bufSize) + 16) bt mem)) ∧ RxBuilt s m bt mem ∧ RxBlank mem orphan ∧
      ∀ x, (∀ i < m, ¬ inDesc (freshSlot s i).desc x) → ¬ inDesc orphan x → mem.read x = s.mem.read x := by
  intro orphan
  obtain ⟨ho, u, N, hgrow, hu⟩ := rxGrow_startCommand hs hq hr hown hc hn hmax hroom (encode (.rxStart n))
  have hbrk : u.heap.brk = s.heap.brk + m * (16 + heapStep s.rx.bufSize) := hu.grown.brk
  have hsize : u.rx.bufSize = s.rx.bufSize := hu.grown.size
  obtain ⟨p, hform⟩ := hu.halted
  obtain ⟨hfresh, q, hone⟩ := rxGrowOne_orphan (hu.grown.quiet (quiet_of_moves hq rfl))
    (hu.room.mono (Nat.le_add_left ..)) (by rw [hbrk, hsize, hform]; exact hfull)
  rw [hbrk] at hfresh
  have hsound := hu.grown.grow.run.sound ho
  have hdesc : DescAt orphan := hsound.freshDesc hfresh
  have hbody := rxStartBody_fatal (s := startCommand _ s) hc hn hmax hgrow hone
  rw [hu.orphaned q] at hbody
  refine ⟨u.bt, layBlank u.mem orphan, exec_of_alloc_fatal (i := .rxStart n) hs hq rfl rfl hbody,
    hu.built fun i hi => ?_, layBlank_blank u.mem orphan, fun x hx horphan => ?_⟩
  · exact (hu.grown.desc_new ho hi).sameDesc (hfresh.apart_rx (List.mem_of_getElem? (hu.grown.entry_new hi)))
      (layBlank_changesIn hdesc _)
  · rw [layBlank_changesIn hdesc _ x fun hin => horphan (hdesc.inDesc_of_has hin)]
    exact hu.frame x hx
end

/-- What stays, in the table's own terms. -/
theorem RxBuilt.entries {s : State} {j : Nat} {bt : List (Word × BufRec)} {m : Memory} (h : RxBuilt s j bt m) :
    (∀ i e, ((List.range j).map (freshSlot s))[i]? = some e →
      btFind bt e.buf = some (freshRec s i) ∧
      m.read32 (descWord e.desc 0) = 0x80000000 ∧ m.read32 (descWord e.desc 1) = 0x00004000 ||| word s.rx.bufSize ∧
      m.read32 (descWord e.desc 2) = e.buf ∧ m.read32 (descWord e.desc 3) = 0) ∧
    (∀ a, (∀ e ∈ (List.range j).map (freshSlot s), e.buf ≠ a) → btFind bt a = btFind s.bt a) := by
  refine ⟨fun i e he => ?_, fun a ha => ?_⟩
  · obtain ⟨hi, rfl⟩ := getElem?_fresh he
    have hwords := h.words i hi
    exact ⟨h.record i hi, hwords.status, hwords.ctrl, hwords.buf, hwords.next⟩
  · exact h.other a fun i hi => ha _ (List.mem_map_of_mem (List.mem_range.mpr hi))

/-- Settles O51: by the allocation that fails; the reference allocator answers until the room ends, and what its answers
were used for stays. -/
theorem allocationFailureIsFatal : Obligations.AllocationFailureIsFatal := by
  intro s h m hs hq dead limit
  refine ⟨fun e he hown herr hfirst hlast hp => ?_, fun hc hnil hlen hp => ?_, fun n hc hn hmax hp => ?_,
    fun hc hnil hm hroom hfull => ?_, fun n hr hown hc hn hmax => ⟨fun hroom hfull => ?_, fun hroom hfull => ?_⟩⟩
  · exact exec_rxRecv_alloc_fails hs hq he hown herr hfirst hlast hp
  · exact exec_txNew_alloc_fails hs hq hc hnil hlen hp
  · exact exec_rxStart_alloc_fails hs hq hc hn hmax hp
  · obtain ⟨mem, hexec, hlaid⟩ := exec_txNew_heap_ends hs hq hc hnil hm hroom hfull
    refine ⟨_, hexec, rfl, fun e he x hx => ?_, fun x hx => hlaid.frame x fun i hi => ?_⟩
    · obtain ⟨i, hi, rfl⟩ := List.mem_map.mp he
      exact hlaid.zero i (List.mem_range.mp hi) x hx
    · exact hx _ (List.mem_map_of_mem (List.mem_range.mpr hi))
  · obtain ⟨bt, mem, hexec, hbuilt, hframe⟩ := exec_rxStart_heap_ends hs hq hr hown hc hn hmax hroom hfull
    exact ⟨_, hexec, ⟨rfl, hbuilt.entries⟩,
      fun x hx => hframe x fun i hi => hx _ (List.mem_map_of_mem (List.mem_range.mpr hi))⟩
  · obtain ⟨bt, mem, hexec, hbuilt, horphan, hframe⟩ :=
      exec_rxStart_buffer_fails hs hq hr hown hc hn hmax hroom hfull
    exact ⟨_, hexec, ⟨rfl, hbuilt.entries⟩, horphan.status, horphan.ctrl, horphan.buf, horphan.next,
      fun x hx => hframe x fun i hi => hx _ (List.mem_map_of_mem (List.mem_range.mpr hi))⟩

end Sys2Proof.Machine
end

section
/-! PROOFS. `TX_NEW` undisturbed, with the reference allocator and room (42_tx_ring.md R201, 20_memory.md R86), and the
count of `TX_QLEN` (R220). -/

namespace Sys2Proof.Machine

/-! ## `TX_NEW` -/

section
variable {s u : State}

theorem txLaid_zero (hnil : s.tx.slots = []) : txLaid s 0 s.mem = s := by
  rw [txLaid, List.range_zero, List.map_nil, ← hnil]
  rfl

theorem txNewBody_ok (hc : s.tx.constructed = false) (hnil : s.tx.slots = [])
    (hmade : txNewSlots s.par.txRingLen s = .ok 0 0 u) :
    txNewBody s = .ok 0 0 (u.setTx { u.tx with constructed := true, started := false, cur := 0 }) := by
  have hempty : s.setTx { s.tx with slots := [] } = s := by rw [← hnil]; rfl
  rw [txNewBody, if_neg (by simp [hc]), hempty, hmade]
  rfl

/-- The state after `TX_NEW`, issued in `s`, has made its ring with the memory `m` (R201). -/
def txMade (s : State) (m : Memory) : State :=
  ((s.setTx { constructed := true, started := false, slots := (List.range s.par.txRingLen).map (txFresh s),
              cur := 0 }).setHeap { s.heap with brk := s.heap.brk + 16 * s.par.txRingLen }).setMem m

/-- `TX_NEW` where the heap has room for all its descriptors (R201). -/
theorem exec_txNew_of_room (hs : s.ready) (hq : s.quiet = true) (hc : s.tx.constructed = false)
    (hnil : s.tx.slots = []) (hroom : s.HasRoom (16 * s.par.txRingLen)) :
    ∃ m, exec .txNew s = .next ((txMade s m).answered (encode .txNew) .ok 0 0 []) ∧ TxLaid s 0 s.par.txRingLen m := by
  obtain ⟨q, m, hmade, hlaid⟩ := txNewSlots_of_room (w := encode .txNew) (q := (startCommand (encode .txNew) s).qm)
    (mid := []) (bytes := 0) hq (TxLaid.start hnil hroom)
  rw [Nat.zero_add] at hmade hlaid
  rw [txLaid_zero hnil] at hmade
  exact ⟨m, exec_of_ok_midway (i := .txNew) (t := txMade s m) hs (quiet_of_moves hq rfl)
    (txNewBody_ok (s := startCommand (encode .txNew) s) hc hnil hmade), hlaid⟩
end

/-- Settles O45: the descriptors are made one after another, each a step of the reference allocator above the last. -/
theorem txNewZeroesDescriptors : Obligations.TxNewZeroesDescriptors := by
  intro s hs hq hc hnil hroom slots
  obtain ⟨m, hexec, hlaid⟩ := exec_txNew_of_room hs hq hc hnil hroom
  refine ⟨_, hexec, rfl, fun e he x hx => ?_, fun x hx => hlaid.frame x fun i hi => ?_⟩
  · obtain ⟨i, hi, rfl⟩ := List.mem_map.mp he
    exact hlaid.zero i (List.mem_range.mp hi) x hx
  · exact hx _ (List.mem_map_of_mem (List.mem_range.mpr hi))

/-! ## `TX_QLEN` -/

/-- The scan reads word 0 of each entry once and counts those with OWN = 1 (R220). -/
theorem txQlenScan_midway {t : State} {w : Word} {mid : List Event} (hq : t.quiet = true) (es : List TxSlot) (n : Nat)
    (q : Option Qm) :
    ∃ q', txQlenScan es n (t.midway w q mid) =
      .ok (word (n + es.countP fun e => txOwn (t.mem.read32 e.desc))) 0 (t.midway w q' mid) := by
  induction es generalizing n q with
  | nil => exact ⟨q, rfl⟩
  | cons e es ih =>
    have hcount : (if txOwn (t.mem.read32 e.desc) then n + 1 else n) +
        es.countP (fun e => txOwn (t.mem.read32 e.desc)) =
        n + (e :: es).countP (fun e => txOwn (t.mem.read32 e.desc)) := by
      rw [List.countP_cons]
      split <;> omega
    obtain ⟨q', hrest⟩ := ih (if txOwn (t.mem.read32 e.desc) then n + 1 else n) (countQm q)
    refine ⟨q', ?_⟩
    rw [txQlenScan, access_midway hq, descWord_zero, ← hcount]
    exact hrest

/-- Settles O48: by the scan over the whole table. -/
theorem txQlenCountsHardwareOwned : Obligations.TxQlenCountsHardwareOwned := by
  intro s hs hq
  obtain ⟨q, hscan⟩ := txQlenScan_midway (w := encode .txQlen) (mid := []) hq s.tx.slots 0
    (startCommand (encode .txQlen) s).qm
  rw [Nat.zero_add] at hscan
  exact exec_of_ok_midway (i := .txQlen) hs hq hscan

end Sys2Proof.Machine
end

section
/-! PROOFS. `TX_SEND` undisturbed (42_tx_ring.md R210 to R215), alone and inside `ETH_SEND` (43_eth.md R242). -/

namespace Sys2Proof.Machine

/-! ## Release (R206) -/

section
variable {s t : State} {i : Nat} {e : TxSlot} {w : Word} {q : Option Qm} {mid : List Event}

theorem txReleaseIf_of_entry (he : s.tx.slots[i]? = some e) :
    txReleaseIf i e s =
      (s.setBt (btRelease s.bt e.buf)).setTx { s.tx with slots := s.tx.slots.set i { e with buf := none } } := by
  have hbt : (txReleaseIf i e s).bt = btRelease s.bt e.buf := congrArg Tables.bt (Run.tables_txReleaseIf he)
  rw [txReleaseIf_eq, hbt, txReleaseIf_tx he]

theorem txReleaseIf_midway : txReleaseIf i e (t.midway w q mid) = (txReleaseIf i e t).midway w q mid := by
  unfold txReleaseIf
  split <;> rfl

/-! ## The hand-over -/

/-- The stores of `TX_SEND`, in their order: pointer, length, and the hand-off word last (R213, R214). -/
def laySend (m : Memory) (d a : Word) (len : Nat) (last : Bool) : Memory :=
  ((m.write32 (descWord d 2) a).write32 (descWord d 1) (word len)).write32 (descWord d 0) (txSendWord last)

theorem laySend_words (m : Memory) (d a : Word) (len : Nat) (last : Bool) :
    (laySend m d a len last).read32 (descWord d 0) = txSendWord last ∧
      (laySend m d a len last).read32 (descWord d 1) = word len ∧
      (laySend m d a len last).read32 (descWord d 2) = a := by
  refine ⟨read32_write32_same .., ?_, ?_⟩
  · rw [laySend, read32_write32_descWord (by decide) (by decide) (by decide), read32_write32_same]
  · rw [laySend, read32_write32_descWord (by decide) (by decide) (by decide),
      read32_write32_descWord (by decide) (by decide) (by decide), read32_write32_same]

theorem read_laySend_outside {d x : Word} (h0 : ¬ inDescWord d 0 x) (h1 : ¬ inDescWord d 1 x)
    (h2 : ¬ inDescWord d 2 x) (m : Memory) (a : Word) (len : Nat) (last : Bool) :
    (laySend m d a len last).read x = m.read x := by
  rw [laySend, read_write32_outside h0, read_write32_outside h1, read_write32_outside h2]

/-- The hand-off word (R128, R214). -/
theorem txSendWord_eq (c : Prop) [Decidable c] : txSendWord (decide c) = if c then 0xB0300000 else 0xB0100000 := by
  by_cases h : c
  · rw [decide_eq_true h, if_pos h]; rfl
  · rw [decide_eq_false h, if_neg h]; rfl

/-- The state after `TX_SEND` has installed Buffer `a`, of record `r`, in the entry `e` at index `i` (R212 to R215). -/
def txSent (i : Nat) (e : TxSlot) (a : Word) (r : BufRec) (s : State) : State :=
  ((s.setTx { s.tx with slots := s.tx.slots.set i { e with buf := some a }
                        cur := (s.tx.cur + 1) % s.tx.slots.length }).setBt
    (btInsert (btRelease s.bt e.buf) a { r with owner := .txSlot i })).setMem
    (laySend s.mem e.desc a r.len (decide (i + 1 = s.tx.slots.length)))

theorem txInstall_midway {a : Word} {r : BufRec} (hq : t.quiet = true) (he : t.tx.slots[i]? = some e) :
    ∃ q', txInstall i e a r (t.midway w q mid) = .ok (word i) 0 ((txSent i e a r t).midway w q' mid) := by
  have hwrite (m : Memory) (q : Option Qm) (a v : Word) (next : State → Flow) :
      qmWrite a v (((txReleaseIf i e t).setMem m).midway w q mid) next =
        next (((txReleaseIf i e t).setMem (m.write32 a v)).midway w (countQm q) mid) :=
    qmWrite_midway (t := (txReleaseIf i e t).setMem m) (by rw [txReleaseIf_eq]; exact quiet_of_moves hq rfl) a v next
  have hmem : (txReleaseIf i e t).setMem t.mem = txReleaseIf i e t := by rw [txReleaseIf_eq]; rfl
  refine ⟨countQm (countQm (countQm q)), ?_⟩
  rw [txInstall, txReleaseIf_midway, ← hmem, hwrite, hwrite, hwrite, txReleaseIf_of_entry he]
  have hlength : (t.tx.slots.set i { e with buf := none }).length = t.tx.slots.length := List.length_set
  have hset : (t.tx.slots.set i { e with buf := none }).set i { e with buf := some a } =
      t.tx.slots.set i { e with buf := some a } := List.set_set ..
  rw [txSent, ← hlength, ← hset]
  rfl

/-- `TX_SEND` into a free descriptor, up to its first store (R210, R211). -/
theorem txSendBody_installs {r : BufRec} (hq : s.quiet = true) (hs : s.tx.started = true)
    (hr : btFind s.bt (operandA s) = some r) (ho : r.owner = .host) (hpos : 1 ≤ r.len) (hlen : r.len ≤ Config.bufSizeMax)
    (he : s.tx.slots[s.tx.cur]? = some e) (hfree : txOwn (s.mem.read32 e.desc) = false) :
    txSendBody s = txInstall s.tx.cur e (operandA s) r (countAccess s) := by
  rw [txSendBody, if_neg (by simp [hs]), withHostBuffer_host _ hr ho, if_neg (by omega), he]
  dsimp only
  rw [access_quiet _ hq, descWord_zero]
  exact if_neg (by exact Bool.eq_false_iff.mp hfree)
end

section
variable {s : State} {r : BufRec} {e : TxSlot}

/-- The body of `TX_SEND`, whichever command runs it (R210 to R215). -/
theorem txSendBody_startCommand (hq : s.quiet = true) (hs : s.tx.started = true)
    (hr : btFind s.bt s.port.a0 = some r) (ho : r.owner = .host) (hpos : 1 ≤ r.len) (hlen : r.len ≤ 8191)
    (he : s.tx.slots[s.tx.cur]? = some e) (hfree : (s.mem.read32 e.desc).getLsbD 31 = false) (w : Word) :
    ∃ q, txSendBody (startCommand w s) =
      .ok (word s.tx.cur) 0 ((txSent s.tx.cur e s.port.a0 r s).midway w q []) := by
  obtain ⟨q, hinstall⟩ := txInstall_midway (w := w) (q := countQm (startCommand w s).qm) (mid := [])
    (a := s.port.a0) (r := r) hq he
  exact ⟨q, (txSendBody_installs (s := startCommand w s) (quiet_of_moves hq rfl) hs hr ho hpos hlen he hfree).trans
    hinstall⟩
end

/-- Settles O47: the old Buffer's release comes before the three stores, and the bookkeeping after them. -/
theorem txSendHandsBufferOver : Obligations.TxSendHandsBufferOver := by
  intro s r e hs hq _ hon hr ho hpos hlen he hfree a i freed
  obtain ⟨q, hbody⟩ := txSendBody_startCommand hq hon hr ho hpos hlen he hfree (encode .txSend)
  obtain ⟨h0, h1, h2⟩ := laySend_words s.mem e.desc a r.len (decide (i + 1 = s.tx.slots.length))
  rw [txSendWord_eq] at h0
  exact ⟨_, exec_of_ok_midway (i := .txSend) (t := txSent i e a r s) hs (quiet_of_moves hq rfl) hbody, rfl, h0, h1, h2,
    fun x hx0 hx1 hx2 => read_laySend_outside hx0 hx1 hx2 ..⟩

/-! ## `ETH_SEND` -/

/-- The transmit table's running states (R181, R218). -/
theorem decodeTx_eq_running {c : BitVec 3} : decodeTx c = .running ↔ c = 1 ∨ c = 2 ∨ c = 3 ∨ c = 7 := by
  revert c; decide

/-- What `ETH_SEND` does after the body of `TX_SEND`: a demand poll does nothing to a walker that is not suspended, and a
suspended one is observed not running (43_eth.md R242). -/
theorem ethSendBody_midway {s t : State} {w i r1 : Word} {q : Option Qm} {mid : List Event} (hq : t.quiet = true)
    (hb : txSendBody s = .ok i r1 (t.midway w q mid)) :
    ∃ q', ethSendBody s = .ok i (if decodeTx t.txw.ps = .running then 0 else 1)
      ((t.setTxw (polledTx t)).midway w q' mid) := by
  have hps (u : State) : tpsField (regRead .dmasr u) = u.txw.ps := tpsField_dmasr u
  rw [ethSendBody, hb]
  dsimp only [Flow.andThen]
  rw [access_midway hq, hps]
  by_cases hrun : decodeTx t.txw.ps = .running
  · have hawake : polledTx t = t.txw := if_neg fun hpoll => by
      rw [hpoll.2] at hrun
      exact absurd hrun (by decide)
    refine ⟨countQm q, ?_⟩
    rw [if_pos (by exact hrun), if_pos hrun, hawake, State.setTxw_self]
  · refine ⟨countQm (countQm q), ?_⟩
    rw [if_neg (by exact hrun), if_neg hrun, qmRegWrite_dmatpdr_midway hq]

/-- Settles O52: the hand-over is that of `TX_SEND`, and TXW is as it was when it is looked at. -/
theorem ethSendPollsIdleEngine : Obligations.EthSendPollsIdleEngine := by
  intro s r e hs hq _ hon hr ho hpos hlen he hfree a i freed running
  obtain ⟨q, hbody⟩ := txSendBody_startCommand hq hon hr ho hpos hlen he hfree (encode .ethSend)
  obtain ⟨q', heth⟩ := ethSendBody_midway (t := txSent i e a r s) (quiet_of_moves hq rfl) hbody
  obtain ⟨h0, h1, h2⟩ := laySend_words s.mem e.desc a r.len (decide (i + 1 = s.tx.slots.length))
  rw [txSendWord_eq] at h0
  have hanswer := exec_of_ok_midway (i := .ethSend) (t := (txSent i e a r s).setTxw (polledTx s)) hs
    (quiet_of_moves hq rfl) heth
  exact ⟨_, hanswer, rfl,
    fun hrun => if_pos (decodeTx_eq_running.mpr hrun), fun hidle => if_neg (mt decodeTx_eq_running.mp hidle), h0, h1, h2,
    fun x hx0 hx1 hx2 => read_laySend_outside hx0 hx1 hx2 ..⟩

end Sys2Proof.Machine
end

section
/-! PROOFS. `TX_REAP` and `TX_START` undisturbed: the Buffers each of them releases on its way through the table
(42_tx_ring.md R204, R206, R221), and the circular chain `TX_START` lays (R203 to R205, 44_walker.md R261). -/

namespace Sys2Proof.Machine

/-! ## The Buffers released -/

/-- The Buffer table after the Buffers of the entries that `p` picks have ceased to exist (R206). -/
def releaseAll (p : TxSlot → Bool) (bt : List (Word × BufRec)) (es : List TxSlot) : List (Word × BufRec) :=
  es.foldl (fun bt e => if p e then btRelease bt e.buf else bt) bt

/-- An entry after its release, where `p` picks it. -/
def emptied (p : TxSlot → Bool) (e : TxSlot) : TxSlot := if p e then { e with buf := none } else e

theorem btFind_release (bt : List (Word × BufRec)) (o : Option Word) (a : Word) :
    btFind (btRelease bt o) a = if o = some a then none else btFind bt a := by
  cases o with
  | none => rfl
  | some b =>
    show btFind (btErase bt b) a = _
    rw [btFind_erase]
    by_cases hab : a = b
    · rw [if_pos hab, if_pos (by rw [hab])]
    · rw [if_neg hab, if_neg fun h => hab (Option.some.inj h).symm]

section
variable {p : TxSlot → Bool} {es : List TxSlot} {bt : List (Word × BufRec)} {a : Word}

theorem releaseAll_cons (e : TxSlot) :
    releaseAll p bt (e :: es) = releaseAll p (if p e then btRelease bt e.buf else bt) es := rfl

theorem releaseAll_append (pre : List TxSlot) :
    releaseAll p bt (pre ++ es) = releaseAll p (releaseAll p bt pre) es := List.foldl_append

/-- A Buffer that no entry picked holds keeps its record. -/
theorem btFind_releaseAll_other (h : ∀ e ∈ es, p e = true → e.buf ≠ some a) :
    btFind (releaseAll p bt es) a = btFind bt a := by
  induction es generalizing bt with
  | nil => rfl
  | cons e es ih =>
    rw [releaseAll_cons, ih fun f hf => h f (List.mem_cons_of_mem _ hf)]
    split
    · next hp => rw [btFind_release, if_neg (h e List.mem_cons_self hp)]
    · rfl

theorem btFind_releaseAll_none (h : btFind bt a = none) : btFind (releaseAll p bt es) a = none := by
  induction es generalizing bt with
  | nil => exact h
  | cons e es ih =>
    rw [releaseAll_cons]
    refine ih ?_
    split
    · rw [btFind_release, h, ite_self]
    · exact h

/-- A Buffer that an entry picked holds is gone. -/
theorem btFind_releaseAll_picked {e : TxSlot} (he : e ∈ es) (hp : p e = true) (hb : e.buf = some a) :
    btFind (releaseAll p bt es) a = none := by
  obtain ⟨pre, post, rfl⟩ := List.append_of_mem he
  rw [releaseAll_append, releaseAll_cons]
  refine btFind_releaseAll_none ?_
  rw [if_pos hp, btFind_release, if_pos hb]
end

/-! ## The entries one after another -/

/-- The state once the entries `pre` have been looked at and those that `p` picks released, the entries `es` being still
to come. -/
def reaped (p : TxSlot → Bool) (pre es : List TxSlot) (s : State) : State :=
  (s.setBt (releaseAll p s.bt pre)).setTx { s.tx with slots := pre.map (emptied p) ++ es }

section
variable {p : TxSlot → Bool} {pre es : List TxSlot} {e : TxSlot} {s : State} {w : Word} {q : Option Qm}
  {mid : List Event}

theorem reaped_start (h : s.tx.slots = es) : reaped p [] es s = s := by
  subst h
  rfl

theorem reaped_skip (hp : p e = false) : reaped p pre (e :: es) s = reaped p (pre ++ [e]) es s := by
  have hslots : (pre ++ [e]).map (emptied p) ++ es = pre.map (emptied p) ++ e :: es := by
    simp [emptied, hp]
  have hbt : releaseAll p s.bt (pre ++ [e]) = releaseAll p s.bt pre := by
    rw [releaseAll_append]
    exact if_neg (by simp [hp])
  rw [reaped, reaped, hslots, hbt]

theorem reaped_release (hp : p e = true) :
    txReleaseIf pre.length e (reaped p pre (e :: es) s) = reaped p (pre ++ [e]) es s := by
  have hentry : (reaped p pre (e :: es) s).tx.slots[pre.length]? = some e := by simp [reaped]
  have hslots : (pre ++ [e]).map (emptied p) ++ es =
      (pre.map (emptied p) ++ e :: es).set pre.length { e with buf := none } := by
    simp [emptied, hp]
  have hbt : releaseAll p s.bt (pre ++ [e]) = btRelease (releaseAll p s.bt pre) e.buf := by
    rw [releaseAll_append]
    exact if_pos hp
  rw [txReleaseIf_of_entry hentry, reaped, reaped, hslots, hbt]
  rfl

/-! ## `TX_REAP` -/

/-- A Buffer is installed in the entry, and its descriptor is software-owned (R221). -/
def txDone (m : Memory) (e : TxSlot) : Bool := e.buf.isSome && !txOwn (m.read32 e.desc)

/-- The scan looks at each entry once, and releases as it goes (R221). -/
theorem txReapScan_midway (hq : s.quiet = true) (pre es : List TxSlot) (q : Option Qm) :
    ∃ q', txReapScan pre.length es (pre.countP (txDone s.mem))
        ((reaped (txDone s.mem) pre es s).midway w q mid) =
      .ok (word ((pre ++ es).countP (txDone s.mem))) 0
        ((reaped (txDone s.mem) (pre ++ es) [] s).midway w q' mid) := by
  induction es generalizing pre q with
  | nil => exact ⟨q, by rw [List.append_nil]; rfl⟩
  | cons e es ih =>
    have hwhole : pre ++ e :: es = pre ++ [e] ++ es := List.append_cons ..
    have hlength : pre.length + 1 = (pre ++ [e]).length := by rw [List.length_append, List.length_singleton]
    have hskip (hp : txDone s.mem e = false) : pre.countP (txDone s.mem) = (pre ++ [e]).countP (txDone s.mem) := by
      simp [hp]
    rw [hwhole]
    cases hb : e.buf with
    | none =>
      have hp : txDone s.mem e = false := by rw [txDone, hb]; rfl
      obtain ⟨q', hrest⟩ := ih (pre ++ [e]) q
      refine ⟨q', ?_⟩
      rw [txReapScan, hb, reaped_skip hp, hlength, hskip hp]
      exact hrest
    | some b =>
      obtain ⟨q', hrest⟩ := ih (pre ++ [e]) (countQm q)
      refine ⟨q', ?_⟩
      have haccess := access_midway (t := reaped (txDone s.mem) pre (e :: es) s) (w := w) (q := q) (mid := mid)
        (quiet_of_moves hq rfl)
      rw [txReapScan, hb]
      dsimp only
      rw [haccess, descWord_zero]
      cases hown : txOwn (s.mem.read32 e.desc) with
      | true =>
        have hp : txDone s.mem e = false := by rw [txDone, hown, Bool.not_true, Bool.and_false]
        rw [if_pos (by exact hown), reaped_skip hp, hlength, hskip hp]
        exact hrest
      | false =>
        have hp : txDone s.mem e = true := by rw [txDone, hb, hown]; rfl
        have hone : pre.countP (txDone s.mem) + 1 = (pre ++ [e]).countP (txDone s.mem) := by simp [hp]
        have hrelease (t : State) : txRelease pre.length e b t = txReleaseIf pre.length e t := by
          rw [txReleaseIf, hb]
        rw [if_neg (by exact Bool.eq_false_iff.mp hown), hrelease, txReleaseIf_midway, reaped_release hp, hlength, hone]
        exact hrest
end

/-- Settles O49: each entry is looked at once, and its release leaves the entries to come as they are. -/
theorem txReapReleasesFinished : Obligations.TxReapReleasesFinished := by
  intro s hs hq _ done
  obtain ⟨q, hscan⟩ := txReapScan_midway (w := encode .txReap) (mid := []) hq [] s.tx.slots
    (startCommand (encode .txReap) s).qm
  rw [reaped_start rfl, List.nil_append] at hscan
  refine ⟨_, exec_of_ok_midway (i := .txReap) (t := reaped (txDone s.mem) s.tx.slots [] s) hs (quiet_of_moves hq rfl)
    hscan, ?_, fun e he hp b hb => btFind_releaseAll_picked he hp hb, fun a ha => btFind_releaseAll_other ha⟩
  rw [reaped, List.append_nil]
  rfl

/-! ## `TX_START`: the descriptors -/

theorem Origin.sound {o : State} (h : Origin o) : Sound o :=
  have hs : Sound (startCommand 0 o) := (Run.startCommand o o.moves 0).sound h
  ⟨hs.wide, hs.placed, hs.buffer, hs.size, h.hardware⟩

/-- The stores of `TX_START` into one descriptor, in their order (R204). -/
def layIdle (m : Memory) (d : Word) (last : Bool) (next : Word) : Memory :=
  (((m.write32 (descWord d 0) (txIdleWord last)).write32 (descWord d 1) 0).write32 (descWord d 2) 0).write32
    (descWord d 3) next

section
variable {d : Word} {m : Memory} {last : Bool} {next : Word}

/-- The words `TX_START` leaves in a descriptor (R204). -/
structure TxInit (m : Memory) (d : Word) (last : Bool) (next : Word) : Prop where
  status : m.read32 (descWord d 0) = txIdleWord last
  ctrl : m.read32 (descWord d 1) = 0
  buf : m.read32 (descWord d 2) = 0
  next : m.read32 (descWord d 3) = next

theorem TxInit.same {m' : Memory} (h : TxInit m d last next) (hd : SameDesc d m m') : TxInit m' d last next :=
  ⟨(hd 0 (by decide)).trans h.status, (hd 1 (by decide)).trans h.ctrl, (hd 2 (by decide)).trans h.buf,
    (hd 3 (by decide)).trans h.next⟩

theorem layIdle_init (m : Memory) (d : Word) (last : Bool) (next : Word) :
    TxInit (layIdle m d last next) d last next := by
  have hkeep {j k : Nat} (hj : j < 4) (hk : k < 4) (hne : k ≠ j) (m : Memory) (v : Word) :=
    read32_write32_descWord (d := d) hj hk hne m v
  refine ⟨?_, ?_, ?_, read32_write32_same ..⟩
  · rw [layIdle, hkeep (by decide) (by decide) (by decide), hkeep (by decide) (by decide) (by decide),
      hkeep (by decide) (by decide) (by decide), read32_write32_same]
  · rw [layIdle, hkeep (by decide) (by decide) (by decide), hkeep (by decide) (by decide) (by decide),
      read32_write32_same]
  · rw [layIdle, hkeep (by decide) (by decide) (by decide), read32_write32_same]

theorem layIdle_changesIn (hd : DescAt d) : ChangesIn (descRegion d) m (layIdle m d last next) :=
  (((hd.changesIn _ _ (by decide)).trans (hd.changesIn _ _ (by decide))).trans (hd.changesIn _ _ (by decide))).trans
    (hd.changesIn _ _ (by decide))
end

/-- The memory `m` after `TX_START` has laid the first `i` entries, seen from its start `s` (R204). -/
structure TxChained (s : State) (i : Nat) (m : Memory) : Prop where
  init : ∀ j e, j < i → s.tx.slots[j]? = some e → TxInit m e.desc (decide (j + 1 = s.tx.slots.length)) (txNext s j)
  frame : ∀ x : Word, (∀ e ∈ s.tx.slots, ¬ inDesc e.desc x) → m.read x = s.mem.read x

section
variable {s : State} {i : Nat} {e : TxSlot} {m : Memory} {w : Word} {q : Option Qm} {mid : List Event}

theorem TxChained.step (hs : Sound s) (h : TxChained s i m) (he : s.tx.slots[i]? = some e) :
    TxChained s (i + 1) (layIdle m e.desc (decide (i + 1 = s.tx.slots.length)) (txNext s i)) := by
  have hd := hs.txDesc (List.mem_of_getElem? he)
  have hin := layIdle_changesIn (m := m) (last := decide (i + 1 = s.tx.slots.length)) (next := txNext s i) hd
  refine ⟨fun j f hj hf => ?_, fun x hx => ?_⟩
  · rcases Nat.lt_succ_iff_lt_or_eq.mp hj with hlt | rfl
    · exact (h.init j f hlt hf).same
        ((hs.txDesc (List.mem_of_getElem? hf)).sameDesc (hs.placed.tx_tx_apart he hf (by omega)) hin)
    · obtain rfl : e = f := Option.some.inj (he.symm.trans hf)
      exact layIdle_init ..
  · rw [hin x fun hx' => hx e (List.mem_of_getElem? he) (hd.inDesc_of_has hx')]
    exact h.frame x hx

theorem qmWrite_idle {t : State} (hq : t.quiet = true) (d : Word) (last : Bool) (v : Word) (next : State → Flow) :
    (qmWrite (descWord d 0) (txIdleWord last) (t.midway w q mid) fun s => qmWrite (descWord d 1) 0 s fun s =>
      qmWrite (descWord d 2) 0 s fun s => qmWrite (descWord d 3) v s next) =
      next ((t.setMem (layIdle t.mem d last v)).midway w (countQm (countQm (countQm (countQm q)))) mid) := by
  have hwrite (m : Memory) (q : Option Qm) (a v : Word) (next : State → Flow) :
      qmWrite a v ((t.setMem m).midway w q mid) next = next ((t.setMem (m.write32 a v)).midway w (countQm q) mid) :=
    qmWrite_midway (t := t.setMem m) (quiet_of_moves hq rfl) a v next
  rw [qmWrite_midway hq, hwrite, hwrite, hwrite]
  rfl

/-- The entries whose Buffers `TX_START` releases: all of them (R204 step 1). -/
def everyEntry (_ : TxSlot) : Bool := true

/-- Every entry is released and laid, one after another (R204). -/
theorem txInit_midway (hs : Sound s) (hq : s.quiet = true) {pre es : List TxSlot} (hl : s.tx.slots = pre ++ es)
    (h : TxChained s pre.length m) (q : Option Qm) :
    ∃ q' m', txInit pre.length es (((reaped everyEntry pre es s).setMem m).midway w q mid) =
        .ok 0 0 (((reaped everyEntry s.tx.slots [] s).setMem m').midway w q' mid) ∧
      TxChained s s.tx.slots.length m' := by
  induction es generalizing pre m q with
  | nil =>
    rw [List.append_nil] at hl
    rw [hl]
    exact ⟨q, m, rfl, h⟩
  | cons e es ih =>
    have he : s.tx.slots[pre.length]? = some e := by rw [hl]; simp
    have hlast : es.isEmpty = decide (pre.length + 1 = s.tx.slots.length) := by
      rw [hl, List.length_append, List.length_cons, Bool.eq_iff_iff, List.isEmpty_iff, decide_eq_true_eq,
        ← List.length_eq_zero_iff]
      omega
    have hnext : (es.head?.map (·.desc)).getD 0 = txNext s pre.length := by
      rw [txNext, hl, List.append_cons, List.getElem?_append_right (by simp)]
      simp [List.head?_eq_getElem?]
    have hstep := h.step hs he
    have hlength : pre.length + 1 = (pre ++ [e]).length := by rw [List.length_append, List.length_singleton]
    rw [hlength] at hstep
    obtain ⟨q', m', hrest, hdone⟩ := ih (hl.trans (List.append_cons ..)) hstep
      (countQm (countQm (countQm (countQm q))))
    refine ⟨q', m', ?_, hdone⟩
    have hrelease : txReleaseIf pre.length e ((reaped everyEntry pre (e :: es) s).setMem m) =
        (reaped everyEntry (pre ++ [e]) es s).setMem m := by
      rw [← reaped_release (p := everyEntry) rfl]
      unfold txReleaseIf
      split <;> rfl
    rw [txInit_cons, txReleaseIf_midway, hrelease, hlast, hnext, qmWrite_idle (by exact quiet_of_moves hq rfl),
      hlength]
    exact hrest

/-! ## `TX_START`: the registers -/

theorem regField_st (h : onlyFields .dmaomr s.regs.dmaomr) :
    regField .dmaomr OMR_ST OMR_ST s = s.setRegs { s.regs with dmaomr := s.regs.dmaomr ||| 0x00002000 } := by
  have hset (v : Word) : (v &&& ~~~OMR_ST) ||| (OMR_ST &&& OMR_ST) = v ||| OMR_ST := by
    ext i hi
    simp only [BitVec.getElem_or, BitVec.getElem_and, BitVec.getElem_not]
    cases v[i] <;> cases OMR_ST[i] <;> rfl
  have hst : onlyFields .dmaomr OMR_ST := rfl
  have hwrite : ((s.regs.dmaomr &&& ~~~OMR_ST) ||| (OMR_ST &&& OMR_ST)) &&& Reg.fields .dmaomr =
      s.regs.dmaomr ||| 0x00002000 := by
    rw [hset]
    exact onlyFields_or h hst
  rw [← hwrite]
  rfl

/-- The state after `TX_START` has laid the memory `m` and started its ring (R204 to R206). -/
def txLaunched (m : Memory) (s : State) : State :=
  (((reaped everyEntry s.tx.slots [] s).setMem m).setRegs
    { s.regs with dmatdlar := txHead s, dmaomr := s.regs.dmaomr ||| 0x00002000 }).setTx
    { s.tx with cur := 0, started := true, slots := s.tx.slots.map (emptied everyEntry) ++ [] }

theorem txHead_reaped (p : TxSlot → Bool) : txHead (reaped p s.tx.slots [] s) = txHead s := by
  have hdesc : TxSlot.desc ∘ emptied p = TxSlot.desc := by
    funext e
    rw [Function.comp_apply, emptied]
    split <;> rfl
  rw [txHead_eq, txHead_eq, reaped, State.setTx_tx, List.append_nil, List.map_map, hdesc]

theorem txStartBody_midway (hs : Sound s) (hq : s.quiet = true) (hc : s.tx.constructed = true)
    (hoff : s.tx.started = false) (q : Option Qm) :
    ∃ q' m, txStartBody (s.midway w q mid) = .ok 0 0 ((txLaunched m s).midway w q' mid) ∧
      TxChained s s.tx.slots.length m := by
  obtain ⟨q', m, hinit, hm⟩ := txInit_midway (w := w) (mid := mid) (pre := []) hs hq rfl
    (m := s.mem) ⟨nofun, fun _ _ => rfl⟩ q
  have hhead : txHead (((reaped everyEntry s.tx.slots [] s).setMem m).midway w q' mid) = txHead s :=
    txHead_reaped everyEntry
  refine ⟨countQm (countQm q'), m, ?_, hm⟩
  rw [txStartBody, if_neg (by exact not_not.mpr hc), if_neg (by exact Bool.eq_false_iff.mp hoff)]
  refine (congrArg (Flow.andThen · _) hinit).trans ?_
  dsimp only [Flow.andThen]
  rw [hhead, qmRegWrite, access_midway (by exact quiet_of_moves hq rfl), regWrite_dmatdlar, qmRegField]
  refine (access_midway (t := ((reaped everyEntry s.tx.slots [] s).setMem m).setRegs
    { s.regs with dmatdlar := txHead s }) (quiet_of_moves hq rfl) _).trans ?_
  rw [regField_st (by exact hs.hardware.regs.dmaomr)]
  rfl

/-! ## The chain -/

/-- Word 0 of an entry as `TX_START` leaves it (R128, R204). -/
theorem txIdleWord_eq (c : Prop) [Decidable c] : txIdleWord (decide c) = if c then 0x00300000 else 0x00100000 := by
  by_cases h : c
  · rw [decide_eq_true h, if_pos h]; rfl
  · rw [decide_eq_false h, if_neg h]; rfl

/-- The next-descriptor function goes round the chain (R62, 44_walker.md R261). -/
theorem txHop_of_init (hs : Sound s) (he : s.tx.slots[i]? = some e)
    (h : TxInit m e.desc (decide (i + 1 = s.tx.slots.length)) (txNext s i)) :
    some (txHop m (txHead s) e.desc) = s.tx.slots[(i + 1) % s.tx.slots.length]?.map (·.desc) := by
  have hi : i < s.tx.slots.length := (List.getElem?_eq_some_iff.mp he).1
  obtain ⟨hter, htch, _⟩ := txIdleWord_flags (decide (i + 1 = s.tx.slots.length))
  unfold txHop nextDesc
  dsimp only
  rw [h.status, h.next, hter, htch]
  by_cases hlast : i + 1 = s.tx.slots.length
  · obtain ⟨f, hf⟩ : ∃ f, s.tx.slots[0]? = some f := ⟨_, List.getElem?_eq_getElem (by omega)⟩
    have hhead : txHead s = f.desc := by rw [txHead_eq, List.head?_map, List.head?_eq_getElem?, hf]; rfl
    rw [if_pos (decide_eq_true hlast), hlast, Nat.mod_self, hf, hhead,
      trunc8_of_aligned (hs.txDesc (List.mem_of_getElem? hf)).aligned]
    rfl
  · obtain ⟨f, hf⟩ : ∃ f, s.tx.slots[i + 1]? = some f := ⟨_, List.getElem?_eq_getElem (by omega)⟩
    have hnext : txNext s i = f.desc := by rw [txNext, hf]; rfl
    rw [if_neg (by simpa using hlast), if_pos rfl, Nat.mod_eq_of_lt (by omega), hf, hnext,
      trunc8_of_aligned (hs.txDesc (List.mem_of_getElem? hf)).aligned]
    rfl
end

/-- Settles O46: every entry is released and laid in its turn, its words being kept by the stores into the entries after
it, which lie apart. -/
theorem txStartBuildsCircularChain : Obligations.TxStartBuildsCircularChain := by
  intro s hs hq hr hown hc hoff slots
  have hsound : Sound s := (origin_of_invariants hr hown hs.2 (starved_of_none hs.1)).sound
  obtain ⟨q, m, hbody, hm⟩ := txStartBody_midway (w := encode .txStart) (mid := []) hsound hq hc hoff
    (startCommand (encode .txStart) s).qm
  have hhead : txHead s = (slots.head?.map (·.desc)).getD 0 := by rw [txHead_eq, List.head?_map]
  refine ⟨_, exec_of_ok_midway (i := .txStart) (t := txLaunched m s) hs (quiet_of_moves hq rfl) hbody, ?_,
    fun e he b hb => btFind_releaseAll_picked he rfl hb, fun a ha => btFind_releaseAll_other fun e he _ => ha e he,
    fun i e he => ?_, hm.frame⟩
  · rw [txLaunched, hhead, List.append_nil]
    rfl
  · have hinit := hm.init i e (List.getElem?_eq_some_iff.mp he).1 he
    exact ⟨hinit.status.trans (txIdleWord_eq _), hinit.ctrl, hinit.buf, hinit.next, txHop_of_init hsound he hinit⟩

end Sys2Proof.Machine
end

section
/-! PROOFS. RST's step and the reset wait where RST steps before QM's first read (43_eth.md R232, 70_reset_and_hazards.md
R355, R357), and with them `DMA_RESET`. -/

namespace Sys2Proof.Machine

/-! ## RST's step -/

/-- The state once RST has stepped: registers and walkers are cleared, the latches free (70_reset_and_hazards.md R357). -/
def State.cleared (t : State) : State :=
  (((t.setRegs zeroRegs).setRxw { ps := 0, cur := 0, lat := freeRxLatch t.draws, fr := none }).setTxw
    { ps := 0, cur := 0, lat := freeTxLatch t.draws, asm := [] }).setDraws (t.draws + 1)

theorem cleared_setRegs (t : State) (r : Regs) : (t.setRegs r).cleared = t.cleared := rfl
theorem cleared_setMoves (t : State) (ms : List Move) : (t.setMoves ms).cleared = t.cleared.setMoves ms := rfl

theorem irqCpu_cleared (t : State) : irqCpu t.cleared = false := rfl

/-- The interrupt request falls with the registers (R357, 60_exceptions.md R321). -/
theorem rstStep_of_pending {s : State} (h : s.regs.resetPending = true) :
    rstStep s = s.cleared.setHist (s.hist ++ irqFalls s) := by
  rw [rstStep, if_pos h]
  show withIrq State.cleared s = _
  rw [withIrq, irqCpu_cleared, irqFalls]
  cases irqCpu s
  · rw [if_pos rfl, if_neg (by decide), List.append_nil]
    rfl
  · rw [if_neg (by decide), if_pos rfl]
    rfl

/-- The registers after QM's write of `DMABMR.SR` (R355). -/
def Regs.asked (r : Regs) : Regs :=
  { r with dmabmr := (((r.dmabmr &&& ~~~BMR_SR) ||| (BMR_SR &&& BMR_SR)) &&& Reg.fields .dmabmr) |||
      (r.dmabmr &&& BMR_SR) }

theorem irqFalls_asked (s : State) (ms : List Move) :
    irqFalls ((s.setMoves ms).setRegs s.regs.asked) = irqFalls s := by
  have hkept (v : Word) : irqFalls ((s.setMoves ms).setRegs { s.regs with dmabmr := v }) = irqFalls s := rfl
  exact hkept _

theorem regField_asked (s : State) : regField .dmabmr BMR_SR BMR_SR s = s.setRegs s.regs.asked := rfl

theorem resetPending_asked (r : Regs) : r.asked.resetPending = true := pending_of_resetBit r

theorem resetPending_zeroRegs : zeroRegs.resetPending = false := rfl

/-! ## The reset wait undisturbed, after RST's step -/

theorem poll_of_clear {s : State} (h : s.regs.resetPending = false) : poll s = .done (countAccess s) :=
  if_neg (Bool.eq_false_iff.mp h)

section
variable {s t : State} {rest : State → Flow}

theorem waitThen_done (h : resetWait s.moves s = .done t) : waitThen rest s = rest t := by rw [waitThen, h]

theorem waitThen_hang (h : resetWait s.moves s = .hang t) : waitThen rest s = .fatal .hardwareInitHang t := by
  rw [waitThen, h]

theorem waitThen_pending (h : resetWait s.moves s = .pending t) : waitThen rest s = .wait t := by rw [waitThen, h]
end

/-- Where the others hold still, the reset wait is one read. -/
theorem resetWait_quiet {s : State} {ms : List Move} (h : (s.setMoves ms).quiet = true) :
    resetWait ms s = poll (s.setMoves ms) := by
  cases ms with
  | nil => rfl
  | cons m ms =>
    cases m with
    | untilIdle => rfl
    | _ => cases h

section
variable {t : State} {w : Word} {q : Option Qm} {mid : List Event} {ms : List Move}

theorem rstStep_midway (h : t.regs.resetPending = true) :
    rstStep (t.midway w q mid) = t.cleared.midway w q (mid ++ irqFalls t) := by
  have hhist : (t.midway w q mid).hist ++ irqFalls (t.midway w q mid) =
      t.hist ++ .cmd w t.port.a0 :: (mid ++ irqFalls t) := List.append_assoc ..
  rw [rstStep_of_pending (by exact h), hhist]
  rfl

theorem resetWait_midway (hp : t.regs.resetPending = true) (hq : (t.setMoves ms).quiet = true) :
    resetWait (.rst :: ms) (t.midway w q mid) =
      .done ((t.cleared.setMoves ms).midway w (countQm q) (mid ++ irqFalls t)) := by
  show resetWait ms (rstStep _) = _
  rw [rstStep_midway hp, resetWait_quiet (s := t.cleared.midway w q (mid ++ irqFalls t)) (quiet_of_moves hq rfl)]
  exact poll_of_clear (by exact resetPending_zeroRegs)

/-- QM's turn is due: its access takes place, and the moves after it are left. -/
theorem access_due (hm : t.moves = .qm :: ms) (act : State → Flow) :
    access (t.midway w q mid) act = act ((t.setMoves ms).midway w (countQm q) mid) := by
  have hmoves : (t.midway w q mid).moves = .qm :: ms := hm
  simp only [access, atTurn, yield, hmoves, runMoves]
  rfl

/-- The state after the body of `DMA_RESET`, issued in `t`, with the moves `ms` left (43_eth.md R232). -/
def State.afterRst (t : State) (ms : List Move) : State :=
  ((t.cleared.setMoves ms).setRx { t.rx with started := false }).setTx { t.tx with started := false }

theorem afterReset_midway :
    afterReset (t.midway w q mid) =
      .ok 0 0 (((t.setRx { t.rx with started := false }).setTx { t.tx with started := false }).midway w q mid) := rfl

/-- The body of `DMA_RESET`, where QM's turn is due and RST steps before QM's first read (R232). -/
theorem resetBody_midway (hm : t.moves = .qm :: .rst :: ms) (hq : (t.setMoves ms).quiet = true) :
    ∃ q', ∀ rest, resetBody rest (t.midway w q mid) = rest ((t.afterRst ms).midway w q' (mid ++ irqFalls t)) := by
  have hwait := resetWait_midway (t := (t.setMoves (.rst :: ms)).setRegs t.regs.asked) (w := w) (q := countQm q)
    (mid := mid) (resetPending_asked t.regs) hq
  rw [cleared_setRegs, cleared_setMoves, irqFalls_asked, State.setMoves_setMoves] at hwait
  refine ⟨countQm (countQm q), fun rest => ?_⟩
  rw [resetBody, qmRegField, access_due hm, regField_asked]
  refine (waitThen_done (s := ((t.setMoves (.rst :: ms)).setRegs t.regs.asked).midway w (countQm q) mid) hwait).trans ?_
  rw [afterReset_midway]
  rfl
end

theorem quiet_afterRst {t : State} {ms : List Move} (hq : (t.setMoves ms).quiet = true) : (t.afterRst ms).quiet = true :=
  quiet_of_moves hq rfl

/-- Settles O53: QM's first read finds that RST has stepped. -/
theorem dmaResetCompletes : Obligations.DmaResetCompletes := by
  intro s ms hs hm hq
  obtain ⟨q, hbody⟩ := resetBody_midway (w := encode .dmaReset) (q := (startCommand (encode .dmaReset) s).qm)
    (mid := []) hm hq
  have hexec := exec_of_ok_midway (i := .dmaReset) hs (quiet_afterRst hq) (hbody _)
  rw [List.nil_append] at hexec
  exact ⟨_, hexec, rfl⟩

end Sys2Proof.Machine
end

section
/-! PROOFS. `ETH_INIT` where RST steps before QM's first read (43_eth.md R234 to R236), and `IRQ_ENABLE`, `IRQ_ACK` and
`PHY_STATUS` undisturbed (R237, R238, R240). -/

namespace Sys2Proof.Machine

/-! ## Fields at their place -/

/-- A value at its place stays when the bits of its place are picked. -/
theorem shifted_and {n k : Nat} {m : Word} (x : BitVec n)
    (h : ∀ i < 32, k ≤ i → i < k + n → m.getLsbD i = true) : (x.setWidth 32 <<< k) &&& m = x.setWidth 32 <<< k := by
  ext i hi
  simp only [BitVec.getElem_and, BitVec.getElem_shiftLeft, BitVec.getElem_setWidth]
  by_cases hlow : i < k
  · simp [hlow]
  by_cases hhigh : i < k + n
  · have hbit := h i hi (Nat.not_lt.mp hlow) hhigh
    rw [BitVec.getLsbD_eq_getElem hi] at hbit
    rw [hbit, Bool.and_true]
  · have hzero : x.getLsbD (i - k) = false := BitVec.getLsbD_of_ge x _ (by omega)
    simp [hzero]

theorem or_and_of_and {a b m : Word} (ha : a &&& m = a) (hb : b &&& m = b) : (a ||| b) &&& m = a ||| b := by
  rw [BitVec.and_or_distrib_right, ha, hb]

/-- The fields `ETH_INIT` programs in `DMABMR` lie in the mask it writes them with (R235). -/
theorem initDmabmr_and (p : Config.Params) : initDmabmr p &&& INIT_DMABMR_MASK = initDmabmr p :=
  or_and_of_and (or_and_of_and (or_and_of_and rfl (shifted_and _ (by decide))) (shifted_and _ (by decide)))
    (shifted_and _ (by decide))

/-- A field written to a register that holds 0 (00_scope.md R12). -/
theorem field_of_zero {mask fields v : Word} (hsub : mask &&& fields = mask) (hv : v &&& mask = v) :
    (((0 : Word) &&& ~~~mask) ||| (v &&& mask)) &&& fields = v := by
  have hclear : (0 : Word) &&& ~~~mask = 0 := BitVec.zero_and
  have hplace : (0 : Word) ||| (v &&& mask) = v &&& mask := BitVec.zero_or
  rw [hclear, hplace, BitVec.and_assoc, hsub, hv]

/-! ## The registers of `ETH_INIT` -/

/-- The registers `ETH_INIT` leaves (R235). -/
def initRegs (p : Config.Params) : Regs :=
  { zeroRegs with
    maccr := 0x02004A8C, macffr := 0x80000001, macmiiar := p.miiCr.setWidth 32 <<< 2
    macfcr := p.pause.setWidth 32 <<< 16, dmaomr := 0x06200084, dmabmr := initDmabmr p }

/-- The registers `ETH_INIT` programs (R235). -/
def Reg.programmed : Reg → Bool
  | .maccr | .macffr | .macmiiar | .macfcr | .dmaomr | .dmabmr => true
  | _ => false

/-- The registers with one of those holding a value. -/
def Regs.put (r : Reg) (v : Word) (g : Regs) : Regs :=
  match r with
  | .maccr => { g with maccr := v }
  | .macffr => { g with macffr := v }
  | .macmiiar => { g with macmiiar := v }
  | .macfcr => { g with macfcr := v }
  | .dmaomr => { g with dmaomr := v }
  | .dmabmr => { g with dmabmr := v }
  | _ => g

/-- A field written to a programmed register that holds 0. -/
theorem regField_put {s : State} {r : Reg} {mask v : Word} (hr : r.programmed = true) (h0 : regRead r s = 0)
    (hsub : mask &&& r.fields = mask) (hv : v &&& mask = v) : regField r mask v s = s.setRegs (s.regs.put r v) := by
  have hfield := field_of_zero hsub hv
  cases r with
  | maccr | macffr | macmiiar | macfcr | dmaomr => rw [regField, h0, regWrite, hfield]; rfl
  | dmabmr =>
    have hreg : s.regs.dmabmr = 0 := h0
    have hsr : v ||| ((0 : Word) &&& BMR_SR) = v := by simp
    rw [regField, h0, regWrite, hfield, hreg, hsr]
    rfl
  | dmatpdr | dmarpdr | dmardlar | dmatdlar | dmasr | dmaier => cases hr

section
variable {t : State} {w : Word} {q : Option Qm} {mid : List Event}

theorem qmRegField_put {g : Regs} {r : Reg} {mask v : Word} (hq : t.quiet = true) (hr : r.programmed = true)
    (h0 : regRead r (t.setRegs g) = 0) (hsub : mask &&& r.fields = mask) (hv : v &&& mask = v) (next : State → Flow) :
    qmRegField r mask v ((t.setRegs g).midway w q mid) next =
      next ((t.setRegs (g.put r v)).midway w (countQm q) mid) := by
  have hread : regRead r ((t.setRegs g).midway w (countQm q) mid) = 0 := by
    rw [← h0]
    cases r <;> rfl
  rw [qmRegField, access_midway (t := t.setRegs g) (quiet_of_moves hq rfl), regField_put hr hread hsub hv]
  rfl

/-- `ETH_INIT` after its reset (R234 steps 2 to 9). -/
theorem afterResetInit_midway (hq : t.quiet = true) :
    ∃ q', afterResetInit ((t.setRegs zeroRegs).midway w q mid) =
      .ok 0 0 ((t.setRegs (initRegs t.par)).midway w q' (mid ++ [.phyReset, .phySetAutoneg])) := by
  have hemit (g : Regs) (q : Option Qm) (mid : List Event) (e : Event) (next : State → Flow) :=
    qmEmit_midway (t := t.setRegs g) (w := w) (q := q) (mid := mid) (quiet_of_moves hq rfl) e next
  refine ⟨countQm (countQm (countQm (countQm (countQm (countQm (countQm (countQm q))))))), ?_⟩
  rw [afterResetInit, qmRegField_put hq rfl rfl rfl (shifted_and _ (by decide)), hemit, hemit,
    qmRegField_put hq rfl rfl rfl rfl, qmRegField_put hq rfl rfl rfl rfl,
    qmRegField_put hq rfl rfl rfl (shifted_and _ (by decide)), qmRegField_put hq rfl rfl rfl rfl,
    qmRegField_put hq rfl rfl rfl (initDmabmr_and _), List.append_assoc]
  rfl
end

section
variable (t : State) (ms : List Move)
theorem afterRst_setRegs : (t.afterRst ms).setRegs zeroRegs = t.afterRst ms := rfl
theorem afterRst_par : (t.afterRst ms).par = t.par := by simp [State.afterRst, State.cleared]
end

/-- Settles O56: the reset leaves every register 0, and each field is written at its place. -/
theorem ethInitProgramsRegisters : Obligations.EthInitProgramsRegisters := by
  intro s ms hs hm hq p
  obtain ⟨q, hreset⟩ := resetBody_midway (w := encode .ethInit) (q := (startCommand (encode .ethInit) s).qm)
    (mid := []) hm hq
  obtain ⟨q', hinit⟩ := afterResetInit_midway (w := encode .ethInit) (q := q) (mid := [] ++ irqFalls s)
    (quiet_afterRst hq)
  rw [afterRst_setRegs, afterRst_par] at hinit
  have hquiet : ((s.afterRst ms).setRegs (initRegs s.par)).quiet = true := quiet_of_moves (quiet_afterRst hq) rfl
  have hbody : commandBody .ethInit (startCommand (encode .ethInit) s) = _ := (hreset _).trans hinit
  have hexec := exec_of_ok_midway hs hquiet hbody
  rw [List.nil_append] at hexec
  exact ⟨_, hexec, rfl⟩

/-! ## The interrupt commands -/

/-- An update undisturbed, with the event of a change of the interrupt request (60_exceptions.md R321). -/
theorem withIrq_midway {f : State → State} {s t : State} {w : Word} {q : Option Qm} {mid : List Event}
    (hf : f (s.midway w q mid) = t.midway w q mid) :
    withIrq f (s.midway w q mid) =
      t.midway w q (mid ++ if irqCpu t = irqCpu s then [] else [.irq (irqCpu t)]) := by
  rw [withIrq, hf]
  show (if irqCpu t = irqCpu s then _ else emit (.irq (irqCpu t)) _) = _
  split
  · rw [List.append_nil]
  · exact emit_midway _

/-- The enables of `IRQ_ENABLE` are all the fields of `DMAIER` (R237, 10_state.md R45). -/
theorem irqEnable_word (v : Word) :
    ((v &&& ~~~IRQ_BITS) ||| (IRQ_BITS &&& IRQ_BITS)) &&& Reg.fields .dmaier = 0x00010041 := by
  have hout : v &&& ~~~IRQ_BITS &&& Reg.fields .dmaier = 0 := by
    rw [BitVec.and_assoc]
    exact BitVec.and_zero
  rw [BitVec.and_or_distrib_right, hout]
  rfl

theorem regField_irqEnable (s : State) : regField .dmaier IRQ_BITS IRQ_BITS s =
    withIrq (fun t => t.setRegs { t.regs with dmaier := 0x00010041 }) s := by
  rw [← irqEnable_word s.regs.dmaier]
  rfl

section
variable {s : State} {w : Word} {q : Option Qm} {mid : List Event}

/-- The request moves with the enables, then with the unmask, and rises at most once (R237). -/
theorem irqEnable_events :
    ((if (s.regs.nis && s.nvic) = irqCpu s then [] else [Event.irq (s.regs.nis && s.nvic)]) ++
      if s.regs.nis = (s.regs.nis && s.nvic) then [] else [Event.irq s.regs.nis]) =
      if s.regs.nis = irqCpu s then [] else [Event.irq true] := by
  unfold irqCpu irqEth
  cases hnis : s.regs.nis with
  | false => simp
  | true => cases s.nvic <;> simp

theorem irqEnableBody_midway (hq : s.quiet = true) :
    ∃ q', irqEnableBody (s.midway w q []) =
      .ok 0 0 (((s.setRegs { s.regs with dmaier := 0x00010041 }).setNvic true).midway w q'
        (if s.regs.nis = irqCpu s then [] else [.irq true])) := by
  have henabled : irqCpu (s.setRegs { s.regs with dmaier := 0x00010041 }) = (s.regs.nis && s.nvic) := by
    simp [irqCpu, irqEth, Regs.nise, bit]
  have hunmasked : irqCpu ((s.setRegs { s.regs with dmaier := 0x00010041 }).setNvic true) = s.regs.nis := by
    simp [irqCpu, irqEth, Regs.nise, bit]
  have hquiet : (s.setRegs { s.regs with dmaier := 0x00010041 }).quiet = true := quiet_of_moves hq rfl
  refine ⟨countQm (countQm q), ?_⟩
  rw [irqEnableBody, qmRegField, access_midway hq, regField_irqEnable,
    withIrq_midway (t := s.setRegs { s.regs with dmaier := 0x00010041 }) rfl, access_midway hquiet,
    withIrq_midway (t := (s.setRegs { s.regs with dmaier := 0x00010041 }).setNvic true) rfl, henabled, hunmasked,
    List.nil_append, irqEnable_events]

theorem irqAckBody_midway (hq : s.quiet = true) :
    irqAckBody (s.midway w q []) =
      .ok 0 0 ((s.setRegs { s.regs with ts := false, rs := false, nis := false }).midway w (countQm q) (irqFalls s)) := by
  have hclear (u : State) : regWrite .dmasr IRQ_BITS u =
      withIrq (fun t => t.setRegs { t.regs with ts := false, rs := false, nis := false }) u := by
    simp [regWrite, bit, IRQ_BITS]
  have hlow : irqCpu (s.setRegs { s.regs with ts := false, rs := false, nis := false }) = false := rfl
  have hfalls : irqFalls s = if false = irqCpu s then [] else [Event.irq false] := by
    rw [irqFalls]
    cases irqCpu s <;> rfl
  rw [irqAckBody, qmRegWrite, access_midway hq, hclear,
    withIrq_midway (t := s.setRegs { s.regs with ts := false, rs := false, nis := false }) rfl, hlow, List.nil_append,
    hfalls]
end

/-- Settles O58: each command by its accesses, the request moving with them. -/
theorem interruptCommandsWriteTheirBits : Obligations.InterruptCommandsWriteTheirBits := by
  intro s hs hq
  obtain ⟨q, henable⟩ := irqEnableBody_midway (w := encode .irqEnable) (q := (startCommand (encode .irqEnable) s).qm) hq
  exact ⟨exec_of_ok_midway (i := .irqEnable) hs (quiet_of_moves hq rfl) henable,
    exec_of_ok_midway (i := .irqAck) hs (quiet_of_moves hq rfl) (irqAckBody_midway hq)⟩

/-! ## `PHY_STATUS` -/

/-- Settles O59: the word is the one the PHY gives at this command. -/
theorem phyStatusAnswersSomeWord : Obligations.PhyStatusAnswersSomeWord := by
  intro s hs hq
  refine ⟨Config.phyAnswer s.draws, exec_of_ok_midway (i := .phyStatus) (t := s.setDraws (s.draws + 1))
    (q := countQm (startCommand (encode .phyStatus) s).qm) hs (quiet_of_moves hq rfl) ?_⟩
  exact qmEmit_midway (t := s.setDraws (s.draws + 1)) (mid := []) (quiet_of_moves hq rfl) _ _

end Sys2Proof.Machine
end

section
/-! PROOFS. `ETH_NEW` up to its `RX_START`, with the reference allocator and room, RST stepping before QM's first read of
the wait (43_eth.md R230, R234; 20_memory.md R86): QM's turns while the transmit ring is made, the reset, the registers,
and the transmit ring started. -/

namespace Sys2Proof.Machine

/-! ## `TX_NEW`, QM's turns being due -/

section
variable {s t : State} {w : Word} {q : Option Qm} {mid : List Event} {ms : List Move} {bytes j n : Nat} {m : Memory}

theorem qmWrite_due (a v : Word) (next : State → Flow) :
    qmWrite a v ((t.setMoves (.qm :: ms)).midway w q mid) next =
      next (((t.setMem (t.mem.write32 a v)).setMoves ms).midway w (countQm q) mid) :=
  access_due (t := t.setMoves (.qm :: ms)) rfl _

theorem qmWrite_zeros_due (d : Word) (next : State → Flow) :
    (qmWrite (descWord d 0) 0 ((t.setMoves (.qm :: .qm :: .qm :: .qm :: ms)).midway w q mid) fun s =>
      qmWrite (descWord d 1) 0 s fun s => qmWrite (descWord d 2) 0 s fun s => qmWrite (descWord d 3) 0 s next) =
      next (((t.setMem (layZero t.mem d)).setMoves ms).midway w (countQm (countQm (countQm (countQm q)))) mid) := by
  rw [qmWrite_due, qmWrite_due, qmWrite_due, qmWrite_due, layZero]
  simp only [State.setMem_mem, State.setMem_setMem]

theorem txNewOne_due (h : TxLaid s (16 + bytes) j m) :
    ∃ q', txNewOne (((txLaid s j m).setMoves (.qm :: .qm :: .qm :: .qm :: ms)).midway w q mid) =
      .ok 0 0 (((txLaid s (j + 1) (layZero m (txFresh s j).desc)).setMoves ms).midway w q' mid) := by
  have halloc : alloc [] Config.descBytes
      (((txLaid s j m).setMoves (.qm :: .qm :: .qm :: .qm :: ms)).midway w q mid) =
      (some (txFresh s j).desc, (((txLaid s j m).setHeap { s.heap with brk := s.heap.brk + 16 * (j + 1) }).setMoves
        (.qm :: .qm :: .qm :: .qm :: ms)).midway w q mid) :=
    alloc_of_room (size := 16) (h.room.congr rfl rfl) (by unfold heapStep; omega) (by omega) (by simp)
  have hslots : (List.range (j + 1)).map (txFresh s) = (List.range j).map (txFresh s) ++ [txFresh s j] := by
    rw [List.range_succ, List.map_append]
    rfl
  refine ⟨countQm (countQm (countQm (countQm q))), ?_⟩
  rw [txNewOne, halloc]
  dsimp only
  rw [qmWrite_zeros_due, txLaid, txLaid, hslots]
  rfl

/-- So many descriptors, four of QM's turns for each of them (42_tx_ring.md R201). -/
theorem txNewSlots_due (h : TxLaid s (16 * n + bytes) j m) :
    ∃ q' m', txNewSlots n (((txLaid s j m).setMoves (List.replicate (4 * n) .qm ++ ms)).midway w q mid) =
        .ok 0 0 (((txLaid s (j + n) m').setMoves ms).midway w q' mid) ∧ TxLaid s bytes (j + n) m' := by
  induction n generalizing j m q with
  | zero =>
    rw [Nat.mul_zero, Nat.zero_add] at h
    exact ⟨q, m, rfl, h⟩
  | succ n ih =>
    rw [Nat.mul_succ, Nat.add_comm (16 * n), Nat.add_assoc] at h
    obtain ⟨q1, hone⟩ := txNewOne_due (w := w) (q := q) (mid := mid) (ms := List.replicate (4 * n) .qm ++ ms) h
    obtain ⟨q', m', hrest, hlaid⟩ := ih (q := q1) h.step
    rw [Nat.add_right_comm, Nat.add_assoc] at hrest hlaid
    refine ⟨q', m', ?_, hlaid⟩
    rw [txNewSlots, Nat.mul_succ]
    refine (congrArg (Flow.andThen · _) hone).trans ?_
    exact hrest

/-- `TX_NEW` of an unbuilt ring, QM's turns being due (R201). -/
theorem txNewBody_due (hc : s.tx.constructed = false) (hnil : s.tx.slots = [])
    (hroom : s.HasRoom (16 * s.par.txRingLen + bytes))
    (hm : s.moves = List.replicate (4 * s.par.txRingLen) .qm ++ ms) :
    ∃ q' m', txNewBody (s.midway w q mid) = .ok 0 0 (((txMade s m').setMoves ms).midway w q' mid) ∧
      TxLaid s bytes s.par.txRingLen m' := by
  obtain ⟨q', m', hmade, hlaid⟩ := txNewSlots_due (w := w) (q := q) (mid := mid) (ms := ms) (TxLaid.start hnil hroom)
  rw [Nat.zero_add] at hmade hlaid
  rw [txLaid_zero hnil, ← hm, State.setMoves_self] at hmade
  exact ⟨q', m', txNewBody_ok (s := s.midway w q mid) hc hnil hmade, hlaid⟩
end

/-! ## `TX_START` of a ring without Buffers -/

theorem map_emptied {p : TxSlot → Bool} {es : List TxSlot} (h : ∀ e ∈ es, e.buf = none) : es.map (emptied p) = es := by
  refine (List.map_congr_left fun e he => ?_).trans (List.map_id es)
  have hbuf := h e he
  obtain ⟨d, b⟩ := e
  obtain rfl : b = none := hbuf
  rw [emptied, ite_self]
  rfl

theorem releaseAll_of_none {p : TxSlot → Bool} {bt : List (Word × BufRec)} {es : List TxSlot}
    (h : ∀ e ∈ es, e.buf = none) : releaseAll p bt es = bt := by
  induction es with
  | nil => rfl
  | cons e es ih =>
    rw [releaseAll_cons, h e List.mem_cons_self]
    show releaseAll p (if p e then bt else bt) es = bt
    rw [ite_self]
    exact ih fun f hf => h f (List.mem_cons_of_mem _ hf)

/-- `TX_START` with nothing to release: memory and registers, and the flag (42_tx_ring.md R204, R205). -/
theorem txLaunched_of_none {s : State} (m : Memory) (h : ∀ e ∈ s.tx.slots, e.buf = none) :
    txLaunched m s = ((s.setMem m).setRegs
      { s.regs with dmatdlar := txHead s, dmaomr := s.regs.dmaomr ||| 0x00002000 }).setTx
      { s.tx with cur := 0, started := true } := by
  rw [txLaunched, reaped, releaseAll_of_none h, map_emptied h, List.append_nil]
  rfl

/-! ## `ETH_NEW` up to its `RX_START` -/

theorem mtu_range {p : Config.Params} (h : p.wf = true) : 1 ≤ p.mtu ∧ p.mtu ≤ Config.bufSizeMax := by
  simp only [Config.Params.wf, Bool.and_eq_true, decide_eq_true_eq] at h
  obtain ⟨⟨⟨⟨⟨⟨⟨⟨hmin, hmax⟩, _⟩, _⟩, _⟩, _⟩, _⟩, _⟩, _⟩ := h
  exact ⟨hmin, hmax⟩

/-- What a body that answers has come to. -/
theorem Flow.Runs.of_ok {o t : State} {w r0 r1 : Word} {resets : Bool} {ok : State → Prop} {f : Flow}
    (h : f.Runs o w resets ok) (heq : f = .ok r0 r1 t) : ok t := by
  subst heq
  exact h

theorem Flow.andThen_of_ok {t : State} {r0 r1 : Word} {f : Flow} (h : f = .ok r0 r1 t)
    (g : Word → Word → State → Flow) : f.andThen g = g r0 r1 t := by
  rw [h]
  rfl

theorem sound_midway {t : State} {w : Word} {q : Option Qm} {mid : List Event} (h : Sound (t.midway w q mid)) :
    Sound t :=
  ⟨h.wide, h.placed, h.buffer, h.size, hardwareInRange_congr (s := t.midway w q mid) rfl rfl rfl h.hardware⟩

/-- Room speaks of the parameters, the oracle and what is live alone. -/
theorem State.HasRoom.of_live {s t : State} {bytes : Nat} (h : s.HasRoom bytes) (hpar : t.par = s.par)
    (hheap : t.heap = s.heap) (hlive : liveRegions t = liveRegions s) : t.HasRoom bytes := by
  refine ⟨by rw [hheap]; exact h.reference, ?_, by rw [hheap]; exact h.aligned, by rw [hheap]; exact h.positive, ?_,
    by rw [hpar]; exact h.wide, by rw [hheap, hlive]; exact h.below⟩
  · rw [hpar, hheap]; exact h.base
  · rw [hpar, hheap]; exact h.fits

/-- The state after the `RX_NEW` of `ETH_NEW` (43_eth.md R230 step 1). -/
def ethRx (s : State) : State :=
  s.setRx { constructed := true, started := false, bufSize := s.par.mtu, slots := [], cur := 0 }

/-- The state in which `ETH_NEW`, issued in `s`, comes to its `RX_START`, with the memory `m` and the moves `ms` left
(R230 steps 1 to 4). -/
def ethTx (s : State) (ms : List Move) (m : Memory) : State :=
  let t := (ethRx s).setTx
    { constructed := true, started := true, slots := (List.range s.par.txRingLen).map (txFresh s), cur := 0 }
  let u := (t.setHeap { s.heap with brk := s.heap.brk + 16 * s.par.txRingLen }).cleared
  ((u.setRegs { initRegs s.par with dmatdlar := word s.heap.brk, dmaomr := 0x06200084 ||| 0x00002000 }).setMem m).setMoves ms

/-- The descriptors of the transmit ring once it is started, and the bytes outside them (42_tx_ring.md R201, R204). -/
structure EthTxLaid (s : State) (m : Memory) : Prop where
  init : ∀ i e, ((List.range s.par.txRingLen).map (txFresh s))[i]? = some e →
    TxInit m e.desc (decide (i + 1 = s.par.txRingLen))
      ((((List.range s.par.txRingLen).map (txFresh s))[i + 1]?.map (·.desc)).getD 0)
  frame : ∀ x, (∀ e ∈ (List.range s.par.txRingLen).map (txFresh s), ¬ inDesc e.desc x) → m.read x = s.mem.read x

section
variable {s : State} {n bytes : Nat} {ms : List Move} {m : Memory} {w : Word} {q : Option Qm}

theorem txFresh_buf (k : Nat) : ∀ e ∈ (List.range k).map (txFresh s), e.buf = none := fun e he => by
  obtain ⟨i, _, rfl⟩ := List.mem_map.mp he
  rfl

theorem txHead_eth {t : State} (hlen : 1 ≤ s.par.txRingLen)
    (h : t.tx.slots = (List.range s.par.txRingLen).map (txFresh s)) : txHead t = word s.heap.brk := by
  obtain ⟨k, hk⟩ : ∃ k, s.par.txRingLen = k + 1 := ⟨s.par.txRingLen - 1, by omega⟩
  rw [txHead_eq, h, hk, List.range_succ_eq_map]
  rfl

/-- The transmit ring of `ETH_NEW` after the reset and the registers. -/
theorem txLaunched_eth (hlen : 1 ≤ s.par.txRingLen) (m m' : Memory) (ns : List Move) :
    txLaunched m' ((((txMade (ethRx s) m).setMoves ns).afterRst ms).setRegs (initRegs s.par)) = ethTx s ms m' := by
  have hhead : txHead ((((txMade (ethRx s) m).setMoves ns).afterRst ms).setRegs (initRegs s.par)) =
      word s.heap.brk := txHead_eth hlen rfl
  rw [txLaunched_of_none m' (txFresh_buf s.par.txRingLen), hhead]
  rfl

/-- The bytes and the descriptors after `TX_START`, seen from the start of `ETH_NEW`. -/
theorem EthTxLaid.of_chained {t : State} (hlaid : TxLaid (ethRx s) bytes s.par.txRingLen m) {m' : Memory}
    (hslots : t.tx.slots = (List.range s.par.txRingLen).map (txFresh s)) (hmem : t.mem = m)
    (h : TxChained t t.tx.slots.length m') : EthTxLaid s m' := by
  have hlen : t.tx.slots.length = s.par.txRingLen := by rw [hslots, List.length_map, List.length_range]
  refine ⟨fun i e he => ?_, fun x hx => ?_⟩
  · rw [← hslots] at he ⊢
    rw [← hlen]
    exact h.init i e (List.getElem?_eq_some_iff.mp he).1 he
  · rw [h.frame x (hslots ▸ hx), hmem]
    exact hlaid.frame x fun i hi => hx _ (List.mem_map_of_mem (List.mem_range.mpr hi))

/-- `ETH_NEW` up to its reset: both rings are made (R230 steps 1 and 2). -/
theorem ethNewBody_makes (hwf : s.par.wf = true) (hrx : s.rx.constructed = false)
    (htx : s.tx.constructed = false) (hrxNil : s.rx.slots = []) (htxNil : s.tx.slots = []) (hmax : n ≤ s.par.maxRing)
    (hroom : s.HasRoom (16 * s.par.txRingLen + bytes))
    (hm : s.moves = List.replicate (4 * s.par.txRingLen + 1) .qm ++ .rst :: ms) (w : Word) :
    ∃ q m, let t := ((txMade (ethRx s) m).setMoves (.qm :: .rst :: ms)).midway w q []
      ethNewBody n (startCommand w s) = resetBody (afterResetNew n) t ∧ Run s w .closed t ∧
      TxLaid (ethRx s) bytes s.par.txRingLen m := by
  obtain ⟨hmin, hsize⟩ := mtu_range hwf
  have hrxNew : rxNewBody s.par.mtu (startCommand w s) = .ok 0 0 ((ethRx s).midway w (startCommand w s).qm []) :=
    rxNewBody_ok hrx hmin hsize
  have hroom1 : (ethRx s).HasRoom (16 * s.par.txRingLen + bytes) :=
    hroom.of_live rfl rfl (by simp [liveRegions, ethRx, hrxNil])
  have hmoves : (ethRx s).moves = List.replicate (4 * s.par.txRingLen) .qm ++ .qm :: .rst :: ms := by
    show s.moves = _
    rw [hm, List.replicate_succ', List.append_assoc]
    rfl
  obtain ⟨q, m, htxNew, hlaid⟩ := txNewBody_due (s := ethRx s) (w := w) (q := (startCommand w s).qm) (mid := [])
    htx htxNil hroom1 hmoves
  have hstart : Run s w .closed (startCommand w s) := Run.startCommand s s.moves w
  have hmade := Flow.Runs.of_ok (hstart.rxNewBody (resets := true) s.par.mtu) hrxNew
  refine ⟨q, m, ?_, Flow.Runs.of_ok (hmade.txNewBody (resets := true)) htxNew, hlaid⟩
  rw [ethNewBody, if_neg (by exact hmax.not_gt)]
  exact (Flow.andThen_of_ok hrxNew _).trans (Flow.andThen_of_ok htxNew _)

/-- `ETH_NEW` from its reset up to its `RX_START` (R230 steps 3 and 4). -/
theorem resetBody_brings_up {m : Memory} (ho : Origin s) (hlen : 1 ≤ s.par.txRingLen)
    (hlaid : TxLaid (ethRx s) bytes s.par.txRingLen m) (hq : (s.setMoves ms).quiet = true)
    (hrun : Run s w .closed (((txMade (ethRx s) m).setMoves (.qm :: .rst :: ms)).midway w q [])) :
    ∃ q' m', let v := (ethTx s ms m').midway w q' (irqFalls s ++ [.phyReset, .phySetAutoneg])
      resetBody (afterResetNew n) (((txMade (ethRx s) m).setMoves (.qm :: .rst :: ms)).midway w q []) =
        (if 0 < n then rxStartBody n v else .ok 0 0 v).andThen (fun _ _ s => .ok (word s.rx.slots.length) 0 s) ∧
      Run s w .closed v ∧ EthTxLaid s m' := by
  obtain ⟨q1, hreset⟩ := resetBody_midway (t := (txMade (ethRx s) m).setMoves (.qm :: .rst :: ms)) (w := w) (q := q)
    (mid := []) rfl (quiet_of_moves hq rfl)
  have hreset1 := Flow.Runs.of_ok
    (Run.resetBody (ok := Run s w .closed) (rest := fun t => .ok 0 0 t) hrun rfl fun _ h => h) (hreset _)
  have hquiet : (((txMade (ethRx s) m).setMoves (.qm :: .rst :: ms)).afterRst ms).quiet = true :=
    quiet_afterRst (quiet_of_moves hq rfl)
  obtain ⟨q2, hinit⟩ := afterResetInit_midway (w := w) (q := q1) (mid := irqFalls s) hquiet
  rw [afterRst_setRegs, afterRst_par] at hinit
  have hrun2 := Flow.Runs.of_ok (Run.afterResetInit (resets := true) hreset1) hinit
  obtain ⟨q3, m', htxStart, hchain⟩ := txStartBody_midway (w := w) (q := q2)
    (mid := irqFalls s ++ [.phyReset, .phySetAutoneg]) (sound_midway (hrun2.sound ho)) (quiet_of_moves hquiet rfl) rfl rfl
  have hpar : ((txMade (ethRx s) m).setMoves (.qm :: .rst :: ms)).par = s.par := rfl
  rw [hpar] at hinit hrun2 htxStart hchain
  rw [txLaunched_eth hlen] at htxStart
  have hrun3 := Flow.Runs.of_ok (Run.txStartBody (resets := true) hrun2) htxStart
  refine ⟨q3, m', ?_, hrun3, .of_chained hlaid rfl rfl hchain⟩
  rw [hreset, afterResetNew]
  exact (Flow.andThen_of_ok hinit _).trans (Flow.andThen_of_ok htxStart _)

/-- `ETH_NEW` up to its `RX_START`, and what it goes on with (R230). -/
theorem ethNewBody_brings_up (ho : Origin s) (hwf : s.par.wf = true) (hrx : s.rx.constructed = false)
    (htx : s.tx.constructed = false) (hrxNil : s.rx.slots = []) (htxNil : s.tx.slots = []) (hmax : n ≤ s.par.maxRing)
    (hroom : s.HasRoom (16 * s.par.txRingLen + bytes))
    (hm : s.moves = List.replicate (4 * s.par.txRingLen + 1) .qm ++ .rst :: ms) (hq : (s.setMoves ms).quiet = true)
    (w : Word) :
    ∃ q m, let v := (ethTx s ms m).midway w q (irqFalls s ++ [.phyReset, .phySetAutoneg])
      ethNewBody n (startCommand w s) =
        (if 0 < n then rxStartBody n v else .ok 0 0 v).andThen (fun _ _ s => .ok (word s.rx.slots.length) 0 s) ∧
      Run s w .closed v ∧ (ethTx s ms m).HasRoom bytes ∧ EthTxLaid s m := by
  obtain ⟨q, m, hmade, hrun, hlaid⟩ := ethNewBody_makes hwf hrx htx hrxNil htxNil hmax hroom hm w
  obtain ⟨q', m', hbody, hrun', hdescs⟩ := resetBody_brings_up (n := n) ho (txRingLen_pos hwf) hlaid hq hrun
  refine ⟨q', m', hmade.trans hbody, hrun', hlaid.room.of_live rfl ?_ rfl, hdescs⟩
  rfl
end

end Sys2Proof.Machine
end

section
/-! PROOFS. `ETH_NEW` to its end, with the reference allocator and room, RST stepping before QM's first read of the wait
(43_eth.md R230): its `RX_START`, where it has one, and the two rings it leaves. -/

namespace Sys2Proof.Machine

/-! ## The descriptors of the transmit ring under `RX_START` -/

theorem DescAt.has_of_inDesc {d x : Word} (h : DescAt d) (hx : inDesc d x) : (descRegion d).has x := by
  obtain ⟨k, hk, j, hj, rfl⟩ := inDesc_iff.mp hx
  have hbyte := h.toNat_byte hk hj
  simp only [Region.has, descRegion, Config.descBytes]
  omega

/-- Memories that agree on the bytes of a descriptor agree on its words. -/
theorem sameDesc_of_bytes {d : Word} {m m' : Memory} (h : ∀ x, inDesc d x → m'.read x = m.read x) : SameDesc d m m' := by
  intro k hk
  have hbyte {j : Nat} (hj : j < 4) : m'.read (descWord d k + word j) = m.read (descWord d k + word j) :=
    h _ (inDesc_iff.mpr ⟨k, hk, j, hj, rfl⟩)
  have h0 : m'.read (descWord d k) = m.read (descWord d k) := by simpa [word] using hbyte (j := 0) (by decide)
  have h1 : m'.read (descWord d k + 1) = m.read (descWord d k + 1) := hbyte (by decide)
  have h2 : m'.read (descWord d k + 2) = m.read (descWord d k + 2) := hbyte (by decide)
  have h3 : m'.read (descWord d k + 3) = m.read (descWord d k + 3) := hbyte (by decide)
  rw [Memory.read32, Memory.read32, h0, h1, h2, h3]

/-- Where the bytes outside the receive descriptors stay, the transmit descriptors do (10_state.md R63). -/
theorem Sound.txSameDesc {s : State} {e : TxSlot} {m m' : Memory} (hs : Sound s) (he : e ∈ s.tx.slots)
    (h : ∀ x, (∀ f ∈ s.rx.slots, ¬ inDesc f.desc x) → m'.read x = m.read x) : SameDesc e.desc m m' := by
  refine sameDesc_of_bytes fun x hx => h x fun f hf hin => ?_
  have hapart := region_disjoint_iff.mp (hs.placed.rx_tx_apart hf he)
  obtain ⟨hlow, hhigh⟩ := (hs.rxDesc hf).has_of_inDesc hin
  obtain ⟨hlow', hhigh'⟩ := (hs.txDesc he).has_of_inDesc hx
  omega

/-! ## `RX_START` inside `ETH_NEW` -/

/-- The `j`-th entry of the receive ring of `ETH_NEW`, issued in `s` (R230, 20_memory.md R86). -/
def ethRxSlot (s : State) (j : Nat) : RxSlot :=
  { desc := word (s.heap.brk + 16 * s.par.txRingLen + j * (16 + heapStep s.par.mtu))
    buf := word (s.heap.brk + 16 * s.par.txRingLen + j * (16 + heapStep s.par.mtu) + 16) }

/-- The state that `ETH_NEW n`, issued in `s`, has come to, with this Buffer table, the memory `m` and the moves `ms`
left (R230). -/
def ethDone (s : State) (ms : List Move) (n : Nat) (bt : List (Word × BufRec)) (m : Memory) : State :=
  ((((ethTx s ms m).setRx
    { constructed := true, started := decide (0 < n), bufSize := s.par.mtu,
      slots := (List.range n).map (ethRxSlot s), cur := 0 }).setBt bt).setHeap
    { s.heap with brk := s.heap.brk + 16 * s.par.txRingLen + n * (16 + heapStep s.par.mtu) }).setRegs
    { initRegs s.par with
      dmatdlar := word s.heap.brk
      dmaomr := if 0 < n then 0x06202086 else 0x06202084
      dmardlar := if 0 < n then word (s.heap.brk + 16 * s.par.txRingLen) else 0 }

/-- The receive ring of `ETH_NEW n`, issued in `s`, with its Buffers, in the memory `m'` after `RX_START` on the memory
`m` (41_rx_ring.md R173 to R177). -/
structure EthRxBuilt (s : State) (n : Nat) (bt : List (Word × BufRec)) (m m' : Memory) : Prop where
  record : ∀ j < n, btFind bt (ethRxSlot s j).buf = some { cap := s.par.mtu, len := 0, owner := .rxSlot j }
  other : ∀ a, (∀ j < n, (ethRxSlot s j).buf ≠ a) → btFind bt a = btFind s.bt a
  words : ∀ j e, ((List.range n).map (ethRxSlot s))[j]? = some e →
    m'.read32 (descWord e.desc 0) = 0x80000000 ∧
    m'.read32 (descWord e.desc 1) =
      (if j + 1 = n then 0x0000C000 ||| word s.par.mtu else 0x00004000 ||| word s.par.mtu) ∧
    m'.read32 (descWord e.desc 2) = e.buf ∧
    m'.read32 (descWord e.desc 3) = ((((List.range n).map (ethRxSlot s))[j + 1]?.map (·.desc)).getD 0) ∧
    some (rxHop m' (word (s.heap.brk + 16 * s.par.txRingLen)) e.desc) =
      (((List.range n).map (ethRxSlot s))[(j + 1) % n]?.map (·.desc))
  frame : ∀ x, (∀ e ∈ (List.range n).map (ethRxSlot s), ¬ inDesc e.desc x) → m'.read x = m.read x
  txSame : ∀ e ∈ (List.range s.par.txRingLen).map (txFresh s), SameDesc e.desc m m'

section
variable {s : State} {n : Nat} {ms : List Move} {m : Memory} {w : Word} {q : Option Qm} {mid : List Event}

theorem ethTx_bt (s : State) (ms : List Move) (m : Memory) : (ethTx s ms m).bt = s.bt := by
  simp [ethTx, ethRx, State.cleared]

theorem ethRxBuilt_zero (s : State) (m : Memory) : EthRxBuilt s 0 s.bt m m :=
  ⟨nofun, fun _ _ => rfl, nofun, fun _ _ => rfl, fun _ _ => sameDesc_refl _ _⟩

theorem ethDone_zero (s : State) (ms : List Move) (m : Memory) : ethDone s ms 0 s.bt m = ethTx s ms m := by
  rw [ethDone, Nat.zero_mul]
  rfl

theorem polledRx_of_stopped {s : State} (h : s.rxw.ps = 0) : polledRx s = s.rxw :=
  if_neg fun hc => absurd (h.symm.trans hc.2) (by decide)

theorem rxHead_eth {t : State} (h : t.rx.slots = (List.range n).map (ethRxSlot s)) (hn : 0 < n) :
    rxHead t = word (s.heap.brk + 16 * s.par.txRingLen) := by
  obtain ⟨k, rfl⟩ : ∃ k, n = k + 1 := ⟨n - 1, by omega⟩
  rw [rxHead_eq, h, List.range_succ_eq_map]
  simp [ethRxSlot]

/-- The state in which the receive ring of `ETH_NEW` stands registered. -/
theorem rxRegistered_eth {p : Option Qm} {bt : List (Word × BufRec)} {b m' : Memory} (hn : 0 < n) :
    rxRegistered p m' (regrown ((ethTx s ms m).midway w q mid) n q bt b) =
      (ethDone s ms n bt m').midway w p mid := by
  have hhead : rxHead (regrown ((ethTx s ms m).midway w q mid) n q bt b) =
      word (s.heap.brk + 16 * s.par.txRingLen) := rxHead_eth rfl hn
  have homr : (0x06202086 : Word) = 0x06200084 ||| 0x00002000 ||| 0x00000002 := rfl
  rw [rxRegistered, hhead, polledRx_of_stopped rfl, ethDone, if_pos hn, if_pos hn, decide_eq_true hn, homr]
  rfl

theorem rxStartBody_eth (ho : Origin s) (hrun : Run s w .closed ((ethTx s ms m).midway w q mid))
    (hroom : (ethTx s ms m).HasRoom (n * (16 + heapStep s.par.mtu))) (hq : (s.setMoves ms).quiet = true)
    (hmax : n ≤ s.par.maxRing) (hn : 0 < n) :
    ∃ q' bt m', rxStartBody n ((ethTx s ms m).midway w q mid) =
      .ok (word n) 0 ((ethDone s ms n bt m').midway w q' mid) ∧ EthRxBuilt s n bt m m' := by
  obtain ⟨q', m', u, N, hbody, hu, hm⟩ := rxStartBody_quiet (n := n) ho hrun (quiet_of_moves hq rfl) rfl hmax
    (Nat.lt_of_lt_of_le hn (Nat.le_max_left ..)) fun _ => hroom.congr rfl rfl
  change Regrown s w N _ 0 n u at hu
  have hslots : u.rx.slots = (List.range n).map (ethRxSlot s) := hu.slots
  have hlen : u.rx.slots.length = n := by rw [hslots, List.length_map, List.length_range]
  have hhead : rxHead u = word (s.heap.brk + 16 * s.par.txRingLen) := rxHead_eth hslots hn
  have hdone : rxRegistered q' m' u = (ethDone s ms n u.bt m').midway w q' mid := by
    obtain ⟨p, bt, b, rfl⟩ := hu.form
    exact rxRegistered_eth hn
  have hsound := hu.grow.run.sound ho
  have hframe : ∀ x, (∀ e ∈ u.rx.slots, ¬ inDesc e.desc x) → m'.read x = m.read x := fun x hx =>
    (hm.frame x hx).trans (hu.frame x (hu.slots ▸ hx))
  have htx : u.tx.slots = (List.range s.par.txRingLen).map (txFresh s) := by
    obtain ⟨p, bt, b, rfl⟩ := hu.form
    rfl
  rw [hlen, hdone] at hbody
  have hfresh (j : Nat) : freshSlot ((ethTx s ms m).midway w q mid) j = ethRxSlot s j := rfl
  have hrec (j : Nat) : freshRec ((ethTx s ms m).midway w q mid) j =
      { cap := s.par.mtu, len := 0, owner := .rxSlot j } := by
    show BufRec.mk _ _ (.rxSlot (0 + j)) = _
    rw [Nat.zero_add]
    rfl
  refine ⟨q', u.bt, m', hbody, fun j hj => ?_, fun a ha => ?_, fun j e he => ?_, hslots ▸ hframe,
    fun e he => hsound.txSameDesc (htx ▸ he) hframe⟩
  · rw [← hfresh, ← hrec]
    exact hu.bufs j hj
  · have hbt : ((ethTx s ms m).midway w q mid).bt = s.bt := ethTx_bt s ms m
    rw [hu.bufOther a fun j hj => (hfresh j).symm ▸ ha j hj, hbt]
  · have hgrown : grownSlots ((ethTx s ms m).midway w q mid) n = (List.range n).map (ethRxSlot s) :=
      hu.slots.symm.trans hslots
    obtain ⟨hnext, hctrl, _, hnew, hhop⟩ := hu.words ho hm (i := j) (e := e) (hgrown ▸ he)
    obtain ⟨hown, hbuf⟩ := hnew (Nat.zero_le j)
    rw [hgrown] at hnext hctrl hhop
    rw [List.length_map, List.length_range] at hctrl hhop
    rw [hhead] at hhop
    exact ⟨hown, hctrl, hbuf, hnext, hhop⟩

/-- The body of `ETH_NEW n` to its end (R230). -/
theorem ethNewBody_ok {bytes : Nat} (hbytes : bytes = n * (16 + heapStep s.par.mtu)) (hs : s.ready) (hr : s.InRange)
    (hown : s.Owned) (hrx : s.rx.constructed = false) (htx : s.tx.constructed = false) (hmax : n ≤ s.par.maxRing)
    (hroom : s.HasRoom (16 * s.par.txRingLen + bytes))
    (hm : s.moves = List.replicate (4 * s.par.txRingLen + 1) .qm ++ .rst :: ms) (hq : (s.setMoves ms).quiet = true)
    (w : Word) :
    ∃ q bt m m', ethNewBody n (startCommand w s) = .ok (word n) 0
        ((ethDone s ms n bt m').midway w q (irqFalls s ++ [.phyReset, .phySetAutoneg])) ∧
      Sound (ethTx s ms m) ∧ EthTxLaid s m ∧ EthRxBuilt s n bt m m' := by
  subst hbytes
  have ho : Origin s := origin_of_invariants hr hown hs.2 (starved_of_none hs.1)
  have htxNil : s.tx.slots = [] := by
    obtain ⟨_, hnil | hfault | hstarved⟩ := hr.txUnmade htx
    · exact hnil
    · exact absurd hs.2 hfault
    · rw [starved_of_none hs.1] at hstarved
      cases hstarved
  obtain ⟨q, m, hbody, hrun, hleft, hdescs⟩ := ethNewBody_brings_up (n := n) ho hr.par hrx htx (hr.rxUnmade hrx) htxNil
    hmax hroom hm hq w
  have hsound := sound_midway (hrun.sound ho)
  rcases Nat.eq_zero_or_pos n with rfl | hn
  · refine ⟨q, s.bt, m, m, ?_, hsound, hdescs, ethRxBuilt_zero s m⟩
    rw [ethDone_zero]
    exact hbody
  · obtain ⟨q', bt, m', hstart, hbuilt⟩ := rxStartBody_eth ho hrun hleft hq hmax hn
    refine ⟨q', bt, m, m', ?_, hsound, hdescs, hbuilt⟩
    have hlen : ((ethDone s ms n bt m').midway w q' (irqFalls s ++ [.phyReset, .phySetAutoneg])).rx.slots.length = n :=
      (List.length_map ..).trans List.length_range
    rw [hbody, if_pos hn, Flow.andThen_of_ok hstart, hlen]

/-- The transmit ring that `ETH_NEW` leaves (R204, R230, 44_walker.md R261). -/
theorem EthTxLaid.words {bt : List (Word × BufRec)} {m m' : Memory} (hlen : 1 ≤ s.par.txRingLen)
    (hsound : Sound (ethTx s ms m)) (hlaid : EthTxLaid s m) (hbuilt : EthRxBuilt s n bt m m') {i : Nat} {e : TxSlot}
    (he : ((List.range s.par.txRingLen).map (txFresh s))[i]? = some e) :
    TxInit m' e.desc (decide (i + 1 = s.par.txRingLen))
        ((((List.range s.par.txRingLen).map (txFresh s))[i + 1]?.map (·.desc)).getD 0) ∧
      some (txHop m' (word s.heap.brk) e.desc) =
        (((List.range s.par.txRingLen).map (txFresh s))[(i + 1) % s.par.txRingLen]?.map (·.desc)) := by
  have hinit := (hlaid.init i e he).same (hbuilt.txSame e (List.mem_of_getElem? he))
  refine ⟨hinit, ?_⟩
  have hslots : (ethTx s ms m).tx.slots = (List.range s.par.txRingLen).map (txFresh s) := rfl
  have hhop := txHop_of_init (i := i) (e := e) (m := m') hsound (hslots ▸ he)
  rw [txNext, hslots, List.length_map, List.length_range, txHead_eth hlen hslots] at hhop
  exact hhop hinit
end

theorem getElem?_ethRxSlot {s : State} {n j : Nat} {e : RxSlot} (he : ((List.range n).map (ethRxSlot s))[j]? = some e) :
    j < n ∧ e = ethRxSlot s j := getElem?_fresh (s := ethTx s s.moves s.mem) he

section
variable (t : State) (w : Word) (c : Code) (r0 r1 : Word) (mid : List Event)
theorem answered_fault : (t.answered w c r0 r1 mid).port.fault = t.port.fault := rfl
theorem answered_a0 : (t.answered w c r0 r1 mid).port.a0 = t.port.a0 := rfl
theorem answered_nvic : (t.answered w c r0 r1 mid).nvic = t.nvic := rfl
theorem answered_par : (t.answered w c r0 r1 mid).par = t.par := rfl
theorem answered_moves : (t.answered w c r0 r1 mid).moves = t.moves := rfl
theorem answered_regs : (t.answered w c r0 r1 mid).regs = t.regs := rfl
theorem answered_hist : (t.answered w c r0 r1 mid).hist =
    t.hist ++ [.cmd w t.port.a0] ++ mid ++ [.res c.byte r0 r1] := rfl
end

section
variable (s : State) (ms : List Move) (n : Nat) (bt : List (Word × BufRec)) (m : Memory)
theorem ethDone_moves : (ethDone s ms n bt m).moves = ms := by simp [ethDone, ethTx]
theorem ethDone_dmardlar : (ethDone s ms n bt m).regs.dmardlar =
    if 0 < n then word (s.heap.brk + 16 * s.par.txRingLen) else 0 := rfl
theorem ethDone_port : (ethDone s ms n bt m).port = s.port := by simp [ethDone, ethTx, ethRx, State.cleared]
theorem ethDone_hist : (ethDone s ms n bt m).hist = s.hist := by simp [ethDone, ethTx, ethRx, State.cleared]
theorem ethDone_nvic : (ethDone s ms n bt m).nvic = s.nvic := by simp [ethDone, ethTx, ethRx, State.cleared]
theorem ethDone_par : (ethDone s ms n bt m).par = s.par := by simp [ethDone, ethTx, ethRx, State.cleared]
end

/-- Settles O57: the command up to its `RX_START`, and that on the state it comes to. -/
theorem ethNewBringsUp : Obligations.EthNewBringsUp := by
  intro n s ms hs hr hown hrx htx hmax p len stride hroom hm hq txSlots rxSlots
  obtain ⟨q, bt, m, m', hbody, hsound, hlaid, hbuilt⟩ :=
    ethNewBody_ok rfl hs hr hown hrx htx hmax hroom hm hq (encode (.ethNew n))
  have hquiet : (ethDone s ms n bt m').quiet = true := quiet_of_moves hq (ethDone_moves ..)
  have hbody : commandBody (.ethNew n) (startCommand (encode (.ethNew n)) s) = _ := hbody
  have hexec := exec_of_ok_midway hs hquiet hbody
  refine ⟨_, hexec, ⟨rfl, rfl, rfl, rfl⟩, rfl, rfl, rfl, rfl, rfl, ?_, ?_, ?_, ?_, ?_, ?_, rfl, fun j e he => ?_,
    fun a ha => hbuilt.other a fun j hj => ha _ (List.mem_map_of_mem (List.mem_range.mpr hj)), fun i e he => ?_,
    fun j e he => ?_, fun x htx hrx => (hbuilt.frame x hrx).trans (hlaid.frame x htx)⟩
  · rw [answered_fault, ethDone_port]
    exact hs.2
  · rw [answered_a0, ethDone_port]
  · rw [answered_nvic, ethDone_nvic]
  · rw [answered_par, ethDone_par]
  · rw [answered_moves, ethDone_moves]
  · rw [answered_hist, ethDone_hist, ethDone_port]
    simp only [List.append_assoc]
  · obtain ⟨hj, rfl⟩ := getElem?_ethRxSlot he
    exact hbuilt.record j hj
  · obtain ⟨hinit, hhop⟩ := hlaid.words (txRingLen_pos hr.par) hsound hbuilt he
    exact ⟨hinit.status.trans (txIdleWord_eq _), hinit.ctrl, hinit.buf, hinit.next, hhop⟩
  · have hn : 0 < n := Nat.zero_lt_of_lt (getElem?_ethRxSlot he).1
    obtain ⟨hown, hctrl, hbuf, hnext, hhop⟩ := hbuilt.words j e he
    refine ⟨hown, hctrl, hbuf, hnext, ?_⟩
    rw [answered_regs, ethDone_dmardlar, if_pos hn]
    exact hhop

end Sys2Proof.Machine
end

section
/-! PROOFS. The reset wait under any schedule on which QM makes progress (43_eth.md R232, R233; 60_exceptions.md R311;
70_reset_and_hazards.md R356 to R358, R372): what the moves of the others leave while a reset is pending and after RST has
completed it, and how `DMA_RESET` ends, or hangs. -/

namespace Sys2Proof.Machine

/-! ## While a reset is pending -/

section
variable {s : State} {m : Move} {ms : List Move}

/-- While a reset is pending no agent but RST touches a register (R356). -/
theorem regs_applyMove_of_pending (h : s.regs.resetPending = true) (hm : m ≠ .rst) : (applyMove m s).regs = s.regs := by
  cases m with
  | qm | untilIdle | starve => rfl
  | rxw => rw [applyMove, rxwStep, if_pos h]
  | txw => rw [applyMove, txwStep, if_pos h]
  | macRx bytes err => rw [applyMove, macRxOffer, if_neg fun hc => hc.1 h]
  | rst => exact absurd rfl hm
  | portWrite addr v =>
    rw [applyMove, portWriteBusy]
    split <;> rfl
  | poke addr v =>
    rw [applyMove, hostPoke]
    split <;> rfl

theorem qm_applyMove (m : Move) (s : State) : (applyMove m s).qm = s.qm := congrArg QmView.qm (qmView_applyMove m s)

theorem par_applyMove (m : Move) (s : State) : (applyMove m s).par = s.par := congrArg QmView.par (qmView_applyMove m s)

/-- A read of `SR` = 1, with no bound (43_eth.md R232). -/
theorem poll_of_pending (h : s.regs.resetPending = true) (hb : s.par.resetBound = none) :
    poll s = .pending (countPoll (countAccess s)) := by
  have hbound : (countPoll (countAccess s)).par.resetBound = none := hb
  unfold poll
  rw [if_pos (by exact h)]
  dsimp only
  rw [hbound]

/-- The read of `SR` = 1 that reaches the bound (R233). -/
theorem poll_of_bound {k : Nat} {q : Qm} (h : s.regs.resetPending = true) (hb : s.par.resetBound = some k)
    (hq : s.qm = some q) (hk : k ≤ q.polls + 1) : poll s = .hang (countPoll (countAccess s)) := by
  have hbound : (countPoll (countAccess s)).par.resetBound = some k := hb
  have hcount : pollCount (countPoll (countAccess s)) = q.polls + 1 := by
    simp [pollCount, countPoll, countAccess, hq]
  unfold poll
  rw [if_pos (by exact h)]
  dsimp only
  rw [hbound]
  exact if_pos (hcount ▸ hk)

/-! ## The wait that does not end -/

/-- QM is in the reset wait of `DMA_RESET`, and the reset is pending (R358). -/
structure State.Waits (s : State) : Prop where
  busy : ∃ q, s.qm = some q ∧ q.starved = false ∧ decode q.cmd = .ok .dmaReset
  pending : s.regs.resetPending = true

theorem State.Waits.mapQm (h : s.Waits) {f : Qm → Qm} (hs : ∀ q, (f q).starved = q.starved)
    (hc : ∀ q, (f q).cmd = q.cmd) : (s.setQm (s.qm.map f)).Waits := by
  obtain ⟨q, hq, hstarved, hcmd⟩ := h.busy
  exact ⟨⟨f q, by simp [hq], (hs q).trans hstarved, by rw [hc, hcmd]⟩, h.pending⟩

theorem State.Waits.applyMove (h : s.Waits) (hm : m ≠ .rst) : (applyMove m s).Waits :=
  ⟨(qm_applyMove m s).symm ▸ h.busy, by rw [regs_applyMove_of_pending h.pending hm]; exact h.pending⟩

theorem State.Waits.polled (h : s.Waits) : (countPoll (countAccess s)).Waits :=
  (h.mapQm (f := fun q => { q with pc := q.pc + 1 }) (fun _ => rfl) fun _ => rfl).mapQm (fun _ => rfl) fun _ => rfl

/-- Without a step of RST, and with no bound, the wait goes on (R232, R358). -/
theorem State.Waits.resetWait (h : s.Waits) (hb : s.par.resetBound = none) (hrst : .rst ∉ ms) (hstarve : .starve ∉ ms) :
    ∃ t, resetWait ms s = .pending t ∧ t.Waits ∧ ∀ m ∈ t.moves, m ∈ ms := by
  have hpoll {s : State} (ns : List Move) (h : s.Waits) (hb : s.par.resetBound = none) :
      poll (s.setMoves ns) = .pending (countPoll (countAccess (s.setMoves ns))) ∧
        (countPoll (countAccess (s.setMoves ns))).Waits :=
    have hmoved : (s.setMoves ns).Waits := ⟨h.busy, h.pending⟩
    ⟨poll_of_pending h.pending hb, hmoved.polled⟩
  induction ms generalizing s with
  | nil => exact ⟨_, (hpoll [] h hb).1, (hpoll [] h hb).2, fun _ hm => hm⟩
  | cons m ms ih =>
    simp only [List.mem_cons, not_or] at hrst hstarve
    have hnext {t : State} (ht : t.Waits) (hbt : t.par.resetBound = none) :
        ∃ u, Machine.resetWait ms t = .pending u ∧ u.Waits ∧ ∀ m' ∈ u.moves, m' ∈ m :: ms := by
      obtain ⟨u, hu, hw, hmem⟩ := ih ht hbt hrst.2 hstarve.2
      exact ⟨u, hu, hw, fun m' hm' => List.mem_cons_of_mem _ (hmem m' hm')⟩
    cases m with
    | qm =>
      obtain ⟨hp, hw⟩ := hpoll ms h hb
      rw [Machine.resetWait, hp]
      exact hnext hw hb
    | untilIdle => exact ⟨_, (hpoll _ h hb).1, (hpoll _ h hb).2, fun _ hm => hm⟩
    | starve => exact absurd rfl hstarve.1
    | rst => exact absurd rfl hrst.1
    | rxw | macRx | txw | portWrite | poke =>
      exact hnext (h.applyMove nofun) (by rw [par_applyMove]; exact hb)
end

/-! ## QM's write of `SR` -/

/-- The wait of `DMA_RESET`, from the state in which `SR` has been written (R232). -/
theorem dmaResetBody_of_turn {s t : State} (ht : yield s = .due t) :
    dmaResetBody s = waitThen afterReset ((countAccess t).setRegs t.regs.asked) := by
  rw [dmaResetBody, resetBody, qmRegField, access, atTurn, ht]
  rfl

theorem step_of_waits {s : State} (h : s.Waits) : step s = .next (waitThen afterReset s).conclude := by
  obtain ⟨q, hq, hstarved, hcmd⟩ := h.busy
  exact step_eq_next_iff.mpr (.resumed hq hstarved hcmd rfl)

theorem waits_asked {s t : State} (hv : qmView t = qmView (startCommand (encode .dmaReset) s)) :
    ((countAccess t).setRegs t.regs.asked).Waits := by
  have hqm : t.qm = (startCommand (encode .dmaReset) s).qm := congrArg QmView.qm hv
  have hdecode : decode (encode .dmaReset) = .ok .dmaReset := rfl
  exact ⟨⟨{ cmd := encode .dmaReset, arg := s.port.a0, pc := 1, polls := 0, starved := false },
    by simp [countAccess, hqm, startCommand, emit], rfl, hdecode⟩, resetPending_asked t.regs⟩

/-- What `DMA_RESET` comes to when QM's turn is due: its wait, from the state in which `SR` has been written. -/
theorem exec_dmaReset_of_turn {s t : State} (hs : s.ready)
    (ht : yield (startCommand (encode .dmaReset) s) = .due t) :
    exec .dmaReset s = .next (waitThen afterReset ((countAccess t).setRegs t.regs.asked)).conclude := by
  rw [exec_idle hs.1, runCommand_of_ready hs.2]
  exact congrArg (fun f : Flow => Host.Outcome.next f.conclude) (dmaResetBody_of_turn ht)

/-- The fatal end of the wait when the others hold still. -/
theorem waitThen_of_bound {s : State} {k : Nat} {q : Qm} {rest : State → Flow} (hp : s.regs.resetPending = true)
    (hb : s.par.resetBound = some k) (hquiet : s.quiet = true) (hq : s.qm = some q) (hk : k ≤ q.polls + 1) :
    (waitThen rest s).conclude = raise .hardwareInitHang (countPoll (countAccess s)) := by
  have hpoll : resetWait s.moves s = .hang (countPoll (countAccess s)) :=
    (resetWait_quiet (ms := s.moves) hquiet).trans (poll_of_bound hp hb hq hk)
  have hend : (countPoll (countAccess s)).quiet = true := quiet_of_moves hquiet rfl
  rw [waitThen_hang hpoll, conclude_fatal_quiet hend]

/-- Settles O55: no move but RST's clears `SR`, so every read of QM's finds it set. -/
theorem resetWaitHangs : Obligations.ResetWaitHangs := by
  unfold Obligations.ResetWaitHangs
  intro stuck
  have hstuck {s : State} (hw : s.Waits) (hb : s.par.resetBound = none) (hrst : .rst ∉ s.moves)
      (hstarve : .starve ∉ s.moves) : ∃ t, (waitThen afterReset s).conclude = t ∧ stuck t := by
    obtain ⟨t, ht, hwaits, hmem⟩ := hw.resetWait hb hrst hstarve
    exact ⟨t, by rw [waitThen_pending ht]; rfl,
      hwaits.busy, hwaits.pending, fun hm => hrst (hmem _ hm), fun hm => hstarve (hmem _ hm)⟩
  refine ⟨fun s hs hb hrst hstarve => ?_, fun s hb ⟨hbusy, hp, hrst, hstarve⟩ => ?_,
    fun s q k hb ⟨hbusy, hp, _, _⟩ hquiet hq hk => ?_⟩
  · rcases runMoves_cases s.moves (startCommand (encode .dmaReset) s) with ⟨t, ht, ⟨hview, _⟩, hmem⟩ | ⟨_, _, _, hmem⟩
    · have hpar : t.par = s.par := congrArg QmView.par hview
      obtain ⟨u, hu, hu'⟩ := hstuck (waits_asked hview) (hpar ▸ hb) (fun hm => hrst (hmem _ hm))
        fun hm => hstarve (hmem _ hm)
      exact ⟨u, by rw [exec_dmaReset_of_turn hs ht, hu], hu'⟩
    · exact absurd hmem hstarve
  · obtain ⟨u, hu, hu'⟩ := hstuck ⟨hbusy, hp⟩ hb hrst hstarve
    exact ⟨u, by rw [step_of_waits ⟨hbusy, hp⟩, hu], hu'⟩
  · exact ⟨_, step_of_waits ⟨hbusy, hp⟩, waitThen_of_bound hp hb hquiet hq hk ▸ ⟨rfl, ⟨rfl, rfl, rfl, rfl⟩, hp⟩⟩

/-! ## After RST's step -/

/-- The registers are cleared and both walkers are stopped, as RST leaves them (70_reset_and_hazards.md R357). -/
def State.Rested (s : State) : Prop := s.regs = zeroRegs ∧ s.rxw.ps = 0 ∧ s.txw.ps = 0

section
variable {s : State} {ms before between after : List Move}

theorem rested_rstStep (h : s.regs.resetPending = true) : (rstStep s).Rested := by
  rw [rstStep_of_pending h]
  exact ⟨rfl, rfl, rfl⟩

theorem State.Rested.clear (h : s.Rested) : s.regs.resetPending = false := h.1 ▸ resetPending_zeroRegs

/-- The reset has left nothing for a walker to do (R263, R283), and RST has no step (R357). -/
theorem State.Rested.applyMove (h : s.Rested) (m : Move) : (applyMove m s).Rested := by
  have hclear : ¬ s.regs.resetPending = true := Bool.eq_false_iff.mp h.clear
  have ⟨hregs, hrx, htx⟩ := h
  have hstartRx : s.regs.startRx = false := by rw [hregs]; rfl
  have hstartTx : s.regs.startTx = false := by rw [hregs]; rfl
  cases m with
  | qm | untilIdle | starve => exact h
  | rxw =>
    have hstay : rxwStep s = s := by simp [rxwStep, hclear, hrx, hstartRx]
    rw [Machine.applyMove, hstay]
    exact h
  | txw =>
    have hstay : txwStep s = s := by simp [txwStep, hclear, htx, hstartTx]
    rw [Machine.applyMove, hstay]
    exact h
  | macRx bytes err =>
    have hstay : macRxOffer bytes err s = s := by simp [macRxOffer, hrx]
    rw [Machine.applyMove, hstay]
    exact h
  | rst =>
    rw [Machine.applyMove, rstStep, if_neg hclear]
    exact h
  | portWrite addr v =>
    rw [Machine.applyMove, portWriteBusy]
    split <;> exact h
  | poke addr v =>
    rw [Machine.applyMove, hostPoke]
    split <;> exact h

theorem stable_rested : Stable State.Rested where
  applyMove m _ h := h.applyMove m
  setMoves _ _ h := h
  starve _ h := h
  countAccess _ h := h
  countPoll _ h := h

/-- After RST's step the next read of QM's ends the wait (43_eth.md R232). -/
theorem State.Rested.resetWait (h : s.Rested) (hstarve : .starve ∉ ms) :
    ∃ t, resetWait ms s = .done t ∧ t.Rested ∧ .starve ∉ t.moves := by
  have hpoll {s : State} (ns : List Move) (h : s.Rested) :
      poll (s.setMoves ns) = .done (countAccess (s.setMoves ns)) ∧ (countAccess (s.setMoves ns)).Rested :=
    ⟨poll_of_clear h.clear, h⟩
  induction ms generalizing s with
  | nil => exact ⟨_, (hpoll [] h).1, (hpoll [] h).2, hstarve⟩
  | cons m ms ih =>
    obtain ⟨hm, hms⟩ : .starve ≠ m ∧ .starve ∉ ms := by simpa only [List.mem_cons, not_or] using hstarve
    cases m with
    | qm => exact ⟨_, by rw [Machine.resetWait, (hpoll ms h).1], (hpoll ms h).2, hms⟩
    | untilIdle => exact ⟨_, (hpoll _ h).1, (hpoll _ h).2, hstarve⟩
    | starve => exact absurd rfl hm
    | _ => exact ih (h.applyMove _) hms

/-- With no bound the wait goes on to RST's step, however many reads of QM's and steps of the others stand before it
(R358). -/
theorem State.Waits.resetWait_until_rst (h : s.Waits) (hb : s.par.resetBound = none) (hidle : .untilIdle ∉ between)
    (hstarve : .starve ∉ between ++ .rst :: after) :
    ∃ t, Machine.resetWait (between ++ .rst :: after) s = .done t ∧ t.Rested ∧ .starve ∉ t.moves := by
  induction between generalizing s with
  | nil => exact (rested_rstStep h.pending).resetWait fun hm => hstarve (List.mem_cons_of_mem _ hm)
  | cons m between ih =>
    obtain ⟨hm, hms⟩ : .untilIdle ≠ m ∧ .untilIdle ∉ between := by simpa only [List.mem_cons, not_or] using hidle
    obtain ⟨hm', hms'⟩ : .starve ≠ m ∧ .starve ∉ between ++ .rst :: after := by
      simpa only [List.cons_append, List.mem_cons, not_or] using hstarve
    have hother (hne : m ≠ .rst) := ih (h.applyMove hne) (by rw [par_applyMove]; exact hb) hms hms'
    cases m with
    | qm =>
      have hmoved : (s.setMoves (between ++ .rst :: after)).Waits := ⟨h.busy, h.pending⟩
      rw [List.cons_append, Machine.resetWait, poll_of_pending hmoved.pending hb]
      exact ih hmoved.polled hb hms hms'
    | untilIdle => exact absurd rfl hm
    | starve => exact absurd rfl hm'
    | rst => exact (rested_rstStep h.pending).resetWait hms'
    | _ => exact hother nofun

/-! ## What the wait leaves of QM's own state -/

/-- QM's own state is that of `o`, but for the command that runs. -/
def SameView (o s : State) : Prop := qmView s = { qmView o with qm := s.qm }

theorem stable_sameView (o : State) : Stable (SameView o) where
  applyMove m s h := by
    rw [SameView, qmView_applyMove, qm_applyMove]
    exact h
  setMoves _ _ h := h
  starve s h := by rw [SameView, qmView_starve, h]; rfl
  countAccess s h := by rw [SameView, qmView_countAccess, h]; rfl
  countPoll s h := by
    have hcounted : qmView (countPoll s) = { qmView s with qm := (countPoll s).qm } := rfl
    rw [SameView, hcounted, h]

/-! ## The command -/

/-- Moves of the others up to a turn of QM's. -/
theorem runMoves_to_turn (hqm : .qm ∉ before) (hidle : .untilIdle ∉ before) (hstarve : .starve ∉ before) :
    ∃ t, runMoves (before ++ .qm :: ms) s = .due t ∧ qmView t = qmView s ∧ t.moves = ms := by
  induction before generalizing s with
  | nil => exact ⟨_, rfl, rfl, rfl⟩
  | cons m before ih =>
    simp only [List.mem_cons, not_or] at hqm hidle hstarve
    obtain ⟨t, ht, hview', hmoves⟩ := ih (s := applyMove m s) hqm.2 hidle.2 hstarve.2
    have hview : qmView t = qmView s := hview'.trans (qmView_applyMove m s)
    cases m with
    | qm => exact absurd rfl hqm.1
    | untilIdle => exact absurd rfl hidle.1
    | starve => exact absurd rfl hstarve.1
    | _ => exact ⟨t, ht, hview, hmoves⟩
end

/-- What follows the wait of `DMA_RESET`: the started flags are cleared, and the command answers (R232). -/
theorem conclude_afterReset {o t : State} (h : t.Rested) (hview : SameView o t) (hstarve : .starve ∉ t.moves) :
    (afterReset t).conclude.Rested ∧ qmView (afterReset t).conclude = ({ qmView o with
      rx := { o.rx with started := false }, tx := { o.tx with started := false } }).ended .ok 0 0 := by
  have hrx : t.rx = o.rx := congrArg QmView.rx hview
  have htx : t.tx = o.tx := congrArg QmView.tx hview
  let u := (t.setRx { t.rx with started := false }).setTx { t.tx with started := false }
  have hu : qmView u = { qmView t with rx := { t.rx with started := false }, tx := { t.tx with started := false } } := rfl
  refine ⟨stable_rested.finish (s := u) h fun _ h => h, ?_⟩
  rw [afterReset, Flow.conclude, qmView_finish_result (s := u) hstarve, hu, hview, hrx, htx]
  rfl

/-- Settles O54: RST's step clears the registers and stops the walkers, nothing starts them again, and QM's next read
ends the wait. -/
theorem dmaResetEndsWhenRstSteps : Obligations.DmaResetEndsWhenRstSteps := by
  intro s before between after hs hb hmoves hqm hidle hidle' hstarve
  have hbefore : .starve ∉ before := fun hm => hstarve (hmoves ▸ List.mem_append_left _ hm)
  have hrest : .starve ∉ between ++ .rst :: after := fun hm =>
    hstarve (hmoves ▸ List.mem_append_right _ (List.mem_cons_of_mem _ hm))
  obtain ⟨t, ht, hview, hmoves'⟩ := runMoves_to_turn (s := startCommand (encode .dmaReset) s) hqm hidle hbefore
  have hturn : yield (startCommand (encode .dmaReset) s) = .due t := by rw [← ht, ← hmoves]; rfl
  have hpar : t.par = s.par := congrArg QmView.par hview
  have hstart : SameView s t := by
    have hbusy : t.qm = (startCommand (encode .dmaReset) s).qm := congrArg QmView.qm hview
    rw [SameView, hview, hbusy]
    rfl
  let u := (countAccess t).setRegs t.regs.asked
  obtain ⟨v, hv, hrested, hstarve'⟩ := (waits_asked hview).resetWait_until_rst (hpar ▸ hb) hidle' hrest
  have hdone : resetWait u.moves u = .done v := by rw [← hv, ← hmoves']; rfl
  have hsame : SameView s (resetWait u.moves u).state :=
    (stable_sameView s).resetWait _ ((stable_sameView s).countAccess t hstart)
  rw [hdone] at hsame
  obtain ⟨⟨hregs, hrx, htx⟩, hend⟩ := conclude_afterReset hrested hsame hstarve'
  refine ⟨_, by rw [exec_dmaReset_of_turn hs hturn, waitThen_done hdone], ?_, hregs, hrx, htx⟩
  rw [hend]
  simp [QmView.ended, qmView, hs.1]

end Sys2Proof.Machine
end

section
/-! PROOFS. The interrupt request under any schedule (43_eth.md R239, 60_exceptions.md R321, R323): no move of another
agent lowers it while no reset is pending, and no access of QM does but those of `IRQ_ACK` and of the DMA reset. -/

namespace Sys2Proof.Machine

/-! ## The request -/

/-- The interrupt request is up and no reset is pending. -/
def Requests (s : State) : Prop := irqCpu s = true ∧ s.regs.resetPending = false

namespace Requests

variable {s t : State}

theorem parts (h : Requests s) : s.regs.nis = true ∧ s.regs.nise = true ∧ s.nvic = true := by
  have hirq : ((s.regs.nis && s.regs.nise) && s.nvic) = true := h.1
  simpa only [Bool.and_eq_true, and_assoc] using hirq

theorem clear (h : Requests s) : ¬ s.regs.resetPending = true := Bool.eq_false_iff.mp h.2

/-- The request stands on `NIS`, `NISE` and the controller's bit alone (60_exceptions.md R321). -/
theorem intro (hnis : s.regs.nis = true) (hnise : s.regs.nise = true) (hnvic : s.nvic = true)
    (hreset : s.regs.resetPending = false) : Requests s :=
  ⟨by rw [irqCpu, irqEth, hnis, hnise, hnvic]; rfl, hreset⟩

theorem congr (h : Requests s) (hregs : t.regs = s.regs) (hnvic : t.nvic = s.nvic) : Requests t := by
  obtain ⟨hnis, hnise, hmask⟩ := h.parts
  exact .intro (hregs ▸ hnis) (hregs ▸ hnise) (hnvic.trans hmask) (hregs ▸ h.2)

/-- A report of the level is an event alone. -/
theorem withIrq {f : State → State} (h : Requests (f s)) : Requests (withIrq f s) :=
  h.congr (withIrq_regs f s) (congrArg QmView.nvic (qmView_withIrq f s))

theorem setBt (h : Requests s) (v : List (Word × BufRec)) : Requests (s.setBt v) := h
theorem setTx (h : Requests s) (v : TxRing) : Requests (s.setTx v) := h
theorem setMem (h : Requests s) (v : Memory) : Requests (s.setMem v) := h
theorem setDraws (h : Requests s) (v : Nat) : Requests (s.setDraws v) := h

/-! ## The other agents -/

/-- A completion sets pending bits and clears none (60_exceptions.md R320). -/
theorem rxCompletion (h : Requests s) : Requests (rxCompletion s) := by
  obtain ⟨hnis, hnise, hnvic⟩ := h.parts
  have hset : Requests (s.setRegs { s.regs with rs := true, nis := s.regs.nis || s.regs.rie }) :=
    .intro (Bool.or_eq_true_iff.mpr (.inl hnis)) hnise hnvic h.2
  exact withIrq (f := fun t => t.setRegs { t.regs with rs := true, nis := t.regs.nis || t.regs.rie }) hset

theorem txCompletion (h : Requests s) : Requests (txCompletion s) := by
  obtain ⟨hnis, hnise, hnvic⟩ := h.parts
  have hset : Requests (s.setRegs { s.regs with ts := true, nis := s.regs.nis || s.regs.tie }) :=
    .intro (Bool.or_eq_true_iff.mpr (.inl hnis)) hnise hnvic h.2
  exact withIrq (f := fun t => t.setRegs { t.regs with ts := true, nis := t.regs.nis || t.regs.tie }) hset

theorem rxwStep (h : Requests s) (ht : RxwStepTo s t) : Requests t := by
  cases ht with
  | none | start | refetch | transfer => exact h
  | fetch =>
    unfold rxwFetch
    dsimp only
    split <;> exact h
  | close =>
    unfold rxwClose
    dsimp only
    split
    · exact (h.setMem _).rxCompletion
    · exact h

theorem txwStep (h : Requests s) (ht : TxwStepTo s t) : Requests t := by
  cases ht with
  | none | start | emit | read => exact h
  | fetch =>
    unfold txwFetch
    dsimp only
    split <;> exact h
  | close =>
    unfold txwClose
    dsimp only
    split
    · exact (h.setMem _).txCompletion
    · exact h

/-- No agent clears a pending bit, and RST has no step while no reset is pending (70_reset_and_hazards.md R357). -/
theorem applyMove (h : Requests s) (m : Move) : Requests (applyMove m s) := by
  cases m with
  | qm | untilIdle | starve => exact h
  | rxw => exact h.rxwStep (rxwStep_to s)
  | txw => exact h.txwStep (txwStep_to s)
  | macRx bytes err =>
    rw [Machine.applyMove, macRxOffer]
    split <;> exact h
  | rst =>
    rw [Machine.applyMove, rstStep, if_neg h.clear]
    exact h
  | portWrite addr v =>
    rw [Machine.applyMove, portWriteBusy]
    split <;> exact h
  | poke addr v =>
    rw [Machine.applyMove, hostPoke]
    split <;> exact h

theorem stable : Stable Requests where
  applyMove m _ h := h.applyMove m
  setMoves _ _ h := h
  starve _ h := h
  countAccess _ h := h
  countPoll _ h := h

/-! ## QM's operations -/

theorem alloc {held : List Region} {size : Nat} {a : Option Word} (h : Requests s)
    (ha : alloc held size s = (a, t)) : Requests t := by
  cases a with
  | none => rw [alloc_none ha]; exact h
  | some a => rw [(alloc_some ha).2]; exact h

theorem rxDemandPoll (h : Requests s) : Requests (rxDemandPoll s) := by
  unfold Machine.rxDemandPoll
  split <;> exact h

theorem txDemandPoll (h : Requests s) : Requests (txDemandPoll s) := by
  unfold Machine.txDemandPoll
  split <;> exact h

/-- `IRQ_ENABLE` sets the enables, and clears no pending bit (43_eth.md R237). -/
theorem irqEnable (h : Requests s) : Requests (regField .dmaier IRQ_BITS IRQ_BITS s) := by
  obtain ⟨hnis, _, hnvic⟩ := h.parts
  have henabled : Regs.nise { s.regs with dmaier := 0x00010041 } = true := by simp [Regs.nise, bit]
  have hset : Requests (s.setRegs { s.regs with dmaier := 0x00010041 }) := .intro hnis henabled hnvic h.2
  rw [regField_irqEnable]
  exact withIrq (f := fun t => t.setRegs { t.regs with dmaier := 0x00010041 }) hset

theorem unmask (h : Requests s) : Requests (Machine.withIrq (fun t => t.setNvic true) s) := by
  obtain ⟨hnis, hnise, _⟩ := h.parts
  have hset : Requests (s.setNvic true) := .intro hnis hnise rfl h.2
  exact withIrq (f := fun t => t.setNvic true) hset

section
variable {next : State → Flow}

theorem access (h : Requests s) (hn : ∀ t, Requests t → Requests (next t).state) : Requests (access s next).state :=
  stable.access h hn

theorem qmWrite {a v : Word} (h : Requests s) (hn : ∀ t, Requests t → Requests (next t).state) :
    Requests (qmWrite a v s next).state :=
  h.access fun _ ht => hn _ ht

theorem qmEmit {e : Event} (h : Requests s) (hn : ∀ t, Requests t → Requests (next t).state) :
    Requests (qmEmit e s next).state :=
  h.access fun _ ht => hn _ ht

theorem rxPoll {v : Word} (h : Requests s) (hn : ∀ t, Requests t → Requests (next t).state) :
    Requests (qmRegWrite .dmarpdr v s next).state :=
  h.access fun _ ht => hn _ ht.rxDemandPoll

theorem txPoll {v : Word} (h : Requests s) (hn : ∀ t, Requests t → Requests (next t).state) :
    Requests (qmRegWrite .dmatpdr v s next).state :=
  h.access fun _ ht => hn _ ht.txDemandPoll

theorem setEnables (h : Requests s) (hn : ∀ t, Requests t → Requests (next t).state) :
    Requests (qmRegField .dmaier IRQ_BITS IRQ_BITS s next).state :=
  h.access fun _ ht => hn _ ht.irqEnable

/-- The start bits and the base registers are no part of the request. -/
theorem setOmr {mask v : Word} (h : Requests s) (hn : ∀ t, Requests t → Requests (next t).state) :
    Requests (qmRegField .dmaomr mask v s next).state :=
  h.access fun _ ht => hn _ ht

theorem setRxBase {v : Word} (h : Requests s) (hn : ∀ t, Requests t → Requests (next t).state) :
    Requests (qmRegWrite .dmardlar v s next).state :=
  h.access fun _ ht => hn _ ht

theorem setTxBase {v : Word} (h : Requests s) (hn : ∀ t, Requests t → Requests (next t).state) :
    Requests (qmRegWrite .dmatdlar v s next).state :=
  h.access fun _ ht => hn _ ht
end

/-! ## Buffer commands -/

theorem withHostBuffer {k : BufRec → State → Flow} (h : Requests s) (hk : ∀ r, Requests (k r s).state) :
    Requests (withHostBuffer s k).state := by
  unfold Machine.withHostBuffer
  split
  · exact hk _
  · exact h

theorem bufNewBody (h : Requests s) (cap : Nat) : Requests (bufNewBody cap s).state := by
  unfold Machine.bufNewBody
  split
  · exact h
  split
  · next ha => exact h.alloc ha
  · next ha => exact (h.alloc ha).setBt _

theorem bufSetlenBody (h : Requests s) (len : Nat) : Requests (bufSetlenBody len s).state :=
  h.withHostBuffer fun r => by split <;> exact h

theorem bufInfoBody (h : Requests s) : Requests (bufInfoBody s).state := h.withHostBuffer fun _ => h

theorem bufFreeBody (h : Requests s) : Requests (bufFreeBody s).state := h.withHostBuffer fun _ => h

/-! ## Receive ring commands -/

theorem rxNewBody (h : Requests s) (size : Nat) : Requests (rxNewBody size s).state := by
  unfold Machine.rxNewBody
  split
  · exact h
  split <;> exact h

theorem rxGrowOne (h : Requests s) : Requests (rxGrowOne s).state := by
  unfold Machine.rxGrowOne
  dsimp only
  split
  · next ha => exact h.alloc ha
  next ha =>
  refine (h.alloc ha).qmWrite fun _ h => h.qmWrite fun _ h => h.qmWrite fun _ h => h.qmWrite fun _ h => ?_
  split
  · next hb => exact h.alloc hb
  · next hb =>
    exact ((h.alloc hb).setBt _).qmWrite fun _ h => h.qmWrite fun _ h => h.qmWrite fun _ h => h

theorem rxGrow (h : Requests s) (k : Nat) : Requests (rxGrow k s).state := by
  induction k generalizing s with
  | zero => exact h
  | succ k ih => exact Flow.andThen_keeps h.rxGrowOne fun _ _ _ ht => ih ht

theorem rxRelink (h : Requests s) (es : List RxSlot) : Requests (rxRelink es s).state := by
  induction es generalizing s with
  | nil => exact h
  | cons e es ih => exact h.qmWrite fun _ h => h.qmWrite fun _ h => ih h

theorem rxRegister (h : Requests s) : Requests (rxRegister s).state :=
  Flow.andThen_keeps (h.rxRelink _) fun _ _ _ h =>
    h.setRxBase fun _ h => h.setOmr fun _ h => h.rxPoll fun _ h => h

theorem rxStartBody (h : Requests s) (n : Nat) : Requests (rxStartBody n s).state := by
  unfold Machine.rxStartBody
  split
  · exact h
  split
  · exact h
  split
  · exact h
  · exact Flow.andThen_keeps (h.rxGrow _) fun _ _ _ ht => ht.rxRegister

theorem rxStateBody (h : Requests s) : Requests (rxStateBody s).state := h.access fun _ h => h

theorem rxPostConsume {next : State → Flow} (h : Requests s) (hn : ∀ t, Requests t → Requests (next t).state) :
    Requests (rxPostConsume s next).state :=
  h.access fun t ht => by
    split
    · exact ht.rxPoll hn
    · exact hn t ht

theorem rxRecvError (h : Requests s) (i : Nat) (e : RxSlot) (w0 : Word) : Requests (rxRecvError i e w0 s).state :=
  h.qmEmit fun _ h => h.qmWrite fun _ h => rxPostConsume (by split <;> exact h) fun _ h => h

theorem rxRecvFragment (h : Requests s) (i : Nat) (e : RxSlot) (w0 : Word) :
    Requests (rxRecvFragment i e w0 s).state :=
  h.qmEmit fun _ h => h.qmWrite fun _ h => rxPostConsume h fun _ h => h

theorem rxHandOut (h : Requests s) (ob : Word) (len : Nat) : Requests (rxHandOut ob len s) := by
  unfold Machine.rxHandOut
  split <;> exact h

theorem rxRecvFrame (h : Requests s) (i : Nat) (e : RxSlot) (w0 : Word) : Requests (rxRecvFrame i e w0 s).state := by
  unfold Machine.rxRecvFrame
  split
  · next ha => exact h.alloc ha
  · next ha =>
    exact ((h.alloc ha).setBt _).qmWrite fun _ h => qmWrite h fun _ h => rxPostConsume (h.rxHandOut ..) fun _ h => h

theorem rxRecvBody (h : Requests s) : Requests (rxRecvBody s).state := by
  unfold Machine.rxRecvBody
  split
  · exact h
  refine h.access fun t ht => ?_
  dsimp only
  split
  · exact ht
  split
  · exact ht.rxRecvError ..
  split
  · exact ht.rxRecvFrame ..
  · exact ht.rxRecvFragment ..

/-! ## Transmit ring commands -/

theorem txNewOne (h : Requests s) : Requests (txNewOne s).state := by
  unfold Machine.txNewOne
  split
  · next ha => exact h.alloc ha
  · next ha =>
    exact (h.alloc ha).qmWrite fun _ h => h.qmWrite fun _ h => h.qmWrite fun _ h => h.qmWrite fun _ h => h

theorem txNewSlots (h : Requests s) (k : Nat) : Requests (txNewSlots k s).state := by
  induction k generalizing s with
  | zero => exact h
  | succ k ih => exact Flow.andThen_keeps h.txNewOne fun _ _ _ ht => ih ht

theorem txNewBody (h : Requests s) : Requests (txNewBody s).state := by
  unfold Machine.txNewBody
  split
  · exact h
  · exact Flow.andThen_keeps ((h.setTx _).txNewSlots _) fun _ _ _ ht => ht

theorem txReleaseIf (h : Requests s) (i : Nat) (e : TxSlot) : Requests (txReleaseIf i e s) := by
  unfold Machine.txReleaseIf
  split <;> exact h

theorem txInit (h : Requests s) (i : Nat) (es : List TxSlot) : Requests (txInit i es s).state := by
  induction es generalizing s i with
  | nil => exact h
  | cons e es ih =>
    exact (h.txReleaseIf i e).qmWrite fun _ h => h.qmWrite fun _ h => h.qmWrite fun _ h => h.qmWrite fun _ h =>
      ih h (i + 1)

theorem txStartBody (h : Requests s) : Requests (txStartBody s).state := by
  unfold Machine.txStartBody
  split
  · exact h
  split
  · exact h
  · exact Flow.andThen_keeps (h.txInit 0 _) fun _ _ _ h =>
      h.setTxBase fun _ h => h.setOmr fun _ h => h

theorem txSendBody (h : Requests s) : Requests (txSendBody s).state := by
  unfold Machine.txSendBody
  split
  · exact h
  refine h.withHostBuffer fun r => ?_
  split
  · exact h
  split
  · exact h
  refine h.access fun t ht => ?_
  split
  · exact ht
  · exact (ht.txReleaseIf _ _).qmWrite fun _ h => h.qmWrite fun _ h => h.qmWrite fun _ h => h

theorem txStateBody (h : Requests s) : Requests (txStateBody s).state := h.access fun _ h => h

theorem txQlenScan (h : Requests s) (es : List TxSlot) (n : Nat) : Requests (txQlenScan es n s).state := by
  induction es generalizing s n with
  | nil => exact h
  | cons e es ih => exact h.access fun _ ht => ih ht _

theorem txReapScan (h : Requests s) (i : Nat) (es : List TxSlot) (n : Nat) : Requests (txReapScan i es n s).state := by
  induction es generalizing s i n with
  | nil => exact h
  | cons e es ih =>
    unfold Machine.txReapScan
    split
    · exact ih h _ _
    refine h.access fun t ht => ?_
    split
    · exact ih ht _ _
    · exact ih (s := txRelease ..) ht _ _

/-! ## Orchestrator commands -/

theorem irqEnableBody (h : Requests s) : Requests (irqEnableBody s).state :=
  h.setEnables fun _ h => h.access fun _ h => h.unmask

theorem phyStatusBody (h : Requests s) : Requests (phyStatusBody s).state :=
  (h.setDraws _).qmEmit fun _ h => h

theorem ethSendBody (h : Requests s) : Requests (ethSendBody s).state :=
  Flow.andThen_keeps h.txSendBody fun _ _ _ h => h.access fun t ht => by
    split
    · exact ht
    · exact ht.txPoll fun _ h => h

/-! ## Every command but those that lower it -/

theorem body (h : Requests s) {i : Instr} (hack : i ≠ .irqAck) (hreset : i ≠ .dmaReset) (hinit : i ≠ .ethInit)
    (hnew : ∀ n, i ≠ .ethNew n) : Requests (commandBody i s).state := by
  cases i with
  | bufNew cap => exact h.bufNewBody cap
  | bufSetlen len => exact h.bufSetlenBody len
  | bufInfo => exact h.bufInfoBody
  | bufFree => exact h.bufFreeBody
  | rxNew size => exact h.rxNewBody size
  | rxStart n => exact h.rxStartBody n
  | rxPoll => exact h.rxPoll fun _ h => h
  | rxState => exact h.rxStateBody
  | rxRecv => exact h.rxRecvBody
  | txNew => exact h.txNewBody
  | txStart => exact h.txStartBody
  | txSend => exact h.txSendBody
  | txState => exact h.txStateBody
  | txPoll => exact h.txPoll fun _ h => h
  | txQlen => exact h.txQlenScan _ _
  | txReap => exact h.txReapScan _ _ _
  | ethNew n => exact absurd rfl (hnew n)
  | dmaReset => exact absurd rfl hreset
  | ethInit => exact absurd rfl hinit
  | irqEnable => exact h.irqEnableBody
  | irqAck => exact absurd rfl hack
  | phyStatus => exact h.phyStatusBody
  | ethSend => exact h.ethSendBody

theorem runCommand {w : Word} {body : State → Flow} (h : Requests s)
    (hb : ∀ t, Requests t → Requests (body t).state) : Requests (runCommand w body s) :=
  stable.runCommand (s := s) h hb (fun _ _ _ _ h => h) fun _ _ h => h

end Requests

/-- Settles O60: the request and the absence of a pending reset go together through every access and every move. -/
theorem interruptPersistsUntilAcknowledged : Obligations.InterruptPersistsUntilAcknowledged := by
  intro i s t hirq hclear hack hreset hinit hnew hexec
  have hs : Requests s := ⟨hirq, hclear⟩
  cases hq : s.qm with
  | some q =>
    have hbusy : exec i s = .next s := by rw [exec_eq_command, command_busy (by rw [hq]; rfl)]
    cases hbusy.symm.trans hexec
    exact hirq
  | none =>
    cases (exec_idle hq).symm.trans hexec
    exact (hs.runCommand fun _ ht => ht.body hack hreset hinit hnew).1

end Sys2Proof.Machine
end

section
/-! PROOFS. The steps of the walkers by their process state (44_walker.md R293), and the steps that write no memory:
start, wait, suspension, fetch, accept (44_walker.md R261 to R265, R271, R272, R283, R284, R290). -/

namespace Sys2Proof.Machine

/-! ## The next descriptor -/

/-- Settles O23: by the two flags; the truncated addresses lie on the grid, and the walker's own place is kept. -/
theorem nextDescriptorFunction : Obligations.NextDescriptorFunction := by
  intro eor ch nxt base cur
  refine ⟨?_, ?_, ?_, aligned8_nextDesc⟩
  · rintro rfl; rfl
  · rintro rfl rfl; rfl
  · rintro rfl rfl; rfl

/-! ## The enabled step, no reset being pending -/

section
variable {s : State} (hr : s.regs.resetPending = false)
include hr

theorem rxwStep_stopped (hp : s.rxw.ps = 0) : rxwStep s = if s.regs.startRx then rxwStart s else s := by
  simp [rxwStep, hr, hp]

theorem rxwStep_fetching (hp : s.rxw.ps = 1) : rxwStep s = rxwFetch s := by simp [rxwStep, hr, hp]

theorem rxwStep_waiting (hp : s.rxw.ps = 3) : rxwStep s = s := by simp [rxwStep, hr, hp]

theorem rxwStep_suspended (hp : s.rxw.ps = 4) :
    rxwStep s = if s.par.rxwRefetch then s.setRxw { s.rxw with ps := 1 } else s := by simp [rxwStep, hr, hp]

theorem rxwStep_closing {fr : Frame} (hp : s.rxw.ps = 5) (hf : s.rxw.fr = some fr) : rxwStep s = rxwClose fr s := by
  simp [rxwStep, hr, hp, hf]

theorem rxwStep_transferring {fr : Frame} (hp : s.rxw.ps = 7) (hf : s.rxw.fr = some fr) :
    rxwStep s = rxwTransfer fr s := by simp [rxwStep, hr, hp, hf]

theorem txwStep_stopped (hp : s.txw.ps = 0) : txwStep s = if s.regs.startTx then txwStart s else s := by
  simp [txwStep, hr, hp]

theorem txwStep_fetching (hp : s.txw.ps = 1) : txwStep s = txwFetch s := by simp [txwStep, hr, hp]

theorem txwStep_emitting (hp : s.txw.ps = 2) : txwStep s = txwEmit s := by simp [txwStep, hr, hp]

theorem txwStep_reading (hp : s.txw.ps = 3) : txwStep s = txwRead s := by simp [txwStep, hr, hp]

theorem txwStep_suspended (hp : s.txw.ps = 6) : txwStep s = s := by simp [txwStep, hr, hp]

theorem txwStep_closing (hp : s.txw.ps = 7) : txwStep s = txwClose s := by simp [txwStep, hr, hp]
end

/-- Settles O32: by the process state. -/
theorem walkersStartAndSuspend : Obligations.WalkersStartAndSuspend := by
  intro s hr
  refine ⟨fun hp hst => ?_, fun hp hst => ?_, rxwStep_waiting hr, fun hp hre => ?_, fun hp hre => ?_,
    fun hp hst => ?_, fun hp hst => ?_, txwStep_suspended hr⟩
  · exact (rxwStep_stopped hr hp).trans (if_pos hst)
  · exact (rxwStep_stopped hr hp).trans (if_neg (Bool.eq_false_iff.mp hst))
  · exact (rxwStep_suspended hr hp).trans (if_neg (Bool.eq_false_iff.mp hre))
  · exact (rxwStep_suspended hr hp).trans (if_pos hre)
  · exact (txwStep_stopped hr hp).trans (if_pos hst)
  · exact (txwStep_stopped hr hp).trans (if_neg (Bool.eq_false_iff.mp hst))

/-! ## Accept -/

/-- Settles O34: by the guard of MAC-RX's move. -/
theorem framesAreAcceptedOnlyWhileWaiting : Obligations.FramesAreAcceptedOnlyWhileWaiting := by
  intro s bytes err
  refine ⟨fun hr hp hlow hhigh => ?_, fun hp => ?_⟩
  · exact if_pos ⟨Bool.eq_false_iff.mp hr, hp, hlow, hhigh⟩
  · exact if_neg fun ⟨_, hwaits, _⟩ => hp hwaits

/-! ## Fetch -/

theorem bufSize1_eq (w : Word) : bufSize1 w = w.extractLsb' 0 13 := rfl

section
variable {s : State}

theorem rxwFetch_of_software (ho : rxOwn (s.mem.read32 (descWord s.rxw.cur 0)) = false) :
    rxwFetch s = s.setRxw { s.rxw with ps := 4 } := if_neg (Bool.eq_false_iff.mp ho)

theorem rxwFetch_of_hardware (ho : rxOwn (s.mem.read32 (descWord s.rxw.cur 0)) = true) :
    rxwFetch s = s.setRxw { s.rxw with
      lat := { buf := s.mem.read32 (descWord s.rxw.cur 2), size := bufSize1 (s.mem.read32 (descWord s.rxw.cur 1))
               eor := rxRer (s.mem.read32 (descWord s.rxw.cur 1)), ch := rxRch (s.mem.read32 (descWord s.rxw.cur 1))
               next := s.mem.read32 (descWord s.rxw.cur 3) }
      ps := if s.rxw.fr.isNone then 3 else 7 } := if_pos ho

theorem txwFetch_of_software (ho : txOwn (s.mem.read32 (descWord s.txw.cur 0)) = false) :
    txwFetch s = s.setTxw { s.txw with ps := 6 } := if_neg (Bool.eq_false_iff.mp ho)

theorem txwFetch_of_hardware (ho : txOwn (s.mem.read32 (descWord s.txw.cur 0)) = true) :
    txwFetch s = s.setTxw { s.txw with
      lat := { w0 := s.mem.read32 (descWord s.txw.cur 0), size := bufSize1 (s.mem.read32 (descWord s.txw.cur 1))
               buf := s.mem.read32 (descWord s.txw.cur 2), next := s.mem.read32 (descWord s.txw.cur 3) }
      ps := 3 } := if_pos ho
end

/-- Settles O24: by the OWN bit of word 0. -/
theorem rxwFetchesDescriptor : Obligations.RxwFetchesDescriptor := by
  intro s hr hp
  rw [rxwStep_fetching hr hp]
  refine ⟨rxwFetch_of_software, fun ho => ?_⟩
  rw [rxwFetch_of_hardware ho, bufSize1_eq]
  simp only [Option.isNone_iff_eq_none]
  rfl

end Sys2Proof.Machine
end

section
/-! PROOFS. The bytes RXW stores, and the word with which it gives a descriptor back (44_walker.md R266, R267). -/

namespace Sys2Proof.Machine

/-! ## RXW's transfer -/

/-- The bytes RXW stores in one transfer: the frame's next ones, as many as the Buffer takes. -/
def rxwStored (fr : Frame) (lat : RxLatch) : List Byte := (fr.bytes.drop fr.pos).take (rxwChunk fr lat)

theorem rxwStored_length (fr : Frame) (lat : RxLatch) : (rxwStored fr lat).length = rxwChunk fr lat := by
  rw [rxwStored, List.length_take, List.length_drop, rxwChunk, Nat.min_right_comm, Nat.min_self]

theorem rxwChunk_le_size (fr : Frame) (lat : RxLatch) : rxwChunk fr lat ≤ lat.size.toNat := Nat.min_le_right ..

theorem getElem?_rxwStored {fr : Frame} {lat : RxLatch} {j : Nat} (hj : j < rxwChunk fr lat) :
    (rxwStored fr lat)[j]? = fr.bytes[fr.pos + j]? := by
  rw [rxwStored, List.getElem?_take_of_lt hj, List.getElem?_drop]

theorem rxwTransfer_mem (fr : Frame) (s : State) :
    (rxwTransfer fr s).mem = s.mem.writeBytes (trunc8 s.rxw.lat.buf) (rxwStored fr s.rxw.lat) := rfl

theorem read_rxwTransfer {fr : Frame} {s : State} {j : Nat} (hj : j < rxwChunk fr s.rxw.lat) :
    some ((rxwTransfer fr s).mem.read (trunc8 s.rxw.lat.buf + word j)) = fr.bytes[fr.pos + j]? := by
  have hl := rxwStored_length fr s.rxw.lat
  have hsize := rxwChunk_le_size fr s.rxw.lat
  have hwidth := s.rxw.lat.size.isLt
  rw [rxwTransfer_mem, read_writeBytes _ _ _ (by omega) j (by omega), ← getElem?_rxwStored hj,
    List.getElem?_eq_getElem]

theorem read_rxwTransfer_other {fr : Frame} {s : State} {x : Word}
    (hx : ∀ j < rxwChunk fr s.rxw.lat, x ≠ trunc8 s.rxw.lat.buf + word j) :
    (rxwTransfer fr s).mem.read x = s.mem.read x :=
  read_writeBytes_other _ _ (rxwStored fr s.rxw.lat) _ fun j hj => hx j (hj.trans_eq (rxwStored_length ..))

/-- Settles O25: the frame's next bytes are written one after another. -/
theorem rxwTransfersFrameBytes : Obligations.RxwTransfersFrameBytes := by
  intro s fr hr hp hf _
  rw [rxwStep_transferring hr hp hf]
  exact ⟨fun _ => read_rxwTransfer, fun _ => read_rxwTransfer_other, rfl⟩

/-! ## The close word -/

theorem getLsbD_if (b : Bool) (c : Word) (k : Nat) : (if b then c else 0).getLsbD k = (b && c.getLsbD k) := by
  cases b <;> simp

theorem getLsbD_flag {c : Word} {i : Nat} (hc : c = BitVec.twoPow 32 i) (hi : i < 32) (k : Nat) :
    c.getLsbD k = decide (i = k) := by
  rw [hc, BitVec.getLsbD_twoPow, decide_eq_true hi, Bool.true_and]

/-- The close word bit by bit: the frame length from bit 16 up, and the three flags. -/
theorem getLsbD_rxCloseWord (fr : Frame) (k : Nat) :
    (rxCloseWord fr).getLsbD k =
      (decide (fr.pos = fr.bytes.length) && (word fr.pos <<< 16).getLsbD k ||
        decide (fr.pos = fr.bytes.length) && fr.err && decide (15 = k) || fr.first && decide (9 = k) ||
        decide (fr.pos = fr.bytes.length) && decide (8 = k)) := by
  have hes : RX_ES.getLsbD k = decide (15 = k) := getLsbD_flag (by decide) (by decide) k
  have hfs : RX_FS.getLsbD k = decide (9 = k) := getLsbD_flag (by decide) (by decide) k
  have hls : RX_LS.getLsbD k = decide (8 = k) := getLsbD_flag (by decide) (by decide) k
  simp only [rxCloseWord, BitVec.getLsbD_or, getLsbD_if, hes, hfs, hls]

/-- The frame length fills bits 29 to 16 and no other. -/
theorem getLsbD_frameLength {n k : Nat} (h : n < 2 ^ 14) :
    (word n <<< 16).getLsbD k = (decide (16 ≤ k) && decide (k < 30) && n.testBit (k - 16)) := by
  have hhigh (hk : ¬ k < 30) : n.testBit (k - 16) = false :=
    Nat.testBit_lt_two_pow (Nat.lt_of_lt_of_le h (Nat.pow_le_pow_right (by decide) (by omega)))
  rw [BitVec.getLsbD_shiftLeft, word, BitVec.getLsbD_ofNat]
  by_cases hk : k < 30
  · have hk32 : k < 32 := by omega
    have hk16 : k - 16 < 32 := by omega
    have h16 : (!decide (k < 16)) = decide (16 ≤ k) := by
      rw [← decide_not]; exact decide_eq_decide.mpr Nat.not_lt
    simp [hk, hk32, hk16, h16]
  · simp [hk, hhigh hk]

theorem rxCloseWord_length {fr : Frame} (h : fr.pos < 2 ^ 14) : (rxCloseWord fr).extractLsb' 16 14 =
    if decide (fr.pos = fr.bytes.length) then BitVec.ofNat 14 fr.pos else 0 := by
  refine BitVec.eq_of_getLsbD_eq fun i hi => ?_
  have h8 : 8 ≠ 16 + i := by omega
  have h9 : 9 ≠ 16 + i := by omega
  have h15 : 15 ≠ 16 + i := by omega
  have h30 : 16 + i < 30 := by omega
  rw [BitVec.getLsbD_extractLsb', getLsbD_rxCloseWord, getLsbD_frameLength h]
  split
  · next hlast =>
    rw [BitVec.getLsbD_ofNat]
    simp [hi, h8, h9, h15, h30, hlast]
  · next hlast => simp [hi, h8, h9, h15, h30, hlast]

/-- Settles O26: bit by bit; the frame length has 14 bits. -/
theorem rxwCloseWordFields : Obligations.RxwCloseWordFields := by
  intro fr hmax hpos
  have hlen : fr.pos < 2 ^ 14 := Nat.lt_succ_of_le (hpos.trans hmax)
  refine ⟨?_, ?_, ?_, ?_, fun k hk => ?_⟩
  · rw [rxCloseWord_length hlen]
    split
    · rw [BitVec.toNat_ofNat, Nat.mod_eq_of_lt hlen]
    · rfl
  · rw [getLsbD_rxCloseWord, getLsbD_frameLength hlen]; simp
  · rw [getLsbD_rxCloseWord, getLsbD_frameLength hlen]; simp
  · rw [getLsbD_rxCloseWord, getLsbD_frameLength hlen]; simp
  · have h8 : 8 ≠ k := by omega
    have h9 : 9 ≠ k := by omega
    have h15 : 15 ≠ k := by omega
    have hout : ¬ (16 ≤ k ∧ k < 30) := by omega
    rw [getLsbD_rxCloseWord, getLsbD_frameLength hlen, ← Bool.decide_and, decide_eq_false hout]
    simp [h8, h9, h15]

end Sys2Proof.Machine
end

section
/-! PROOFS. The close of either walker, and TXW's read and emit (44_walker.md R269, R284 to R289), with the report of
the interrupt request a close may move (60_exceptions.md R320, R321). -/

namespace Sys2Proof.Machine

/-! ## The report of the interrupt request -/

/-- From `s` to `t` a change of the interrupt request is reported, and no other event (60_exceptions.md R321). -/
def ReportsLevel (s t : State) : Prop :=
  t.hist = s.hist ++ if irqCpu t = irqCpu s then [] else [.irq (irqCpu t)]

theorem irqCpu_congr {s t : State} (hr : t.regs = s.regs) (hn : t.nvic = s.nvic) : irqCpu t = irqCpu s := by
  rw [irqCpu, irqEth, hr, hn, irqCpu, irqEth]

theorem reportsLevel_of_same {s t : State} (hr : t.regs = s.regs) (hn : t.nvic = s.nvic) (hh : t.hist = s.hist) :
    ReportsLevel s t := by rw [ReportsLevel, irqCpu_congr hr hn, if_pos rfl, List.append_nil, hh]

theorem reportsLevel_withIrq {f : State → State} {s : State} (h : (f s).hist = s.hist) :
    ReportsLevel s (withIrq f s) := by
  have hsame : irqCpu (withIrq f s) = irqCpu (f s) :=
    irqCpu_congr (withIrq_regs f s) (congrArg QmView.nvic (qmView_withIrq f s))
  rw [ReportsLevel, hsame, withIrq, ← h]
  split
  · rw [List.append_nil]
  · rfl

/-- The history and the request are all it speaks of. -/
theorem ReportsLevel.congr {s s' t t' : State} (h : ReportsLevel s t) (hs : s'.hist = s.hist)
    (hi : irqCpu s' = irqCpu s) (ht : t'.hist = t.hist) (hj : irqCpu t' = irqCpu t) : ReportsLevel s' t' := by
  rw [ReportsLevel, hs, hi, ht, hj]; exact h

theorem withIrq_port (f : State → State) (s : State) : (withIrq f s).port = (f s).port := by
  unfold withIrq
  split <;> rfl

theorem rxCompletion_reports (s : State) : ReportsLevel s (rxCompletion s) := reportsLevel_withIrq rfl

theorem txCompletion_reports (s : State) : ReportsLevel s (txCompletion s) := reportsLevel_withIrq rfl

/-! ## RXW's close -/

section
variable {s : State} {fr : Frame}

theorem rxwClose_regs_eq : (rxwClose fr s).regs =
    { s.regs with rs := s.regs.rs || decide (fr.pos = fr.bytes.length)
                  nis := s.regs.nis || (decide (fr.pos = fr.bytes.length) && s.regs.rie) } := by
  unfold rxwClose
  dsimp only
  split
  · next hlast => simp [hlast]
  · next hlast => simp [hlast]

theorem rxwClose_reports : ReportsLevel s (rxwClose fr s) := by
  unfold rxwClose
  dsimp only
  split
  · exact (rxCompletion_reports (s.setMem (s.mem.write32 _ _))).congr rfl rfl rfl rfl
  · exact reportsLevel_of_same rfl rfl rfl

theorem rxwClose_port : (rxwClose fr s).port = s.port := by
  unfold rxwClose
  dsimp only
  split
  · exact withIrq_port ..
  · rfl
end

/-- Settles O27: by whether the frame is complete. -/
theorem rxwClosesDescriptor : Obligations.RxwClosesDescriptor := by
  intro s fr hr hp hf
  have hview := qmView_rxwStep s
  rw [rxwStep_closing hr hp hf] at hview ⊢
  refine ⟨?_, fun x hx => ?_, rxwClose_regs_eq, ?_, ?_, ?_, hview, rxwClose_txw s fr, rxwClose_port, rxwClose_reports⟩
  · rw [rxwClose_mem, descWord_zero, read32_write32_same]
  · rw [rxwClose_mem, read_write32_outside hx]
  · rw [rxwClose_rxw]
  · simp [rxwClose_rxw]
  · rw [rxwClose_rxw]

/-! ## TXW's read -/

theorem readBytes_eq_map (m : Memory) (a : Word) (n : Nat) :
    m.readBytes a n = (List.range n).map fun j => m.read (a + word j) := by
  induction n generalizing a with
  | zero => rfl
  | succ n ih =>
    have hnext (j : Nat) : a + 1 + word j = a + word (j + 1) := by
      rw [word, word, BitVec.ofNat_add, BitVec.add_assoc, BitVec.add_comm 1]
      rfl
    rw [Memory.readBytes, ih, List.range_succ_eq_map, List.map_cons, List.map_map]
    simp only [hnext, word, BitVec.add_zero]
    rfl

/-- Settles O28: the fetch by the OWN bit of word 0; the read byte by byte. -/
theorem txwFetchesAndReads : Obligations.TxwFetchesAndReads := by
  refine ⟨fun s hr hp => ?_, fun s hr hp => ?_⟩
  · rw [txwStep_fetching hr hp]
    refine ⟨txwFetch_of_software, fun ho => ?_⟩
    rw [txwFetch_of_hardware ho, bufSize1_eq]
    rfl
  · rw [txwStep_reading hr hp, txwRead, readBytes_eq_map]
    rfl

/-! ## TXW's emit and close -/

section
variable (s : State)

theorem txwClose_regs_eq : (txwClose s).regs =
    { s.regs with ts := s.regs.ts || txLs s.txw.lat.w0, nis := s.regs.nis || (txLs s.txw.lat.w0 && s.regs.tie) } := by
  unfold txwClose
  dsimp only
  split
  · next hlast => simp [hlast]
  · next hlast => simp [hlast]

theorem txwClose_port : (txwClose s).port = s.port := by
  unfold txwClose
  dsimp only
  split
  · exact withIrq_port ..
  · rfl

theorem txwClose_reports : ReportsLevel s (txwClose s) := by
  unfold txwClose
  dsimp only
  split
  · exact (txCompletion_reports (s.setMem (s.mem.write32 _ _))).congr rfl rfl rfl rfl
  · exact reportsLevel_of_same rfl rfl rfl
end

/-- Settles O29: the close by whether the segment is the frame's last. -/
theorem txwEmitsAndCloses : Obligations.TxwEmitsAndCloses := by
  refine ⟨fun s hr hp => txwStep_emitting hr hp, fun s hr hp => ?_⟩
  have hview := qmView_txwStep s
  rw [txwStep_closing hr hp] at hview ⊢
  refine ⟨?_, fun x hx => ?_, txwClose_regs_eq s, ?_, ?_, ?_, hview, txwClose_rxw s, txwClose_port s,
    txwClose_reports s⟩
  · rw [txwClose_mem, descWord_zero, read32_write32_same]; rfl
  · rw [txwClose_mem, read_write32_outside hx]
  · rw [txwClose_txw]
  · rw [txwClose_txw]
  · rw [txwClose_txw]; rfl

end Sys2Proof.Machine
end

section
/-! PROOFS. What the walkers write (44_walker.md R274, R291; 10_state.md R61). -/

namespace Sys2Proof.Machine

section
variable {s t : State} {x : Word}

/-- RXW writes in its transfer and in its close alone. -/
theorem RxwStepTo.writes (ht : RxwStepTo s t) (hx : t.mem.read x ≠ s.mem.read x) :
    (s.rxw.ps = 7 ∧ ∃ j < s.rxw.lat.size.toNat, x = trunc8 s.rxw.lat.buf + word j) ∨
      (s.rxw.ps = 5 ∧ inDescWord s.rxw.cur 0 x) := by
  cases ht with
  | none | start | refetch => exact absurd rfl hx
  | fetch => exact absurd (by rw [rxwFetch_mem]) hx
  | close _ hp _ =>
    rw [rxwClose_mem] at hx
    exact .inr ⟨hp, not_not.mp fun hout => hx (read_write32_outside hout _ _)⟩
  | transfer _ hp _ =>
    refine .inl ⟨hp, ?_⟩
    by_contra hout
    exact hx (read_rxwTransfer_other fun j hj heq => hout ⟨j, hj.trans_le (rxwChunk_le_size ..), heq⟩)

/-- TXW writes in its close alone. -/
theorem TxwStepTo.writes (ht : TxwStepTo s t) (hx : t.mem.read x ≠ s.mem.read x) :
    s.txw.ps = 7 ∧ inDescWord s.txw.cur 0 x := by
  cases ht with
  | none | start | emit | read => exact absurd rfl hx
  | fetch => exact absurd (by rw [txwFetch_mem]) hx
  | close _ hp =>
    rw [txwClose_mem] at hx
    exact ⟨hp, not_not.mp fun hout => hx (read_write32_outside hout _ _)⟩

/-- On linked rings RXW writes into the Buffer, or word 0, of a hardware-owned descriptor of the ring (R274). -/
theorem RxwStepTo.writes_linked (ht : RxwStepTo s t) (ho : s.Owned) (hl : s.RingLinks)
    (hx : t.mem.read x ≠ s.mem.read x) :
    ∃ e ∈ s.rx.slots, e.desc = s.rxw.cur ∧ e.owned s.mem ∧
      (inDescWord e.desc 0 x ∨ ∃ j < s.rx.bufSize, x = e.buf + word j) := by
  have holds : s.rxw.ps = 5 ∨ s.rxw.ps = 7 → ∃ e ∈ s.rx.slots, RxHeld s e := fun hp =>
    (rxLink_of_ringLinks hl).holds (.inr hp)
  rcases ht.writes hx with ⟨hp, j, hj, rfl⟩ | ⟨hp, hin⟩
  · obtain ⟨e, he, hheld⟩ := holds (.inr hp)
    obtain ⟨i, hi⟩ := List.getElem?_of_mem he
    obtain ⟨r, hr, _⟩ := ho.rxBuf i e hi
    obtain ⟨haligned, _⟩ := ho.record _ _ hr
    rw [hheld.buf, trunc8_of_aligned haligned]
    exact ⟨e, he, hheld.desc, hheld.owned, .inr ⟨j, hheld.size ▸ hj, rfl⟩⟩
  · obtain ⟨e, he, hheld⟩ := holds (.inl hp)
    exact ⟨e, he, hheld.desc, hheld.owned, .inl (hheld.desc ▸ hin)⟩

/-- On linked rings TXW writes into word 0 of a hardware-owned descriptor of the ring (R291). -/
theorem TxwStepTo.writes_linked (ht : TxwStepTo s t) (hl : s.RingLinks) (hx : t.mem.read x ≠ s.mem.read x) :
    ∃ e ∈ s.tx.slots, e.desc = s.txw.cur ∧ e.owned s.mem ∧ inDescWord e.desc 0 x := by
  obtain ⟨hp, hin⟩ := ht.writes hx
  obtain ⟨e, he, hheld⟩ := (txLink_of_ringLinks hl).holds (.inr (.inr hp))
  exact ⟨e, he, hheld.desc, hheld.owned, hheld.desc ▸ hin⟩
end

/-- Settles O30: by the kind of the step; a walker that writes holds a descriptor of its ring. -/
theorem walkersWriteOnlyWhatTheyOwn : Obligations.WalkersWriteOnlyWhatTheyOwn := by
  intro s x
  refine ⟨(rxwStep_to s).writes, (txwStep_to s).writes, fun ho hl => ⟨fun hx => ?_, fun hx => ?_⟩⟩
  · obtain ⟨e, he, hdesc, hown, hin⟩ := (rxwStep_to s).writes_linked ho hl hx
    exact ⟨e, he, hdesc, descWord_zero e.desc ▸ hown, hin⟩
  · obtain ⟨e, he, hdesc, hown, hin⟩ := (txwStep_to s).writes_linked hl hx
    exact ⟨e, he, hdesc, descWord_zero e.desc ▸ hown, hin⟩

end Sys2Proof.Machine
end

section
/-! PROOFS. Invariants of QM's operations, said once: a property that every operation of QM and every move of the other
agents keeps is kept by every command's body, by a reset wait taken up again, and by every step. -/

namespace Sys2Proof.Machine

/-- A property of states that no operation of QM and no move of another agent can break. The operations are the updates
of QM's own tables and of its sources of values, the stores, the register writes, the unmask at the interrupt
controller, the events other than `Irq`, and the two ends of a command. -/
structure QmStable (P : State → Prop) : Prop extends Stable P where
  setBt : ∀ v {s}, P s → P (s.setBt v)
  setRx : ∀ v {s}, P s → P (s.setRx v)
  setTx : ∀ v {s}, P s → P (s.setTx v)
  setHeap : ∀ v {s}, P s → P (s.setHeap v)
  setDraws : ∀ v {s}, P s → P (s.setDraws v)
  write32 : ∀ a v {s}, P s → P (s.setMem (s.mem.write32 a v))
  regWrite : ∀ r v {s}, P s → P (regWrite r v s)
  unmask : ∀ {s}, P s → P (withIrq (fun t => t.setNvic true) s)
  emit : ∀ {e}, (∀ l, e ≠ .irq l) → ∀ {s}, P s → P (emit e s)
  startCommand : ∀ w {s}, P s → P (startCommand w s)
  result : ∀ c r0 r1 {s}, P s → P (result c r0 r1 s)
  raise : ∀ k {s}, P s → P (raise k s)

namespace QmStable

variable {P : State → Prop} {s t : State}

theorem moveOn (hP : QmStable P) (h : P s) : P (moveOn s) := by
  unfold Machine.moveOn
  split
  · exact h
  · exact hP.applyMove _ _ (hP.setMoves _ _ h)

/-! ## QM's operations -/

theorem alloc {held : List Region} {size : Nat} {a : Option Word} (hP : QmStable P) (h : P s)
    (ha : alloc held size s = (a, t)) : P t := by
  cases a with
  | none => rw [alloc_none ha]; exact hP.setHeap _ h
  | some a => rw [(alloc_some ha).2]; exact hP.setHeap _ h

section
variable {next : State → Flow}

theorem qmWrite {a v : Word} (hP : QmStable P) (h : P s) (hn : ∀ t, P t → P (next t).state) :
    P (qmWrite a v s next).state :=
  hP.access h fun _ ht => hn _ (hP.write32 a v ht)

theorem qmRegWrite {r : Reg} {v : Word} (hP : QmStable P) (h : P s) (hn : ∀ t, P t → P (next t).state) :
    P (qmRegWrite r v s next).state :=
  hP.access h fun _ ht => hn _ (hP.regWrite r v ht)

theorem qmRegField {r : Reg} {mask v : Word} (hP : QmStable P) (h : P s) (hn : ∀ t, P t → P (next t).state) :
    P (qmRegField r mask v s next).state :=
  hP.access h fun _ ht => hn _ (hP.regWrite r _ ht)

theorem qmEmit {e : Event} (hP : QmStable P) (he : ∀ l, e ≠ .irq l) (h : P s) (hn : ∀ t, P t → P (next t).state) :
    P (qmEmit e s next).state :=
  hP.access h fun _ ht => hn _ (hP.emit he ht)
end

theorem conclude {f : Flow} (hP : QmStable P) (h : P f.state) : P f.conclude :=
  hP.toStable.conclude h (fun c r0 r1 _ => hP.result c r0 r1) fun k _ => hP.raise k

theorem runCommand {w : Word} {body : State → Flow} (hP : QmStable P) (h : P s) (hb : ∀ t, P t → P (body t).state) :
    P (runCommand w body s) :=
  hP.toStable.runCommand (hP.startCommand w h) hb (fun c r0 r1 _ => hP.result c r0 r1) fun k _ => hP.raise k

/-! ## Buffer commands -/

theorem withHostBuffer {k : BufRec → State → Flow} (h : P s) (hk : ∀ r, P (k r s).state) :
    P (withHostBuffer s k).state := by
  unfold Machine.withHostBuffer
  split
  · exact hk _
  · exact h

theorem bufNewBody (hP : QmStable P) (h : P s) (cap : Nat) : P (bufNewBody cap s).state := by
  unfold Machine.bufNewBody
  split
  · exact h
  split
  · next ha => exact hP.alloc h ha
  · next ha => exact hP.setBt _ (hP.alloc h ha)

theorem bufSetlenBody (hP : QmStable P) (h : P s) (len : Nat) : P (bufSetlenBody len s).state :=
  withHostBuffer h fun _ => by
    split
    · exact h
    · exact hP.setBt _ h

theorem bufInfoBody (h : P s) : P (bufInfoBody s).state := withHostBuffer h fun _ => h

theorem bufFreeBody (hP : QmStable P) (h : P s) : P (bufFreeBody s).state :=
  withHostBuffer h fun _ => hP.setBt _ h

/-! ## Receive ring commands -/

theorem rxNewBody (hP : QmStable P) (h : P s) (size : Nat) : P (rxNewBody size s).state := by
  unfold Machine.rxNewBody
  split
  · exact h
  split
  · exact h
  · exact hP.setRx _ h

theorem rxGrowOne (hP : QmStable P) (h : P s) : P (rxGrowOne s).state := by
  unfold Machine.rxGrowOne
  dsimp only
  split
  · next ha => exact hP.alloc h ha
  next ha =>
  refine hP.qmWrite (hP.alloc h ha) fun _ h => hP.qmWrite h fun _ h => hP.qmWrite h fun _ h =>
    hP.qmWrite h fun _ h => ?_
  split
  · next hb => exact hP.alloc h hb
  · next hb =>
    exact hP.qmWrite (hP.setBt _ (hP.alloc h hb)) fun _ h => hP.qmWrite h fun _ h => hP.qmWrite h fun _ h =>
      hP.setRx _ h

theorem rxGrow (hP : QmStable P) (h : P s) (k : Nat) : P (rxGrow k s).state := by
  induction k generalizing s with
  | zero => exact h
  | succ k ih => exact Flow.andThen_keeps (hP.rxGrowOne h) fun _ _ _ ht => ih ht

theorem rxRelink (hP : QmStable P) (h : P s) (es : List RxSlot) : P (rxRelink es s).state := by
  induction es generalizing s with
  | nil => exact h
  | cons e es ih => exact hP.qmWrite h fun _ h => hP.qmWrite h fun _ h => ih h

theorem rxRegister (hP : QmStable P) (h : P s) : P (rxRegister s).state :=
  Flow.andThen_keeps (hP.rxRelink h _) fun _ _ _ h =>
    hP.qmRegWrite h fun _ h => hP.qmRegField h fun _ h => hP.qmRegWrite h fun _ h => hP.setRx _ h

theorem rxStartBody (hP : QmStable P) (h : P s) (n : Nat) : P (rxStartBody n s).state := by
  unfold Machine.rxStartBody
  split
  · exact h
  split
  · exact h
  split
  · exact h
  · exact Flow.andThen_keeps (hP.rxGrow h _) fun _ _ _ ht => hP.rxRegister ht

theorem rxStateBody (hP : QmStable P) (h : P s) : P (rxStateBody s).state := hP.access h fun _ h => h

theorem rxPostConsume {next : State → Flow} (hP : QmStable P) (h : P s) (hn : ∀ t, P t → P (next t).state) :
    P (rxPostConsume s next).state :=
  hP.access h fun t ht => by
    split
    · exact hP.qmRegWrite ht hn
    · exact hn t ht

theorem rxAdvance (hP : QmStable P) (h : P s) : P (rxAdvance s) := hP.setRx _ h

theorem rxRecvError (hP : QmStable P) (h : P s) (i : Nat) (e : RxSlot) (w0 : Word) :
    P (rxRecvError i e w0 s).state :=
  hP.qmEmit nofun h fun _ h => hP.qmWrite h fun _ h =>
    hP.rxPostConsume (by split; exacts [hP.rxAdvance h, h]) fun _ h => h

theorem rxRecvFragment (hP : QmStable P) (h : P s) (i : Nat) (e : RxSlot) (w0 : Word) :
    P (rxRecvFragment i e w0 s).state :=
  hP.qmEmit nofun h fun _ h => hP.qmWrite h fun _ h => hP.rxPostConsume (hP.rxAdvance h) fun _ h => h

theorem rxHandOut (hP : QmStable P) (h : P s) (ob : Word) (len : Nat) : P (rxHandOut ob len s) := by
  unfold Machine.rxHandOut
  split
  · exact hP.setBt _ h
  · exact h

theorem rxRecvFrame (hP : QmStable P) (h : P s) (i : Nat) (e : RxSlot) (w0 : Word) :
    P (rxRecvFrame i e w0 s).state := by
  unfold Machine.rxRecvFrame
  split
  · next ha => exact hP.alloc h ha
  · next ha =>
    exact hP.qmWrite (hP.setBt _ (hP.alloc h ha)) fun _ h => hP.qmWrite (hP.setRx _ h) fun _ h =>
      hP.rxPostConsume (hP.rxAdvance (hP.rxHandOut h ..)) fun _ h => h

theorem rxRecvBody (hP : QmStable P) (h : P s) : P (rxRecvBody s).state := by
  unfold Machine.rxRecvBody
  split
  · exact h
  refine hP.access h fun t ht => ?_
  dsimp only
  split
  · exact ht
  split
  · exact hP.rxRecvError ht ..
  split
  · exact hP.rxRecvFrame ht ..
  · exact hP.rxRecvFragment ht ..

/-! ## Transmit ring commands -/

theorem txNewOne (hP : QmStable P) (h : P s) : P (txNewOne s).state := by
  unfold Machine.txNewOne
  split
  · next ha => exact hP.alloc h ha
  · next ha =>
    exact hP.qmWrite (hP.alloc h ha) fun _ h => hP.qmWrite h fun _ h => hP.qmWrite h fun _ h =>
      hP.qmWrite h fun _ h => hP.setTx _ h

theorem txNewSlots (hP : QmStable P) (h : P s) (k : Nat) : P (txNewSlots k s).state := by
  induction k generalizing s with
  | zero => exact h
  | succ k ih => exact Flow.andThen_keeps (hP.txNewOne h) fun _ _ _ ht => ih ht

theorem txNewBody (hP : QmStable P) (h : P s) : P (txNewBody s).state := by
  unfold Machine.txNewBody
  split
  · exact h
  · exact Flow.andThen_keeps (hP.txNewSlots (hP.setTx _ h) _) fun _ _ _ ht => hP.setTx _ ht

theorem txRelease (hP : QmStable P) (h : P s) (i : Nat) (e : TxSlot) (b : Word) : P (txRelease i e b s) :=
  hP.setTx _ (hP.setBt (btErase s.bt b) h)

theorem txReleaseIf (hP : QmStable P) (h : P s) (i : Nat) (e : TxSlot) : P (txReleaseIf i e s) := by
  unfold Machine.txReleaseIf
  split
  · exact hP.txRelease h ..
  · exact h

theorem txInit (hP : QmStable P) (h : P s) (i : Nat) (es : List TxSlot) : P (txInit i es s).state := by
  induction es generalizing s i with
  | nil => exact h
  | cons e es ih =>
    exact hP.qmWrite (hP.txReleaseIf h i e) fun _ h => hP.qmWrite h fun _ h => hP.qmWrite h fun _ h =>
      hP.qmWrite h fun _ h => ih h (i + 1)

theorem txStartBody (hP : QmStable P) (h : P s) : P (txStartBody s).state := by
  unfold Machine.txStartBody
  split
  · exact h
  split
  · exact h
  · exact Flow.andThen_keeps (hP.txInit h 0 _) fun _ _ _ h =>
      hP.qmRegWrite h fun _ h => hP.qmRegField h fun _ h => hP.setTx _ h

theorem txInstall (hP : QmStable P) (h : P s) (i : Nat) (e : TxSlot) (a : Word) (r : BufRec) :
    P (txInstall i e a r s).state :=
  hP.qmWrite (hP.txReleaseIf h i e) fun _ h => hP.qmWrite h fun _ h => hP.qmWrite h fun _ h =>
    hP.setBt _ (hP.setTx _ h)

theorem txSendBody (hP : QmStable P) (h : P s) : P (txSendBody s).state := by
  unfold Machine.txSendBody
  split
  · exact h
  refine withHostBuffer h fun r => ?_
  split
  · exact h
  split
  · exact h
  refine hP.access h fun t ht => ?_
  split
  · exact ht
  · exact hP.txInstall ht ..

theorem txStateBody (hP : QmStable P) (h : P s) : P (txStateBody s).state := hP.access h fun _ h => h

theorem txQlenScan (hP : QmStable P) (h : P s) (es : List TxSlot) (n : Nat) : P (txQlenScan es n s).state := by
  induction es generalizing s n with
  | nil => exact h
  | cons e es ih => exact hP.access h fun _ ht => ih ht _

theorem txReapScan (hP : QmStable P) (h : P s) (i : Nat) (es : List TxSlot) (n : Nat) :
    P (txReapScan i es n s).state := by
  induction es generalizing s i n with
  | nil => exact h
  | cons e es ih =>
    unfold Machine.txReapScan
    split
    · exact ih h _ _
    refine hP.access h fun t ht => ?_
    split
    · exact ih ht _ _
    · exact ih (hP.txRelease ht ..) _ _

/-! ## Orchestrator commands -/

theorem afterReset (hP : QmStable P) (h : P s) : P (afterReset s).state := hP.setTx _ (hP.setRx _ h)

theorem resetBody {rest : State → Flow} (hP : QmStable P) (h : P s) (hr : ∀ t, P t → P (rest t).state) :
    P (resetBody rest s).state :=
  hP.qmRegField h fun _ h => hP.waitThen h fun _ h => Flow.andThen_keeps (hP.afterReset h) fun _ _ => hr

theorem afterResetInit (hP : QmStable P) (h : P s) : P (afterResetInit s).state :=
  hP.qmRegField h fun _ h => hP.qmEmit nofun h fun _ h => hP.qmEmit nofun h fun _ h => hP.qmRegField h fun _ h =>
    hP.qmRegField h fun _ h => hP.qmRegField h fun _ h => hP.qmRegField h fun _ h => hP.qmRegField h fun _ h => h

theorem afterResetNew (hP : QmStable P) (h : P s) (n : Nat) : P (afterResetNew n s).state :=
  Flow.andThen_keeps (hP.afterResetInit h) fun _ _ _ h => Flow.andThen_keeps (hP.txStartBody h) fun _ _ _ h =>
    Flow.andThen_keeps (by split; exacts [hP.rxStartBody h n, h]) fun _ _ _ h => h

theorem ethNewBody (hP : QmStable P) (h : P s) (n : Nat) : P (ethNewBody n s).state := by
  unfold Machine.ethNewBody
  split
  · exact h
  · exact Flow.andThen_keeps (hP.rxNewBody h _) fun _ _ _ h => Flow.andThen_keeps (hP.txNewBody h) fun _ _ _ h =>
      hP.resetBody h fun _ h => hP.afterResetNew h n

theorem irqEnableBody (hP : QmStable P) (h : P s) : P (irqEnableBody s).state :=
  hP.qmRegField h fun _ h => hP.access h fun _ h => hP.unmask h

theorem phyStatusBody (hP : QmStable P) (h : P s) : P (phyStatusBody s).state :=
  hP.qmEmit nofun (hP.setDraws _ h) fun _ h => h

theorem ethSendBody (hP : QmStable P) (h : P s) : P (ethSendBody s).state :=
  Flow.andThen_keeps (hP.txSendBody h) fun _ _ _ h => hP.access h fun t ht => by
    split
    · exact ht
    · exact hP.qmRegWrite ht fun _ h => h

/-! ## Every command and every step -/

theorem body (hP : QmStable P) (h : P s) (i : Instr) : P (commandBody i s).state := by
  cases i with
  | bufNew cap => exact hP.bufNewBody h cap
  | bufSetlen len => exact hP.bufSetlenBody h len
  | bufInfo => exact bufInfoBody h
  | bufFree => exact hP.bufFreeBody h
  | rxNew size => exact hP.rxNewBody h size
  | rxStart n => exact hP.rxStartBody h n
  | rxPoll => exact hP.qmRegWrite h fun _ h => h
  | rxState => exact hP.rxStateBody h
  | rxRecv => exact hP.rxRecvBody h
  | txNew => exact hP.txNewBody h
  | txStart => exact hP.txStartBody h
  | txSend => exact hP.txSendBody h
  | txState => exact hP.txStateBody h
  | txPoll => exact hP.qmRegWrite h fun _ h => h
  | txQlen => exact hP.txQlenScan h _ _
  | txReap => exact hP.txReapScan h _ _ _
  | ethNew n => exact hP.ethNewBody h n
  | dmaReset => exact hP.resetBody h fun _ h => h
  | ethInit => exact hP.resetBody h fun _ h => hP.afterResetInit h
  | irqEnable => exact hP.irqEnableBody h
  | irqAck => exact hP.qmRegWrite h fun _ h => h
  | phyStatus => exact hP.phyStatusBody h
  | ethSend => exact hP.ethSendBody h

theorem resumeBody {i : Instr} {rest : State → Flow} (hP : QmStable P) (h : P s) (hr : resumeBody i = some rest) :
    P (rest s).state := by
  cases i <;> cases hr
  case dmaReset => exact hP.waitThen h fun _ h => hP.afterReset h
  case ethInit => exact hP.waitThen h fun _ h => Flow.andThen_keeps (hP.afterReset h) fun _ _ _ h => hP.afterResetInit h
  case ethNew n =>
    exact hP.waitThen h fun _ h => Flow.andThen_keeps (hP.afterReset h) fun _ _ _ h => hP.afterResetNew h n

/-- Such a property is an invariant of the machine. -/
theorem step (hP : QmStable P) (h : P s) (hstep : step s = .next t) : P t := by
  cases step_eq_next_iff.mp hstep with
  | idle => exact h
  | move => exact hP.applyMove _ _ (hP.setMoves _ _ h)
  | issue => exact hP.runCommand (hP.setMoves _ _ h) fun _ ht => hP.body ht _
  | illegal => exact hP.runCommand (hP.setMoves _ _ h) fun _ ht => ht
  | starved => exact hP.moveOn h
  | resumed _ _ _ hr => exact hP.conclude (hP.resumeBody h hr)

end QmStable

end Sys2Proof.Machine
end

section
/-! PROOFS. The level the history reports last is the level of the interrupt request (60_exceptions.md R321): the
request moves only inside actions that report it, and no other event reports a level. -/

namespace Sys2Proof.Machine

theorem lastIrq_append_irq (h : List Event) (l : Bool) : lastIrq (h ++ [.irq l]) = l := by
  rw [lastIrq, List.foldl_append]; rfl

theorem lastIrq_append_of_not_irq {e : Event} (he : ∀ l, e ≠ .irq l) (h : List Event) :
    lastIrq (h ++ [e]) = lastIrq h := by
  rw [lastIrq, List.foldl_append]
  cases e with
  | irq l => exact absurd rfl (he l)
  | _ => rfl

namespace State.irqReported

variable {s t : State}

/-- An action that reports what it does to the level keeps the report true. -/
theorem of_reports (h : s.irqReported) (hr : ReportsLevel s t) : t.irqReported := by
  unfold State.irqReported ReportsLevel at *
  rw [hr]
  split
  · next hsame => rw [List.append_nil, h, hsame]
  · exact lastIrq_append_irq _ _

theorem emit {e : Event} (he : ∀ l, e ≠ .irq l) (h : s.irqReported) : (emit e s).irqReported :=
  (lastIrq_append_of_not_irq he s.hist).trans h

theorem withIrq {f : State → State} (h : s.irqReported) (hf : (f s).hist = s.hist) : (withIrq f s).irqReported :=
  h.of_reports (reportsLevel_withIrq hf)

/-! ## The other agents -/

theorem rxwStep (h : s.irqReported) (ht : RxwStepTo s t) : t.irqReported := by
  cases ht with
  | none | start | refetch | transfer => exact h
  | fetch =>
    unfold rxwFetch
    dsimp only
    split <;> exact h
  | close => exact h.of_reports rxwClose_reports

theorem txwStep (h : s.irqReported) (ht : TxwStepTo s t) : t.irqReported := by
  cases ht with
  | none | start | read => exact h
  | fetch =>
    unfold txwFetch
    dsimp only
    split <;> exact h
  | emit => exact emit (s := s.setTxw _) nofun h
  | close => exact h.of_reports (txwClose_reports s)

theorem applyMove (h : s.irqReported) (m : Move) : (applyMove m s).irqReported := by
  cases m with
  | qm | untilIdle | starve => exact h
  | rxw => exact h.rxwStep (rxwStep_to s)
  | txw => exact h.txwStep (txwStep_to s)
  | macRx bytes err =>
    rw [Machine.applyMove, macRxOffer]
    split
    · exact emit (s := s.setRxw _) nofun h
    · exact h
  | rst =>
    rw [Machine.applyMove, rstStep]
    split
    · exact h.withIrq rfl
    · exact h
  | portWrite addr v =>
    rw [Machine.applyMove, portWriteBusy]
    split <;> exact h
  | poke addr v =>
    rw [Machine.applyMove, hostPoke]
    split <;> exact h

/-! ## QM -/

/-- `DMASR` and `DMAIER` hold the bits the request stands on, and their writes report it (R321). -/
theorem regWrite (h : s.irqReported) (r : Reg) (v : Word) : (regWrite r v s).irqReported := by
  cases r with
  | dmasr | dmaier => exact h.withIrq rfl
  | dmatpdr =>
    rw [Machine.regWrite, txDemandPoll]
    split <;> exact h
  | dmarpdr =>
    rw [Machine.regWrite, rxDemandPoll]
    split <;> exact h
  | _ => exact h

theorem qmStable : QmStable State.irqReported where
  applyMove m _ h := h.applyMove m
  setMoves _ _ h := h
  starve _ h := h
  countAccess _ h := h
  countPoll _ h := h
  setBt _ _ h := h
  setRx _ _ h := h
  setTx _ _ h := h
  setHeap _ _ h := h
  setDraws _ _ h := h
  write32 _ _ _ h := h
  regWrite r v _ h := h.regWrite r v
  unmask h := h.withIrq rfl
  emit he _ h := h.emit he
  startCommand _ s h := emit (s := s.setQm _) nofun h
  result _ _ _ s h := emit (s := (s.setPort _).setQm none) nofun h
  raise _ s h := emit (s := (State.setPort _ _).setQm none) nofun (emit (s := s.setPort _) nofun h)

end State.irqReported

/-- Settles O16: the agreement of the history with the request passes through every operation and every move. -/
theorem stepReportsInterruptLevel : Obligations.StepReportsInterruptLevel :=
  fun _ _ h hstep => State.irqReported.qmStable.step h hstep

end Sys2Proof.Machine
end

section
/-! PROOFS. The DMA reset while it is pending and RST's step (70_reset_and_hazards.md R355 to R357). -/

namespace Sys2Proof.Machine

section
variable {s : State} (h : s.regs.resetPending = true)
include h

theorem rxwStep_of_pending : rxwStep s = s := if_pos h

theorem txwStep_of_pending : txwStep s = s := if_pos h

theorem macRxOffer_of_pending (bytes : List Byte) (err : Bool) : macRxOffer bytes err s = s :=
  if_neg fun hc => hc.1 h

theorem rxDemandPoll_of_pending : rxDemandPoll s = s := if_neg fun hc => hc.1 h

theorem txDemandPoll_of_pending : txDemandPoll s = s := if_neg fun hc => hc.1 h
end

/-- Settles O31: every one of these steps stands under the guard `DMABMR.SR` = 0. -/
theorem walkersFreezeDuringReset : Obligations.WalkersFreezeDuringReset := fun _ h =>
  ⟨rxwStep_of_pending h, txwStep_of_pending h, macRxOffer_of_pending h, fun _ => rxDemandPoll_of_pending h,
    fun _ => txDemandPoll_of_pending h⟩

theorem rstStep_of_clear {s : State} (h : s.regs.resetPending = false) : rstStep s = s :=
  if_neg (Bool.eq_false_iff.mp h)

/-- With the walkers stopped and no flag pending `DMASR` reads 0 (10_state.md R42). -/
theorem dmasr_cleared (s : State) : dmasr s.cleared = 0 := by
  simp [dmasr, State.cleared, zeroRegs, bitWord]

/-- Settles O33: RST's step is the cleared state with the event of the request's fall. -/
theorem resetCompletionClearsHardware : Obligations.ResetCompletionClearsHardware := by
  refine fun s => ⟨rstStep_of_clear, fun h => ?_⟩
  rw [rstStep_of_pending h]
  exact ⟨rfl, rfl, rfl, dmasr_cleared s, rfl, rfl, rfl, rfl⟩

end Sys2Proof.Machine
end

section
/-! PROOFS. Runs without QM's progress (70_reset_and_hazards.md R372 (c), log entry 20): where QM is starved before
its first turn, a command of any kind is left there without an access, and from then on only the other agents move. -/

namespace Sys2Proof.Machine

/-! ## The input under the other agents' moves -/

section
variable {s t : State}

theorem rxwStepTo_moves (h : RxwStepTo s t) : t.moves = s.moves := by
  cases h with
  | none | start | refetch | transfer => rfl
  | fetch => unfold rxwFetch; dsimp only; split <;> rfl
  | close =>
    unfold rxwClose rxCompletion
    dsimp only
    split
    · exact withIrq_moves ..
    · rfl

theorem txwStepTo_moves (h : TxwStepTo s t) : t.moves = s.moves := by
  cases h with
  | none | start | read | emit => rfl
  | fetch => unfold txwFetch; dsimp only; split <;> rfl
  | close =>
    unfold txwClose txCompletion
    dsimp only
    split
    · exact withIrq_moves ..
    · rfl
end

/-- No agent's move touches the moves still to come. -/
theorem moves_applyMove (m : Move) (s : State) : (applyMove m s).moves = s.moves := by
  cases m with
  | qm | untilIdle | starve => rfl
  | rxw => exact rxwStepTo_moves (rxwStep_to s)
  | txw => exact txwStepTo_moves (txwStep_to s)
  | macRx bytes err => rw [applyMove, macRxOffer]; split <;> rfl
  | rst =>
    rw [applyMove, rstStep]
    split
    · exact withIrq_moves ..
    · rfl
  | portWrite addr v => rw [applyMove, portWriteBusy]; split <;> rfl
  | poke addr v => rw [applyMove, hostPoke]; split <;> rfl

/-! ## A busy QM that is starved before its next access -/

/-- Moves of the others up to the end of QM's progress. -/
theorem runMoves_to_starve {before rest : List Move} {s : State} (hqm : .qm ∉ before) (hidle : .untilIdle ∉ before)
    (hstarve : .starve ∉ before) :
    ∃ t, runMoves (before ++ .starve :: rest) s = .starved (starve t) ∧ t.qm = s.qm ∧ t.moves = rest := by
  induction before generalizing s with
  | nil => exact ⟨_, rfl, rfl, rfl⟩
  | cons m before ih =>
    simp only [List.mem_cons, not_or] at hqm hidle hstarve
    obtain ⟨t, ht, hqm', hmoves⟩ := ih (s := applyMove m s) hqm.2 hidle.2 hstarve.2
    have hbusy : t.qm = s.qm := hqm'.trans (qm_applyMove m s)
    cases m with
    | qm => exact absurd rfl hqm.1
    | untilIdle => exact absurd rfl hidle.1
    | starve => exact absurd rfl hstarve.1
    | _ => exact ⟨t, ht, hbusy, hmoves⟩

/-- A command runs, and its QM is starved before its next access, with `rest` to come after that. -/
structure State.Starving (rest : List Move) (s : State) : Prop where
  busy : s.qm.isSome = true
  input : ∃ before, s.moves = before ++ .starve :: rest ∧ .qm ∉ before ∧ .untilIdle ∉ before ∧ .starve ∉ before

/-- A command has been left busy without QM's progress, with `rest` still to come. -/
structure State.LeftStarved (rest : List Move) (t : State) : Prop where
  starved : t.starved = true
  moves : t.moves = rest

/-- The body has taken no access: it ends before its first one, or is left at it. -/
abbrev Flow.Starves (rest : List Move) (f : Flow) : Prop :=
  f.Ends (State.Starving rest) (State.Starving rest) (State.Starving rest) (State.LeftStarved rest)

theorem State.Starving.startCommand {before rest : List Move} {s : State} (hm : s.moves = before ++ .starve :: rest)
    (hqm : .qm ∉ before) (hidle : .untilIdle ∉ before) (hstarve : .starve ∉ before) (w : Word) :
    (startCommand w s).Starving rest :=
  ⟨rfl, before, hm, hqm, hidle, hstarve⟩

namespace State.Starving

variable {rest : List Move} {s t : State} (h : s.Starving rest)
include h

/-- What QM does to its own tables between two accesses leaves the moves. -/
theorem same (hq : t.qm = s.qm) (hm : t.moves = s.moves) : t.Starving rest :=
  ⟨hq ▸ h.busy, hm ▸ h.input⟩

/-- QM's turn does not come. -/
theorem atTurn {α : Type} (stuck act : State → α) : ∃ t, atTurn s stuck act = stuck t ∧ t.LeftStarved rest := by
  obtain ⟨before, hm, hqm, hidle, hstarve⟩ := h.input
  obtain ⟨t, ht, hbusy, hmoves⟩ := runMoves_to_starve (rest := rest) (s := s) hqm hidle hstarve
  have hyield : yield s = .starved (starve t) := by rw [yield, hm, ht]
  exact ⟨starve t, by rw [Machine.atTurn, hyield], starve_starved (hbusy ▸ h.busy), hmoves⟩

theorem access (act : State → Flow) : (access s act).Starves rest := by
  obtain ⟨t, ht, hleft⟩ := h.atTurn .wait act
  rw [Machine.access, ht]
  exact hleft

section
variable (next : State → Flow)

theorem qmWrite (a v : Word) : (qmWrite a v s next).Starves rest := h.access _

theorem qmRegWrite (r : Reg) (v : Word) : (qmRegWrite r v s next).Starves rest := h.access _

theorem qmRegField (r : Reg) (mask v : Word) : (qmRegField r mask v s next).Starves rest := h.access _

theorem qmEmit (e : Event) : (qmEmit e s next).Starves rest := h.access _
end

theorem finish (act : State → State) : (finish act s).LeftStarved rest := by
  obtain ⟨t, ht, hleft⟩ := h.atTurn id act
  rw [Machine.finish, ht]
  exact hleft

theorem alloc {held : List Region} {size : Nat} {a : Option Word} (ha : alloc held size s = (a, t)) :
    t.Starving rest := by
  cases a with
  | none => rw [alloc_none ha]; exact h.same rfl rfl
  | some a => rw [(alloc_some ha).2]; exact h.same rfl rfl

/-! ## The bodies up to their first access -/

theorem withHostBuffer {k : BufRec → State → Flow} (hk : ∀ r, (k r s).Starves rest) :
    (withHostBuffer s k).Starves rest := by
  unfold Machine.withHostBuffer
  split
  · exact hk _
  · exact h

theorem bufNewBody (cap : Nat) : (bufNewBody cap s).Starves rest := by
  unfold Machine.bufNewBody
  split
  · exact h
  split
  · next ha => exact h.alloc ha
  · next ha => exact (h.alloc ha).same rfl rfl

theorem bufSetlenBody (len : Nat) : (bufSetlenBody len s).Starves rest :=
  h.withHostBuffer fun _ => by
    split
    · exact h
    · exact h.same rfl rfl

theorem bufFreeBody : (bufFreeBody s).Starves rest := h.withHostBuffer fun _ => h.same rfl rfl

theorem rxNewBody (size : Nat) : (rxNewBody size s).Starves rest := by
  unfold Machine.rxNewBody
  split
  · exact h
  split
  · exact h
  · exact h.same rfl rfl

theorem rxGrowOne : (rxGrowOne s).Starves rest := by
  unfold Machine.rxGrowOne
  dsimp only
  split
  · next ha => exact h.alloc ha
  · next ha => exact (h.alloc ha).qmWrite ..

theorem rxGrow (n : Nat) : (rxGrow n s).Starves rest := by
  induction n generalizing s with
  | zero => exact h
  | succ n ih => exact h.rxGrowOne.andThen fun _ _ _ ht => ih ht

theorem rxRelink (es : List RxSlot) : (rxRelink es s).Starves rest := by
  cases es with
  | nil => exact h
  | cons e es => exact h.qmWrite ..

theorem rxStartBody (n : Nat) : (rxStartBody n s).Starves rest := by
  unfold Machine.rxStartBody
  split
  · exact h
  split
  · exact h
  split
  · exact h
  · exact (h.rxGrow _).andThen fun _ _ _ ht => (ht.rxRelink _).andThen fun _ _ _ hu => hu.qmRegWrite ..

theorem rxStateBody : (rxStateBody s).Starves rest := h.access _

theorem rxRecvBody : (rxRecvBody s).Starves rest := by
  unfold Machine.rxRecvBody
  split
  · exact h
  · exact h.access _

theorem txNewOne : (txNewOne s).Starves rest := by
  unfold Machine.txNewOne
  split
  · next ha => exact h.alloc ha
  · next ha => exact (h.alloc ha).qmWrite ..

theorem txNewSlots (n : Nat) : (txNewSlots n s).Starves rest := by
  induction n generalizing s with
  | zero => exact h
  | succ n ih => exact h.txNewOne.andThen fun _ _ _ ht => ih ht

theorem txNewBody : (txNewBody s).Starves rest := by
  unfold Machine.txNewBody
  split
  · exact h
  · have hempty : (s.setTx { s.tx with slots := [] }).Starving rest := h.same rfl rfl
    exact (hempty.txNewSlots _).andThen fun _ _ _ ht => ht.same rfl rfl

theorem txReleaseIf (i : Nat) (e : TxSlot) : (txReleaseIf i e s).Starving rest := by
  unfold Machine.txReleaseIf
  split
  · exact h.same rfl rfl
  · exact h

theorem txInit (i : Nat) (es : List TxSlot) : (txInit i es s).Starves rest := by
  cases es with
  | nil => exact h
  | cons e es => exact (h.txReleaseIf i e).qmWrite ..

theorem txStartBody : (txStartBody s).Starves rest := by
  unfold Machine.txStartBody
  split
  · exact h
  split
  · exact h
  · exact (h.txInit 0 _).andThen fun _ _ _ ht => ht.qmRegWrite ..

theorem txSendBody : (txSendBody s).Starves rest := by
  unfold Machine.txSendBody
  split
  · exact h
  refine h.withHostBuffer fun r => ?_
  split
  · exact h
  split
  · exact h
  · exact h.access _

theorem txStateBody : (txStateBody s).Starves rest := h.access _

theorem txQlenScan (es : List TxSlot) (n : Nat) : (txQlenScan es n s).Starves rest := by
  cases es with
  | nil => exact h
  | cons e es => exact h.access _

theorem txReapScan (i : Nat) (es : List TxSlot) (n : Nat) : (txReapScan i es n s).Starves rest := by
  induction es generalizing i with
  | nil => exact h
  | cons e es ih =>
    unfold Machine.txReapScan
    split
    · exact ih _
    · exact h.access _

theorem resetBody (after : State → Flow) : (resetBody after s).Starves rest := h.qmRegField ..

theorem ethNewBody (n : Nat) : (ethNewBody n s).Starves rest := by
  unfold Machine.ethNewBody
  split
  · exact h
  · exact (h.rxNewBody _).andThen fun _ _ _ ht => ht.txNewBody.andThen fun _ _ _ hu => hu.resetBody _

theorem irqEnableBody : (irqEnableBody s).Starves rest := h.qmRegField ..

theorem phyStatusBody : (phyStatusBody s).Starves rest :=
  (h.same (t := s.setDraws (s.draws + 1)) rfl rfl).qmEmit ..

/-- Whatever a command does, its first access does not take place. -/
theorem body (i : Instr) : (commandBody i s).Starves rest := by
  cases i with
  | bufNew cap => exact h.bufNewBody cap
  | bufSetlen len => exact h.bufSetlenBody len
  | bufInfo => exact h.withHostBuffer fun _ => h
  | bufFree => exact h.bufFreeBody
  | rxNew size => exact h.rxNewBody size
  | rxStart n => exact h.rxStartBody n
  | rxPoll => exact h.qmRegWrite ..
  | rxState => exact h.rxStateBody
  | rxRecv => exact h.rxRecvBody
  | txNew => exact h.txNewBody
  | txStart => exact h.txStartBody
  | txSend => exact h.txSendBody
  | txState => exact h.txStateBody
  | txPoll => exact h.qmRegWrite ..
  | txQlen => exact h.txQlenScan _ _
  | txReap => exact h.txReapScan _ _ _
  | ethNew n => exact h.ethNewBody n
  | dmaReset | ethInit => exact h.resetBody _
  | irqEnable => exact h.irqEnableBody
  | irqAck => exact h.qmRegWrite ..
  | phyStatus => exact h.phyStatusBody
  | ethSend => exact h.txSendBody.andThen fun _ _ _ ht => ht.access _

end State.Starving

/-! ## The command left busy -/

/-- A body without an access does not come to its one `result` or `raise` either. -/
theorem Flow.Starves.conclude {rest : List Move} {f : Flow} (h : f.Starves rest) : f.conclude.LeftStarved rest := by
  cases f with
  | ok r0 r1 s => exact State.Starving.finish h _
  | stop c s => exact State.Starving.finish h _
  | fatal k s => exact State.Starving.finish h _
  | wait s => exact h

theorem leftStarved_runCommand {rest : List Move} {w : Word} {s : State} (i : Instr)
    (h : (startCommand w s).Starving rest) : (runCommand w (commandBody i) s).LeftStarved rest := by
  by_cases hf : s.port.fault = 0
  · rw [runCommand_of_ready hf]
    exact (h.body i).conclude
  · rw [runCommand_of_fault hf]
    exact h.finish _

theorem busy_of_starved {s : State} (h : s.starved = true) : ∃ q, s.qm = some q ∧ q.starved = true := by
  cases hq : s.qm with
  | none => exact nomatch (starved_of_none hq).symm.trans h
  | some q => exact ⟨q, rfl, (starved_eq hq).symm.trans h⟩

/-! ## The steps from then on -/

theorem step_of_starved {s : State} (h : s.starved = true) : step s = .next (moveOn s) := by
  obtain ⟨q, hq, hs⟩ := busy_of_starved h
  exact step_eq_next_iff.mpr (.starved hq hs)

theorem moveOn_cons {s : State} {m : Move} {ms : List Move} (hm : s.moves = m :: ms) :
    moveOn s = applyMove m (s.setMoves ms) := by
  rw [moveOn, hm]

/-- The next move is taken, and nothing of QM's own changes. -/
theorem moveOn_spec (s : State) : qmView (moveOn s) = qmView s ∧ (moveOn s).moves = s.moves.tail := by
  cases hm : s.moves with
  | nil =>
    rw [moveOn, hm]
    exact ⟨rfl, hm⟩
  | cons m ms =>
    rw [moveOn_cons hm]
    exact ⟨qmView_applyMove m (s.setMoves ms), moves_applyMove m (s.setMoves ms)⟩

/-- Settles O21: the command is left at its first access, or at its one `result` or `raise` where it takes none before,
and a step of a starved QM is one move of the others. -/
theorem qmMayMakeNoProgress : Obligations.QmMayMakeNoProgress := by
  refine ⟨fun i s before rest hq hm hqm hidle hstarve => ?_, fun s hs => ?_⟩
  · obtain ⟨hleft, hmoves⟩ :=
      leftStarved_runCommand i (State.Starving.startCommand hm hqm hidle hstarve (encode i))
    obtain ⟨q, hbusy, _⟩ := busy_of_starved hleft
    exact ⟨_, exec_idle hq, hleft, by rw [cst_busy, hbusy]; rfl, hmoves⟩
  · obtain ⟨hview, hmoves⟩ := moveOn_spec s
    exact ⟨_, step_of_starved hs, hview, hmoves, fun _ _ hm => moveOn_cons hm⟩

end Sys2Proof.Machine
end
